-- ==== Sys2Proof/Word.lean ====
section
/-! DEFINITION. The word types of the Thastan 8160 and their plainest arithmetic (spec/00_scope.md R3). -/

namespace Sys2Proof

/-- A 64-bit word (R3). -/
abbrev Word := BitVec 64

/-- A provenance tag: unit class in bits 11..9, error-log index in bits 8..0 (R304). -/
abbrev Tag := BitVec 12

/-- The poison mark of a value, word, granule or line: none is clean (R44, R304). -/
abbrev Mark := Option Tag

/-- One bit of a word as a Bool. -/
abbrev bitOf {n : Nat} (w : BitVec n) (i : Nat) : Bool := w.getLsbD i

/-- Field hi..lo of a word as a number (R3: both ends included). -/
abbrev fieldNat {n : Nat} (w : BitVec n) (hi lo : Nat) : Nat := (w.extractLsb' lo (hi + 1 - lo)).toNat

/-- A Bool as a one-bit word. -/
abbrev bit1 (b : Bool) : BitVec 1 := if b then 1#1 else 0#1

end Sys2Proof
end

