-- ==== Sys2Proof/Config.lean ====
section
/-! DEFINITION. What an implementation of the Thastan 8160 fixes and the manual does not state: free values, with no body, so
that nothing can be proved about the value itself. -/

namespace Sys2Proof.Config

/-- The byte a poisoned global line holds after its data are lost (R202: "The line's other bytes are lost"). The argument is the
model's counter of free values. Log 6. -/
opaque freeByte : Nat → BitVec 8

/-- The token read from a history ring that a program has written into (R280: "leaves unpredictable the tokens"). Log 9. -/
opaque freeToken : Nat → BitVec 24

/-- The bits of an error-log record's DETAIL word, which R341 calls unit-specific and does not lay out. Log 12. -/
opaque freeDetail : Nat → BitVec 64

/-- The WHERE word of an error-log record for which R341 names what it holds (core, row and column, link and lane, sensor) and not the
places of the bits. Log 12. -/
opaque freeWhere : Nat → BitVec 64

/-- A working value of row rho that a retry of an unresolved stand-in mismatch leaves in a block partial (R172). Log 14. -/
opaque freeBp : Nat → BitVec 128

/-- What tsamp or tacc pushes when a shortlist VALUE is NaN: R297 states no weight for it. Log 19. -/
opaque freeSample : Nat → BitVec 64

/-- What a residency probe answers when its line was present at one end of the interval R272 gives and absent at the other. Log 8. -/
opaque freeHit : Nat → Bool

/-- Which entry leaves a full TLB, or which line a full L2 slice: no rule gives their replacement (R213, R12). Log 68. -/
opaque freeVictim : Nat → Nat

/-- The L2 slice of its home die that a line belongs to, which no rule gives (R1, R229). Log 8. -/
opaque freeSlice : Nat → BitVec 4

/-- The die that a physical line is homed on where no range of `homes` names its home: the spec prints no map (R211, R229). Log 7. -/
opaque freeHome : Nat → BitVec 3

/-- How many spare rows the base die of a die has (R339). Log 69. -/
opaque spareRows : Nat → Nat

/-- PART of the record that an erroneous delivery of the Juron link writes (R304, R341). Log 36. -/
opaque freePart : Nat → BitVec 4

/-- The bits of a lane, or of a mask's lane, that an uncorrectable error has struck (R304). Log 36. -/
opaque freeLane : Nat → BitVec 32

/-- STAMP of an image that the device writes of itself at the thermal warning, with no command that brings a time (R322, R325). Log 22. -/
opaque freeStamp : Nat → BitVec 64

/-- The program counter that a fault record gives for a parked command of which nothing but its stored body is left: the body does not
hold it (R313, R315). Log 20. -/
opaque freePc : Nat → BitVec 16

/-- HBASE of a suffix-match slot that a device image brings back: the image holds every other register of the slot and not this one (R287,
R323, R324). Log 23. -/
opaque freeHbase : Nat → BitVec 56

end Sys2Proof.Config
end

