-- ==== Sys2Proof/Syntax.lean ====
section
/-! DEFINITION. The instructions, policy instructions, events and host commands of spec/opcode_table.json: one constructor per
row. Operand fields follow spec/02_encoding.md; a row with no encoding (an event or a host command) carries the data of the
event. -/

namespace Sys2Proof

/-- The four streams of a thread (R9). -/
inductive StreamId where
  | c | a | v | m
  deriving DecidableEq, Repr

/-- The width field W, or the width of an access (R22, R45, R89). -/
inductive Width where
  | w64 | w32 | w16 | w8
  deriving DecidableEq, Repr

/-- A width suffix: W and S (R33). -/
structure WS where
  w : Width
  s : Bool
  deriving DecidableEq, Repr

/-- A scalar operand specifier (R18): a belt age, or a register of the stream's named file. -/
inductive Src where
  | belt (k : BitVec 4)
  | named (k : BitVec 4)
  deriving DecidableEq, Repr

/-- The named copy of a scalar result: DEN and DN (R19). -/
abbrev Dst := Option (BitVec 4)

/-- The immediate of an SI or VI instruction: IMM, or the literal word (R21, R35). -/
inductive Imm where
  | short (v : BitVec 22)
  | lit (v : Word)
  deriving DecidableEq, Repr

/-- An operand that a literal may replace (R21): a specifier or the literal. -/
inductive Opnd where
  | reg (x : Src)
  | lit (v : Word)
  deriving DecidableEq, Repr

/-- The number operand of sysr and sysw (R307): IMM bits 11..0, or the literal. -/
inductive RegNum where
  | short (v : BitVec 12)
  | lit (v : Word)
  deriving DecidableEq, Repr

/-- A tile field with its ring bit (R20). -/
inductive TileRef where
  | tile (n : BitVec 8)
  | ring (n : BitVec 5)
  deriving DecidableEq, Repr

/-- Conditions of cmp, cmpi and wadr, and of the policy pcmp (R23, R95, R266). -/
inductive Cond where
  | eq | ne | lt | le | gt | ge
  deriving DecidableEq, Repr

/-- Shift kinds of shi (R23). -/
inductive ShiftKind where
  | shl | shr | sar | rot
  deriving DecidableEq, Repr

/-- Conditions of bc (R24, R62). -/
inductive BcCond where
  | z | nz | neg | nneg | pos | npos
  deriving DecidableEq, Repr

/-- Operations of aop (R94). -/
inductive AopOp where
  | add | xchg | cas | min | max | and | or
  deriving DecidableEq, Repr

/-- Operations of gamo (R226). -/
inductive GamoOp where
  | add | xchg | cas | min | max | incb
  deriving DecidableEq, Repr

/-- Scopes of fences and records (R199, R227). -/
inductive Scope where
  | grp | dev | sys
  deriving DecidableEq, Repr

/-- The ROUTE field of the send family (R221). -/
inductive Route where
  | short | cw | ccw
  deriving DecidableEq, Repr

/-- Directions of ncopy (R207). -/
inductive CopyDir where
  | gl | lg | ll
  deriving DecidableEq, Repr

/-- A vector operand specifier (R18). -/
inductive VSrc where
  | belt (k : BitVec 4)
  | named (k : BitVec 5)
  | zero
  | lane
  deriving DecidableEq, Repr

/-- The named copy of a vector result (R19). -/
abbrev VDst := Option (BitVec 5)

/-- Lane types (R26). -/
inductive LaneTy where
  | f32 | bf16 | s32 | z32 | s16 | z16 | s8 | z8
  deriving DecidableEq, Repr

/-- Rounding modes (R26). -/
inductive Rnd where
  | rne | rtz | rdn | rup | dth
  deriving DecidableEq, Repr

/-- Overflow policies (R27, R113, R122). -/
inductive Ov where
  | dflt | sat | nan
  deriving DecidableEq, Repr

/-- Element-format codes (R28). -/
inductive EFmt where
  | e4m3 | e5m2 | e3m2 | e2m3 | e2m1 | i8 | scl | bf16 | f32 | a36 | i32 | raw | e8m0
  deriving DecidableEq, Repr

/-- Conditions of vcmp (R141). -/
inductive VCond where
  | eq | ne | lt | le | gt | ge | un
  deriving DecidableEq, Repr

/-- What iset writes (R136). -/
inductive IsetArg where
  | val (i : Imm)
  | step (i : Imm)
  | lim (i : Imm)
  | vec (a : VSrc) (i : Imm)
  deriving DecidableEq, Repr

/-- The address part of a VT instruction (R25, R147): index register, INC, OFF and the mask bit. -/
structure VAddr where
  ix : BitVec 3
  inc : Bool
  masked : Bool
  off : BitVec 13
  deriving DecidableEq, Repr

/-- The items of pview (R270). -/
inductive ViewItem where
  | hook | cause | subject | shape | fcode | fvalo | fvahi | fq
  | qcfg | qdepth | qresume | entry0 | entry1 | entry2 | entry3 | qkey
  | free | own | rsv | frag | freq
  | decisions | dispatched | overrun | malrec | badpick | joinerr | fallback
  deriving DecidableEq, Repr

/-- One pane's share of a stand-in check: the pane, whether it mismatched, its lowest differing column, and the working values of
row rho the retry left (R172): which of the 64 columns differ is the column list. -/
structure PaneCheck where
  pane : Nat
  mismatch : Bool
  column : Nat
  deriving DecidableEq, Repr

/-- The command page a command completion belongs to (R328). -/
inductive CmdPage where
  | part (p : Nat)
  | dev
  deriving DecidableEq, Repr

/-- What went unacknowledged for 2^25 cycles (R228): a packet of a send, or a global write of a command. -/
inductive Unacked where
  | packet
  | write
  deriving DecidableEq, Repr

/-- How the retry of a link CRC error ends (R339): the resent flit is good; the link retrains; a spare lane replaces a failing
lane; no spare lane is left. -/
inductive LinkRetry where
  | good | retrained | spareLane | dead
  deriving DecidableEq, Repr

/-- A link of the package: a Carousel input port, or a Ralesk port (R237, R240). -/
inductive LinkId where
  | carousel (port : Nat)
  | ralesk (port : Nat)
  deriving DecidableEq, Repr

/-- An access of another package, which is named by its number, at a global line: a read, through a record of SCOPE sys or not, a write of
bytes within a line, an atomic (R226, R229). -/
inductive PeerAccess where
  | read (pkg : Nat) (sys : Bool) (pa : Nat)
  | write (pkg pa : Nat) (bytes : List (BitVec 8)) (mark : Option (BitVec 12))
  | gamo (op : GamoOp) (w : Width) (s : Bool) (pkg pa : Nat) (v c : Word)
  deriving DecidableEq, Repr

/-- A sensor (R337): one of a cluster's three temperature sensors, or one of a rail's six current groups. -/
inductive Sensor where
  | temp (cluster k : Nat)
  | current (rail k : Nat)
  deriving DecidableEq, Repr

/-- Every row of spec/opcode_table.json. -/
inductive Instr where
  -- shared scalar class, streams C and A
  | nop
  | add (ws : WS) (x y : Src) (d : Dst)
  | sub (ws : WS) (x y : Src) (d : Dst)
  | mul (ws : WS) (x y : Src) (d : Dst)
  | mulh (ws : WS) (x y : Src) (d : Dst)
  | div (ws : WS) (x y : Src) (d : Dst)
  | rem (ws : WS) (x y : Src) (d : Dst)
  | and (ws : WS) (x y : Src) (d : Dst)
  | or (ws : WS) (x y : Src) (d : Dst)
  | xor (ws : WS) (x y : Src) (d : Dst)
  | andn (ws : WS) (x y : Src) (d : Dst)
  | shl (ws : WS) (x y : Src) (d : Dst)
  | shr (ws : WS) (x y : Src) (d : Dst)
  | sar (ws : WS) (x y : Src) (d : Dst)
  | rot (ws : WS) (x y : Src) (d : Dst)
  | min (ws : WS) (x y : Src) (d : Dst)
  | max (ws : WS) (x y : Src) (d : Dst)
  | cmp (c : Cond) (ws : WS) (x y : Src) (d : Dst)
  | sel (c x y : Src) (d : Dst)
  | clz (ws : WS) (x : Src) (d : Dst)
  | popc (ws : WS) (x : Src) (d : Dst)
  | bext (s : Bool) (x : Src) (pos len1 : BitVec 6) (d : Dst)
  | bins (x v sh : Src) (pos len1 : BitVec 6) (d : Dst)
  | ext (ws : WS) (x : Src) (d : Dst)
  | lea (x y z : Src) (k : BitVec 3) (d : Dst)
  | mov (x : Src) (d : Dst)
  | addi (ws : WS) (x : Src) (i : Imm) (d : Dst)
  | andi (ws : WS) (x : Src) (i : Imm) (d : Dst)
  | ori (ws : WS) (x : Src) (i : Imm) (d : Dst)
  | xori (ws : WS) (x : Src) (i : Imm) (d : Dst)
  | shi (k : ShiftKind) (ws : WS) (x : Src) (i : Imm) (d : Dst)
  | cmpi (c : Cond) (ws : WS) (x : Src) (i : Imm) (d : Dst)
  | lit (ws : WS) (i : Imm) (d : Dst)
  -- control
  | b (off : BitVec 24)
  | bc (c : BcCond) (x : Src) (off : BitVec 24)
  | jmp (x : Src)
  | call (off : BitVec 24)
  | ret
  | loop (k : BitVec 2) (off : BitVec 24)
  | repImm (n : BitVec 13)
  | repOperand (x : Src)
  | go (ga gv gm : Bool)
  | stop
  | gpush (x : Src) (n : BitVec 4)
  | gflush (n : BitVec 4)
  | wtw (x : Opnd) (t : TileRef)
  | rtw (keep : Bool) (t : TileRef) (d : Dst)
  | tstate (t : TileRef) (d : Dst)
  | lcyc (d : Dst)
  | self (d : Dst)
  -- scratchpad
  | ld (ws : WS) (base idx : Src) (disp : BitVec 16) (d : Dst)
  | st (w : Width) (base val : Src) (disp : BitVec 16)
  | ldx (ws : WS) (base idx : Src) (disp : BitVec 16) (d : Dst)
  | stx (w : Width) (base val : Src) (disp : BitVec 16)
  | mark
  | linv (base len : Src) (disp : BitVec 16)
  | aop (op : AopOp) (ws : WS) (base val : Src) (disp : BitVec 16) (d : Dst)
  | wadr (c : Cond) (ws : WS) (base val : Src) (disp : BitVec 16) (d : Dst)
  | ldA (ws : WS) (base idx : Src) (disp : BitVec 16) (d : Dst)
  | stA (w : Width) (base val : Src) (disp : BitVec 16)
  -- groups, tasks, fragments
  | gjoin (key : Src) (d : Dst)
  | gleave (key : Src) (d : Dst)
  | gbar (key : Src) (d : Dst)
  | spawn (r q : Src) (d : Dst)
  | done
  | grab (r : Src) (d : Dst)
  | rngset (ctl start stop : Src)
  | yield (d : Dst)
  | ckpt (d : Dst)
  | fsplit (shape : BitVec 4) (list : Src) (d : Dst)
  | ffuse (try_ : Bool) (shape : BitVec 4) (d : Dst)
  | fchain (west : Bool) (d : Dst)
  | funchain (west : Bool) (d : Dst)
  | fquery (d : Dst)
  -- token units
  | smopen (cfg hbase : Src) (d : Dst)
  | smapp (h list : Src) (d : Dst)
  | smprop (h : Src) (t : TileRef) (d1 : BitVec 4) (lmin : BitVec 3) (d : Dst)
  | smsave (h dva : Src) (d : Dst)
  | smload (cfg hbase dva : Src) (d : Dst)
  | smclose (h : Src) (d : Dst)
  | draw (key ctr : Src) (d : Dst)
  | tacc (greedy : Bool) (desc dw : Src) (d : Dst)
  | tsamp (greedy : Bool) (desc pos : Src) (d : Dst)
  -- system
  | trap (i : Imm)
  | brk (i : Imm)
  | sysr (r : RegNum) (d : Dst)
  | sysw (v : Src) (r : RegNum)
  | faultreq (v : Src) (viaLit : Bool)
  | ptst (strip : Bool) (x : Src) (l : Option Word) (d : Dst)
  -- access engine and messages, stream A
  | brec (r : BitVec 8) (addr : Src)
  | tld (g : Option (BitVec 4)) (sc : Bool) (r : BitVec 8) (t : TileRef) (off s : Src)
  | tst (g : Option (BitVec 4)) (r : BitVec 8) (t : TileRef) (off : Src)
  | tgat (r : BitVec 8) (t : TileRef) (off x : Src)
  | tsca (r : BitVec 8) (t : TileRef) (off x : Src)
  | tcfg (clr : Bool) (n : BitVec 8) (desc : Src)
  | rcfg (clr : Bool) (n : BitVec 5) (first : BitVec 8) (n1 : BitVec 4)
  | tfree (t : TileRef)
  | nset (hi : BitVec 3) (nest : BitVec 2) (level : BitVec 3) (count : Src) (strides : Opnd)
  | ncopy (dir : CopyDir) (k : BitVec 4) (nest : BitVec 2) (r : BitVec 8) (lbase gop : Src)
  | tlsp (t : TileRef) (addr stride : Src)
  | tssp (t : TileRef) (addr stride : Src)
  | send (route : Route) (dst src : Src)
  | sendf (route : Route) (dst : Src) (src : Opnd) (val : Src)
  | flag (route : Route) (dst : Src) (val : Opnd)
  | gamo (op : GamoOp) (ws : WS) (r : BitVec 8) (off : Src) (val : Opnd) (c : Src) (d : Dst)
  | fence (sc : Scope) (d : Dst)
  | pfch (r : BitVec 8) (off len : Src)
  | fltopen (s : BitVec 3) (dsel : BitVec 4) (mode : Src) (cf : Opnd)
  | fltclose (s : BitVec 3) (dsel : BitVec 4) (dst : Src)
  -- vector arithmetic
  | vadd (t : LaneTy) (rnd : Rnd) (mk : Bool) (x y : VSrc) (d : VDst)
  | vsub (t : LaneTy) (rnd : Rnd) (mk : Bool) (x y : VSrc) (d : VDst)
  | vmul (t : LaneTy) (rnd : Rnd) (mk : Bool) (x y : VSrc) (d : VDst)
  | vfma (t : LaneTy) (rnd : Rnd) (mk : Bool) (x y z : VSrc) (d : VDst)
  | vfms (t : LaneTy) (rnd : Rnd) (mk : Bool) (x y z : VSrc) (d : VDst)
  | vmin (t : LaneTy) (mk : Bool) (x y : VSrc) (d : VDst)
  | vmax (t : LaneTy) (mk : Bool) (x y : VSrc) (d : VDst)
  | vabs (t : LaneTy) (mk : Bool) (x : VSrc) (d : VDst)
  | vneg (t : LaneTy) (mk : Bool) (x : VSrc) (d : VDst)
  | vand (t : LaneTy) (mk : Bool) (x y : VSrc) (d : VDst)
  | vor (t : LaneTy) (mk : Bool) (x y : VSrc) (d : VDst)
  | vxor (t : LaneTy) (mk : Bool) (x y : VSrc) (d : VDst)
  | vshl (t : LaneTy) (mk : Bool) (x y : VSrc) (d : VDst)
  | vshr (t : LaneTy) (mk : Bool) (x y : VSrc) (d : VDst)
  | vsar (t : LaneTy) (mk : Bool) (x y : VSrc) (d : VDst)
  | vcmp (c : VCond) (t : LaneTy) (mk : Bool) (x y : VSrc) (d : VDst)
  | vsel (t : LaneTy) (mk : Bool) (x y z : VSrc) (d : VDst)
  | vrcp (t : LaneTy) (rnd : Rnd) (mk : Bool) (x : VSrc) (d : VDst)
  | vrsq (t : LaneTy) (rnd : Rnd) (mk : Bool) (x : VSrc) (d : VDst)
  | vexp2 (t : LaneTy) (rnd : Rnd) (mk : Bool) (x : VSrc) (d : VDst)
  | vlog2 (t : LaneTy) (rnd : Rnd) (mk : Bool) (x : VSrc) (d : VDst)
  | vclamp (t : LaneTy) (mk : Bool) (x y z : VSrc) (d : VDst)
  | vmov (mk : Bool) (x : VSrc) (d : VDst)
  | vlit (mk : Bool) (i : Imm) (d : VDst)
  | vaddi (t : LaneTy) (mk : Bool) (x : VSrc) (i : Imm) (d : VDst)
  | vdot4 (t : LaneTy) (mk : Bool) (x y z : VSrc) (d : VDst)
  | vrsh (t : LaneTy) (mk : Bool) (x y : VSrc) (d : VDst)
  | vmulq (mk : Bool) (x y : VSrc) (d : VDst)
  | vredadd (t : LaneTy) (rnd : Rnd) (mk : Bool) (x : VSrc) (d : VDst)
  | vredmax (t : LaneTy) (mk : Bool) (x : VSrc) (d : VDst)
  | vredmin (t : LaneTy) (mk : Bool) (x : VSrc) (d : VDst)
  | vscan (t : LaneTy) (rnd : Rnd) (mk : Bool) (x : VSrc) (d : VDst)
  | vperm (mk : Bool) (x y : VSrc) (d : VDst)
  | vrot (mk : Bool) (x y : VSrc) (d : VDst)
  | vbcast (mk : Bool) (x y : VSrc) (d : VDst)
  | vargmax (t : LaneTy) (mk : Bool) (x : VSrc) (d : VDst)
  | iset (n : BitVec 3) (arg : IsetArg)
  | iadd (n : BitVec 3) (i : Imm)
  | vmpush (x : VSrc)
  | vminv
  | vmpop
  | vmget (d : VDst)
  | vbnone (off : BitVec 24)
  | vbany (off : BitVec 24)
  | vld (a : VAddr) (d : VDst)
  | vst (x : VSrc) (a : VAddr)
  | vldx (x : VSrc) (a : VAddr) (d : VDst)
  | vldt (t : TileRef) (a : VAddr) (d : VDst)
  | vstt (x : VSrc) (t : TileRef) (a : VAddr)
  | vcvt (dt st : LaneTy) (rnd : Rnd) (mk h : Bool) (x y : VSrc) (d : VDst)
  | vqnt (fmt : EFmt) (t : LaneTy) (rnd : Rnd) (ov : Ov) (mk : Bool) (x y : VSrc) (d : VDst)
  | vdeq (fmt : EFmt) (t : LaneTy) (rnd : Rnd) (mk : Bool) (x y : VSrc) (d : VDst)
  | vbsc (fmt : EFmt) (t : LaneTy) (x : VSrc) (d : VDst)
  | vsce (toE8 mk : Bool) (x : VSrc) (d : VDst)
  | vpak (fmt : EFmt) (half : Bool) (g : BitVec 3) (x y : VSrc) (d : VDst)
  | vupk (fmt : EFmt) (half : Bool) (g : BitVec 3) (x : VSrc) (d : VDst)
  | vdph (n : BitVec 5)
  | vmirror (n : BitVec 5) (on : Bool)
  -- matrix
  | mma (p : Bool) (fa fb : EFmt) (ra rb : BitVec 5)
  | sacc (p : Bool) (acc : BitVec 2) (rsa rsb : BitVec 5)
  | saccI (p : Bool) (acc : BitVec 2) (rsa rsb : BitVec 5)
  | macz (acc : BitVec 2)
  | mdrain (acc : BitVec 2) (t : TileRef) (ch : Bool) (fmt : EFmt) (rnd : Rnd) (ov : Ov) (int clr : Bool) (dsh : BitVec 6)
  | mload (acc : BitVec 2) (t : TileRef) (fmt : EFmt)
  | mchk (t : TileRef)
  -- policy instructions
  | pview (item : ViewItem) (d a b : BitVec 4)
  | pli (d : BitVec 4) (imm : BitVec 14)
  | padd (d a b : BitVec 4)
  | psub (d a b : BitVec 4)
  | pand (d a b : BitVec 4)
  | por (d a b : BitVec 4)
  | pshl (d a : BitVec 4) (n : BitVec 5)
  | pshr (d a : BitVec 4) (n : BitVec 5)
  | pmin (d a b : BitVec 4)
  | pmax (d a b : BitVec 4)
  | pcmp (c : Cond) (d a b : BitVec 4)
  | psel (d a b : BitVec 4)
  | pbf (a : BitVec 4) (off : BitVec 14)
  | pjf (off : BitVec 14)
  | qloop (d : BitVec 4) (off : BitVec 14)
  | qnext (d : BitVec 4) (off : BitVec 14)
  | probe (a : BitVec 4) (k : BitVec 2)
  | pickDisp (a b : BitVec 4)
  | pickGrant (a : BitVec 4)
  | pickFail (a : BitVec 4)
  | pickGrantall
  | ppre (a : BitVec 4)
  | pfaultResume
  | pfaultRetry
  | pfaultPark
  | pfaultKill
  | pfaultRollback
  | pfaultHandler (a : BitVec 4) (s : BitVec 2)
  | pget (d : BitVec 4) (k : BitVec 3)
  | pkeep (a : BitVec 4) (k : BitVec 3)
  | pend
  -- events: decisions and scheduling
  | dispatchDecision (p : Nat)
  | preemptDecision (p : Nat)
  | faultDecision (p : Nat)
  | decisionOverrun (p : Nat)
  | probeAnswer (p k : Nat) (present : Bool)
  | preemption (tid : Nat)
  | contextStoreComplete (tid : Nat)
  | sliceExpiry (tid : Nat)
  | watchdogWait (tid : Nat) (st : StreamId)
  | kmaxOverrun (tid : Nat)
  | loopKernelStep (tid : Nat)
  | autoCheckpoint (tid : Nat)
  | barrierEpisodeComplete (p g : Nat)
  | drainPoint (tid : Nat)
  -- events: matrix
  | mmaPassRetire (tid : Nat)
  | standInCheck (tid : Nat) (panes : List PaneCheck)
  | saccFoldComplete (tid : Nat)
  | mdrainComplete (tid : Nat)
  | chainDelivery (tid : Nat)
  | mloadComplete (tid : Nat)
  -- events: access engine, messages
  | accessCommandComplete (tid id : Nat)
  | pageWalkComplete (walker ctx page : Nat)
  | fenceComplete (tid id : Nat)
  | gamoReturn (tid id : Nat)
  | writeTimeout (tid : Nat) (what : Unacked)
  | packetPlace (pkt : Nat)
  | permitReturn (port cls : Nat)
  | packetDelivery (pkt : Nat) (peerAdmits : Bool)
  | filterLineArrival (die k : Nat)
  | commandComplete (page : CmdPage)
  -- host writes
  | notify (p q : Nat) (t : BitVec 32)
  | qcfgWrite (p q : Nat) (v : Word)
  | pload (p : Nat) (v : Word)
  | policySel (p : Nat) (v : Word)
  | clcfgWrite (c : Nat) (v : Word)
  | clcfgApply (c : Nat)
  | intcauseWrite (p : Nat) (v : Word)
  | intvecWrite (p : Nat) (v : Word)
  | devstatWrite (v : Word)
  | bootGo (core : Nat) (v : Word)
  | registerWrite (addr : Nat) (v : Word)
  -- host commands
  | quiesce (p : Nat)
  | release (p : Nat)
  | image (p : Nat) (stamp : Word)
  | partitionReset (p : Nat)
  | rollback (p : Nat)
  | decide (p : Nat)
  | kill (p : Nat)
  | tlbinv (p : Nat)
  | restore (p : Nat)
  | deviceQuiesce
  | deviceRelease
  | deviceImage (stamp : Word)
  | coreReset
  | dieReset
  | deviceReset
  | retire
  -- power, sensors, links, memory
  | phaseFailure (rail phases : Nat)
  | powerControllerCheck (rail imeas : Nat) (low10us : Bool)
  | thermalCadenceUpdate (cluster : Nat) (temps : List Int)
  | sensorTestStep (s : Sensor) (reading : Int) (stuck : Bool)
  | thermalWarning (s : Sensor) (reading : Int)
  | hardTrip
  | permitAudit (port : Nat)
  | linkCrcError (l : LinkId) (r : LinkRetry)
  | hbmUncorrectableRead (pa : Nat) (retryGood : Bool) (row : Nat)
  | proxyInvalidation (line : Nat)
  | peerPackageAccess (acc : PeerAccess)
  | flashRewriteDone
  | powerUp
  deriving DecidableEq, Repr

end Sys2Proof
end

