-- ==== Sys2Proof/WellFormed.lean ====
section
/-! DEFINITION. The checks an instruction of Instr meets when it comes from a legal word (spec/02_encoding.md R17, R23 and the
instruction entries): what the operand types alone do not say. Arguments of events are in the ranges of R6, R12 and R326. -/

namespace Sys2Proof

/-- Lane types whose elements are floating-point (R26). -/
def LaneTy.isFloat : LaneTy → Bool
  | .f32 | .bf16 => true
  | _ => false

/-- Lane types with one element a lane, the only ones vscan and vargmax accept (R145, R146). -/
def LaneTy.isWide : LaneTy → Bool
  | .f32 | .s32 | .z32 => true
  | _ => false

/-- Format codes 0x0 to 0x5, the element formats mma multiplies and vqnt makes (R104, R122, R157). -/
def EFmt.isElem : EFmt → Bool
  | .e4m3 | .e5m2 | .e3m2 | .e2m3 | .e2m1 | .i8 => true
  | _ => false

/-- Format codes 0x0 to 0x3 (R157). -/
def EFmt.isByteFloat : EFmt → Bool
  | .e4m3 | .e5m2 | .e3m2 | .e2m3 => true
  | _ => false

/-- The width in bits of one element code (R104, R107, R108, R126). -/
def EFmt.bits : EFmt → Nat
  | .e4m3 | .e5m2 | .i8 | .scl | .e8m0 | .raw => 8
  | .e3m2 | .e2m3 => 6
  | .e2m1 => 4
  | .bf16 => 16
  | .f32 | .i32 => 32
  | .a36 => 64

/-- A rounding operand the vector chapter accepts: no dth, and rne on types that do not round (R139). -/
def rndOk (t : LaneTy) (r : Rnd) : Bool :=
  r != .dth && (t.isFloat || r == .rne)

/-- A shape code (R175): neither field is 3. -/
def shapeOk (x : BitVec 4) : Bool :=
  fieldNat x 3 2 != 3 && fieldNat x 1 0 != 3

/-- The width an atomic accepts (R94, R95, R226): 8 or 4 bytes. -/
def Width.isAtomic : Width → Bool
  | .w64 | .w32 => true
  | _ => false

/-- The overflow policies vqnt accepts for a format (R122). -/
def ovOk (f : EFmt) (o : Ov) : Bool :=
  match o with
  | .dflt => true
  | .sat => f == .e4m3 || f == .e5m2
  | .nan => f == .e4m3

/-- How a legal pair of vcvt converts (R121). -/
inductive CvtKind where
  | narrowFloat | widenFloat | floatToInt | intToFloat
  | narrow16 | narrow8 | widen16 | widen8 | reclass
  deriving DecidableEq, Repr

/-- The legal source and destination pairs of vcvt (R121). -/
def cvtKind (dt st : LaneTy) : Option CvtKind :=
  match st, dt with
  | .f32, .bf16 => some .narrowFloat
  | .bf16, .f32 => some .widenFloat
  | .f32, .s32 | .f32, .z32 => some .floatToInt
  | .s32, .f32 | .z32, .f32 => some .intToFloat
  | .s32, .s16 | .z32, .z16 => some .narrow16
  | .s16, .s8 | .z16, .z8 => some .narrow8
  | .s16, .s32 | .z16, .z32 => some .widen16
  | .s8, .s16 | .z8, .z16 => some .widen8
  | .s32, .z32 | .z32, .s32 | .s16, .z16 | .z16, .s16 | .s8, .z8 | .z8, .s8 => some .reclass
  | _, _ => none

/-- Whether a kind of conversion rounds, extends (so takes H), or reads B (R121). -/
def CvtKind.rounds : CvtKind → Bool
  | .narrowFloat | .floatToInt | .intToFloat => true
  | _ => false

def CvtKind.extends : CvtKind → Bool
  | .widenFloat | .widen16 | .widen8 => true
  | _ => false

def CvtKind.readsB : CvtKind → Bool
  | .narrowFloat | .narrow16 | .narrow8 => true
  | _ => false

/-- The accepted fields of vcvt (R121). -/
def vcvtOk (dt st : LaneTy) (r : Rnd) (h : Bool) (y : VSrc) : Bool :=
  match cvtKind dt st with
  | none => false
  | some k =>
    (if k.rounds then r != .dth else r == .rne) && (k.extends || !h) && (k.readsB || y == .belt 0)

/-- The packed size limit of vpak and vupk (R126): the group lies within 256 bytes. -/
def packOk (f : EFmt) (half : Bool) (g : BitVec 3) : Bool :=
  (f.isElem || f == .scl || f == .e8m0) &&
    decide ((g.toNat + 1) * ((if half then 128 else 64) * f.bits / 8) ≤ 256)

/-- The format pairs mma accepts (R157). -/
def mmaOk (fa fb : EFmt) : Bool :=
  (fa.isByteFloat && fb.isByteFloat) || (fa == .e2m1 && fb == .e2m1) || (fa == .i8 && fb == .i8)

/-- The combinations mdrain accepts (R162). -/
def mdrainOk (t : TileRef) (ch : Bool) (fmt : EFmt) (rnd : Rnd) (ov : Ov) (int : Bool) (dsh : BitVec 6) : Bool :=
  let combo :=
    match fmt, int with
    | .e4m3, false => true
    | .e5m2, false => ov != .nan
    | .e3m2, false | .e2m3, false | .e2m1, false | .i8, false | .bf16, false | .f32, false => ov == .dflt
    | .i32, false => rnd != .dth && ov == .dflt
    | .i32, true => rnd == .rne && ov == .dflt && dsh == 0
    | .a36, false => rnd == .rne && ov == .dflt && dsh == 0
    | _, _ => false
  let chain := !ch || (fmt.isElem && (match t with | .ring _ => true | .tile _ => false))
  combo && chain

/-- An immediate that must be 0: a literal stands in its place with any value (R21, R136). -/
def Imm.isZeroOrLit : Imm → Bool
  | .short v => v == 0
  | .lit _ => true

/-- The scale or row-count operand of tld: zero unless .sc is given or the tile is t255 (R202). A tld.sc that names t255 decodes, and traps
at issue (R210). -/
def tldOk (g : Option (BitVec 4)) (sc : Bool) (t : TileRef) (s : Src) : Bool :=
  (match g with | some k => decide (k.toNat ≤ 8) | none => true) && (sc || t == .tile 255 || s == .belt 0)

/-- A legal group size field .gK (R202): K is 0 to 8. -/
def grpOk (g : Option (BitVec 4)) : Bool :=
  match g with
  | some k => decide (k.toNat ≤ 8)
  | none => true

/-- What a legal word of each instruction satisfies (R17). -/
def wellFormed : Instr → Bool
  | .bext _ _ pos len1 _ | .bins _ _ _ pos len1 _ => decide (pos.toNat + len1.toNat + 1 ≤ 64)
  | .ext ws _ _ => ws.w != .w64
  | .lea _ _ _ k _ => k != 7
  | .iset _ (.vec _ i) => i.isZeroOrLit
  | .repImm n => decide (1 ≤ n.toNat ∧ n.toNat ≤ 4096)
  | .go ga gv gm => ga || gv || gm
  | .gpush _ n | .gflush n => n != 0
  | .rtw keep t _ => !keep || (match t with | .tile _ => true | .ring _ => false)
  | .aop op ws _ _ _ d => ws.w.isAtomic && (op != .cas || d.isSome)
  | .wadr _ ws _ _ _ _ => ws.w.isAtomic
  | .fsplit sh _ _ | .ffuse _ sh _ => shapeOk sh
  | .sysw _ r => r != .short 0x020 && r != .lit 0x020
  | .smprop _ _ _ lmin _ => decide (lmin.toNat ≤ 5)
  | .tld g sc _ t _ s => tldOk g sc t s
  | .tst g _ _ _ => grpOk g
  | .tcfg clr _ desc => !clr || desc == .belt 0
  | .rcfg clr _ first n1 => !clr || (first == 0 && n1 == 0)
  | .ncopy dir k _ r _ _ => decide (3 ≤ k.toNat ∧ k.toNat ≤ 12) && (dir != .ll || r == 0)
  | .gamo op ws _ _ _ c _ => ws.w.isAtomic && (op == .cas || c == .belt 0)
  | .fltopen _ dsel _ _ | .fltclose _ dsel _ => decide (dsel.toNat ≤ 8)
  | .vadd t r _ _ _ _ | .vsub t r _ _ _ _ | .vmul t r _ _ _ _ | .vredadd t r _ _ _ => rndOk t r
  | .vfma t r _ _ _ _ _ | .vfms t r _ _ _ _ _ => t.isFloat && r != .dth
  | .vshl t _ _ _ _ | .vshr t _ _ _ _ | .vsar t _ _ _ _ => !t.isFloat
  | .vcmp c t _ _ _ _ => c != .un || t.isFloat
  | .vrcp t r _ _ _ | .vrsq t r _ _ _ | .vexp2 t r _ _ _ | .vlog2 t r _ _ _ => t.isFloat && r != .dth
  | .vaddi t _ _ _ _ => !t.isFloat
  | .vdot4 t _ _ _ _ _ => t == .s8 || t == .z8
  | .vrsh t _ _ _ _ => !t.isFloat
  | .vscan t r _ _ _ => t.isWide && rndOk t r
  | .vargmax t _ _ _ => t.isWide
  | .vcvt dt srcT r _ h _ y _ => vcvtOk dt srcT r h y
  | .vqnt f t _ o _ _ _ _ => f.isElem && t.isFloat && ovOk f o
  | .vdeq f t r _ _ _ _ => f.isElem && t.isFloat && r != .dth
  | .vbsc f t _ _ => f.isElem && t.isFloat
  | .vpak f half g _ _ _ | .vupk f half g _ _ => packOk f half g
  | .mma _ fa fb ra rb => mmaOk fa fb && ra != rb
  | .sacc _ _ ra rb | .saccI _ _ ra rb => ra != rb
  | .mdrain _ t ch fmt rnd ov int _ dsh => mdrainOk t ch fmt rnd ov int dsh
  | .mload _ _ fmt => fmt == .f32 || fmt == .a36 || fmt == .i32
  | .dispatchDecision p | .preemptDecision p | .faultDecision p | .decisionOverrun p | .probeAnswer p _ _
  | .barrierEpisodeComplete p _ | .pload p _ | .policySel p _ | .intcauseWrite p _ | .intvecWrite p _
  | .quiesce p | .release p | .image p _ | .partitionReset p | .rollback p | .decide p | .kill p | .tlbinv p
  | .restore p | .commandComplete (.part p)  => decide (p < 16)
  | .pageWalkComplete walker _ _ => decide (walker < 128)
  | .notify p q _ | .qcfgWrite p q _ => decide (p < 16 ∧ q < 32)
  | .clcfgWrite c _ | .clcfgApply c | .thermalCadenceUpdate c _ => decide (c < 32)
  | .bootGo core _ => decide (core < 128)
  | .permitReturn port cls => decide (port < 16 ∧ cls < 4)
  | .permitAudit port => decide (port < 16)
  | .filterLineArrival die _ => decide (die < 8)
  | .phaseFailure rail _ | .powerControllerCheck rail _ _ => decide (rail < 4)
  | _ => true

end Sys2Proof
end

