-- ==== Sys2Proof/Decode.lean ====
section
/-! DEFINITION. Instruction words and their decoding (spec/02_encoding.md R15 to R31): the common header, the body formats, the
code tables, the opcode maps, the policy word, and the encoder written from the same tables. -/

namespace Sys2Proof

/-- Why a word is illegal (R17, R31). -/
inductive Illegal where
  /-- OP, or OPC, is unassigned in the map. -/
  | opcode
  /-- A reserved field is non-zero. -/
  | reserved
  /-- LIT = 1 where no literal is taken. -/
  | literal
  /-- A reserved operand specifier. -/
  | specifier
  /-- A code field holds a value that is reserved or not accepted. -/
  | code
  deriving DecidableEq, Repr

/-- What a word encodes to: a stream word (the streams whose map holds it, OP, literal and body), a policy word, or nothing. -/
inductive Code where
  | stream (sts : List StreamId) (op : BitVec 8) (lit : Option Word) (body : BitVec 39)
  | policy (w : BitVec 32)
  | none
  deriving DecidableEq, Repr

/-! ### Code fields -/

/-- Field W (R22). -/
def Width.code : Width → BitVec 2
  | .w64 => 0 | .w32 => 1 | .w16 => 2 | .w8 => 3

def Width.ofCode (c : BitVec 2) : Width :=
  match c.toNat with
  | 0 => .w64 | 1 => .w32 | 2 => .w16 | _ => .w8

/-- A scalar specifier (R18). -/
def Src.code : Src → BitVec 5
  | .belt k => 0#1 ++ k
  | .named k => 1#1 ++ k

def Src.ofCode (c : BitVec 5) : Src :=
  if bitOf c 4 then .named (c.extractLsb' 0 4) else .belt (c.extractLsb' 0 4)

/-- A vector specifier (R18): 0..15 belt, 16..47 registers, 48 zero, 49 lane index. -/
def VSrc.code : VSrc → BitVec 6
  | .belt k => 0#2 ++ k
  | .named k => BitVec.ofNat 6 (16 + k.toNat)
  | .zero => 48
  | .lane => 49

def VSrc.ofCode (c : BitVec 6) : Option VSrc :=
  if c.toNat < 16 then some (.belt (c.extractLsb' 0 4))
  else if c.toNat < 48 then some (.named (BitVec.ofNat 5 (c.toNat - 16)))
  else if c = 48 then some .zero
  else if c = 49 then some .lane
  else none

/-- DEN and DN (R19); none when DEN = 0 with DN ≠ 0. -/
def dstOf {n : Nat} (den : Bool) (dn : BitVec n) : Option (Option (BitVec n)) :=
  if den then some (some dn) else if dn = 0 then some none else none

def denOf {n : Nat} (d : Option (BitVec n)) : Bool := d.isSome

def dnOf {n : Nat} (d : Option (BitVec n)) : BitVec n := d.getD 0

/-- A tile field with its ring bit (R20); none when a ring field has bits 7..5 set. -/
def TileRef.ofCode (rg : Bool) (n : BitVec 8) : Option TileRef :=
  if rg then (if n.extractLsb' 5 3 = 0 then some (.ring (n.extractLsb' 0 5)) else none) else some (.tile n)

def TileRef.rg : TileRef → Bool
  | .tile _ => false
  | .ring _ => true

def TileRef.code : TileRef → BitVec 8
  | .tile n => n
  | .ring n => 0#3 ++ n

/-- Conditions of cmp, cmpi, wadr and pcmp (R23, R95, R266). -/
def Cond.code : Cond → Nat
  | .eq => 0 | .ne => 1 | .lt => 2 | .le => 3 | .gt => 4 | .ge => 5

def Cond.ofCode (n : Nat) : Option Cond :=
  match n with
  | 0 => some .eq | 1 => some .ne | 2 => some .lt | 3 => some .le | 4 => some .gt | 5 => some .ge | _ => none

/-- Shift kinds of shi (R23). -/
def ShiftKind.code : ShiftKind → Nat
  | .shl => 0 | .shr => 1 | .sar => 2 | .rot => 3

def ShiftKind.ofCode (n : Nat) : Option ShiftKind :=
  match n with
  | 0 => some .shl | 1 => some .shr | 2 => some .sar | 3 => some .rot | _ => none

/-- Conditions of bc (R24). -/
def BcCond.code : BcCond → Nat
  | .z => 0 | .nz => 1 | .neg => 2 | .nneg => 3 | .pos => 4 | .npos => 5

def BcCond.ofCode (n : Nat) : Option BcCond :=
  match n with
  | 0 => some .z | 1 => some .nz | 2 => some .neg | 3 => some .nneg | 4 => some .pos | 5 => some .npos | _ => none

/-- Operations of aop (R94). -/
def AopOp.code : AopOp → Nat
  | .add => 0 | .xchg => 1 | .cas => 2 | .min => 3 | .max => 4 | .and => 5 | .or => 6

def AopOp.ofCode (n : Nat) : Option AopOp :=
  match n with
  | 0 => some .add | 1 => some .xchg | 2 => some .cas | 3 => some .min | 4 => some .max | 5 => some .and | 6 => some .or
  | _ => none

/-- Operations of gamo (R226). -/
def GamoOp.code : GamoOp → Nat
  | .add => 0 | .xchg => 1 | .cas => 2 | .min => 3 | .max => 4 | .incb => 5

def GamoOp.ofCode (n : Nat) : Option GamoOp :=
  match n with
  | 0 => some .add | 1 => some .xchg | 2 => some .cas | 3 => some .min | 4 => some .max | 5 => some .incb | _ => none

/-- Fence scopes (R227). -/
def Scope.code : Scope → Nat
  | .grp => 0 | .dev => 1 | .sys => 2

def Scope.ofCode (n : Nat) : Option Scope :=
  match n with
  | 0 => some .grp | 1 => some .dev | 2 => some .sys | _ => none

/-- ROUTE (R221). -/
def Route.code : Route → Nat
  | .short => 0 | .cw => 1 | .ccw => 2

def Route.ofCode (n : Nat) : Option Route :=
  match n with
  | 0 => some .short | 1 => some .cw | 2 => some .ccw | _ => none

/-- Directions of ncopy (R207). -/
def CopyDir.code : CopyDir → Nat
  | .gl => 0 | .lg => 1 | .ll => 2

def CopyDir.ofCode (n : Nat) : Option CopyDir :=
  match n with
  | 0 => some .gl | 1 => some .lg | 2 => some .ll | _ => none

/-- Lane types (R26). -/
def LaneTy.code : LaneTy → Nat
  | .f32 => 0 | .bf16 => 1 | .s32 => 2 | .z32 => 3 | .s16 => 4 | .z16 => 5 | .s8 => 6 | .z8 => 7

def LaneTy.ofCode (n : Nat) : Option LaneTy :=
  match n with
  | 0 => some .f32 | 1 => some .bf16 | 2 => some .s32 | 3 => some .z32 | 4 => some .s16 | 5 => some .z16 | 6 => some .s8
  | 7 => some .z8 | _ => none

/-- Rounding modes (R26). -/
def Rnd.code : Rnd → Nat
  | .rne => 0 | .rtz => 1 | .rdn => 2 | .rup => 3 | .dth => 4

def Rnd.ofCode (n : Nat) : Option Rnd :=
  match n with
  | 0 => some .rne | 1 => some .rtz | 2 => some .rdn | 3 => some .rup | 4 => some .dth | _ => none

/-- Overflow policies (R27). -/
def Ov.code : Ov → Nat
  | .dflt => 0 | .sat => 1 | .nan => 2

def Ov.ofCode (n : Nat) : Option Ov :=
  match n with
  | 0 => some .dflt | 1 => some .sat | 2 => some .nan | _ => none

/-- Element-format codes (R28). -/
def EFmt.code : EFmt → Nat
  | .e4m3 => 0 | .e5m2 => 1 | .e3m2 => 2 | .e2m3 => 3 | .e2m1 => 4 | .i8 => 5 | .scl => 6 | .bf16 => 7 | .f32 => 8 | .a36 => 9
  | .i32 => 10 | .raw => 11 | .e8m0 => 12

def EFmt.ofCode (n : Nat) : Option EFmt :=
  match n with
  | 0 => some .e4m3 | 1 => some .e5m2 | 2 => some .e3m2 | 3 => some .e2m3 | 4 => some .e2m1 | 5 => some .i8 | 6 => some .scl
  | 7 => some .bf16 | 8 => some .f32 | 9 => some .a36 | 10 => some .i32 | 11 => some .raw | 12 => some .e8m0 | _ => none

/-- Conditions of vcmp (R141). -/
def VCond.code : VCond → Nat
  | .eq => 0 | .ne => 1 | .lt => 2 | .le => 3 | .gt => 4 | .ge => 5 | .un => 6

def VCond.ofCode (n : Nat) : Option VCond :=
  match n with
  | 0 => some .eq | 1 => some .ne | 2 => some .lt | 3 => some .le | 4 => some .gt | 5 => some .ge | 6 => some .un | _ => none

/-- Item codes of pview (R270). -/
def ViewItem.code : ViewItem → Nat
  | .hook => 0x00 | .cause => 0x01 | .subject => 0x02 | .shape => 0x03
  | .fcode => 0x08 | .fvalo => 0x09 | .fvahi => 0x0A | .fq => 0x0B
  | .qcfg => 0x10 | .qdepth => 0x11 | .qresume => 0x12
  | .entry0 => 0x14 | .entry1 => 0x15 | .entry2 => 0x16 | .entry3 => 0x17 | .qkey => 0x18
  | .free => 0x20 | .own => 0x21 | .rsv => 0x22 | .frag => 0x28 | .freq => 0x30
  | .decisions => 0x38 | .dispatched => 0x39 | .overrun => 0x3A | .malrec => 0x3B | .badpick => 0x3C | .joinerr => 0x3D
  | .fallback => 0x3E

def ViewItem.ofCode (n : Nat) : Option ViewItem :=
  match n with
  | 0x00 => some .hook | 0x01 => some .cause | 0x02 => some .subject | 0x03 => some .shape
  | 0x08 => some .fcode | 0x09 => some .fvalo | 0x0A => some .fvahi | 0x0B => some .fq
  | 0x10 => some .qcfg | 0x11 => some .qdepth | 0x12 => some .qresume
  | 0x14 => some .entry0 | 0x15 => some .entry1 | 0x16 => some .entry2 | 0x17 => some .entry3 | 0x18 => some .qkey
  | 0x20 => some .free | 0x21 => some .own | 0x22 => some .rsv | 0x28 => some .frag | 0x30 => some .freq
  | 0x38 => some .decisions | 0x39 => some .dispatched | 0x3A => some .overrun | 0x3B => some .malrec
  | 0x3C => some .badpick | 0x3D => some .joinerr | 0x3E => some .fallback
  | _ => none

/-! ### Body formats (R22, R25, R27): each packed to and read from 39 bits -/

/-- Format S3. -/
structure S3 where
  sa : BitVec 5
  sb : BitVec 5
  den : Bool
  dn : BitVec 4
  w : BitVec 2
  s : Bool
  sc : BitVec 5
  x : BitVec 16
  deriving DecidableEq, Repr

def S3.pack (f : S3) : BitVec 39 :=
  f.sa ++ (f.sb ++ (bit1 f.den ++ (f.dn ++ (f.w ++ (bit1 f.s ++ (f.sc ++ f.x))))))

def S3.unpack (b : BitVec 39) : S3 :=
  ⟨b.extractLsb' 34 5, b.extractLsb' 29 5, bitOf b 28, b.extractLsb' 24 4, b.extractLsb' 22 2, bitOf b 21, b.extractLsb' 16 5,
    b.extractLsb' 0 16⟩

/-- Format SI. -/
structure SI where
  sa : BitVec 5
  den : Bool
  dn : BitVec 4
  w : BitVec 2
  s : Bool
  cnd : BitVec 4
  imm : BitVec 22
  deriving DecidableEq, Repr

def SI.pack (f : SI) : BitVec 39 :=
  f.sa ++ (bit1 f.den ++ (f.dn ++ (f.w ++ (bit1 f.s ++ (f.cnd ++ f.imm)))))

def SI.unpack (b : BitVec 39) : SI :=
  ⟨b.extractLsb' 34 5, bitOf b 33, b.extractLsb' 29 4, b.extractLsb' 27 2, bitOf b 26, b.extractLsb' 22 4, b.extractLsb' 0 22⟩

/-- Format SB. -/
structure SB where
  sa : BitVec 5
  k : BitVec 4
  z : BitVec 6
  off : BitVec 24
  deriving DecidableEq, Repr

def SB.pack (f : SB) : BitVec 39 := f.sa ++ (f.k ++ (f.z ++ f.off))

def SB.unpack (b : BitVec 39) : SB := ⟨b.extractLsb' 34 5, b.extractLsb' 30 4, b.extractLsb' 24 6, b.extractLsb' 0 24⟩

/-- Format ST. -/
structure ST where
  sa : BitVec 5
  den : Bool
  dn : BitVec 4
  tile : BitVec 8
  rg : Bool
  keep : Bool
  z : BitVec 19
  deriving DecidableEq, Repr

def ST.pack (f : ST) : BitVec 39 :=
  f.sa ++ (bit1 f.den ++ (f.dn ++ (f.tile ++ (bit1 f.rg ++ (bit1 f.keep ++ f.z)))))

def ST.unpack (b : BitVec 39) : ST :=
  ⟨b.extractLsb' 34 5, bitOf b 33, b.extractLsb' 29 4, b.extractLsb' 21 8, bitOf b 20, bitOf b 19, b.extractLsb' 0 19⟩

/-- Format AX. -/
structure AX where
  sa : BitVec 5
  sb : BitVec 5
  r : BitVec 8
  t : BitVec 8
  rg : Bool
  den : Bool
  dn : BitVec 4
  f : BitVec 4
  m : BitVec 3
  deriving DecidableEq, Repr

def AX.pack (f : AX) : BitVec 39 :=
  f.sa ++ (f.sb ++ (f.r ++ (f.t ++ (bit1 f.rg ++ (bit1 f.den ++ (f.dn ++ (f.f ++ f.m)))))))

def AX.unpack (b : BitVec 39) : AX :=
  ⟨b.extractLsb' 34 5, b.extractLsb' 29 5, b.extractLsb' 21 8, b.extractLsb' 13 8, bitOf b 12, bitOf b 11, b.extractLsb' 7 4,
    b.extractLsb' 3 4, b.extractLsb' 0 3⟩

/-- DISP, bits 28..13 of AX (R89). -/
def AX.disp (f : AX) : BitVec 16 := f.r ++ f.t

/-- Format V3. -/
structure V3 where
  a : BitVec 6
  b : BitVec 6
  c : BitVec 6
  den : Bool
  dn : BitVec 5
  t : BitVec 4
  rnd : BitVec 3
  mk' : Bool
  x : BitVec 7
  deriving DecidableEq, Repr

def V3.pack (f : V3) : BitVec 39 :=
  f.a ++ (f.b ++ (f.c ++ (bit1 f.den ++ (f.dn ++ (f.t ++ (f.rnd ++ (bit1 f.mk' ++ f.x)))))))

def V3.unpack (b : BitVec 39) : V3 :=
  ⟨b.extractLsb' 33 6, b.extractLsb' 27 6, b.extractLsb' 21 6, bitOf b 20, b.extractLsb' 15 5, b.extractLsb' 11 4,
    b.extractLsb' 8 3, bitOf b 7, b.extractLsb' 0 7⟩

/-- Format VI. -/
structure VI where
  a : BitVec 6
  den : Bool
  dn : BitVec 5
  t : BitVec 4
  mk' : Bool
  imm : BitVec 22
  deriving DecidableEq, Repr

def VI.pack (f : VI) : BitVec 39 := f.a ++ (bit1 f.den ++ (f.dn ++ (f.t ++ (bit1 f.mk' ++ f.imm))))

def VI.unpack (b : BitVec 39) : VI :=
  ⟨b.extractLsb' 33 6, bitOf b 32, b.extractLsb' 27 5, b.extractLsb' 23 4, bitOf b 22, b.extractLsb' 0 22⟩

/-- Format VT. -/
structure VT where
  a : BitVec 6
  ix : BitVec 3
  inc : Bool
  den : Bool
  dn : BitVec 5
  tile : BitVec 8
  rg : Bool
  mk' : Bool
  off : BitVec 13
  deriving DecidableEq, Repr

def VT.pack (f : VT) : BitVec 39 :=
  f.a ++ (f.ix ++ (bit1 f.inc ++ (bit1 f.den ++ (f.dn ++ (f.tile ++ (bit1 f.rg ++ (bit1 f.mk' ++ f.off)))))))

def VT.unpack (b : BitVec 39) : VT :=
  ⟨b.extractLsb' 33 6, b.extractLsb' 30 3, bitOf b 29, bitOf b 28, b.extractLsb' 23 5, b.extractLsb' 15 8, bitOf b 14,
    bitOf b 13, b.extractLsb' 0 13⟩

/-- Format VB. -/
structure VB where
  a : BitVec 6
  den : Bool
  dn : BitVec 5
  z : BitVec 3
  off : BitVec 24
  deriving DecidableEq, Repr

def VB.pack (f : VB) : BitVec 39 := f.a ++ (bit1 f.den ++ (f.dn ++ (f.z ++ f.off)))

def VB.unpack (b : BitVec 39) : VB :=
  ⟨b.extractLsb' 33 6, bitOf b 32, b.extractLsb' 27 5, b.extractLsb' 24 3, b.extractLsb' 0 24⟩

/-- Format MM. -/
structure MM where
  p : Bool
  fa : BitVec 4
  fb : BitVec 4
  ra : BitVec 5
  rb : BitVec 5
  z : BitVec 20
  deriving DecidableEq, Repr

def MM.pack (f : MM) : BitVec 39 := bit1 f.p ++ (f.fa ++ (f.fb ++ (f.ra ++ (f.rb ++ f.z))))

def MM.unpack (b : BitVec 39) : MM :=
  ⟨bitOf b 38, b.extractLsb' 34 4, b.extractLsb' 30 4, b.extractLsb' 25 5, b.extractLsb' 20 5, b.extractLsb' 0 20⟩

/-- Format MS. -/
structure MS where
  p : Bool
  acc : BitVec 2
  rsa : BitVec 5
  rsb : BitVec 5
  i : Bool
  z : BitVec 25
  deriving DecidableEq, Repr

def MS.pack (f : MS) : BitVec 39 := bit1 f.p ++ (f.acc ++ (f.rsa ++ (f.rsb ++ (bit1 f.i ++ f.z))))

def MS.unpack (b : BitVec 39) : MS :=
  ⟨bitOf b 38, b.extractLsb' 36 2, b.extractLsb' 31 5, b.extractLsb' 26 5, bitOf b 25, b.extractLsb' 0 25⟩

/-- Format MD. -/
structure MD where
  acc : BitVec 2
  tile : BitVec 8
  rg : Bool
  ch : Bool
  fmt : BitVec 4
  rnd : BitVec 3
  ov : BitVec 2
  x : BitVec 8
  z : BitVec 10
  deriving DecidableEq, Repr

def MD.pack (f : MD) : BitVec 39 :=
  f.acc ++ (f.tile ++ (bit1 f.rg ++ (bit1 f.ch ++ (f.fmt ++ (f.rnd ++ (f.ov ++ (f.x ++ f.z)))))))

def MD.unpack (b : BitVec 39) : MD :=
  ⟨b.extractLsb' 37 2, b.extractLsb' 29 8, bitOf b 28, bitOf b 27, b.extractLsb' 23 4, b.extractLsb' 20 3, b.extractLsb' 18 2,
    b.extractLsb' 10 8, b.extractLsb' 0 10⟩

/-! ### Decoding -/

/-- What a decoder answers. -/
abbrev Read := Except Illegal Instr

/-- Goes on when the condition holds; the word is illegal for the reason given when it does not. -/
def need (c : Bool) (e : Illegal) (r : Read) : Read := if c then r else .error e

/-- Goes on with a field's meaning; the word is illegal for the reason given when the field has none. -/
def given {α : Type} (o : Option α) (e : Illegal) (k : α → Read) : Read :=
  match o with
  | some a => k a
  | none => .error e

/-- The immediate of SI and VI: the field, or the literal with the field zero (R21). -/
def immOf (lit : Option Word) (f : BitVec 22) : Option Imm :=
  match lit with
  | none => some (.short f)
  | some v => if f = 0 then some (.lit v) else none

/-- An operand a literal may replace: the specifier, or the literal with the field zero (R21). -/
def opndOf (lit : Option Word) (f : BitVec 5) : Option Opnd :=
  match lit with
  | none => some (.reg (Src.ofCode f))
  | some v => if f = 0 then some (.lit v) else none

/-- The final check of a decoded instruction: the combinations R17 leaves to the entries. -/
def accept (i : Instr) : Read := need (wellFormed i) .code (.ok i)

/-- S3 with two operands and a width (R48). -/
def s3Binary (lit : Option Word) (f : S3) (mkI : WS → Src → Src → Dst → Instr) : Read :=
  need lit.isNone .literal <| need (f.sc == 0 && f.x == 0) .reserved <|
  given (dstOf f.den f.dn) .reserved fun d => accept (mkI ⟨Width.ofCode f.w, f.s⟩ (Src.ofCode f.sa) (Src.ofCode f.sb) d)

/-- S3 with one operand and a width (R53). -/
def s3Unary (lit : Option Word) (f : S3) (mkI : WS → Src → Dst → Instr) : Read :=
  need lit.isNone .literal <| need (f.sb == 0 && f.sc == 0 && f.x == 0) .reserved <|
  given (dstOf f.den f.dn) .reserved fun d => accept (mkI ⟨Width.ofCode f.w, f.s⟩ (Src.ofCode f.sa) d)

/-- S3 with operands and no width, X given apart: SB and SC zero unless used. -/
def s3Plain (lit : Option Word) (f : S3) (useA useB useC useD : Bool) (k : Dst → Read) : Read :=
  need lit.isNone .literal <|
  need ((useA || f.sa == 0) && (useB || f.sb == 0) && (useC || f.sc == 0) && f.w == 0 && !f.s) .reserved <|
  given (dstOf f.den f.dn) .reserved fun d => need (useD || d.isNone) .reserved (k d)

/-- SI with an operand, a width and an immediate (R52). -/
def siImm (lit : Option Word) (f : SI) (mkI : WS → Src → Imm → Dst → Instr) : Read :=
  need (f.cnd == 0) .reserved <| given (immOf lit f.imm) .reserved fun i =>
  given (dstOf f.den f.dn) .reserved fun d => accept (mkI ⟨Width.ofCode f.w, f.s⟩ (Src.ofCode f.sa) i d)

/-- The shared scalar class, OP 0x00 to 0x2F of the C and A maps. -/
def decodeScalar (op : Nat) (lit : Option Word) (body : BitVec 39) : Read :=
  let f := S3.unpack body
  let g := SI.unpack body
  match op with
  | 0x00 => need lit.isNone .literal (need (body == 0) .reserved (.ok .nop))
  | 0x10 => s3Binary lit f .add
  | 0x11 => s3Binary lit f .sub
  | 0x12 => s3Binary lit f .mul
  | 0x13 => s3Binary lit f .mulh
  | 0x14 => s3Binary lit f .div
  | 0x15 => s3Binary lit f .rem
  | 0x16 => s3Binary lit f .and
  | 0x17 => s3Binary lit f .or
  | 0x18 => s3Binary lit f .xor
  | 0x19 => s3Binary lit f .andn
  | 0x1A => s3Binary lit f .shl
  | 0x1B => s3Binary lit f .shr
  | 0x1C => s3Binary lit f .sar
  | 0x1D => s3Binary lit f .rot
  | 0x1E => s3Binary lit f .min
  | 0x1F => s3Binary lit f .max
  | 0x20 =>
    need lit.isNone .literal <| need (f.sc == 0 && f.x.extractLsb' 4 12 == 0) .reserved <|
    given (Cond.ofCode (f.x.extractLsb' 0 4).toNat) .code fun c => given (dstOf f.den f.dn) .reserved fun d =>
    accept (.cmp c ⟨Width.ofCode f.w, f.s⟩ (Src.ofCode f.sa) (Src.ofCode f.sb) d)
  | 0x21 => s3Plain lit f true true true true fun d => need (f.x == 0) .reserved
      (accept (.sel (Src.ofCode f.sa) (Src.ofCode f.sb) (Src.ofCode f.sc) d))
  | 0x22 => s3Unary lit f .clz
  | 0x23 => s3Unary lit f .popc
  | 0x24 =>
    need lit.isNone .literal <| need (f.sb == 0 && f.sc == 0 && f.w == 0 && f.x.extractLsb' 12 4 == 0) .reserved <|
    given (dstOf f.den f.dn) .reserved fun d =>
    accept (.bext f.s (Src.ofCode f.sa) (f.x.extractLsb' 6 6) (f.x.extractLsb' 0 6) d)
  | 0x25 => s3Plain lit f true true true true fun d => need (f.x.extractLsb' 12 4 == 0) .reserved
      (accept (.bins (Src.ofCode f.sa) (Src.ofCode f.sb) (Src.ofCode f.sc) (f.x.extractLsb' 6 6) (f.x.extractLsb' 0 6) d))
  | 0x26 => s3Unary lit f .ext
  | 0x27 => s3Plain lit f true true true true fun d => need (f.x.extractLsb' 3 13 == 0) .reserved
      (accept (.lea (Src.ofCode f.sa) (Src.ofCode f.sb) (Src.ofCode f.sc) (f.x.extractLsb' 0 3) d))
  | 0x28 => s3Plain lit f true false false true fun d => need (f.x == 0) .reserved (accept (.mov (Src.ofCode f.sa) d))
  | 0x29 => siImm lit g .addi
  | 0x2A => siImm lit g .andi
  | 0x2B => siImm lit g .ori
  | 0x2C => siImm lit g .xori
  | 0x2D =>
    given (ShiftKind.ofCode g.cnd.toNat) .code fun k => given (immOf lit g.imm) .reserved fun i =>
    given (dstOf g.den g.dn) .reserved fun d => accept (.shi k ⟨Width.ofCode g.w, g.s⟩ (Src.ofCode g.sa) i d)
  | 0x2E =>
    given (Cond.ofCode g.cnd.toNat) .code fun c => given (immOf lit g.imm) .reserved fun i =>
    given (dstOf g.den g.dn) .reserved fun d => accept (.cmpi c ⟨Width.ofCode g.w, g.s⟩ (Src.ofCode g.sa) i d)
  | 0x2F =>
    need (g.sa == 0 && g.cnd == 0) .reserved <| given (immOf lit g.imm) .reserved fun i =>
    given (dstOf g.den g.dn) .reserved fun d => accept (.lit ⟨Width.ofCode g.w, g.s⟩ i d)
  | _ => .error .opcode

/-- SB with its reserved field and the fields not used zero. -/
def sbForm (lit : Option Word) (f : SB) (useA useK useO : Bool) (k : Read) : Read :=
  need lit.isNone .literal <|
  need (f.z == 0 && (useA || f.sa == 0) && (useK || f.k == 0) && (useO || f.off == 0)) .reserved k

/-- Control instructions every stream holds: b, loop, rep (immediate form) and stop (R24). -/
def decodeShared (op : Nat) (lit : Option Word) (body : BitVec 39) : Read :=
  let f := SB.unpack body
  match op with
  | 0x40 => sbForm lit f false false true (.ok (.b f.off))
  | 0x45 => sbForm lit f false true true (need (f.k.extractLsb' 2 2 == 0) .reserved (.ok (.loop (f.k.extractLsb' 0 2) f.off)))
  | 0x46 => sbForm lit f false true true
      (need (f.k == 1) .code (need (f.off.extractLsb' 13 11 == 0) .reserved (accept (.repImm (f.off.extractLsb' 0 13)))))
  | 0x48 => sbForm lit f false false false (.ok .stop)
  | _ => .error .opcode

/-- Control instructions of the C and A streams (R24, R76, R77). -/
def decodeControlCA (op : Nat) (lit : Option Word) (body : BitVec 39) : Read :=
  let f := SB.unpack body
  let g := ST.unpack body
  match op with
  | 0x41 => sbForm lit f true true true (given (BcCond.ofCode f.k.toNat) .code fun c => .ok (.bc c (Src.ofCode f.sa) f.off))
  | 0x46 =>
    if f.k = 0 then sbForm lit f true false false (.ok (.repOperand (Src.ofCode f.sa))) else decodeShared op lit body
  | 0x49 => sbForm lit f true true false (accept (.gpush (Src.ofCode f.sa) f.k))
  | 0x4B =>
    need (!g.den && g.dn == 0 && !g.keep && g.z == 0) .reserved <| given (TileRef.ofCode g.rg g.tile) .reserved fun t =>
    given (opndOf lit g.sa) .reserved fun x => .ok (.wtw x t)
  | 0x4C =>
    need lit.isNone .literal <| need (g.sa == 0 && g.z == 0) .reserved <| given (TileRef.ofCode g.rg g.tile) .reserved fun t =>
    given (dstOf g.den g.dn) .reserved fun d => accept (.rtw g.keep t d)
  | _ => decodeShared op lit body

/-- Control instructions of the C stream alone. -/
def decodeControlC (op : Nat) (lit : Option Word) (body : BitVec 39) : Read :=
  let f := SB.unpack body
  let g := ST.unpack body
  let h := S3.unpack body
  match op with
  | 0x42 => sbForm lit f false false true (.ok (.call f.off))
  | 0x43 => sbForm lit f false false false (.ok .ret)
  | 0x44 => sbForm lit f true false false (.ok (.jmp (Src.ofCode f.sa)))
  | 0x47 => sbForm lit f false true false
      (need (!bitOf f.k 3) .reserved (accept (.go (bitOf f.k 0) (bitOf f.k 1) (bitOf f.k 2))))
  | 0x4A => sbForm lit f false true false (accept (.gflush f.k))
  | 0x4D =>
    need lit.isNone .literal <| need (g.sa == 0 && !g.keep && g.z == 0) .reserved <|
    given (TileRef.ofCode g.rg g.tile) .reserved fun t => given (dstOf g.den g.dn) .reserved fun d => .ok (.tstate t d)
  | 0x4E => s3Plain lit h false false false true fun d => need (h.x == 0) .reserved (.ok (.lcyc d))
  | 0x4F => s3Plain lit h false false false true fun d => need (h.x == 0) .reserved (.ok (.self d))
  | _ => decodeControlCA op lit body

/-- AX with the named fields in use and every other field zero, no literal. -/
def axForm (lit : Option Word) (f : AX) (useA useB useR useT useD useF useM : Bool) (k : Dst → Read) : Read :=
  need lit.isNone .literal <|
  need ((useA || f.sa == 0) && (useB || f.sb == 0) && (useR || f.r == 0) && (useT || (f.t == 0 && !f.rg)) &&
    (useF || f.f == 0) && (useM || f.m == 0)) .reserved <|
  given (dstOf f.den f.dn) .reserved fun d => need (useD || d.isNone) .reserved (k d)

/-- AX of the scratchpad class (R89): RG zero, REC and T together DISP, M the width and sign. -/
def axMem (lit : Option Word) (f : AX) (useD useF : Bool) (k : WS → Dst → Read) : Read :=
  need lit.isNone .literal <| need (!f.rg && (useF || f.f == 0)) .reserved <|
  given (dstOf f.den f.dn) .reserved fun d => need (useD || d.isNone) .reserved
    (k ⟨Width.ofCode (f.m.extractLsb' 0 2), bitOf f.m 2⟩ d)

/-- The C map from 0x50 on (R29). -/
def decodeC (op : Nat) (lit : Option Word) (body : BitVec 39) : Read :=
  let f := AX.unpack body
  let h := S3.unpack body
  let g := SI.unpack body
  match op with
  | 0x50 => axMem lit f true false fun ws d => accept (.ld ws (Src.ofCode f.sa) (Src.ofCode f.sb) f.disp d)
  | 0x51 => axMem lit f false false fun ws _ => need (!ws.s) .reserved
      (accept (.st ws.w (Src.ofCode f.sa) (Src.ofCode f.sb) f.disp))
  | 0x52 => axMem lit f true false fun ws d => accept (.ldx ws (Src.ofCode f.sa) (Src.ofCode f.sb) f.disp d)
  | 0x53 => axMem lit f false false fun ws _ => need (!ws.s) .reserved
      (accept (.stx ws.w (Src.ofCode f.sa) (Src.ofCode f.sb) f.disp))
  | 0x54 => need lit.isNone .literal (need (body == 0) .reserved (.ok .mark))
  | 0x55 => axMem lit f false false fun _ _ => need (f.m == 0) .reserved
      (accept (.linv (Src.ofCode f.sa) (Src.ofCode f.sb) f.disp))
  | 0x56 => axMem lit f true true fun ws d => given (AopOp.ofCode f.f.toNat) .code fun o =>
      accept (.aop o ws (Src.ofCode f.sa) (Src.ofCode f.sb) f.disp d)
  | 0x57 => axMem lit f true true fun ws d => given (Cond.ofCode f.f.toNat) .code fun c =>
      accept (.wadr c ws (Src.ofCode f.sa) (Src.ofCode f.sb) f.disp d)
  | 0x60 => s3Plain lit h true false false true fun d => need (h.x == 0) .reserved (.ok (.gjoin (Src.ofCode h.sa) d))
  | 0x61 => s3Plain lit h true false false true fun d => need (h.x == 0) .reserved (.ok (.gleave (Src.ofCode h.sa) d))
  | 0x62 => s3Plain lit h true false false true fun d => need (h.x == 0) .reserved (.ok (.gbar (Src.ofCode h.sa) d))
  | 0x68 => s3Plain lit h true true false true fun d => need (h.x == 0) .reserved
      (.ok (.spawn (Src.ofCode h.sa) (Src.ofCode h.sb) d))
  | 0x69 => need lit.isNone .literal (need (body == 0) .reserved (.ok .done))
  | 0x6A => s3Plain lit h true false false true fun d => need (h.x == 0) .reserved (.ok (.grab (Src.ofCode h.sa) d))
  | 0x6B => s3Plain lit h true true true false fun _ => need (h.x == 0) .reserved
      (.ok (.rngset (Src.ofCode h.sa) (Src.ofCode h.sb) (Src.ofCode h.sc)))
  | 0x6C => s3Plain lit h false false false true fun d => need (h.x == 0) .reserved (.ok (.yield d))
  | 0x6D => s3Plain lit h false false false true fun d => need (h.x == 0) .reserved (.ok (.ckpt d))
  | 0x70 => s3Plain lit h true false false true fun d => need (h.x.extractLsb' 4 12 == 0) .reserved
      (accept (.fsplit (h.x.extractLsb' 0 4) (Src.ofCode h.sa) d))
  | 0x71 => s3Plain lit h false false false true fun d => need (h.x.extractLsb' 5 11 == 0) .reserved
      (accept (.ffuse (bitOf h.x 4) (h.x.extractLsb' 0 4) d))
  | 0x72 => s3Plain lit h false false false true fun d => need (h.x.extractLsb' 1 15 == 0) .reserved
      (.ok (.fchain (bitOf h.x 0) d))
  | 0x73 => s3Plain lit h false false false true fun d => need (h.x.extractLsb' 1 15 == 0) .reserved
      (.ok (.funchain (bitOf h.x 0) d))
  | 0x74 => s3Plain lit h false false false true fun d => need (h.x == 0) .reserved (.ok (.fquery d))
  | 0x78 => axForm lit f true true false false true false false fun d => .ok (.smopen (Src.ofCode f.sa) (Src.ofCode f.sb) d)
  | 0x79 => axForm lit f true true false false true false false fun d => .ok (.smapp (Src.ofCode f.sa) (Src.ofCode f.sb) d)
  | 0x7A => axForm lit f true false false true true true true fun d => given (TileRef.ofCode f.rg f.t) .reserved fun t =>
      accept (.smprop (Src.ofCode f.sa) t f.f f.m d)
  | 0x7B => axForm lit f true true false false true false false fun d => .ok (.smsave (Src.ofCode f.sa) (Src.ofCode f.sb) d)
  | 0x7C => axForm lit f true true false true true false false fun d => need (!f.rg && f.t.extractLsb' 5 3 == 0) .reserved
      (.ok (.smload (Src.ofCode f.sa) (Src.ofCode f.sb) (Src.ofCode (f.t.extractLsb' 0 5)) d))
  | 0x7D => axForm lit f true false false false true false false fun d => .ok (.smclose (Src.ofCode f.sa) d)
  | 0x7E => s3Plain lit h true true false true fun d => need (h.x == 0) .reserved
      (.ok (.draw (Src.ofCode h.sa) (Src.ofCode h.sb) d))
  | 0x7F => axForm lit f true true false false true true false fun d => need (f.f.toNat ≤ 1) .code
      (.ok (.tacc (bitOf f.f 0) (Src.ofCode f.sa) (Src.ofCode f.sb) d))
  | 0x80 => axForm lit f true true false false true true false fun d => need (f.f.toNat ≤ 1) .code
      (.ok (.tsamp (bitOf f.f 0) (Src.ofCode f.sa) (Src.ofCode f.sb) d))
  | 0xF0 => need (g.sa == 0 && !g.den && g.dn == 0 && g.w == 0 && !g.s && g.cnd == 0) .reserved <|
      given (immOf lit g.imm) .reserved fun i => .ok (.trap i)
  | 0xF1 => need (g.sa == 0 && g.w == 0 && !g.s && g.cnd == 0 && g.imm.extractLsb' 12 10 == 0) .reserved <|
      given (immOf lit g.imm) .reserved fun i => given (dstOf g.den g.dn) .reserved fun d =>
      .ok (.sysr (match i with | .short v => .short (v.extractLsb' 0 12) | .lit v => .lit v) d)
  | 0xF2 => need (!g.den && g.dn == 0 && g.w == 0 && !g.s && g.cnd == 0 && g.imm.extractLsb' 12 10 == 0) .reserved <|
      given (immOf lit g.imm) .reserved fun i =>
      match i with
      | .short v => if v = 0x020 then .ok (.faultreq (Src.ofCode g.sa) false)
                    else .ok (.sysw (Src.ofCode g.sa) (.short (v.extractLsb' 0 12)))
      | .lit v => if v = 0x020 then .ok (.faultreq (Src.ofCode g.sa) true) else .ok (.sysw (Src.ofCode g.sa) (.lit v))
  | 0xF3 => need (g.sa == 0 && !g.den && g.dn == 0 && g.w == 0 && !g.s && g.cnd == 0) .reserved <|
      given (immOf lit g.imm) .reserved fun i => .ok (.brk i)
  | 0xF4 => need (g.imm == 0 && g.w == 0 && !g.s) .reserved <| need (g.cnd.toNat ≤ 1) .code <|
      given (dstOf g.den g.dn) .reserved fun d => .ok (.ptst (bitOf g.cnd 0) (Src.ofCode g.sa) lit d)
  | _ => if op < 0x40 then decodeScalar op lit body else decodeControlC op lit body

/-- The A map from 0x50 on (R29). -/
def decodeA (op : Nat) (lit : Option Word) (body : BitVec 39) : Read :=
  let f := AX.unpack body
  let grp : Option (Option (BitVec 4)) := if bitOf f.m 0 then some (some f.f) else if f.f = 0 then some none else none
  match op with
  | 0x50 => axMem lit f true false fun ws d => accept (.ldA ws (Src.ofCode f.sa) (Src.ofCode f.sb) f.disp d)
  | 0x51 => axMem lit f false false fun ws _ => need (!ws.s) .reserved
      (accept (.stA ws.w (Src.ofCode f.sa) (Src.ofCode f.sb) f.disp))
  | 0x80 => axForm lit f true false true false false false false fun _ => .ok (.brec f.r (Src.ofCode f.sa))
  | 0x81 => axForm lit f true true true true false true true fun _ => need (!bitOf f.m 2) .reserved <|
      given (TileRef.ofCode f.rg f.t) .reserved fun t => given grp .reserved fun g =>
      accept (.tld g (bitOf f.m 1) f.r t (Src.ofCode f.sa) (Src.ofCode f.sb))
  | 0x82 => axForm lit f true false true true false true true fun _ => need (!bitOf f.m 2 && !bitOf f.m 1) .reserved <|
      given (TileRef.ofCode f.rg f.t) .reserved fun t => given grp .reserved fun g =>
      accept (.tst g f.r t (Src.ofCode f.sa))
  | 0x83 => axForm lit f true true true true false false false fun _ => given (TileRef.ofCode f.rg f.t) .reserved fun t =>
      .ok (.tgat f.r t (Src.ofCode f.sa) (Src.ofCode f.sb))
  | 0x84 => axForm lit f true true true true false false false fun _ => given (TileRef.ofCode f.rg f.t) .reserved fun t =>
      .ok (.tsca f.r t (Src.ofCode f.sa) (Src.ofCode f.sb))
  | 0x85 => axForm lit f true false false true false false true fun _ =>
      need (!f.rg && f.m.extractLsb' 1 2 == 0) .reserved (accept (.tcfg (bitOf f.m 0) f.t (Src.ofCode f.sa)))
  | 0x86 => axForm lit f false false true true false true true fun _ =>
      need (f.m.extractLsb' 1 2 == 0) .reserved <| need f.rg .code <| need (f.t.extractLsb' 5 3 == 0) .reserved
        (accept (.rcfg (bitOf f.m 0) (f.t.extractLsb' 0 5) f.r f.f))
  | 0x87 => axForm lit f false false false true false false false fun _ => given (TileRef.ofCode f.rg f.t) .reserved fun t =>
      .ok (.tfree t)
  | 0x88 => axForm none f true true true false false false false fun _ => given (opndOf lit f.sb) .reserved fun y =>
      .ok (.nset (f.r.extractLsb' 5 3) (f.r.extractLsb' 3 2) (f.r.extractLsb' 0 3) (Src.ofCode f.sa) y)
  | 0x89 => axForm lit f true true true true false true true fun _ =>
      need (!f.rg && f.t.extractLsb' 2 6 == 0 && !bitOf f.m 2) .reserved <|
      given (CopyDir.ofCode (f.m.extractLsb' 0 2).toNat) .code fun dir =>
      accept (.ncopy dir f.f (f.t.extractLsb' 0 2) f.r (Src.ofCode f.sa) (Src.ofCode f.sb))
  | 0x8A => axForm lit f true true false true false false false fun _ => given (TileRef.ofCode f.rg f.t) .reserved fun t =>
      .ok (.tlsp t (Src.ofCode f.sa) (Src.ofCode f.sb))
  | 0x8B => axForm lit f true true false true false false false fun _ => given (TileRef.ofCode f.rg f.t) .reserved fun t =>
      .ok (.tssp t (Src.ofCode f.sa) (Src.ofCode f.sb))
  | 0x8C => axForm lit f true true false false false false true fun _ => need (!bitOf f.m 2) .reserved <|
      given (Route.ofCode (f.m.extractLsb' 0 2).toNat) .code fun r => .ok (.send r (Src.ofCode f.sa) (Src.ofCode f.sb))
  | 0x8D => axForm none f true true false true false false true fun _ =>
      need (!bitOf f.m 2 && !f.rg && f.t.extractLsb' 5 3 == 0) .reserved <|
      given (Route.ofCode (f.m.extractLsb' 0 2).toNat) .code fun r => given (opndOf lit f.sb) .reserved fun y =>
      .ok (.sendf r (Src.ofCode f.sa) y (Src.ofCode (f.t.extractLsb' 0 5)))
  | 0x8E => axForm none f true true false false false false true fun _ => need (!bitOf f.m 2) .reserved <|
      given (Route.ofCode (f.m.extractLsb' 0 2).toNat) .code fun r => given (opndOf lit f.sb) .reserved fun y =>
      .ok (.flag r (Src.ofCode f.sa) y)
  | 0x8F => axForm none f true true true true true true true fun d =>
      need (!f.rg && f.t.extractLsb' 5 3 == 0) .reserved <|
      given (GamoOp.ofCode f.f.toNat) .code fun o => given (opndOf lit f.sb) .reserved fun y =>
      accept (.gamo o ⟨Width.ofCode (f.m.extractLsb' 0 2), bitOf f.m 2⟩ f.r (Src.ofCode f.sa) y
        (Src.ofCode (f.t.extractLsb' 0 5)) d)
  | 0x90 => axForm lit f false false false false true true false fun d => given (Scope.ofCode f.f.toNat) .code fun c =>
      .ok (.fence c d)
  | 0x91 => axForm lit f true true true false false false false fun _ => .ok (.pfch f.r (Src.ofCode f.sa) (Src.ofCode f.sb))
  | 0x92 => axForm none f true true true false false false false fun _ => need (!bitOf f.r 7) .reserved <|
      given (opndOf lit f.sb) .reserved fun y =>
      accept (.fltopen (f.r.extractLsb' 0 3) (f.r.extractLsb' 3 4) (Src.ofCode f.sa) y)
  | 0x93 => axForm lit f true false true false false false false fun _ => need (!bitOf f.r 7) .reserved
      (accept (.fltclose (f.r.extractLsb' 0 3) (f.r.extractLsb' 3 4) (Src.ofCode f.sa)))
  | _ => if op < 0x40 then decodeScalar op lit body else decodeControlCA op lit body

/-- V3 with the named fields in use and every other field zero; T and RND are given to the continuation. -/
def v3Form (lit : Option Word) (f : V3) (useB useC useR useK useX : Bool)
    (k : LaneTy → Rnd → VSrc → VSrc → VSrc → VDst → Read) : Read :=
  need lit.isNone .literal <|
  need ((useB || f.b == 0) && (useC || f.c == 0) && (useR || f.rnd == 0) && (useK || !f.mk') && (useX || f.x == 0)) .reserved <|
  given (LaneTy.ofCode f.t.toNat) .code fun t => given (Rnd.ofCode f.rnd.toNat) .code fun r =>
  given (VSrc.ofCode f.a) .specifier fun a => given (VSrc.ofCode f.b) .specifier fun b =>
  given (VSrc.ofCode f.c) .specifier fun c => given (dstOf f.den f.dn) .reserved fun d => k t r a b c d

/-- VT with the named fields in use and every other field zero. -/
def vtForm (lit : Option Word) (f : VT) (useA useD useT : Bool) (k : VSrc → VAddr → TileRef → VDst → Read) : Read :=
  need lit.isNone .literal <|
  need ((useA || f.a == 0) && (useT || (f.tile == 0 && !f.rg))) .reserved <|
  given (VSrc.ofCode f.a) .specifier fun a => given (TileRef.ofCode f.rg f.tile) .reserved fun t =>
  given (dstOf f.den f.dn) .reserved fun d => need (useD || d.isNone) .reserved (k a ⟨f.ix, f.inc, f.mk', f.off⟩ t d)

/-- VB with the named fields in use and every other field zero. -/
def vbForm (lit : Option Word) (f : VB) (useA useD useO : Bool) (k : VSrc → VDst → Read) : Read :=
  need lit.isNone .literal <|
  need (f.z == 0 && (useA || f.a == 0) && (useO || f.off == 0)) .reserved <|
  given (VSrc.ofCode f.a) .specifier fun a => given (dstOf f.den f.dn) .reserved fun d =>
  need (useD || d.isNone) .reserved (k a d)

/-- The V map (R29). -/
def decodeV (op : Nat) (lit : Option Word) (body : BitVec 39) : Read :=
  let f := V3.unpack body
  let g := VI.unpack body
  let u := VT.unpack body
  let h := VB.unpack body
  match op with
  | 0x10 => v3Form lit f true false true true false fun t r a b _ d => accept (.vadd t r f.mk' a b d)
  | 0x11 => v3Form lit f true false true true false fun t r a b _ d => accept (.vsub t r f.mk' a b d)
  | 0x12 => v3Form lit f true false true true false fun t r a b _ d => accept (.vmul t r f.mk' a b d)
  | 0x13 => v3Form lit f true true true true false fun t r a b c d => accept (.vfma t r f.mk' a b c d)
  | 0x14 => v3Form lit f true true true true false fun t r a b c d => accept (.vfms t r f.mk' a b c d)
  | 0x15 => v3Form lit f true false false true false fun t _ a b _ d => accept (.vmin t f.mk' a b d)
  | 0x16 => v3Form lit f true false false true false fun t _ a b _ d => accept (.vmax t f.mk' a b d)
  | 0x17 => v3Form lit f false false false true false fun t _ a _ _ d => accept (.vabs t f.mk' a d)
  | 0x18 => v3Form lit f false false false true false fun t _ a _ _ d => accept (.vneg t f.mk' a d)
  | 0x19 => v3Form lit f true false false true false fun t _ a b _ d => accept (.vand t f.mk' a b d)
  | 0x1A => v3Form lit f true false false true false fun t _ a b _ d => accept (.vor t f.mk' a b d)
  | 0x1B => v3Form lit f true false false true false fun t _ a b _ d => accept (.vxor t f.mk' a b d)
  | 0x1C => v3Form lit f true false false true false fun t _ a b _ d => accept (.vshl t f.mk' a b d)
  | 0x1D => v3Form lit f true false false true false fun t _ a b _ d => accept (.vshr t f.mk' a b d)
  | 0x1E => v3Form lit f true false false true false fun t _ a b _ d => accept (.vsar t f.mk' a b d)
  | 0x1F => v3Form lit f true false false true true fun t _ a b _ d =>
      need (f.x.extractLsb' 3 4 == 0) .reserved <| given (VCond.ofCode (f.x.extractLsb' 0 3).toNat) .code fun c =>
      accept (.vcmp c t f.mk' a b d)
  | 0x20 => v3Form lit f true true false true false fun t _ a b c d => accept (.vsel t f.mk' a b c d)
  | 0x21 => v3Form lit f false false true true false fun t r a _ _ d => accept (.vrcp t r f.mk' a d)
  | 0x22 => v3Form lit f false false true true false fun t r a _ _ d => accept (.vrsq t r f.mk' a d)
  | 0x23 => v3Form lit f false false true true false fun t r a _ _ d => accept (.vexp2 t r f.mk' a d)
  | 0x24 => v3Form lit f false false true true false fun t r a _ _ d => accept (.vlog2 t r f.mk' a d)
  | 0x25 => v3Form lit f true true false true false fun t _ a b c d => accept (.vclamp t f.mk' a b c d)
  | 0x26 => v3Form lit f false false false true false fun t _ a _ _ d => need (t == .f32) .reserved (accept (.vmov f.mk' a d))
  | 0x27 => need (g.a == 0 && g.t == 0) .reserved <| given (immOf lit g.imm) .reserved fun i =>
      given (dstOf g.den g.dn) .reserved fun d => .ok (.vlit g.mk' i d)
  | 0x28 => v3Form lit f true true false true false fun t _ a b c d => accept (.vdot4 t f.mk' a b c d)
  | 0x29 => v3Form lit f true false false true false fun t _ a b _ d => accept (.vrsh t f.mk' a b d)
  | 0x2A => v3Form lit f true false false true false fun t _ a b _ d => need (t == .s32) .code (accept (.vmulq f.mk' a b d))
  | 0x2B => given (LaneTy.ofCode g.t.toNat) .code fun t => given (VSrc.ofCode g.a) .specifier fun a =>
      given (immOf lit g.imm) .reserved fun i => given (dstOf g.den g.dn) .reserved fun d => accept (.vaddi t g.mk' a i d)
  | 0x30 => v3Form lit f false false true true false fun t r a _ _ d => accept (.vredadd t r f.mk' a d)
  | 0x31 => v3Form lit f false false false true false fun t _ a _ _ d => accept (.vredmax t f.mk' a d)
  | 0x32 => v3Form lit f false false false true false fun t _ a _ _ d => accept (.vredmin t f.mk' a d)
  | 0x33 => v3Form lit f false false true true false fun t r a _ _ d => accept (.vscan t r f.mk' a d)
  | 0x34 => v3Form lit f true false false true false fun t _ a b _ d => need (t == .f32) .reserved (accept (.vperm f.mk' a b d))
  | 0x35 => v3Form lit f true false false true false fun t _ a b _ d => need (t == .f32) .reserved (accept (.vrot f.mk' a b d))
  | 0x36 => v3Form lit f true false false true false fun t _ a b _ d => need (t == .f32) .reserved
      (accept (.vbcast f.mk' a b d))
  | 0x37 => v3Form lit f false false false true false fun t _ a _ _ d => accept (.vargmax t f.mk' a d)
  | 0x4C =>
    need (!g.den && g.dn.extractLsb' 3 2 == 0 && !g.mk') .reserved <|
    match g.t.toNat with
    | 0 => need (g.a == 0) .reserved <| given (immOf lit g.imm) .reserved fun i => .ok (.iset (g.dn.extractLsb' 0 3) (.val i))
    | 1 => need (g.a == 0) .reserved <| given (immOf lit g.imm) .reserved fun i => .ok (.iset (g.dn.extractLsb' 0 3) (.step i))
    | 2 => need (g.a == 0) .reserved <| given (immOf lit g.imm) .reserved fun i => .ok (.iset (g.dn.extractLsb' 0 3) (.lim i))
    | 3 => need (g.imm == 0) .reserved <| given (VSrc.ofCode g.a) .specifier fun a => given (immOf lit g.imm) .reserved fun i =>
        .ok (.iset (g.dn.extractLsb' 0 3) (.vec a i))
    | _ => .error .code
  | 0x4D =>
    need (!g.den && g.dn.extractLsb' 3 2 == 0 && !g.mk' && g.t == 0 && g.a == 0) .reserved <|
    given (immOf lit g.imm) .reserved fun i => .ok (.iadd (g.dn.extractLsb' 0 3) i)
  | 0x50 => vbForm lit h true false false fun a _ => .ok (.vmpush a)
  | 0x51 => vbForm lit h false false false fun _ _ => .ok .vminv
  | 0x52 => vbForm lit h false false false fun _ _ => .ok .vmpop
  | 0x53 => vbForm lit h false false true fun _ _ => .ok (.vbnone h.off)
  | 0x54 => vbForm lit h false false true fun _ _ => .ok (.vbany h.off)
  | 0x55 => vbForm lit h false true false fun _ d => .ok (.vmget d)
  | 0x58 => vtForm lit u false true false fun _ ad _ d => .ok (.vld ad d)
  | 0x59 => vtForm lit u true false false fun a ad _ _ => .ok (.vst a ad)
  | 0x5A => vtForm lit u false true true fun _ ad t d => .ok (.vldt t ad d)
  | 0x5B => vtForm lit u true false true fun a ad t _ => .ok (.vstt a t ad)
  | 0x5C => vtForm lit u true true false fun a ad _ d => .ok (.vldx a ad d)
  | 0x60 => v3Form lit f true false true true true fun t r a b _ d =>
      need (!bitOf f.x 3 && f.x.extractLsb' 5 2 == 0) .reserved <| given (LaneTy.ofCode (f.x.extractLsb' 0 3).toNat) .code fun s =>
      accept (.vcvt t s r f.mk' (bitOf f.x 4) a b d)
  | 0x61 => v3Form lit f true false true true true fun t r a b _ d => need (!bitOf f.x 6) .reserved <|
      given (EFmt.ofCode (f.x.extractLsb' 0 4).toNat) .code fun e => given (Ov.ofCode (f.x.extractLsb' 4 2).toNat) .code fun o =>
      accept (.vqnt e t r o f.mk' a b d)
  | 0x62 => v3Form lit f true false true true true fun t r a b _ d => need (f.x.extractLsb' 4 3 == 0) .reserved <|
      given (EFmt.ofCode (f.x.extractLsb' 0 4).toNat) .code fun e => accept (.vdeq e t r f.mk' a b d)
  | 0x63 => v3Form lit f false false false false true fun t _ a _ _ d => need (f.x.extractLsb' 4 3 == 0) .reserved <|
      given (EFmt.ofCode (f.x.extractLsb' 0 4).toNat) .code fun e => accept (.vbsc e t a d)
  | 0x64 => v3Form lit f false false false true true fun t _ a _ _ d => need (f.x.extractLsb' 4 3 == 0 && t == .s8) .reserved <|
      match (f.x.extractLsb' 0 4).toNat with
      | 0xC => .ok (.vsce true f.mk' a d)
      | 0x6 => .ok (.vsce false f.mk' a d)
      | _ => .error .code
  | 0x65 => v3Form lit f true false false false true fun t _ a b _ d =>
      given (EFmt.ofCode (f.x.extractLsb' 0 4).toNat) .code fun e => need (t == .z32 || t == .z16) .code
        (accept (.vpak e (t == .z16) (f.x.extractLsb' 4 3) a b d))
  | 0x66 => v3Form lit f false false false false true fun t _ a _ _ d =>
      given (EFmt.ofCode (f.x.extractLsb' 0 4).toNat) .code fun e => need (t == .z32 || t == .z16) .code
        (accept (.vupk e (t == .z16) (f.x.extractLsb' 4 3) a d))
  | 0x67 => need lit.isNone .literal <|
      need (g.a == 0 && !g.den && g.dn == 0 && g.t == 0 && !g.mk' && g.imm.extractLsb' 5 17 == 0) .reserved
        (.ok (.vdph (g.imm.extractLsb' 0 5)))
  | 0x70 => need lit.isNone .literal <|
      need (g.a == 0 && !g.den && g.t == 0 && !g.mk' && g.imm.extractLsb' 1 21 == 0) .reserved
        (.ok (.vmirror g.dn (bitOf g.imm 0)))
  | _ => decodeShared op lit body

/-- The M map (R29). -/
def decodeM (op : Nat) (lit : Option Word) (body : BitVec 39) : Read :=
  let f := MM.unpack body
  let g := MS.unpack body
  let h := MD.unpack body
  match op with
  | 0x10 => need lit.isNone .literal <| need (f.z == 0) .reserved <|
      given (EFmt.ofCode f.fa.toNat) .code fun fa => given (EFmt.ofCode f.fb.toNat) .code fun fb =>
      accept (.mma f.p fa fb f.ra f.rb)
  | 0x11 => need lit.isNone .literal <| need (g.z == 0) .reserved <|
      (if g.i then accept (.saccI g.p g.acc g.rsa g.rsb) else accept (.sacc g.p g.acc g.rsa g.rsb))
  | 0x12 => need lit.isNone .literal <| need (!g.p && g.rsa == 0 && g.rsb == 0 && !g.i && g.z == 0) .reserved
      (.ok (.macz g.acc))
  | 0x13 => need lit.isNone .literal <| need (h.z == 0) .reserved <|
      given (TileRef.ofCode h.rg h.tile) .reserved fun t => given (EFmt.ofCode h.fmt.toNat) .code fun e =>
      given (Rnd.ofCode h.rnd.toNat) .code fun r => given (Ov.ofCode h.ov.toNat) .code fun o =>
      accept (.mdrain h.acc t h.ch e r o (bitOf h.x 0) (bitOf h.x 1) (h.x.extractLsb' 2 6))
  | 0x14 => need lit.isNone .literal <| need (!h.ch && h.rnd == 0 && h.ov == 0 && h.x == 0 && h.z == 0) .reserved <|
      given (TileRef.ofCode h.rg h.tile) .reserved fun t => given (EFmt.ofCode h.fmt.toNat) .code fun e =>
      accept (.mload h.acc t e)
  | 0x15 => need lit.isNone .literal <|
      need (h.acc == 0 && !h.ch && h.fmt == 0 && h.rnd == 0 && h.ov == 0 && h.x == 0 && h.z == 0) .reserved <|
      given (TileRef.ofCode h.rg h.tile) .reserved fun t => .ok (.mchk t)
  | _ => decodeShared op lit body

/-- The instruction OP, the literal and the body mean in a stream's map, or why the word is illegal there (R17, R29). -/
def decode (st : StreamId) (op : BitVec 8) (lit : Option Word) (body : BitVec 39) : Read :=
  match st with
  | .c => decodeC op.toNat lit body
  | .a => decodeA op.toNat lit body
  | .v => decodeV op.toNat lit body
  | .m => decodeM op.toNat lit body

/-- The fields of a policy word (R30). -/
structure PW where
  opc : BitVec 6
  d : BitVec 4
  a : BitVec 4
  b : BitVec 4
  imm : BitVec 14
  deriving DecidableEq, Repr

def PW.pack (f : PW) : BitVec 32 := f.opc ++ (f.d ++ (f.a ++ (f.b ++ f.imm)))

def PW.unpack (w : BitVec 32) : PW :=
  ⟨w.extractLsb' 26 6, w.extractLsb' 22 4, w.extractLsb' 18 4, w.extractLsb' 14 4, w.extractLsb' 0 14⟩

/-- A policy word with the named fields in use and every other field zero (R266; refusal code 3). -/
def pwForm (f : PW) (useD useA useB : Bool) (immBits : Nat) (k : Read) : Read :=
  need ((useD || f.d == 0) && (useA || f.a == 0) && (useB || f.b == 0) && f.imm.toNat < 2 ^ immBits) .reserved k

/-- The policy instruction a word means, or why the load refuses it (R30, R31, R264 codes 2 to 4, R266). Field A of `pview` counts as named for
every item, also for one to which R270 gives no index: R266's row names an index register without a condition (DESIGN CHOICE, log 86). -/
def decodePolicy (w : BitVec 32) : Read :=
  let f := PW.unpack w
  match f.opc.toNat with
  | 0x01 => given (ViewItem.ofCode f.imm.toNat) .code fun it => .ok (.pview it f.d f.a f.b)
  | 0x02 => pwForm f true false false 14 (.ok (.pli f.d f.imm))
  | 0x03 => pwForm f true true true 0 (.ok (.padd f.d f.a f.b))
  | 0x04 => pwForm f true true true 0 (.ok (.psub f.d f.a f.b))
  | 0x05 => pwForm f true true true 0 (.ok (.pand f.d f.a f.b))
  | 0x06 => pwForm f true true true 0 (.ok (.por f.d f.a f.b))
  | 0x07 => pwForm f true true false 5 (.ok (.pshl f.d f.a (f.imm.extractLsb' 0 5)))
  | 0x08 => pwForm f true true false 5 (.ok (.pshr f.d f.a (f.imm.extractLsb' 0 5)))
  | 0x09 => pwForm f true true true 0 (.ok (.pmin f.d f.a f.b))
  | 0x0A => pwForm f true true true 0 (.ok (.pmax f.d f.a f.b))
  | 0x0B => pwForm f true true true 3 (given (Cond.ofCode f.imm.toNat) .code fun c => .ok (.pcmp c f.d f.a f.b))
  | 0x0C => pwForm f true true true 0 (.ok (.psel f.d f.a f.b))
  | 0x0D => pwForm f false true false 14 (.ok (.pbf f.a f.imm))
  | 0x0E => pwForm f false false false 14 (.ok (.pjf f.imm))
  | 0x0F => pwForm f true false false 14 (.ok (.qloop f.d f.imm))
  | 0x10 => pwForm f true false false 14 (.ok (.qnext f.d f.imm))
  | 0x11 => pwForm f false true false 2 (.ok (.probe f.a (f.imm.extractLsb' 0 2)))
  | 0x12 =>
    match f.imm.toNat with
    | 0 => pwForm f false true true 14 (.ok (.pickDisp f.a f.b))
    | 1 => pwForm f false true false 14 (.ok (.pickGrant f.a))
    | 2 => pwForm f false true false 14 (.ok (.pickFail f.a))
    | 3 => pwForm f false false false 14 (.ok .pickGrantall)
    | _ => .error .reserved
  | 0x13 => pwForm f false true false 0 (.ok (.ppre f.a))
  | 0x14 =>
    match (f.imm.extractLsb' 0 3).toNat with
    | 0 => pwForm f false false false 5 (need (f.imm.extractLsb' 3 2 == 0) .code (.ok .pfaultResume))
    | 1 => pwForm f false false false 5 (need (f.imm.extractLsb' 3 2 == 0) .code (.ok .pfaultRetry))
    | 2 => pwForm f false false false 5 (need (f.imm.extractLsb' 3 2 == 0) .code (.ok .pfaultPark))
    | 3 => pwForm f false false false 5 (need (f.imm.extractLsb' 3 2 == 0) .code (.ok .pfaultKill))
    | 4 => pwForm f false false false 5 (need (f.imm.extractLsb' 3 2 == 0) .code (.ok .pfaultRollback))
    | 5 => pwForm f false true false 5 (.ok (.pfaultHandler f.a (f.imm.extractLsb' 3 2)))
    | _ => pwForm f false true false 5 (.error .code)
  | 0x15 => pwForm f true false false 3 (.ok (.pget f.d (f.imm.extractLsb' 0 3)))
  | 0x16 => pwForm f false true false 3 (.ok (.pkeep f.a (f.imm.extractLsb' 0 3)))
  | 0x17 => pwForm f false false false 0 (.ok .pend)
  | _ => .error .opcode

/-- The header and body of a stream word (R15). -/
structure Header where
  idle : BitVec 10
  gsl : BitVec 4
  gnot : Bool
  gpop : Bool
  deriving DecidableEq, Repr

def headerOf (w : Word) : Header := ⟨w.extractLsb' 54 10, w.extractLsb' 50 4, bitOf w 49, bitOf w 48⟩

def opOf (w : Word) : BitVec 8 := w.extractLsb' 40 8

def hasLit (w : Word) : Bool := bitOf w 39

def bodyOf (w : Word) : BitVec 39 := w.extractLsb' 0 39

/-- The word of a header, OP, LIT and body (R15). -/
def joinWord (h : Header) (op : BitVec 8) (lit : Bool) (body : BitVec 39) : Word :=
  h.idle ++ (h.gsl ++ (bit1 h.gnot ++ (bit1 h.gpop ++ (op ++ (bit1 lit ++ body)))))

/-- Decodes a word, with the literal that follows it when LIT = 1, in a stream's map. -/
def decodeWord (st : StreamId) (w lit : Word) : Read :=
  decode st (opOf w) (if hasLit w then some lit else none) (bodyOf w)

/-- The first of the maps C, A, V, M in which the word is legal (log 13). -/
def decodeFirst (w lit : Word) : Option (StreamId × Instr) :=
  match decodeWord .c w lit with
  | .ok i => some (.c, i)
  | .error _ =>
    match decodeWord .a w lit with
    | .ok i => some (.a, i)
    | .error _ =>
      match decodeWord .v w lit with
      | .ok i => some (.v, i)
      | .error _ =>
        match decodeWord .m w lit with
        | .ok i => some (.m, i)
        | .error _ => none

/-- The instruction this decoder reads from bits numbered as the opcode table numbers them: 32 bits are a policy word (R30);
otherwise bits 63..0 are a stream word and bits 127..64 its literal (R15, R16). Stream words are 64 bits in little-endian order, so
bit k of the word is bit k of the number. -/
def decodeTableWord (nbits w : Nat) : Option Instr :=
  if nbits = 32 then (decodePolicy (BitVec.ofNat 32 w)).toOption
  else (decodeFirst (BitVec.ofNat 64 w) (BitVec.ofNat 64 (w / 2 ^ 64))).map (·.2)

/-! ### Encoding -/

/-- IMM of an immediate: zero when the value is the literal (R21). -/
def Imm.field : Imm → BitVec 22
  | .short v => v
  | .lit _ => 0

def Imm.word : Imm → Option Word
  | .short _ => none
  | .lit v => some v

def Opnd.field : Opnd → BitVec 5
  | .reg x => x.code
  | .lit _ => 0

def Opnd.word : Opnd → Option Word
  | .reg _ => none
  | .lit v => some v

def RegNum.field : RegNum → BitVec 22
  | .short v => 0#10 ++ v
  | .lit _ => 0

def RegNum.word : RegNum → Option Word
  | .short _ => none
  | .lit v => some v

/-- The streams whose map holds the shared scalar class. -/
def scalarStreams : List StreamId := [.c, .a]

/-- The streams whose map holds b, loop, rep and stop. -/
def allStreams : List StreamId := [.c, .a, .v, .m]

def encS3 (sts : List StreamId) (op : BitVec 8) (sa sb : BitVec 5) (ws : WS) (sc : BitVec 5) (x : BitVec 16) (d : Dst) : Code :=
  .stream sts op none (S3.pack ⟨sa, sb, denOf d, dnOf d, ws.w.code, ws.s, sc, x⟩)

/-- W = 0 and S = 0 (R46). -/
def noWS : WS := ⟨.w64, false⟩

def encBinary (op : BitVec 8) (ws : WS) (x y : Src) (d : Dst) : Code := encS3 scalarStreams op x.code y.code ws 0 0 d

def encSI (sts : List StreamId) (op : BitVec 8) (sa : BitVec 5) (ws : WS) (cnd : BitVec 4) (i : BitVec 22) (l : Option Word)
    (d : Dst) : Code :=
  .stream sts op l (SI.pack ⟨sa, denOf d, dnOf d, ws.w.code, ws.s, cnd, i⟩)

def encSB (sts : List StreamId) (op : BitVec 8) (sa : BitVec 5) (k : BitVec 4) (off : BitVec 24) : Code :=
  .stream sts op none (SB.pack ⟨sa, k, 0, off⟩)

def encST (sts : List StreamId) (op : BitVec 8) (sa : BitVec 5) (l : Option Word) (keep : Bool) (t : TileRef) (d : Dst) : Code :=
  .stream sts op l (ST.pack ⟨sa, denOf d, dnOf d, t.code, t.rg, keep, 0⟩)

def encAX (st : StreamId) (op : BitVec 8) (sa sb : BitVec 5) (l : Option Word) (r t : BitVec 8) (rg : Bool) (f : BitVec 4)
    (m : BitVec 3) (d : Dst) : Code :=
  .stream [st] op l (AX.pack ⟨sa, sb, r, t, rg, denOf d, dnOf d, f, m⟩)

def encMem (st : StreamId) (op : BitVec 8) (ws : WS) (base y : Src) (disp : BitVec 16) (f : BitVec 4) (d : Dst) : Code :=
  encAX st op base.code y.code none (disp.extractLsb' 8 8) (disp.extractLsb' 0 8) false f (bit1 ws.s ++ ws.w.code) d

def encV3 (op : BitVec 8) (t : LaneTy) (r : Rnd) (mk : Bool) (x y z : VSrc) (sub : BitVec 7) (d : VDst) : Code :=
  .stream [.v] op none (V3.pack ⟨x.code, y.code, z.code, denOf d, dnOf d, BitVec.ofNat 4 t.code, BitVec.ofNat 3 r.code, mk, sub⟩)

/-- Specifier zero in a field that is not used. -/
def vz : VSrc := .belt 0

def encVI (op : BitVec 8) (a : BitVec 6) (t : BitVec 4) (mk : Bool) (den : Bool) (dn : BitVec 5) (i : BitVec 22)
    (l : Option Word) : Code :=
  .stream [.v] op l (VI.pack ⟨a, den, dn, t, mk, i⟩)

def encVT (op : BitVec 8) (a : VSrc) (ad : VAddr) (t : TileRef) (d : VDst) : Code :=
  .stream [.v] op none (VT.pack ⟨a.code, ad.ix, ad.inc, denOf d, dnOf d, t.code, t.rg, ad.masked, ad.off⟩)

def encVB (op : BitVec 8) (a : VSrc) (d : VDst) (off : BitVec 24) : Code :=
  .stream [.v] op none (VB.pack ⟨a.code, denOf d, dnOf d, 0, off⟩)

def encPW (opc : BitVec 6) (d a b : BitVec 4) (imm : BitVec 14) : Code := .policy (PW.pack ⟨opc, d, a, b, imm⟩)

/-- G and K of the tile commands (R202). -/
def grpField (g : Option (BitVec 4)) : BitVec 4 := g.getD 0

def grpBit (g : Option (BitVec 4)) : BitVec 1 := bit1 g.isSome

/-- The encoding of an instruction (R22 to R30). -/
def encode : Instr → Code
  | .nop => .stream scalarStreams 0x00 none 0
  | .add ws x y d => encBinary 0x10 ws x y d
  | .sub ws x y d => encBinary 0x11 ws x y d
  | .mul ws x y d => encBinary 0x12 ws x y d
  | .mulh ws x y d => encBinary 0x13 ws x y d
  | .div ws x y d => encBinary 0x14 ws x y d
  | .rem ws x y d => encBinary 0x15 ws x y d
  | .and ws x y d => encBinary 0x16 ws x y d
  | .or ws x y d => encBinary 0x17 ws x y d
  | .xor ws x y d => encBinary 0x18 ws x y d
  | .andn ws x y d => encBinary 0x19 ws x y d
  | .shl ws x y d => encBinary 0x1A ws x y d
  | .shr ws x y d => encBinary 0x1B ws x y d
  | .sar ws x y d => encBinary 0x1C ws x y d
  | .rot ws x y d => encBinary 0x1D ws x y d
  | .min ws x y d => encBinary 0x1E ws x y d
  | .max ws x y d => encBinary 0x1F ws x y d
  | .cmp c ws x y d => encS3 scalarStreams 0x20 x.code y.code ws 0 (BitVec.ofNat 16 c.code) d
  | .sel c x y d => encS3 scalarStreams 0x21 c.code x.code noWS y.code 0 d
  | .clz ws x d => encS3 scalarStreams 0x22 x.code 0 ws 0 0 d
  | .popc ws x d => encS3 scalarStreams 0x23 x.code 0 ws 0 0 d
  | .bext s x pos len1 d => encS3 scalarStreams 0x24 x.code 0 ⟨.w64, s⟩ 0 (0#4 ++ (pos ++ len1)) d
  | .bins x v sh pos len1 d => encS3 scalarStreams 0x25 x.code v.code noWS sh.code (0#4 ++ (pos ++ len1)) d
  | .ext ws x d => encS3 scalarStreams 0x26 x.code 0 ws 0 0 d
  | .lea x y z k d => encS3 scalarStreams 0x27 x.code y.code noWS z.code (0#13 ++ k) d
  | .mov x d => encS3 scalarStreams 0x28 x.code 0 noWS 0 0 d
  | .addi ws x i d => encSI scalarStreams 0x29 x.code ws 0 i.field i.word d
  | .andi ws x i d => encSI scalarStreams 0x2A x.code ws 0 i.field i.word d
  | .ori ws x i d => encSI scalarStreams 0x2B x.code ws 0 i.field i.word d
  | .xori ws x i d => encSI scalarStreams 0x2C x.code ws 0 i.field i.word d
  | .shi k ws x i d => encSI scalarStreams 0x2D x.code ws (BitVec.ofNat 4 k.code) i.field i.word d
  | .cmpi c ws x i d => encSI scalarStreams 0x2E x.code ws (BitVec.ofNat 4 c.code) i.field i.word d
  | .lit ws i d => encSI scalarStreams 0x2F 0 ws 0 i.field i.word d
  | .b off => encSB allStreams 0x40 0 0 off
  | .bc c x off => encSB scalarStreams 0x41 x.code (BitVec.ofNat 4 c.code) off
  | .jmp x => encSB [.c] 0x44 x.code 0 0
  | .call off => encSB [.c] 0x42 0 0 off
  | .ret => encSB [.c] 0x43 0 0 0
  | .loop k off => encSB allStreams 0x45 0 (0#2 ++ k) off
  | .repImm n => encSB allStreams 0x46 0 1 (0#11 ++ n)
  | .repOperand x => encSB scalarStreams 0x46 x.code 0 0
  | .go ga gv gm => encSB [.c] 0x47 0 (0#1 ++ (bit1 gm ++ (bit1 gv ++ bit1 ga))) 0
  | .stop => encSB allStreams 0x48 0 0 0
  | .gpush x n => encSB scalarStreams 0x49 x.code n 0
  | .gflush n => encSB [.c] 0x4A 0 n 0
  | .wtw x t => encST scalarStreams 0x4B x.field x.word false t none
  | .rtw keep t d => encST scalarStreams 0x4C 0 none keep t d
  | .tstate t d => encST [.c] 0x4D 0 none false t d
  | .lcyc d => encS3 [.c] 0x4E 0 0 noWS 0 0 d
  | .self d => encS3 [.c] 0x4F 0 0 noWS 0 0 d
  | .ld ws base idx disp d => encMem .c 0x50 ws base idx disp 0 d
  | .st w base val disp => encMem .c 0x51 ⟨w, false⟩ base val disp 0 none
  | .ldx ws base idx disp d => encMem .c 0x52 ws base idx disp 0 d
  | .stx w base val disp => encMem .c 0x53 ⟨w, false⟩ base val disp 0 none
  | .mark => .stream [.c] 0x54 none 0
  | .linv base len disp => encMem .c 0x55 noWS base len disp 0 none
  | .aop o ws base val disp d => encMem .c 0x56 ws base val disp (BitVec.ofNat 4 o.code) d
  | .wadr c ws base val disp d => encMem .c 0x57 ws base val disp (BitVec.ofNat 4 c.code) d
  | .ldA ws base idx disp d => encMem .a 0x50 ws base idx disp 0 d
  | .stA w base val disp => encMem .a 0x51 ⟨w, false⟩ base val disp 0 none
  | .gjoin key d => encS3 [.c] 0x60 key.code 0 noWS 0 0 d
  | .gleave key d => encS3 [.c] 0x61 key.code 0 noWS 0 0 d
  | .gbar key d => encS3 [.c] 0x62 key.code 0 noWS 0 0 d
  | .spawn r q d => encS3 [.c] 0x68 r.code q.code noWS 0 0 d
  | .done => .stream [.c] 0x69 none 0
  | .grab r d => encS3 [.c] 0x6A r.code 0 noWS 0 0 d
  | .rngset ctl start stop => encS3 [.c] 0x6B ctl.code start.code noWS stop.code 0 none
  | .yield d => encS3 [.c] 0x6C 0 0 noWS 0 0 d
  | .ckpt d => encS3 [.c] 0x6D 0 0 noWS 0 0 d
  | .fsplit shape list d => encS3 [.c] 0x70 list.code 0 noWS 0 (0#12 ++ shape) d
  | .ffuse tr shape d => encS3 [.c] 0x71 0 0 noWS 0 (0#11 ++ (bit1 tr ++ shape)) d
  | .fchain west d => encS3 [.c] 0x72 0 0 noWS 0 (0#15 ++ bit1 west) d
  | .funchain west d => encS3 [.c] 0x73 0 0 noWS 0 (0#15 ++ bit1 west) d
  | .fquery d => encS3 [.c] 0x74 0 0 noWS 0 0 d
  | .smopen cfg hbase d => encAX .c 0x78 cfg.code hbase.code none 0 0 false 0 0 d
  | .smapp h list d => encAX .c 0x79 h.code list.code none 0 0 false 0 0 d
  | .smprop h t d1 lmin d => encAX .c 0x7A h.code 0 none 0 t.code t.rg d1 lmin d
  | .smsave h dva d => encAX .c 0x7B h.code dva.code none 0 0 false 0 0 d
  | .smload cfg hbase dva d => encAX .c 0x7C cfg.code hbase.code none 0 (0#3 ++ dva.code) false 0 0 d
  | .smclose h d => encAX .c 0x7D h.code 0 none 0 0 false 0 0 d
  | .draw key ctr d => encS3 [.c] 0x7E key.code ctr.code noWS 0 0 d
  | .tacc g desc dw d => encAX .c 0x7F desc.code dw.code none 0 0 false (0#3 ++ bit1 g) 0 d
  | .tsamp g desc pos d => encAX .c 0x80 desc.code pos.code none 0 0 false (0#3 ++ bit1 g) 0 d
  | .trap i => encSI [.c] 0xF0 0 noWS 0 i.field i.word none
  | .brk i => encSI [.c] 0xF3 0 noWS 0 i.field i.word none
  | .sysr r d => encSI [.c] 0xF1 0 noWS 0 r.field r.word d
  | .sysw v r => encSI [.c] 0xF2 v.code noWS 0 r.field r.word none
  | .faultreq v viaLit => encSI [.c] 0xF2 v.code noWS 0 (if viaLit then 0 else 0x020) (if viaLit then some 0x020 else none) none
  | .ptst strip x l d => encSI [.c] 0xF4 x.code noWS (0#3 ++ bit1 strip) 0 l d
  | .brec r addr => encAX .a 0x80 addr.code 0 none r 0 false 0 0 none
  | .tld g sc r t off s => encAX .a 0x81 off.code s.code none r t.code t.rg (grpField g) (0#1 ++ (bit1 sc ++ grpBit g)) none
  | .tst g r t off => encAX .a 0x82 off.code 0 none r t.code t.rg (grpField g) (0#2 ++ grpBit g) none
  | .tgat r t off x => encAX .a 0x83 off.code x.code none r t.code t.rg 0 0 none
  | .tsca r t off x => encAX .a 0x84 off.code x.code none r t.code t.rg 0 0 none
  | .tcfg clr n desc => encAX .a 0x85 desc.code 0 none 0 n false 0 (0#2 ++ bit1 clr) none
  | .rcfg clr n first n1 => encAX .a 0x86 0 0 none first (0#3 ++ n) true n1 (0#2 ++ bit1 clr) none
  | .tfree t => encAX .a 0x87 0 0 none 0 t.code t.rg 0 0 none
  | .nset hi nest level count y => encAX .a 0x88 count.code y.field y.word (hi ++ (nest ++ level)) 0 false 0 0 none
  | .ncopy dir k nest r lbase gop =>
    encAX .a 0x89 lbase.code gop.code none r (0#6 ++ nest) false k (0#1 ++ BitVec.ofNat 2 dir.code) none
  | .tlsp t addr stride => encAX .a 0x8A addr.code stride.code none 0 t.code t.rg 0 0 none
  | .tssp t addr stride => encAX .a 0x8B addr.code stride.code none 0 t.code t.rg 0 0 none
  | .send route dst src => encAX .a 0x8C dst.code src.code none 0 0 false 0 (0#1 ++ BitVec.ofNat 2 route.code) none
  | .sendf route dst src val =>
    encAX .a 0x8D dst.code src.field src.word 0 (0#3 ++ val.code) false 0 (0#1 ++ BitVec.ofNat 2 route.code) none
  | .flag route dst val => encAX .a 0x8E dst.code val.field val.word 0 0 false 0 (0#1 ++ BitVec.ofNat 2 route.code) none
  | .gamo o ws r off val c d =>
    encAX .a 0x8F off.code val.field val.word r (0#3 ++ c.code) false (BitVec.ofNat 4 o.code) (bit1 ws.s ++ ws.w.code) d
  | .fence sc d => encAX .a 0x90 0 0 none 0 0 false (BitVec.ofNat 4 sc.code) 0 d
  | .pfch r off len => encAX .a 0x91 off.code len.code none r 0 false 0 0 none
  | .fltopen s dsel mode cf => encAX .a 0x92 mode.code cf.field cf.word (0#1 ++ (dsel ++ s)) 0 false 0 0 none
  | .fltclose s dsel dst => encAX .a 0x93 dst.code 0 none (0#1 ++ (dsel ++ s)) 0 false 0 0 none
  | .vadd t r mk x y d => encV3 0x10 t r mk x y vz 0 d
  | .vsub t r mk x y d => encV3 0x11 t r mk x y vz 0 d
  | .vmul t r mk x y d => encV3 0x12 t r mk x y vz 0 d
  | .vfma t r mk x y z d => encV3 0x13 t r mk x y z 0 d
  | .vfms t r mk x y z d => encV3 0x14 t r mk x y z 0 d
  | .vmin t mk x y d => encV3 0x15 t .rne mk x y vz 0 d
  | .vmax t mk x y d => encV3 0x16 t .rne mk x y vz 0 d
  | .vabs t mk x d => encV3 0x17 t .rne mk x vz vz 0 d
  | .vneg t mk x d => encV3 0x18 t .rne mk x vz vz 0 d
  | .vand t mk x y d => encV3 0x19 t .rne mk x y vz 0 d
  | .vor t mk x y d => encV3 0x1A t .rne mk x y vz 0 d
  | .vxor t mk x y d => encV3 0x1B t .rne mk x y vz 0 d
  | .vshl t mk x y d => encV3 0x1C t .rne mk x y vz 0 d
  | .vshr t mk x y d => encV3 0x1D t .rne mk x y vz 0 d
  | .vsar t mk x y d => encV3 0x1E t .rne mk x y vz 0 d
  | .vcmp c t mk x y d => encV3 0x1F t .rne mk x y vz (BitVec.ofNat 7 c.code) d
  | .vsel t mk x y z d => encV3 0x20 t .rne mk x y z 0 d
  | .vrcp t r mk x d => encV3 0x21 t r mk x vz vz 0 d
  | .vrsq t r mk x d => encV3 0x22 t r mk x vz vz 0 d
  | .vexp2 t r mk x d => encV3 0x23 t r mk x vz vz 0 d
  | .vlog2 t r mk x d => encV3 0x24 t r mk x vz vz 0 d
  | .vclamp t mk x y z d => encV3 0x25 t .rne mk x y z 0 d
  | .vmov mk x d => encV3 0x26 .f32 .rne mk x vz vz 0 d
  | .vlit mk i d => encVI 0x27 0 0 mk (denOf d) (dnOf d) i.field i.word
  | .vaddi t mk x i d => encVI 0x2B x.code (BitVec.ofNat 4 t.code) mk (denOf d) (dnOf d) i.field i.word
  | .vdot4 t mk x y z d => encV3 0x28 t .rne mk x y z 0 d
  | .vrsh t mk x y d => encV3 0x29 t .rne mk x y vz 0 d
  | .vmulq mk x y d => encV3 0x2A .s32 .rne mk x y vz 0 d
  | .vredadd t r mk x d => encV3 0x30 t r mk x vz vz 0 d
  | .vredmax t mk x d => encV3 0x31 t .rne mk x vz vz 0 d
  | .vredmin t mk x d => encV3 0x32 t .rne mk x vz vz 0 d
  | .vscan t r mk x d => encV3 0x33 t r mk x vz vz 0 d
  | .vperm mk x y d => encV3 0x34 .f32 .rne mk x y vz 0 d
  | .vrot mk x y d => encV3 0x35 .f32 .rne mk x y vz 0 d
  | .vbcast mk x y d => encV3 0x36 .f32 .rne mk x y vz 0 d
  | .vargmax t mk x d => encV3 0x37 t .rne mk x vz vz 0 d
  | .iset n (.val i) => encVI 0x4C 0 0 false false (0#2 ++ n) i.field i.word
  | .iset n (.step i) => encVI 0x4C 0 1 false false (0#2 ++ n) i.field i.word
  | .iset n (.lim i) => encVI 0x4C 0 2 false false (0#2 ++ n) i.field i.word
  | .iset n (.vec x i) => encVI 0x4C x.code 3 false false (0#2 ++ n) i.field i.word
  | .iadd n i => encVI 0x4D 0 0 false false (0#2 ++ n) i.field i.word
  | .vmpush x => encVB 0x50 x none 0
  | .vminv => encVB 0x51 vz none 0
  | .vmpop => encVB 0x52 vz none 0
  | .vmget d => encVB 0x55 vz d 0
  | .vbnone off => encVB 0x53 vz none off
  | .vbany off => encVB 0x54 vz none off
  | .vld ad d => encVT 0x58 vz ad (.tile 0) d
  | .vst x ad => encVT 0x59 x ad (.tile 0) none
  | .vldx x ad d => encVT 0x5C x ad (.tile 0) d
  | .vldt t ad d => encVT 0x5A vz ad t d
  | .vstt x t ad => encVT 0x5B x ad t none
  | .vcvt dt st r mk h x y d =>
    encV3 0x60 dt r mk x y vz (0#2 ++ (bit1 h ++ (0#1 ++ BitVec.ofNat 3 st.code))) d
  | .vqnt f t r o mk x y d => encV3 0x61 t r mk x y vz (0#1 ++ (BitVec.ofNat 2 o.code ++ BitVec.ofNat 4 f.code)) d
  | .vdeq f t r mk x y d => encV3 0x62 t r mk x y vz (0#3 ++ BitVec.ofNat 4 f.code) d
  | .vbsc f t x d => encV3 0x63 t .rne false x vz vz (0#3 ++ BitVec.ofNat 4 f.code) d
  | .vsce toE8 mk x d => encV3 0x64 .s8 .rne mk x vz vz (if toE8 then 0x0C else 0x06) d
  | .vpak f half g x y d => encV3 0x65 (if half then .z16 else .z32) .rne false x y vz (g ++ BitVec.ofNat 4 f.code) d
  | .vupk f half g x d => encV3 0x66 (if half then .z16 else .z32) .rne false x vz vz (g ++ BitVec.ofNat 4 f.code) d
  | .vdph n => encVI 0x67 0 0 false false 0 (0#17 ++ n) none
  | .vmirror n on => encVI 0x70 0 0 false false n (0#21 ++ bit1 on) none
  | .mma p fa fb ra rb => .stream [.m] 0x10 none (MM.pack ⟨p, BitVec.ofNat 4 fa.code, BitVec.ofNat 4 fb.code, ra, rb, 0⟩)
  | .sacc p acc ra rb => .stream [.m] 0x11 none (MS.pack ⟨p, acc, ra, rb, false, 0⟩)
  | .saccI p acc ra rb => .stream [.m] 0x11 none (MS.pack ⟨p, acc, ra, rb, true, 0⟩)
  | .macz acc => .stream [.m] 0x12 none (MS.pack ⟨false, acc, 0, 0, false, 0⟩)
  | .mdrain acc t ch fmt rnd ov int clr dsh =>
    .stream [.m] 0x13 none (MD.pack ⟨acc, t.code, t.rg, ch, BitVec.ofNat 4 fmt.code, BitVec.ofNat 3 rnd.code,
      BitVec.ofNat 2 ov.code, dsh ++ (bit1 clr ++ bit1 int), 0⟩)
  | .mload acc t fmt => .stream [.m] 0x14 none (MD.pack ⟨acc, t.code, t.rg, false, BitVec.ofNat 4 fmt.code, 0, 0, 0, 0⟩)
  | .mchk t => .stream [.m] 0x15 none (MD.pack ⟨0, t.code, t.rg, false, 0, 0, 0, 0, 0⟩)
  | .pview it d a b => encPW 0x01 d a b (BitVec.ofNat 14 it.code)
  | .pli d imm => encPW 0x02 d 0 0 imm
  | .padd d a b => encPW 0x03 d a b 0
  | .psub d a b => encPW 0x04 d a b 0
  | .pand d a b => encPW 0x05 d a b 0
  | .por d a b => encPW 0x06 d a b 0
  | .pshl d a n => encPW 0x07 d a 0 (0#9 ++ n)
  | .pshr d a n => encPW 0x08 d a 0 (0#9 ++ n)
  | .pmin d a b => encPW 0x09 d a b 0
  | .pmax d a b => encPW 0x0A d a b 0
  | .pcmp c d a b => encPW 0x0B d a b (BitVec.ofNat 14 c.code)
  | .psel d a b => encPW 0x0C d a b 0
  | .pbf a off => encPW 0x0D 0 a 0 off
  | .pjf off => encPW 0x0E 0 0 0 off
  | .qloop d off => encPW 0x0F d 0 0 off
  | .qnext d off => encPW 0x10 d 0 0 off
  | .probe a k => encPW 0x11 0 a 0 (0#12 ++ k)
  | .pickDisp a b => encPW 0x12 0 a b 0
  | .pickGrant a => encPW 0x12 0 a 0 1
  | .pickFail a => encPW 0x12 0 a 0 2
  | .pickGrantall => encPW 0x12 0 0 0 3
  | .ppre a => encPW 0x13 0 a 0 0
  | .pfaultResume => encPW 0x14 0 0 0 0
  | .pfaultRetry => encPW 0x14 0 0 0 1
  | .pfaultPark => encPW 0x14 0 0 0 2
  | .pfaultKill => encPW 0x14 0 0 0 3
  | .pfaultRollback => encPW 0x14 0 0 0 4
  | .pfaultHandler a s => encPW 0x14 0 a 0 (0#9 ++ (s ++ 5#3))
  | .pget d k => encPW 0x15 d 0 0 (0#11 ++ k)
  | .pkeep a k => encPW 0x16 0 a 0 (0#11 ++ k)
  | .pend => encPW 0x17 0 0 0 0
  | _ => .none

/-- Decodes what an encoding holds: in one of its streams, or as a policy word. -/
def decodeCode (st : StreamId) : Code → Option Instr
  | .stream _ op lit body => (decode st op lit body).toOption
  | .policy w => (decodePolicy w).toOption
  | .none => none

/-- The streams an encoding is legal in; a policy word belongs to none. -/
def Code.streams : Code → List StreamId
  | .stream sts _ _ _ => sts
  | _ => []

end Sys2Proof
end

