-- ==== Sys2Proof/Machine/Sparse.lean ====
section
/-! DEFINITION. Sparse arrays: a list of (key, value) pairs with keys strictly rising and no value equal to what an unlisted key
reads as, so that equal arrays are equal lists. Memories, register files and accumulators are held this way. -/

namespace Sys2Proof.Machine

/-- A sparse array. -/
abbrev Sparse (α : Type) := List (Nat × α)

/-- The value at a key; d is what an unlisted key reads as. -/
def sget {α : Type} (d : α) : Sparse α → Nat → α
  | [], _ => d
  | (k, v) :: r, n => if n = k then v else sget d r n

/-- The array with the key removed. -/
def serase {α : Type} : Sparse α → Nat → Sparse α
  | [], _ => []
  | (k, v) :: r, n => if n = k then serase r n else (k, v) :: serase r n

/-- The array with the pair put at its place. -/
def sinsert {α : Type} : Sparse α → Nat → α → Sparse α
  | [], n, x => [(n, x)]
  | (k, v) :: r, n, x =>
    if n < k then (n, x) :: (k, v) :: r
    else if n = k then (n, x) :: r
    else (k, v) :: sinsert r n x

/-- Writes a value at a key: writing what an unlisted key reads as removes the entry. -/
def sset {α : Type} [DecidableEq α] (d : α) (m : Sparse α) (n : Nat) (x : α) : Sparse α :=
  if x = d then serase m n else sinsert m n x

/-- n values from key k on. -/
def sdense {α : Type} (d : α) : Nat → Nat → Sparse α → List α
  | 0, _, _ => []
  | n + 1, k, [] => d :: sdense d n (k + 1) []
  | n + 1, k, (j, v) :: r => if j = k then v :: sdense d n (k + 1) r else d :: sdense d n (k + 1) ((j, v) :: r)

/-- The sparse array of a list of values from key k on. -/
def sparseOf {α : Type} [DecidableEq α] (d : α) : Nat → List α → Sparse α
  | _, [] => []
  | k, x :: r => if x = d then sparseOf d (k + 1) r else (k, x) :: sparseOf d (k + 1) r

/-- The entries whose keys lie in the n keys from a on. -/
def swin {α : Type} (m : Sparse α) (a n : Nat) : Sparse α := m.filter fun c => decide (a ≤ c.1) && decide (c.1 < a + n)

/-- Keys strictly rising above a bound. -/
def srising {α : Type} : Option Nat → Sparse α → Bool
  | _, [] => true
  | none, (k, _) :: r => srising (some k) r
  | some b, (k, _) :: r => decide (b < k) && srising (some k) r

/-- The n values from key a on. -/
def sread {α : Type} (d : α) (m : Sparse α) (a n : Nat) : List α :=
  let w := swin m a n
  if srising none w then sdense d n a w else (List.range n).map fun i => sget d w (a + i)

/-- The array with a list of values written from key a on. -/
def sput {α : Type} [DecidableEq α] (d : α) (m : Sparse α) (a : Nat) (xs : List α) : Sparse α :=
  (m.filter fun c => decide (c.1 < a)) ++ (sparseOf d a xs ++ m.filter fun c => decide (a + xs.length ≤ c.1))

/-- The canonical form: keys strictly rising and no entry equal to the default. -/
def swf {α : Type} [DecidableEq α] (d : α) (m : Sparse α) : Bool :=
  srising none m && m.all fun p => p.2 != d

end Sys2Proof.Machine
end

