-- ==== Sys2Proof/Machine/State.lean ====
section
/-! DEFINITION. The state of the Thastan 8160: every piece of state spec/ names, as plain data (INVENTORY.md lists each with its
rule and its value at reset), and the machine right after reset. -/

namespace Sys2Proof.Machine

/-! ### Stops -/

/-- Why the machine stops. -/
inductive Fault where
  /-- Raised by every meaning of a stream or policy instruction when no stream or decision is issuing it: no step reaches it, since
  step issues an instruction only for a stream or decision it has named in `cur`. Safe (log 10). -/
  | noIssuer
  deriving DecidableEq, Repr

/-- Why an instruction is refused. -/
inductive Refusal where
  /-- Answered by exec for a constructor with no meaning yet: no constructor is left so. Safe. -/
  | notModelled (mnemonic : String)
  deriving DecidableEq, Repr

/-! ### Values -/

/-- A belt entry or named register of the C and A streams (R40 to R44): value bits, void mark, poison mark, and the result the value
waits for (R50, R226, R227). -/
structure Val where
  void : Bool := false
  bits : Word := 0
  mark : Mark := none
  wait : Option Nat := none
  deriving DecidableEq, Repr

/-- A void entry: reads 0, clean (R41). -/
def Val.empty : Val := { void := true }

/-- A clean valid value. -/
def Val.ofWord (w : Word) : Val := { bits := w }

/-- One lane of a vector (R130). -/
structure Lane where
  bits : BitVec 32 := 0
  mark : Mark := none
  deriving DecidableEq, Repr

/-- A vector, a void entry of the vector belt (R132), or a load's result that is not yet there, with the lanes it does not change; and the
cycle from which it is read without a stall (R50, R151). A register never written has no lanes listed and reads zeros. -/
structure Vec where
  void : Bool := false
  lanes : List Lane := []
  wait : Option Nat := none
  at_ : Nat := 0
  deriving DecidableEq, Repr

/-- A byte memory with poison marks kept by unit (8-byte words of a scratchpad, 64-byte granules and lines elsewhere). -/
structure Mem where
  cells : Sparse (BitVec 8) := []
  marks : Sparse Mark := []
  deriving DecidableEq, Repr

/-- An accumulator element: 36 bits and its mark (R109). -/
structure AccCell where
  bits : BitVec 36 := 0
  mark : Mark := none
  deriving DecidableEq, Repr

/-- A block-partial element: the BP form and its mark (R111). -/
structure BpCell where
  bits : BitVec 128 := 0
  mark : Mark := none
  deriving DecidableEq, Repr

/-! ### Cores, dies, clusters, rails -/

/-- A line of the C-stream L1: its local line number, its bytes and the marks of its eight words, and whether its byte parity is wrong
(R87). -/
structure L1Line where
  line : Nat
  bytes : List (BitVec 8)
  marks : List Mark
  bad : Bool := false
  deriving DecidableEq, Repr

/-- A combined translation held by a TLB (R213): partition, context, virtual page, physical page, and the permissions both stages
grant. -/
structure TlbEntry where
  part : Nat
  ctx : Option (BitVec 24)
  page : Nat
  phys : Nat
  rd : Bool
  wr : Bool
  atomic : Bool
  deriving DecidableEq, Repr

/-- A page whose walk is pending in a die (R213). -/
structure Walk where
  part : Nat
  ctx : Nat
  page : Nat
  deriving DecidableEq, Repr

/-- A boot load under way (R330): what its GO captured of the mailbox, the partition and save slot it has taken, and the lessee it holds the
core for until its thread starts. -/
structure BootLoad where
  img : BitVec 56
  arg : Word
  bq : BitVec 5
  ctx : BitVec 24
  part : Nat
  slot : Nat
  tid : Nat
  deriving DecidableEq, Repr

/-- The boot mailbox of a core (R329). -/
structure Boot where
  img : BitVec 56 := 0
  arg : Word := 0
  state : BitVec 3 := 0
  code : BitVec 8 := 0
  bq : BitVec 5 := 0
  ctx : BitVec 24 := 0
  going : Option BootLoad := none
  deriving DecidableEq, Repr

/-- The condition of an enabled pane (R176): the lessee or holder is a thread. -/
inductive Lease where
  | unleased
  | leased (tid : Nat)
  | held (tid : Nat)
  deriving DecidableEq, Repr

/-- A core and its pane, with its access TLB. `spBad` lists the scratchpad words that hold an uncorrectable error no read has met yet
(R100). -/
structure Core where
  imem : Sparse (Word × Bool) := []
  sp : Mem := {}
  spBad : List Nat := []
  trf : Mem := {}
  acc : List (Sparse AccCell) := [[], [], [], []]
  bp : List (Sparse BpCell) := [[], []]
  l1 : List L1Line := []
  tlb : List TlbEntry := []
  cad : Nat := 1
  lcyc : Word := 0
  passCount : Nat := 0
  mapped : Option Nat := none
  wins : List Word := [0, 0, 0, 0, 0, 0, 0, 0]
  boot : Boot := {}
  lease : Lease := .unleased
  lastCtx : Option (BitVec 24) := none
  disabled : Bool := false
  retiring : Bool := false
  deriving DecidableEq, Repr

/-- A cluster's CLCFG register and its sensors (R331, R337): the written change that waits, if any; `outs` says of which failed sensors the reading
was out of range, so that a neighbour stands in. -/
structure Cluster where
  asn : Bool := false
  part : Nat := 0
  rail : Nat := 0
  pendW : Option Word := none
  thcad : Nat := 1
  temps : List Int := [0, 0, 0]
  failed : List Bool := [false, false, false]
  outs : List Bool := [false, false, false]
  deriving DecidableEq, Repr

/-- A core rail (R335, R336): its register, its current sensors by group, the checks in a row that found too much current at RCAD 16, and
whether its clusters have stopped injecting. -/
structure Rail where
  derate : Bool := false
  phok : Nat := 36
  imeas : Nat := 0
  ilim : Nat := 1100
  rcad : Nat := 1
  inom : Nat := 1100
  overs : Nat := 0
  stopped : Bool := false
  groups : List Int := [0, 0, 0, 0, 0, 0]
  failed : List Bool := [false, false, false, false, false, false]
  outs : List Bool := [false, false, false, false, false, false]
  deriving DecidableEq, Repr

/-- A slot of the suffix-match memory (R278 to R281). -/
structure SmmSlot where
  isOpen : Bool := false
  gen : BitVec 16 := 0
  part : Nat := 0
  ctx : BitVec 24 := 0
  npos : Nat := 0
  mlen : Nat := 0
  mpos : Nat := 0
  evc : Nat := 0
  hlog : Nat := 0
  quota : Nat := 0
  hbase : BitVec 56 := 0
  deriving DecidableEq, Repr

/-- An entry of the suffix index of a die (R281): its slot, its length class, the 64-bit hash and the position. -/
structure SmmEntry where
  slot : Nat
  lc : Nat
  hash : Word
  pos : Nat
  deriving DecidableEq, Repr

/-- One entry of a shortlist (R292). -/
structure Pick where
  id : Nat
  bits : BitVec 32
  deriving DecidableEq, Repr

/-- A logit-filter session (R290 to R293): the exact FULL sum is held in units of 2^-149, with a mark for an infinite term. -/
structure Filter where
  isOpen : Bool := false
  part : Nat := 0
  ctx : BitVec 24 := 0
  k : Nat := 0
  full : Bool := false
  vbase : Nat := 0
  floor : BitVec 32 := 0
  c : BitVec 32 := 0
  nanf : Bool := false
  psn : Mark := none
  count : Nat := 0
  max : BitVec 32 := 0
  sum : Nat := 0
  sumInf : Bool := false
  list : List Pick := []
  deriving DecidableEq, Repr

/-- A line of a bound store on its way to its base die (R290, R292): the storing thread and command, the session and owner it counts for,
its elements as element numbers (offset div z) with their values as binary32, and the mark of the granule. -/
structure FilterLine where
  tid : Nat
  cmd : Nat
  session : Nat
  part : Nat
  ctx : BitVec 24
  vals : List (Nat × BitVec 32)
  mark : Mark
  deriving DecidableEq, Repr

/-- An error-log record (R341). -/
structure LogRec where
  w0 : Word := 0
  wher : Word := 0
  detail : Word := 0
  w3 : Word := 0
  deriving DecidableEq, Repr

/-- A field die: its suffix-match memory, logit-filter sessions, error log, TLB and walks, the lines its L2 slices hold (R12), the rows of its
HBM that its base die has replaced by spare ones, and the lines lost with none left (R339). -/
structure Die where
  smm : Sparse SmmSlot := []
  index : List SmmEntry := []
  filters : List Filter := [{}, {}, {}, {}, {}, {}, {}, {}]
  lines : List FilterLine := []
  log : Sparse LogRec := []
  tlb : List TlbEntry := []
  walks : List Walk := []
  l2 : List Nat := []
  rows : List Nat := []
  retired : List Nat := []
  deriving DecidableEq, Repr

/-! ### Tasks, tiles, commands -/

/-- A task record's eight words (R241). -/
abbrev Record := List Word

/-- The placed rectangle of a fragment (R175): die, core row, core column, and the logarithms of its rows and columns. -/
structure Rect where
  die : Nat := 0
  crow : Nat := 0
  ccol : Nat := 0
  lrows : Nat := 0
  lcols : Nat := 0
  deriving DecidableEq, Repr

/-- The states of a tile (R196). -/
inductive TileSt where
  | free | filling | full | draining
  deriving DecidableEq, Repr

/-- A configured tile: its descriptor word, its state from the cycle `since` and the state before it, its ring, whether a V-stream
writer holds it (R149), the reads by number in progress, and whether the ring consumer that took it has retired (R154, R196). -/
structure Tile where
  desc : Word
  st : TileSt := .free
  prev : TileSt := .free
  since : Nat := 0
  ring : Option Nat := none
  vwriter : Bool := false
  reads : Nat := 0
  isOver : Bool := false
  deriving DecidableEq, Repr

/-- A configured ring (R194, R197): first tile, length, head and tail offsets, how many tiles consumers and writers hold, and the head before
the cycle `headSince`, from which the head stands as it does (R77, R78). -/
structure Ring where
  first : Nat
  n : Nat
  head : Nat := 0
  tail : Nat := 0
  rtake : Nat := 0
  wtake : Nat := 0
  headWas : Nat := 0
  headSince : Nat := 0
  deriving DecidableEq, Repr

/-- One level of a copy nest (R206). -/
structure Level where
  c : BitVec 32 := 1
  ss : BitVec 32 := 0
  ds : BitVec 32 := 0
  deriving DecidableEq, Repr

/-- A buffer record's four words (R199). -/
abbrev BufRec := List Word

/-- A tile taken by a command or a matrix operation: its number and its ring, if it was named through one. -/
structure Taken where
  tile : Nat
  ring : Option Nat
  deriving DecidableEq, Repr

/-- An access command in flight or parked (R208, R209, R214, R215): the instruction and its words, its operand values, the captured
record and nest levels, the tile it took, the bytes of its scale or index tile, how many elements it has, the next one, whether it is
parked or waits for a page walk, the packets it has launched that are not yet settled, the first of its elements whose packet was refused or
failed, and the value that a `gamo` brings back. -/
structure Cmd where
  id : Nat
  instr : Instr
  word : Word
  lit : Word
  pc : BitVec 16
  a : Val
  b : Val
  t : Val
  brec : BufRec := [0, 0, 0, 0]
  nest : List Level := []
  taken : Option Taken := none
  auxBytes : List (BitVec 8) := []
  total : Nat := 1
  elem : Nat := 0
  parked : Bool := false
  walking : Bool := false
  packets : List Nat := []
  bad : Option Nat := none
  got : Option Val := none
  deriving DecidableEq, Repr

/-- An access of the C stream in its queues, in program order (R88). -/
inductive CAccess where
  | load (viaL1 : Bool) (ws : WS) (ea : Nat) (id : Nat)
  | store (viaL1 : Bool) (w : Width) (ea : Nat) (v : Val)
  | mark
  | linv (lo hi : Nat)
  | aop (op : AopOp) (ws : WS) (ea : Nat) (v e : Val) (id : Nat)
  deriving DecidableEq, Repr

/-- An access of the V stream to the scratchpad (R147, R150): a load has for each lane the byte offset in its pane, or none for an
inactive lane; a store has its base offset, the active lanes and the values. -/
inductive VAccess where
  | load (addrs : List (Option Nat)) (id : Nat)
  | store (base : Nat) (act : List Bool) (lanes : List Lane)
  /-- The end of a vstt that fills its tile, held until the stores before it are performed (R149, R150). -/
  | full (t : Taken)
  deriving DecidableEq, Repr

/-! ### Streams and threads -/

/-- The run state of a stream (R59): a stopped stream is STOPPED from the cycle given. -/
inductive RunState where
  | notStarted
  | running
  | stopped (since : Nat)
  deriving DecidableEq, Repr

/-- What the head instruction waits for (R314, field WAIT). -/
inductive WaitFor where
  | none | tile | guard | wadr | gbar | join | done | result
  deriving DecidableEq, Repr

/-- What every stream has of its own (R12): run state, program counter, fetch window, entry, idle reference, the counted cycle a resume
or a repetition fixes in place of IDLE, loop counters, repeat state, wait code and latched value, secondary trap, the bounds of its
loop sub-sections (R38: prologue, kernel, epilogue, each first word and length), the WDOG in force since its head began to wait, of a
`gpush` that found its slot Full, the cycle, the guard's value as it was peeked and the slot that its guard pops, if it pops one, the
cycle in which the stream's turn was put behind those of such a `gpush` (R71), and the words of the window that the `tsamp` or `tacc` at a
C stream's head has read ahead of its issue, with their addresses (R353). -/
structure Strm where
  run : RunState := .notStarted
  pc : BitVec 16 := 0
  base : Nat := 0
  words : Nat := 0
  idleRef : Nat := 0
  hold : Option Nat := none
  lc : List Word := [0, 0, 0, 0]
  repCount : Nat := 0
  wait : WaitFor := .none
  latched : Bool := false
  latch : Word := 0
  trap2 : Nat := 0
  subs : List (Nat × Nat) := [(0, 0), (0, 0), (0, 0)]
  wdog : Option Nat := none
  peek : Option (Nat × Bool × Nat) := none
  behind : Option Nat := none
  early : List (Nat × Word × Mark) := []
  deriving DecidableEq, Repr

/-- The belt and named file of a scalar stream (R40, R42). -/
structure Scalar where
  belt : List Val := List.replicate 16 Val.empty
  named : List Val := List.replicate 16 (Val.ofWord 0)
  deriving DecidableEq, Repr

/-- What the C stream is in the middle of at its head. -/
inductive Pending where
  | none
  | yieldAsked
  | yieldDenied
  | yieldSwapped
  | fuseAsked
  | fuseAnswered (status : Nat)
  | barArrived (key : Word)
  | barNext (key : Word)
  | barDone (status : Word)
  | ckptAsked
  | ckptTaken (id : Nat)
  deriving DecidableEq, Repr

/-- What a waiting wadr last read (R95): the idle reference of its place, its 8-byte word, and the word as it stood. -/
structure Polled where
  since : Nat
  unit : Nat
  word : List (Word × Mark)
  deriving DecidableEq, Repr

/-- State of the C stream alone: its registers, its return stack, newest first, its access queue (R63, R88), what its head has begun, what
`fquery` would push as a cycle begins, with that cycle (R188), and what a waiting wadr last read (R95). -/
structure CState where
  regs : Scalar := {}
  stack : List (BitVec 16) := []
  queue : List CAccess := []
  pending : Pending := .none
  query : Option (Nat × Word) := none
  polled : Option Polled := none
  deriving DecidableEq, Repr

/-- The fence counts (R228). -/
structure FenceCounts where
  dead : Nat := 0
  refused : Nat := 0
  poisoned : Nat := 0
  timeout : Nat := 0
  deriving DecidableEq, Repr

/-- State of the A stream alone: its registers, record table, nests, commands in issue order, fence counts. -/
structure AState where
  regs : Scalar := {}
  recs : Sparse BufRec := []
  nests : List (List Level) := List.replicate 4 (List.replicate 6 {})
  cmds : List Cmd := []
  fence : FenceCounts := {}
  deriving DecidableEq, Repr

/-- An index register (R135). -/
structure IndexReg where
  val : BitVec 32 := 0
  step : BitVec 32 := 0
  lim : BitVec 32 := 0
  deriving DecidableEq, Repr

/-- State of the V stream alone (R132 to R137). -/
structure VState where
  belt : List Vec := []
  file : List Vec := List.replicate 32 {}
  idx : List IndexReg := List.replicate 8 {}
  masks : List (List Bool) := []
  mirror : List Bool := List.replicate 32 false
  queue : List VAccess := []
  deriving DecidableEq, Repr

/-- A pass of the field in flight (R157, R170, R172): its parity and tiles, its injections, the cycle of its first one, how many are
still to come and the spacings used so far, the attempt of its stand-in check with the first attempt's mismatches, whether the check has
concluded, and the NV flag it raises when it retires. -/
structure Pass where
  id : Nat
  par : Bool
  a : Taken
  b : Taken
  inj : Nat
  at_ : Nat
  left : Nat
  spacing : Nat
  attempt : Nat := 1
  prior : List PaneCheck := []
  concluded : Bool := false
  nv : Bool := false
  deriving DecidableEq, Repr

/-- A fold in flight (R158, R168, R170): the pass it reads, its mode, bank and scale tiles, the block partials of each pane, and the cycle
from which it may complete, once its pass has retired. -/
structure Fold where
  id : Nat
  passId : Nat
  int : Bool
  acc : Nat
  rs : Taken
  cs : Taken
  part : List (Sparse BpCell)
  due : Option Nat
  deriving DecidableEq, Repr

/-- A drain in flight (R162, R170): its target, the cycle it goes FULL, its flags, and whether it advances the dither phase. -/
structure Drain where
  id : Nat
  taken : Taken
  due : Nat
  flags : BitVec 8
  dth : Bool
  deriving DecidableEq, Repr

/-- A chained drain in flight (R165): the neighbour's ring, the 32-column blocks still to be delivered (each the granules of its rows),
and the delivery in progress with the cycle its tile goes FULL. -/
structure ChainOut where
  id : Nat
  ring : Nat
  blocks : List (List (List (BitVec 8) × Mark))
  going : Option (Taken × Nat) := none
  flags : BitVec 8
  dth : Bool
  deriving DecidableEq, Repr

/-- A load of a bank in flight (R166). -/
structure MLoad where
  id : Nat
  acc : Nat
  taken : Taken
  due : Nat
  deriving DecidableEq, Repr

/-- An operation of the M stream in flight, in program order. -/
inductive MOp where
  | pass (p : Pass)
  | fold (f : Fold)
  | drain (d : Drain)
  | chain (c : ChainOut)
  | load (l : MLoad)
  deriving DecidableEq, Repr

/-- State of the M stream alone (R156, R167, R170): for each parity whether it is HELD, its latest pass, and the cycle that pass retired
in; for each bank the cycle its latest operation completed in; the last cycle in which a pass retired, and the last in which a retry's check
concluded. -/
structure MState where
  held : List Bool := [false, false]
  lastPass : List (Option Nat) := [none, none]
  retAt : List Nat := [0, 0]
  bankAt : List Nat := [0, 0, 0, 0]
  passAt : Option Nat := none
  retryAt : Option Nat := none
  ops : List MOp := []
  trans : Nat := 0
  passes : Nat := 0
  lasting : Bool := false
  unres : Bool := false
  deriving DecidableEq, Repr

/-- The loop unit (R80, R83): S, N and T, the next step, whether a step runs, since when and with what KMAX, and which
streams have arrived. -/
structure LoopUnit where
  s : Nat := 0
  n : Nat := 0
  t : Nat := 0
  step : Nat := 0
  inStep : Bool := false
  ks : Nat := 0
  kmax : Nat := 0
  finished : Bool := false
  arrived : List Bool := [false, false, false, false]
  deriving DecidableEq, Repr

/-- A fault record (R313). -/
structure FaultRec where
  strm : StreamId := .c
  code : Nat := 0
  pc : BitVec 16 := 0
  detail : Word := 0
  stage : Nat := 1
  level : Nat := 0
  va : BitVec 56 := 0
  elem : Nat := 0
  tag : Tag := 0
  deriving DecidableEq, Repr

/-- The checkpoint state (R308): CKST's fields and the full count. -/
structure Ckpt where
  seq : Word := 0
  unlog : Bool := false
  isOpen : Bool := false
  half : Bool := false
  last : Nat := 0
  deriving DecidableEq, Repr

/-- One logged line of the undo log (R320): address, old bytes, old mark. -/
structure UndoLine where
  line : Nat
  bytes : List (BitVec 8)
  mark : Mark
  deriving DecidableEq, Repr

/-- Where a thread is in its life (R244): running; being brought to its boundaries for a save of the REASON given (R313), since the
decision cycle d; saved; trapped; parked. ENDED and KILLED threads are no longer listed. -/
inductive Phase where
  | running
  | saving (reason : Nat) (d : Nat)
  | saved
  | trapped
  | parked
  deriving DecidableEq, Repr

/-- What the FAULT decision chose for the next resume (R276, R301). -/
inductive ResumeAct where
  | plain
  | resume
  | retry
  deriving DecidableEq, Repr

/-- The counters of a thread that sysr reads (R103, R118, R133, R210), with the cycle in which each of SPSTALL.V, C, A and X last
advanced. -/
structure Counters where
  fstat : BitVec 8 := 0
  dph : BitVec 5 := 0
  vstall : Nat := 0
  spV : Nat := 0
  spC : Nat := 0
  spA : Nat := 0
  spX : Nat := 0
  refusedAt : List (Option Nat) := [none, none, none, none]
  pfdrop : Nat := 0
  deriving DecidableEq, Repr

/-- What the hardware keeps of a parked command beside its stored body: its identity, its program counter, the tile it took, the bytes of
its scale or index tile that it read as it issued (R215), and whether it names a tile that the save left out (R254). -/
structure SideCmd where
  id : Nat
  pc : BitVec 16
  taken : Option Taken
  aux : Option (List (BitVec 8)) := none
  lost : Bool := false
  deriving DecidableEq, Repr

/-- What the hardware keeps beside a stored context, one for each half: for each A-stream belt entry and named register the result it
still waits for, the parked commands, and whether the loop unit was inside a step, and whether it was past its last one (log 20). -/
structure Side where
  belt : List (Option Nat) := []
  named : List (Option Nat) := []
  cmds : List SideCmd := []
  place : Option (Bool × Bool) := none
  deriving DecidableEq, Repr

/-- Identity and life of a thread; the cycle of its primary trap (R303), the trap of a parked command that the thread takes once its
other streams wait (R214); the save that is asked of it, and whether that came with a chain partner's pre-emption (R187). -/
structure Life where
  part : Nat := 0
  ctx : BitVec 24 := 0
  rect : Rect := {}
  record : Record := [0, 0, 0, 0, 0, 0, 0, 0]
  queue : Nat := 0
  slot : Nat := 0
  phase : Phase := .running
  fault : FaultRec := {}
  faultCmd : Option Nat := none
  trapping : Bool := false
  trapAt : Option Nat := none
  waitingTrap : Option FaultRec := none
  act : ResumeAct := .plain
  reason : Nat := 0
  start : Nat := 0
  sliceAt : Nat := 0
  sliceLen : Nat := 0
  ckLen : Nat := 0
  asked : Option Nat := none
  mate : Bool := false
  csaHalf : Bool := false
  sides : List Side := [{}, {}]
  ckpt : Ckpt := {}
  undo : List UndoLine := []
  parent : Option Nat := none
  holdAtDone : Bool := false
  chainE : Option Nat := none
  chainW : Option Nat := none
  offerE : Bool := false
  offerW : Bool := false
  keys : List Word := []
  handles : List Word := []
  deriving DecidableEq, Repr

/-- A value in a guard FIFO (R70, R71): the cycle it was pushed in, from whose next cycle it is seen, and the cycle a `gflush` removed it
in, to whose end it is still seen. -/
structure GuardVal where
  val : Bool
  at_ : Nat
  gone : Option Nat := none
  deriving DecidableEq, Repr

/-- What an issued V or M instruction still does at the end of the cycle in which its result is ready: the flags it raises (R119), whether
it advances DPH as it retires (R115), the read of a ring's head that it ends (R149). -/
structure Due where
  at_ : Nat
  sid : StreamId
  flags : BitVec 8 := 0
  phase : Bool := false
  read : Option Taken := none
  deriving DecidableEq, Repr

/-- A thread. -/
structure Thread where
  tid : Nat
  life : Life := {}
  sc : Strm := {}
  sa : Strm := {}
  sv : Strm := {}
  sm : Strm := {}
  c : CState := {}
  a : AState := {}
  v : VState := {}
  m : MState := {}
  guards : List (List GuardVal) := List.replicate 16 []
  tiles : Sparse (Option Tile) := []
  rings : Sparse (Option Ring) := []
  cnt : Counters := {}
  dues : List Due := []
  loop : LoopUnit := {}
  deriving DecidableEq, Repr

/-! ### Partitions -/

/-- A resume entry of a queue (R244): the thread, and its bypass count. -/
structure ResumeEntry where
  tid : Nat
  byp : Nat := 0
  deriving DecidableEq, Repr

/-- A queue (R243, R247): QCFG, QPTR, the age of its first QUEUED record, and its resume entries. -/
structure Queue where
  cfg : Word := 0
  head : BitVec 32 := 0
  tail : BitVec 32 := 0
  age : Nat := 0
  resumes : List ResumeEntry := []
  deriving DecidableEq, Repr

/-- The hooks (R259). -/
inductive Hook where
  | dispatch | preempt | fault
  deriving DecidableEq, Repr

/-- A pending trigger (R259): its hook and CAUSE, and the thread, with its fragment's handle and shape, or the queue it concerns. -/
structure Trigger where
  hook : Hook
  cause : Nat
  tid : Nat := 0
  handle : Nat := 0
  shape : Nat := 0
  queue : Nat := 0
  deriving DecidableEq, Repr

/-- One queue as a decision's snapshot shows it (R270, R271): QCFG fields, depth, resume entries, four descriptors (HIT and PRB apart),
the CTX and HINT of each entry, and whether entry 0 could be placed, with its bypass count. -/
structure QView where
  cfg : BitVec 32 := 0
  depth : Nat := 0
  resumes : Nat := 0
  entries : List (BitVec 32) := [0, 0, 0, 0]
  hints : List (BitVec 24 × Nat) := []
  fit : Bool := false
  byp : Nat := 0
  prio : Nat := 0
  deriving DecidableEq, Repr

/-- A decision's snapshot (R260, R270). -/
structure Snapshot where
  hook : BitVec 32 := 0
  cause : BitVec 32 := 0
  subject : BitVec 32 := 0
  shape : BitVec 32 := 0
  fcode : BitVec 32 := 0
  fvalo : BitVec 32 := 0
  fvahi : BitVec 32 := 0
  fq : BitVec 32 := 0
  queues : List QView := []
  free : List (BitVec 32) := []
  own : List (BitVec 32) := []
  rsv : List (BitVec 32) := []
  frag : List (BitVec 32) := []
  freq : List (BitVec 32) := []
  usage : List (BitVec 32) := []
  deriving DecidableEq, Repr

/-- A DISPATCH output of pick (R273). -/
inductive Verdict where
  | disp (queue place : BitVec 32)
  | grant (k : BitVec 32)
  | fail (k : BitVec 32)
  | grantall
  deriving DecidableEq, Repr

/-- What pfault names (R276). -/
inductive FaultAct where
  | resume | retry | park | kill | rollback
  | handler (queue : BitVec 32) (s : BitVec 2)
  deriving DecidableEq, Repr

/-- A residency probe of a decision (R272): its entry, the line it asks for and whether that was present as the probe issued, and its
answer. -/
structure Probe where
  queue : Nat
  entry : Nat
  line : Nat := 0
  was : Bool := false
  answered : Bool
  hit : Bool
  deriving DecidableEq, Repr

/-- A waiting fuse request (R183). -/
structure FuseReq where
  tid : Nat
  target : Rect
  deriving DecidableEq, Repr

/-- A running decision (R259 to R262): its trigger, its snapshot, the fuse requests it sees, the BYPASS_MAX in force, the policy machine, its
probes with the one whose answer a further probe waits for, and its held outputs. A decision of the fallback has no image. -/
structure Decision where
  trigger : Trigger
  snap : Snapshot
  reqs : List FuseReq := []
  bypassMax : Nat := 64
  pc : Nat := 0
  cycles : Nat := 0
  regs : List (BitVec 32) := List.replicate 16 0
  loops : List (Nat × Nat) := []
  probes : List Probe := []
  probeWait : Option Nat := none
  picks : List Verdict := []
  victim : Option (BitVec 32) := none
  action : Option FaultAct := none
  keeps : List (Nat × BitVec 32) := []
  voids : Nat := 0
  image : List (BitVec 32) := []
  deriving DecidableEq, Repr

/-- The usage counters (R270). -/
structure Usage where
  decisions : BitVec 32 := 0
  dispatched : BitVec 32 := 0
  overrun : BitVec 32 := 0
  malrec : BitVec 32 := 0
  badpick : BitVec 32 := 0
  joinerr : BitVec 32 := 0
  fallback : BitVec 32 := 0
  deriving DecidableEq, Repr

/-- A write of the host that waits for the running decision (R261, R265): of POLICY_SEL, or of a persistent word. -/
inductive PolWrite where
  | sel (v : Word)
  | word (k : Nat) (v : BitVec 32)
  deriving DecidableEq, Repr

/-- The policy side of a partition (R261 to R265, R276): image slots, which were accepted since DIS, POLICY_SEL, persistent words, the writes
of both that wait for the running decision, oldest first, triggers, the running decision, handler slots, usage counters. -/
structure Policy where
  slots : List (List (BitVec 32)) := [[], []]
  window : List (List (BitVec 32)) := [[], []]
  sinceDis : List Bool := [false, false]
  slot : Nat := 0
  dis : Bool := false
  streak : Nat := 0
  pwords : List (BitVec 32) := List.replicate 8 0
  writes : List PolWrite := []
  triggers : List Trigger := []
  running : Option Decision := none
  handlers : List (List Word) := List.replicate 4 (List.replicate 8 0)
  usage : Usage := {}
  loadCode : Nat := 0
  deriving DecidableEq, Repr

/-- The reservation of R247: the queue whose head it is for, and its rectangle. -/
structure Reserve where
  queue : Nat
  rect : Rect
  deriving DecidableEq, Repr

/-- A Ferry range (R250). -/
structure Range where
  next : BitVec 40 := 0
  last : BitVec 40 := 0
  p : BitVec 16 := 0
  m : BitVec 24 := 0
  deriving DecidableEq, Repr

/-- A group-table entry (R232, R233): key, members in joining order, and the open episode: whom it awaits, who has arrived, who waits
for the next one. -/
structure Group where
  key : Word
  members : List Nat
  isOpen : Bool := false
  awaited : List Nat := []
  arrived : List Nat := []
  waitNext : List Nat := []
  deriving DecidableEq, Repr

/-- The settings the hypervisor writes in a partition page (R323, R327). -/
structure Settings where
  spbase : BitVec 56 := 0
  slotlog : Nat := 0
  nslot : Nat := 0
  bypassMax : BitVec 32 := 64
  kmax : BitVec 32 := 16777216
  wdog : BitVec 32 := 0
  slice : BitVec 32 := 0
  ckint : BitVec 32 := 0
  qos : BitVec 32 := 0
  smmq : List Word := List.replicate 8 0x0000200000001000
  proot : BitVec 56 := 0
  ctxtab : Sparse (Word × Word) := []
  deriving DecidableEq, Repr

/-- A command page (R328): the running command, REJ, and the last result; the arguments a running TLBINV or die reset was accepted with. -/
structure CmdPageSt where
  busy : Bool := false
  rej : Bool := false
  op : BitVec 8 := 0
  result : BitVec 8 := 0
  next : BitVec 8 := 0
  arg0 : Word := 0
  arg1 : Word := 0
  inv : Option (Word × Word) := none
  deriving DecidableEq, Repr

/-- Interrupt causes and vectors (R332), and the messages sent, as (cause, vector). -/
structure Ints where
  cause : BitVec 6 := 0
  vec : Word := 0
  sent : List (Nat × Nat) := []
  deriving DecidableEq, Repr

/-- A partition; how many lines the undo log of one save slot holds (R319; log 33), and the save slots of the threads whose save or restore
has met a fault of the partition stage, as they are reported to the host (R311). -/
structure Part where
  set : Settings := {}
  queues : List Queue := List.replicate 32 {}
  pol : Policy := {}
  fuses : List FuseReq := []
  reserve : Option Reserve := none
  ferry : List Range := List.replicate 64 {}
  groups : Sparse (Option Group) := []
  cmd : CmdPageSt := {}
  ints : Ints := {}
  quiesced : Bool := false
  slots : List Nat := []
  undoLines : Nat := 65536
  reports : List Nat := []
  deriving DecidableEq, Repr

/-! ### Interconnect -/

/-- Where a packet is (R236 to R240): at its source's injection point or in the input port of a Carousel stop on its way to a stop;
at the destination core; or in the Ralesk fabric. -/
inductive Where where
  | source
  | port (stop : Nat) (cw : Bool)
  | core
  | fabric
  deriving DecidableEq, Repr

/-- Slots a packet holds in its input port: classes SH, MA, MB and FB (R237). -/
structure Slots where
  sh : Nat := 0
  ma : Nat := 0
  mb : Nat := 0
  fb : Nat := 0
  deriving DecidableEq, Repr

/-- A packet (R220, R237, R240): the sender's package, thread and command with the element it is, destination, the words it carries, the flag that its die sends
after it (R293), and its place in the Carousel; whether its sender has given it up (R228); once its core has admitted it, how many of its words
are written (R223, R225). The thread and command of a packet from another package are that package's. -/
structure Packet where
  id : Nat
  src : Nat
  tid : Nat
  cmd : Nat
  lost : Bool := false
  after : Option (Nat × Word) := none
  part : Nat
  pkg : Nat
  die : Nat
  core : Nat
  off : Nat
  data : List (Word × Mark)
  srcDie : Nat
  exitStop : Nat
  cw : Bool
  forced : Bool
  wher : Where := .source
  mainB : Bool := false
  foot : Bool := false
  held : Slots := {}
  elem : Nat := 0
  taken : Option Nat := none
  deriving DecidableEq, Repr

/-- A permit owed for a slot that a flit of a packet has freed: the packet and the class, 0 SH, 1 MA, 2 MB, 3 FB (R237, R238). -/
structure Owed where
  pkt : Nat
  cls : Nat
  deriving DecidableEq, Repr

/-- A Carousel input port (R237, R238, R343): the permits its upstream holds, the permits owed for slots freed, leading flits first, the
permits that came back in the cycle given, the last cycle in which a packet was placed here, and whether its link is dead. -/
structure Port where
  have_ : Slots := { sh := 16, ma := 4, mb := 4, fb := 4 }
  owed : List Owed := []
  backAt : Nat := 0
  back : Slots := {}
  placedAt : Option Nat := none
  dead : Bool := false
  deriving DecidableEq, Repr

/-- Whose memory a physical line is in (R211, R229). -/
inductive Home where
  | die (d : Nat)
  | host
  | package (p : Nat)
  deriving DecidableEq, Repr

/-- A range of physical addresses with its home. -/
structure HomeRange where
  base : Nat
  size : Nat
  home : Home
  deriving DecidableEq, Repr

/-- A far-cache line: this package's copy of a line homed elsewhere (R229). -/
structure Proxy where
  line : Nat
  bytes : List (BitVec 8)
  mark : Mark
  deriving DecidableEq, Repr

/-- What the flash holds of the defect map (R1, R342): disabled panes, working rows on their stand-ins, dead links by port, failed sensors
and which of them were out of range, HBM rows on spare rows of their base die and HBM lines retired with no spare left, each as (die, number), and for each spare lane in use the
link whose lane it replaces. -/
structure Flash where
  disabled : List Nat := []
  mapped : List (Nat × Nat) := []
  ports : List Nat := []
  fab : List Nat := []
  temps : List (Nat × Nat) := []
  currents : List (Nat × Nat) := []
  tempsOut : List (Nat × Nat) := []
  currentsOut : List (Nat × Nat) := []
  rows : List (Nat × Nat) := []
  retired : List (Nat × Nat) := []
  lanes : List Nat := []
  deriving DecidableEq, Repr

/-- A copy of a line that another package holds in its far cache (R229). -/
structure PeerProxy where
  pkg : Nat
  line : Nat
  bytes : List (BitVec 8)
  mark : Mark
  deriving DecidableEq, Repr

/-- A write of part of a line that its command has performed and that no agent but its writer sees yet (R209, R227, R230; log 18): the thread
and its partition, the line, its bytes and their mark. -/
structure LateWrite where
  tid : Nat
  part : Nat
  line : Nat
  bytes : List (Option (BitVec 8))
  mark : Mark
  deriving DecidableEq, Repr

/-- The device registers (R326, R342), the management controller's counters (R341), whether an emergency image waits for its quiesce
(R325), whether there is power, and the packages that this one does not know (R240). -/
structure Dev where
  pkg : BitVec 12 := 0
  cmd : CmdPageSt := {}
  lasting : Nat := 0
  flashBusy : Bool := false
  ints : Ints := {}
  embase : Word := 0
  emlen : Word := 0
  logIndex : Nat := 0
  logSeq : BitVec 32 := 0
  emerg : Bool := false
  power : Bool := true
  unknown : List Nat := []
  deriving DecidableEq, Repr

/-! ### The machine -/

/-- What an error strikes: a line of the L1 of a core (R87), a scratchpad word (R100), a line in an L2 slice or a far-cache line, a granule
of a tile register file, a lane of a vector register, of a vector belt entry or of a mask, a line of host memory (R304). -/
inductive Upset where
  | l1 (core line : Nat)
  | scratch (core word : Nat)
  | l2 (line : Nat)
  | farCache (line : Nat)
  | tile (core gran : Nat)
  | vreg (tid n lane : Nat)
  | vbelt (tid n lane : Nat)
  | vmask (tid n lane : Nat)
  | host (line : Nat)
  deriving DecidableEq, Repr

/-- The requesters whose refused cycles a thread counts: V, C, A, and remote deliveries (R103). -/
inductive Requester where
  | v | c | a | x
  deriving DecidableEq, Repr

/-- An agent that can move next (log 1). -/
inductive Agent where
  | stream (tid : Nat) (sid : StreamId)
  | access (tid k : Nat)
  | vaccess (tid : Nat)
  | cmd (tid id : Nat)
  /-- The next element of a store is performed, and what it writes is seen later (R227, R230). -/
  | late (tid id : Nat)
  /-- A late write is seen from now on. -/
  | land (k : Nat)
  | policy (p : Nat)
  | event (i : Instr)
  /-- A slice of a die's L2 loads or evicts a line (R12). -/
  | slice (d line : Nat) (load : Bool)
  /-- An error strikes (R87, R100, R304). -/
  | upset (u : Upset)
  /-- A request is refused a bank of the scratchpad (R103). -/
  | refusal (tid : Nat) (r : Requester)
  /-- A packet of another package enters at its fabric port (R240). -/
  | arrival (p : Packet)
  /-- A sampling instruction at a C stream's head reads the next word of shard block k ahead of its issue (R353). -/
  | sampling (tid k : Nat)
  /-- The first words of a packet that is being delivered are written (R223). -/
  | words (pkt n : Nat)
  /-- The first steps of a context's store are done (R316). -/
  | storing (tid n : Nat)
  /-- The first bytes of the emergency image are written (R325). -/
  | imaging (n : Nat)
  /-- A write of GO begins a boot load, and the load ends (R329, R330). -/
  | loading (core : Nat) (v : Word)
  | loaded (core : Nat)
  /-- Another package's copy of a line is invalidated (R229). -/
  | peerForget (pkg line : Nat)
  /-- The host writes memory over its link (R243). -/
  | hostWrite (pa : Nat) (bytes : List (BitVec 8))
  deriving DecidableEq, Repr

/-- The instruction of a stream that is being issued: the thread and stream, its guard fields, its program counter and the one
after it, its counted cycle, and its word and literal. -/
structure Issue where
  tid : Nat
  sid : StreamId
  gsl : BitVec 4 := 0
  gnot : Bool := false
  gpop : Bool := false
  pc : BitVec 16 := 0
  next : BitVec 16 := 0
  counted : Nat := 0
  word : Word := 0
  lit : Word := 0
  deriving DecidableEq, Repr

/-- Who is issuing: nobody, a stream, or a partition's decision. -/
inductive Cur where
  | none
  | stream (k : Issue)
  | policy (p : Nat)
  deriving DecidableEq, Repr

/-- The machine. `hostBad` lists the lines of host memory that the Juron link delivers marked as erroneous (R304); `late` the writes that
are not seen yet, oldest first (R230); `peers` is what other packages' far caches hold, and `peerRead` the last line that one of them has read
(R229); `lanes` names, for each spare lane in use, its link (R339). -/
structure State where
  now : Nat := 0
  fresh : Nat := 0
  nextId : Nat := 0
  cur : Cur := .none
  turns : List Agent := []
  mem : Mem := {}
  proxies : List Proxy := []
  late : List LateWrite := []
  peers : List PeerProxy := []
  peerRead : Option PeerProxy := none
  homes : List HomeRange := []
  hostBad : List Nat := []
  cores : List Core := []
  dies : List Die := []
  clusters : List Cluster := []
  rails : List Rail := []
  parts : List Part := []
  threads : List Thread := []
  packets : List Packet := []
  ports : List Port := []
  fabDead : List Bool := []
  lanes : List Nat := []
  dev : Dev := {}
  flash : Flash := {}
  shadow : Sparse (BitVec 24) := []
  deriving DecidableEq, Repr

/-- The machine right after a device reset (R8, R333): no thread, every pane unleased, memories with nothing listed. -/
def State.reset : State where
  cores := List.replicate 128 {}
  dies := List.replicate 8 {}
  clusters := (List.range 32).map fun c => { rail := c / 8 }
  rails := List.replicate 4 {}
  parts := List.replicate 16 {}
  ports := List.replicate 16 {}
  fabDead := List.replicate 36 false

end Sys2Proof.Machine
end

