-- ==== Sys2Proof/Machine/Mem.lean ====
section
/-! DEFINITION. Bytes, little-endian words, poison marks, and the three kinds of byte memory: scratchpad words (05 R84, R101, R102),
tile granules (10 R191, R202), global lines (10 R202). -/

namespace Sys2Proof.Machine

/-- The lower of two tags: how poison merges (R44, R304). -/
def meet : Mark → Mark → Mark
  | none, b => b
  | some a, none => some a
  | some a, some b => if a.toNat ≤ b.toNat then some a else some b

/-- The merge of a list of marks. -/
def meetAll : List Mark → Mark
  | [] => none
  | m :: r => meet m (meetAll r)

/-- The number a little-endian byte string stands for (R3). -/
def leNat : List (BitVec 8) → Nat
  | [] => 0
  | b :: r => b.toNat + 256 * leNat r

/-- The n low bytes of a number, little-endian. -/
def leBytes : Nat → Nat → List (BitVec 8)
  | 0, _ => []
  | n + 1, x => BitVec.ofNat 8 x :: leBytes n (x / 256)

/-- The eight bytes of a word. -/
def wordBytes (w : Word) : List (BitVec 8) := leBytes 8 w.toNat

/-- The word of a byte string. -/
def wordOf (bs : List (BitVec 8)) : Word := BitVec.ofNat 64 (leNat bs)

/-- Cuts a list into pieces of n elements; the fuel bounds the number of pieces. -/
def pieces {α : Type} (n : Nat) : Nat → List α → List (List α)
  | 0, _ => []
  | f + 1, l => match l with
    | [] => []
    | _ :: _ => l.take n :: pieces n f (l.drop n)

/-- The words of a byte string. -/
def wordsOf (bs : List (BitVec 8)) : List Word := (pieces 8 bs.length bs).map wordOf

/-- Reads one byte. -/
def Mem.byte (m : Mem) (a : Nat) : BitVec 8 := sget 0 m.cells a

/-- Writes one byte. -/
def Mem.setByte (m : Mem) (a : Nat) (b : BitVec 8) : Mem := { m with cells := sset 0 m.cells a b }

/-- The mark of a unit. -/
def Mem.mark (m : Mem) (u : Nat) : Mark := sget none m.marks u

/-- Sets the mark of a unit. -/
def Mem.setMark (m : Mem) (u : Nat) (k : Mark) : Mem := { m with marks := sset none m.marks u k }

/-- The canonical form of a memory: both lists rising with nothing listed that reads as unlisted. -/
def Mem.wf (m : Mem) : Bool := swf 0 m.cells && swf none m.marks

/-- Reads n bytes. -/
def Mem.read (m : Mem) (a n : Nat) : List (BitVec 8) := sread 0 m.cells a n

/-- Writes a byte string. -/
def Mem.write (m : Mem) (a : Nat) (bs : List (BitVec 8)) : Mem := { m with cells := sput 0 m.cells a bs }

/-- Bytes where given, else those of a list. -/
def overlay : List (Option (BitVec 8)) → List (BitVec 8) → List (BitVec 8)
  | some b :: r, _ :: o => b :: overlay r o
  | none :: r, x :: o => x :: overlay r o
  | _, o => o

/-- Writes the bytes that are given, leaving the others. -/
def Mem.merge (m : Mem) (a : Nat) (bs : List (Option (BitVec 8))) : Mem := m.write a (overlay bs (m.read a bs.length))

/-- Zeroes n bytes from a. -/
def Mem.zero (m : Mem) (a n : Nat) : Mem :=
  { m with cells := m.cells.filter fun c => !(decide (a ≤ c.1) && decide (c.1 < a + n)) }

/-- Clears the marks of n units from u. -/
def Mem.clean (m : Mem) (u n : Nat) : Mem :=
  { m with marks := m.marks.filter fun c => !(decide (u ≤ c.1) && decide (c.1 < u + n)) }

/-! ### Scratchpads: marks by 8-byte word, a poisoned word reads 0 (R102) -/

/-- Bytes in one pane of a scratchpad: 12 MiB (R84). -/
def spBytes : Nat := 0xC00000

/-- Writes some of the eight bytes of word u. All eight given: the word takes the mark. Fewer: a word already poisoned is left as it
is; otherwise a poisoned value poisons the whole word, and a clean one is merged (R101, R102, R148). -/
def Mem.spWord (m : Mem) (u : Nat) (bs : List (Option (BitVec 8))) (k : Mark) : Mem :=
  if bs.all Option.isNone then m
  else if bs.all Option.isSome || (m.mark u).isNone then
    match k with
    | some _ => (m.zero (8 * u) 8).setMark u k
    | none => (m.merge (8 * u) bs).setMark u none
  else m

/-- Eight slots with a byte string at an offset. -/
def slots8 (off : Nat) (bs : List (BitVec 8)) : List (Option (BitVec 8)) :=
  (List.range 8).map fun i => if i < off then none else bs[i - off]?

/-- A store of up to eight bytes inside one word (R91, R101). -/
def Mem.spStore (m : Mem) (a : Nat) (bs : List (BitVec 8)) (k : Mark) : Mem := m.spWord (a / 8) (slots8 (a % 8) bs) k

/-- Whole words from address a, each with its mark (R223, R205). -/
def Mem.spWords (m : Mem) (a : Nat) : List (Word × Mark) → Mem
  | [] => m
  | (w, k) :: r => (m.spWord (a / 8) ((wordBytes w).map some) k).spWords (a + 8) r

/-- The word at u with its mark; a poisoned word reads 0 (R102). -/
def Mem.spGet (m : Mem) (u : Nat) : Word × Mark :=
  match m.mark u with
  | some t => (0, some t)
  | none => (wordOf (m.read (8 * u) 8), none)

/-- s bytes at a, inside one word, with the word's mark (R90). -/
def Mem.spLoad (m : Mem) (a s : Nat) : List (BitVec 8) × Mark :=
  match m.mark (a / 8) with
  | some t => (List.replicate s 0, some t)
  | none => (m.read a s, none)

/-- n words from word u. -/
def Mem.spRange (m : Mem) (u n : Nat) : List (Word × Mark) := (List.range n).map fun i => m.spGet (u + i)

/-- Writes bytes at a, each word taking the mark of the bytes written into it: used where a write covers part of a word (R101). The
bytes come with one mark each. -/
def Mem.spBytesAt (m : Mem) (a : Nat) (bs : List (BitVec 8 × Mark)) : Mem :=
  let first := a / 8
  let n := (a + bs.length + 7) / 8 - first
  (List.range n).foldl (init := m) fun m' i =>
    let u := first + i
    let part := (List.range 8).map fun j => if 8 * u + j < a then none else bs[8 * u + j - a]?
    m'.spWord u (part.map (Option.map (·.1))) (meetAll (part.map fun o => match o with | some p => p.2 | none => none))

/-! ### Tile register files: marks by 64-byte granule -/

/-- A granule's bytes and mark. -/
def Mem.gran (m : Mem) (u : Nat) : List (BitVec 8) × Mark := (m.read (64 * u) 64, m.mark u)

/-- Writes a whole granule. -/
def Mem.setGran (m : Mem) (u : Nat) (bs : List (BitVec 8)) (k : Mark) : Mem := (m.write (64 * u) bs).setMark u k

/-! ### Global memory: marks by 64-byte line (R202) -/

/-- A line's bytes and mark. -/
def Mem.line (m : Mem) (l : Nat) : List (BitVec 8) × Mark := (m.read (64 * l) 64, m.mark l)

/-- Free bytes for what a poisoned line loses: 64 of them for one value of the counter (log 6). -/
def lostBytes (n : Nat) : List (BitVec 8) := (List.range 64).map fun i => Config.freeByte (64 * n + i)

/-- Bytes lost where given, the others kept. -/
def lose : List (Option (BitVec 8)) → List (BitVec 8) → List (BitVec 8) → List (BitVec 8)
  | some _ :: r, _ :: o, f :: fs => f :: lose r o fs
  | none :: r, x :: o, _ :: fs => x :: lose r o fs
  | _, o, _ => o

/-- Writes some of the 64 bytes of line l (R202): poisoned bytes poison the line and lose its other bytes; clean bytes written to part
of a poisoned line are lost and leave it poisoned; all 64 clean bytes clean it. The counter n names the free bytes. -/
def Mem.lineWrite (m : Mem) (l : Nat) (bs : List (Option (BitVec 8))) (k : Mark) (n : Nat) : Mem :=
  match k with
  | some _ => (m.write (64 * l) (overlay bs (lostBytes n))).setMark l k
  | none =>
    if bs.all Option.isSome then (m.merge (64 * l) bs).setMark l none
    else if (m.mark l).isSome then m.write (64 * l) (lose bs (m.read (64 * l) 64) (lostBytes n))
    else m.merge (64 * l) bs

/-- Poisons a line whose data are lost (R304, R339). -/
def Mem.linePoison (m : Mem) (l : Nat) (t : Tag) (n : Nat) : Mem := (m.write (64 * l) (lostBytes n)).setMark l (some t)

end Sys2Proof.Machine
end

