-- ==== Sys2Proof/Machine/Ops.lean ====
section
/-! DEFINITION. The named operations over the state: threads, streams, panes and cores; issuing an instruction, its waits and its
traps; taking a trap; triggers, interrupt causes and error-log records. -/

namespace Sys2Proof.Machine

/-! ### Lists -/

/-- Replaces element k. -/
def setAt {α : Type} : List α → Nat → α → List α
  | [], _, _ => []
  | _ :: r, 0, y => y :: r
  | x :: r, k + 1, y => x :: setAt r k y

/-- Changes element k. -/
def modAt {α : Type} : List α → Nat → (α → α) → List α
  | [], _, _ => []
  | x :: r, 0, f => f x :: r
  | x :: r, k + 1, f => x :: modAt r k f

/-- Removes element k. -/
def dropAt {α : Type} : List α → Nat → List α
  | [], _ => []
  | _ :: r, 0 => r
  | x :: r, k + 1 => x :: dropAt r k

/-! ### Threads and streams -/

/-- The thread of an identity. -/
def State.thread? (s : State) (tid : Nat) : Option Thread := s.threads.find? fun th => th.tid == tid

/-- Changes a thread. -/
def State.modThread (s : State) (tid : Nat) (f : Thread → Thread) : State :=
  { s with threads := s.threads.map fun th => if th.tid = tid then f th else th }

/-- A stream of a thread. -/
def Thread.strm (th : Thread) : StreamId → Strm
  | .c => th.sc
  | .a => th.sa
  | .v => th.sv
  | .m => th.sm

/-- Changes a stream of a thread. -/
def Thread.modStrm (th : Thread) (sid : StreamId) (f : Strm → Strm) : Thread :=
  match sid with
  | .c => { th with sc := f th.sc }
  | .a => { th with sa := f th.sa }
  | .v => { th with sv := f th.sv }
  | .m => { th with sm := f th.sm }

/-- Changes what the thread's life holds. -/
def Thread.modLife (th : Thread) (f : Life → Life) : Thread := { th with life := f th.life }

/-- Whether the thread is a loop task (R80): its record's STAGES is not 0. -/
def Thread.isLoop (th : Thread) : Bool := th.loop.s != 0

/-- A slot that is a stage guard (R81). -/
def Thread.isStageGuard (th : Thread) (g : Nat) : Bool := th.isLoop && decide (8 ≤ g)

/-! ### Panes and cores -/

/-- Rows and columns of panes. -/
def Rect.rows (r : Rect) : Nat := 2 ^ r.lrows

def Rect.cols (r : Rect) : Nat := 2 ^ r.lcols

/-- The cores of a rectangle by pane index, row-major from the north-west (R7). -/
def Rect.cores (r : Rect) : List Nat :=
  (List.range r.rows).flatMap fun i => (List.range r.cols).map fun j => 16 * r.die + 4 * (r.crow + i) + (r.ccol + j)

/-- The lead core (R7). -/
def Rect.lead (r : Rect) : Nat := 16 * r.die + 4 * r.crow + r.ccol

/-- Shape code and rectangle code (R175). -/
def Rect.shape (r : Rect) : Nat := 4 * r.lrows + r.lcols

def Rect.code (r : Rect) : Nat := 16 * r.shape + 4 * r.crow + r.ccol

/-- Panes of a thread's fragment. -/
def Thread.panes (th : Thread) : Nat := th.life.rect.rows * th.life.rect.cols

/-- Lanes of a thread's vectors (R7). -/
def Thread.lanes (th : Thread) : Nat := 64 * th.panes

/-- The core of a pane. -/
def Thread.coreOf (th : Thread) (p : Nat) : Nat := th.life.rect.cores.getD p 0

def State.core (s : State) (k : Nat) : Core := s.cores.getD k {}

def State.modCore (s : State) (k : Nat) (f : Core → Core) : State := { s with cores := modAt s.cores k f }

/-- Changes several cores. -/
def State.modCores (s : State) (ks : List Nat) (f : Core → Core) : State := ks.foldl (fun t k => t.modCore k f) s

def State.part (s : State) (p : Nat) : Part := s.parts.getD p {}

def State.modPart (s : State) (p : Nat) (f : Part → Part) : State := { s with parts := modAt s.parts p f }

def State.modPol (s : State) (p : Nat) (f : Policy → Policy) : State := s.modPart p fun q => { q with pol := f q.pol }

def State.die (s : State) (d : Nat) : Die := s.dies.getD d {}

def State.modDie (s : State) (d : Nat) (f : Die → Die) : State := { s with dies := modAt s.dies d f }

def State.cluster (s : State) (c : Nat) : Cluster := s.clusters.getD c {}

def State.rail (s : State) (r : Nat) : Rail := s.rails.getD r {}

def State.modRail (s : State) (r : Nat) (f : Rail → Rail) : State := { s with rails := modAt s.rails r f }

def State.modCluster (s : State) (c : Nat) (f : Cluster → Cluster) : State := { s with clusters := modAt s.clusters c f }

/-- The cluster of a core (R6). -/
def clusterOf (core : Nat) : Nat := 4 * (core / 16) + 2 * (core % 16 / 8) + core % 4 / 2

/-- Every pane's CAD is the greater of its rail's and its cluster's cadence (R336). -/
def State.setCads (s : State) : State :=
  { s with cores := s.cores.zipIdx.map fun x =>
    let c := s.cluster (clusterOf x.2)
    { x.1 with cad := max (s.rail c.rail).rcad c.thcad } }

/-- The partition a core belongs to (R8, R331). -/
def State.partOf (s : State) (core : Nat) : Option Nat :=
  let c := s.cluster (clusterOf core)
  if c.asn then some c.part else none

/-- Whether a rail of the thread's clusters has stopped injecting (R336). -/
def State.railStopped (s : State) (th : Thread) : Bool :=
  th.life.rect.cores.any fun k => (s.rail (s.cluster (clusterOf k)).rail).stopped

/-- The cores of a partition. -/
def State.coresOf (s : State) (p : Nat) : List Nat := (List.range 128).filter fun k => s.partOf k == some p

/-- Writes an error-log record in a die's log with the package's next index and sequence number (R341). Answers the tag that names it
(R304). DETAIL is a free value, and so is WHERE where its layout is not given (log 12). -/
def State.record (s : State) (d kind cls : Nat) (repl : Bool) (part : Nat) (lcyc : Nat) (wher : Option Word) : State × Tag :=
  let i := s.dev.logIndex
  let w0 : Nat := kind * 2 ^ 56 + cls * 2 ^ 53 + (if repl then 2 ^ 52 else 0) + part * 2 ^ 48 + lcyc % 2 ^ 48
  let w3 : Nat := 2 ^ 63 + s.dev.logSeq.toNat * 2 ^ 16 + i
  let r : LogRec := { w0 := BitVec.ofNat 64 w0, wher := wher.getD (Config.freeWhere s.fresh), detail := Config.freeDetail s.fresh, w3 := BitVec.ofNat 64 w3 }
  let s1 := s.modDie d fun x => { x with log := sset {} x.log i r }
  ({ s1 with
      fresh := s.fresh + 1,
      dev := { s1.dev with logIndex := (i + 1) % 512, logSeq := s.dev.logSeq + 1 } },
    BitVec.ofNat 12 (cls * 512 + i))

/-- Settles the errors that latent words of a core's scratchpad hold when they are read (R100): each writes a record of class 2 and is
written back poisoned with its tag. -/
def State.spProbe (s : State) (core : Nat) (words : List Nat) : State :=
  if (s.core core).spBad.isEmpty then s
  else
    words.foldl (init := s) fun t u =>
      if (t.core core).spBad.contains u then
        let (t1, tag) := t.record (core / 16) 3 2 false ((t.partOf core).getD 0) (t.core core).lcyc.toNat none
        t1.modCore core fun c => { c with spBad := c.spBad.filter (· != u), sp := (c.sp.zero (8 * u) 8).setMark u (some tag) }
      else t

/-- Forgets the latent errors of words that are written whole (R101). -/
def Core.spFresh (c : Core) (words : List Nat) : Core :=
  if c.spBad.isEmpty then c else { c with spBad := c.spBad.filter fun u => !words.contains u }

/-! ### The scratchpad window (R84) -/

/-- A local address legal for s bytes in a window of n panes (R84). -/
def legalAddr (n ea s : Nat) : Bool :=
  decide (ea < 2 ^ 28) && decide (ea / 2 ^ 24 < n) && decide (ea % 2 ^ 24 + s ≤ spBytes) && ea % s == 0

/-- The words of a pane's scratchpad that n bytes from an offset lie in. -/
def wordsFrom (o n : Nat) : List Nat := (List.range ((o + n + 7) / 8 - o / 8)).map (o / 8 + ·)

/-- The machine once n bytes of the window have been read (R100). -/
def State.spTouch (s : State) (th : Thread) (ea n : Nat) : State :=
  s.spProbe (th.coreOf (ea / 2 ^ 24)) (wordsFrom (ea % 2 ^ 24) n)

/-- Reads n bytes inside one word of the window (R90). -/
def State.spLoad (s : State) (th : Thread) (ea n : Nat) : List (BitVec 8) × Mark :=
  (s.core (th.coreOf (ea / 2 ^ 24))).sp.spLoad (ea % 2 ^ 24) n

/-- Stores bytes inside one word of the window; a store of fewer than 8 bytes reads its word first (R91, R101). -/
def State.spStore (s : State) (th : Thread) (ea : Nat) (bs : List (BitVec 8)) (k : Mark) : State :=
  let s1 := if bs.length = 8 then s else s.spTouch th ea bs.length
  s1.modCore (th.coreOf (ea / 2 ^ 24)) fun c =>
    { c.spFresh [ea % 2 ^ 24 / 8] with sp := c.sp.spStore (ea % 2 ^ 24) bs k }

/-- n words of the window from an address that is a multiple of 8. -/
def State.spWords (s : State) (th : Thread) (ea n : Nat) : List (Word × Mark) :=
  (s.core (th.coreOf (ea / 2 ^ 24))).sp.spRange (ea % 2 ^ 24 / 8) n

/-! ### Traps -/

/-- The trap codes (R301). -/
def trapIllegal : Nat := 1
def trapMaskovf : Nat := 2
def trapTranslation : Nat := 3
def trapPermission : Nat := 4
def trapBounds : Nat := 5
def trapPoison : Nat := 6
def trapWatchdog : Nat := 7
def trapSoftware : Nat := 8
def trapBreak : Nat := 9

/-- What an instruction that traps reports (R313). -/
structure TrapInfo where
  code : Nat
  detail : Word := 0
  stage : Nat := 1
  level : Nat := 0
  va : BitVec 56 := 0
  elem : Nat := 0
  tag : Tag := 0
  deriving DecidableEq, Repr

/-- ILLEGAL with a detail. -/
def illegal (d : Word := 0) : TrapInfo := { code := trapIllegal, detail := d }

/-- BOUNDS. -/
def bounds : TrapInfo := { code := trapBounds }

/-- POISON with the consumed value's tag (R305). -/
def poison (t : Tag) : TrapInfo := { code := trapPoison, tag := t }

/-- The fault record of a trap at an instruction (R313). -/
def TrapInfo.record (t : TrapInfo) (sid : StreamId) (pc : BitVec 16) : FaultRec :=
  { strm := sid, code := t.code, pc := pc, detail := t.detail, stage := t.stage, level := t.level, va := t.va, elem := t.elem,
    tag := t.tag }

/-- The number of a stream in the order C, A, V, M. -/
def streamNum : StreamId → Nat
  | .c => 0
  | .a => 1
  | .v => 2
  | .m => 3

/-- A stream's secondary trap (R303). -/
def Thread.secondTrap (th : Thread) (f : FaultRec) : Thread := th.modStrm f.strm fun st => { st with trap2 := f.code }

/-- The primary trap of a thread: it is frozen in this cycle, its context to be stored with REASON 1; a thread already being brought to its
boundaries for another save makes that a trap save; a trap during a checkpoint's store waits for it (R303). -/
def Thread.firstTrap (th : Thread) (now : Nat) (f : FaultRec) : Thread :=
  let mark := fun (l : Life) => { l with trapping := true, fault := f, trapAt := some now, waitingTrap := none }
  match th.life.phase with
  | .running => th.modLife fun l => { mark l with phase := .saving 1 now }
  | .saving 2 _ => th.modLife mark
  | .saving _ d => th.modLife fun l => { mark l with phase := .saving 1 d }
  | _ => th

/-- Takes a trap (R303): the first trap of a thread is the primary one, and of two in one cycle that of the lower stream in the order C,
A, V, M; any other is its stream's secondary trap. The trap of a parked command that waits for the other streams (R214) is older than a
trap of theirs. -/
def Thread.takeTrap (th : Thread) (now : Nat) (f : FaultRec) : Thread :=
  if th.life.trapping then
    if th.life.trapAt = some now && decide (streamNum f.strm < streamNum th.life.fault.strm) then
      (th.secondTrap th.life.fault).modLife fun l => { l with fault := f, faultCmd := none }
    else th.secondTrap f
  else
    match th.life.waitingTrap with
    | some old => ((th.firstTrap now old).modLife fun l => { l with trapAt := none }).secondTrap f
    | none => th.firstTrap now f

/-- Takes a trap in a thread. -/
def State.takeTrap (s : State) (tid : Nat) (f : FaultRec) : State := s.modThread tid fun th => th.takeTrap s.now f

/-! ### Fetch windows (R16) -/

/-- Whether a word address lies in the stream's fetch window. -/
def Strm.inWindow (st : Strm) (a : Nat) : Bool := decide (st.base ≤ a) && decide (a < st.base + st.words)

/-- The word and its tag at an address of the lead core's instruction memory (R16). -/
def State.fetch (s : State) (th : Thread) (a : Nat) : Word × Bool := sget (0, false) (s.core th.life.rect.lead).imem a

/-! ### Issuing -/

/-- What the head instruction comes to: it issues and its effects stand; it waits at the head; it traps. A wait or trap of the second
kind leaves a state of its own: a wait that has begun something, a trap on data whose reading had an effect. -/
inductive Head where
  | done (s : State)
  | wait (w : WaitFor)
  | trap (t : TrapInfo)
  | hold (s : State) (w : WaitFor)
  | trapIn (s : State) (t : TrapInfo)

/-- Whether a guard value is seen in the cycle: pushed before it, and not flushed before it (R71). -/
def GuardVal.seen (g : GuardVal) (now : Nat) : Bool :=
  decide (g.at_ < now) && match g.gone with
    | some t => t == now
    | none => true

/-- A guard FIFO without its first visible value. -/
def popSeen (now : Nat) : List GuardVal → List GuardVal
  | [] => []
  | g :: r => if g.seen now then r else g :: popSeen now r

/-- The guard slot after a pop (R71): the head goes when GPOP = 1 and the slot is neither g0 nor a stage guard. -/
def Thread.popGuard (th : Thread) (now : Nat) (gsl : BitVec 4) (gpop : Bool) : Thread :=
  if gpop && gsl != 0 && !th.isStageGuard gsl.toNat then { th with guards := modAt th.guards gsl.toNat (popSeen now) } else th

/-- The counted cycle of the instruction at a stream's head (R57): a tagged word, or one outside the window, counts as IDLE 0 (R17). -/
def State.countedAt (s : State) (th : Thread) (st : Strm) : Nat :=
  let w := s.fetch th st.pc.toNat
  st.hold.getD (st.idleRef + 1 + if w.2 || !st.inWindow st.pc.toNat then 0 else (headerOf w.1).idle.toNat)

/-- The stream after its head has issued: the issue cycle is the idle reference (R57); under rep one repetition is counted, and the
program counter passes the repeated word after the last (R67, R69). -/
def Strm.advance (st : Strm) (now : Nat) (next : BitVec 16) : Strm :=
  if st.repCount ≤ 1 then
    { st with
      idleRef := now, hold := none, wait := .none, wdog := none, latched := false, latch := 0, repCount := 0, pc := next,
      peek := none, early := [] }
  else
    { st with
      idleRef := now, hold := some (now + 1), wait := .none, wdog := none, latched := false, latch := 0,
      repCount := st.repCount - 1, peek := none, early := [] }

/-- The thread after its stream's head has issued. -/
def Thread.advance (th : Thread) (k : Issue) (now : Nat) : Thread :=
  (th.popGuard now k.gsl k.gpop).modStrm k.sid fun st => st.advance now k.next

/-- The machine after the instruction k has issued, apart from the instruction's own effects. -/
def State.advance (s : State) (k : Issue) : State := s.modThread k.tid fun th => th.advance k s.now

/-- The machine with the head of k's stream waiting; the WDOG that applies is the one in force when the wait begins (R301, R327). -/
def State.waitAt (s : State) (k : Issue) (w : WaitFor) : State :=
  s.modThread k.tid fun th => th.modStrm k.sid fun st =>
    { st with wait := w, wdog := some (st.wdog.getD (s.part th.life.part).set.wdog.toNat) }

/-- Settles a head instruction. -/
def Head.settle (h : Head) (s : State) (k : Issue) : Host.Outcome State Fault Refusal :=
  match h with
  | .done t => .next t
  | .wait w => .next (s.waitAt k w)
  | .trap t => .next (s.takeTrap k.tid (t.record k.sid k.pc))
  | .hold t w => .next (t.waitAt k w)
  | .trapIn u t => .next (u.takeTrap k.tid (t.record k.sid k.pc))

/-- The stream that is issuing, with its thread. -/
def State.issuer? (s : State) : Option (Issue × Thread) :=
  match s.cur with
  | .stream k => (s.thread? k.tid).map fun th => (k, th)
  | _ => none

/-- A stream instruction's meaning: given the issue, the thread as it stands, and the machine with the stream advanced. -/
def issue (s : State) (f : Issue → Thread → State → Head) : Host.Outcome State Fault Refusal :=
  match s.issuer? with
  | some (k, th) => (f k th (s.advance k)).settle s k
  | none => .fault .noIssuer

/-! ### Branches (R62) -/

/-- The kernel of a stream: first word and length (R38, R80). -/
def Strm.kernel (st : Strm) : Nat × Nat :=
  let k := st.subs.getD 1 (0, 0)
  (st.base + k.1, k.2)

/-- Whether the stream takes part in its thread's loop (R80). -/
def Thread.takesPart (th : Thread) (sid : StreamId) : Bool := th.isLoop && (th.strm sid).kernel.2 != 0

/-- Whether the stream runs inside its kernel: during a step, before it has arrived at the kernel's end (R80, R82). -/
def Thread.inKernel (th : Thread) (sid : StreamId) : Bool :=
  th.takesPart sid && th.loop.inStep && !th.loop.arrived.getD (streamNum sid) false

/-- A taken branch: outside the window, to a tagged literal, or out of a running kernel it traps ILLEGAL; else pc := target (R62, R82). -/
def State.branchTo (s : State) (k : Issue) (th : Thread) (s1 : State) (target : Nat) : Head :=
  let st := th.strm k.sid
  let (kb, kn) := st.kernel
  if !st.inWindow target || (s.fetch th target).2 then .trap (illegal)
  else if th.inKernel k.sid && !(decide (kb ≤ target) && decide (target < kb + kn)) then .trap (illegal)
  else .done (s1.modThread k.tid fun t => t.modStrm k.sid fun st => { st with pc := BitVec.ofNat 16 target })

/-- The target of a branch: the address of the branch plus OFF, sign-extended, in words (R24). -/
def targetOf (pc : BitVec 16) (off : BitVec 24) : Int := (pc.toNat : Int) + off.toInt

/-- A branch to the address of the branch plus OFF; an address below 0 is outside every window. -/
def State.branchOff (s : State) (k : Issue) (th : Thread) (s1 : State) (off : BitVec 24) : Head :=
  match targetOf k.pc off with
  | .ofNat n => s.branchTo k th s1 n
  | .negSucc _ => .trap (illegal)

/-! ### Triggers, causes and records -/

/-- Adds a trigger (R259): DISPATCH triggers merge into one, keeping the lowest CAUSE; each other is pending on its own. -/
def addTrigger (ts : List Trigger) (t : Trigger) : List Trigger :=
  match t.hook with
  | .dispatch =>
    if ts.any (fun u => u.hook == .dispatch) then
      ts.map fun u => if u.hook == .dispatch then { u with cause := min u.cause t.cause } else u
    else ts ++ [t]
  | _ => ts ++ [t]

def State.trigger (s : State) (p : Nat) (t : Trigger) : State := s.modPol p fun q => { q with triggers := addTrigger q.triggers t }

/-- Adds a trigger that concerns a thread (R259, R270). -/
def State.triggerFor (s : State) (th : Thread) (hook : Hook) (cause : Nat) : State :=
  s.trigger th.life.part { hook := hook, cause := cause, tid := th.tid, handle := th.life.rect.lead, shape := th.life.rect.shape }

/-- Raises an interrupt cause (R332): a message goes when the bit goes from 0 to 1 with EN set. -/
def Ints.raise (i : Ints) (c : Nat) : Ints :=
  if bitOf i.cause c then i
  else
    { i with
      cause := i.cause ||| BitVec.ofNat 6 (2 ^ c),
      sent := if bitOf i.vec (8 * c + 7) then i.sent ++ [(c, fieldNat i.vec (8 * c + 5) (8 * c))] else i.sent }

/-- Raises a cause in DEVSTAT (R332, R342). -/
def State.raiseDev (s : State) (c : Nat) : State := { s with dev := { s.dev with ints := s.dev.ints.raise c } }

/-- Raises a cause of a partition; DEVSTAT carries the same causes for the hypervisor (R332). -/
def State.raise (s : State) (p c : Nat) : State := (s.modPart p fun q => { q with ints := q.ints.raise c }).raiseDev c

/-- The cause numbers of R332. -/
def causeCmd : Nat := 0
def causePark : Nat := 1
def causeDis : Nat := 2
def causeDerate : Nat := 3
def causeReplace : Nat := 4
def causeThwarn : Nat := 5

/-- The partitions with a cluster on a die. -/
def State.partsOn (s : State) (d : Nat) : List Nat :=
  (List.range 16).filter fun p => (List.range 4).any fun k =>
    let c := s.cluster (4 * d + k)
    c.asn && c.part == p

/-- Raises REPLACE in DEVSTAT and in every partition with a cluster on the die (R342). -/
def State.replace (s : State) (d : Nat) : State :=
  (s.partsOn d).foldl (fun t p => t.raise p causeReplace) (s.raiseDev causeReplace)

/-- Counts a lasting event in DEVSTAT (R342): holds at 255. -/
def State.countLasting (s : State) : State := { s with dev := { s.dev with lasting := min (s.dev.lasting + 1) 255 } }

/-- A fresh identity for a pending result, command, packet or thread. -/
def State.newId (s : State) : State × Nat := ({ s with nextId := s.nextId + 1 }, s.nextId)

end Sys2Proof.Machine
end

