-- ==== Sys2Proof/Machine/Operands.lean ====
section
/-! DEFINITION. Every operand form: scalar specifiers, immediates and literals, vector specifiers, pushes and named copies (02 R18, R19,
R21; 03 R40 to R45; 07 R131 to R133). -/

namespace Sys2Proof

/-! ### Widths (R45) -/

def Width.bits : Width → Nat
  | .w64 => 64 | .w32 => 32 | .w16 => 16 | .w8 => 8

def Width.size : Width → Nat
  | .w64 => 8 | .w32 => 4 | .w16 => 2 | .w8 => 1

/-- The value of an immediate: sign-extended IMM, or the literal (R52). -/
def Imm.value : Imm → Word
  | .short v => v.signExtend 64
  | .lit v => v

end Sys2Proof

namespace Sys2Proof.Machine

/-- ext_w: the w low bits of a pattern as an integer, signed when s (R45). -/
def extW (x : Word) (w : Nat) (s : Bool) : Int :=
  let v : Nat := x.toNat % 2 ^ w
  if s && decide (2 ^ (w - 1) ≤ v) then (v : Int) - (2 ^ w : Nat) else (v : Int)

/-- wrap_w: any integer kept to w bits and extended to 64 (R45). -/
def wrapW (v : Int) (w : Nat) (s : Bool) : Word :=
  BitVec.ofInt 64 (extW (BitVec.ofNat 64 (v % (2 ^ w : Nat)).toNat) w s)

/-! ### Scalar operands -/

/-- Reads a specifier: a void entry reads 0, clean; specifier 16 reads 0 (R41, R42). -/
def Scalar.read (r : Scalar) : Src → Val
  | .belt k =>
    let v := r.belt.getD k.toNat Val.empty
    if v.void then Val.empty else v
  | .named k => if k = 0 then Val.ofWord 0 else r.named.getD k.toNat (Val.ofWord 0)

/-- Reads an operand a literal may replace (R21). -/
def Scalar.readOpnd (r : Scalar) : Opnd → Val
  | .reg x => r.read x
  | .lit v => Val.ofWord v

/-- The belt after a push: the value at age 0, the oldest gone (R40). -/
def pushBelt (v : Val) (belt : List Val) : List Val := v :: belt.take 15

/-- Writes a named register; s0 and q0 discard (R42). -/
def writeNamed (named : List Val) (k : BitVec 4) (v : Val) : List Val := if k = 0 then named else setAt named k.toNat v

/-- A push with its named copy, in one step (R19, R40). -/
def Scalar.push (r : Scalar) (v : Val) (d : Dst) : Scalar :=
  { belt := pushBelt v r.belt, named := match d with | some k => writeNamed r.named k v | none => r.named }

/-- The registers of a scalar stream. -/
def Thread.regs (th : Thread) : StreamId → Scalar
  | .c => th.c.regs
  | _ => th.a.regs

/-- Changes the registers of a scalar stream. -/
def Thread.modRegs (th : Thread) (sid : StreamId) (f : Scalar → Scalar) : Thread :=
  match sid with
  | .c => { th with c := { th.c with regs := f th.c.regs } }
  | _ => { th with a := { th.a with regs := f th.a.regs } }

/-- The machine after the issuing stream has pushed a value (R40). -/
def State.push (s : State) (k : Issue) (v : Val) (d : Dst) : State :=
  s.modThread k.tid fun th => th.modRegs k.sid fun r => r.push v d

/-- The machine after the issuing stream has pushed a clean word. -/
def State.pushWord (s : State) (k : Issue) (w : Word) (d : Dst) : State := s.push k (Val.ofWord w) d

/-- Whether an operand's result is not ready (R50). -/
def Val.pending (v : Val) : Bool := v.wait.isSome

/-- The merge of the poison of operands that contribute (R44). -/
def marksOf (vs : List Val) : Mark := meetAll (vs.map (·.mark))

/-- A result with the poison of its operands. -/
def Val.result (w : Word) (vs : List Val) : Val := { bits := w, mark := marksOf vs }

/-- A scalar instruction of one operand that pushes one value and does nothing else: it waits while the operand is not ready; the result
takes the operand's poison (R44). -/
def scalar1 (s : State) (x : Src) (d : Dst) (f : Word → Word) : Host.Outcome State Fault Refusal :=
  issue s fun k th s1 =>
    let a := (th.regs k.sid).read x
    if a.pending then .wait .result else .done (s1.push k { bits := f a.bits, mark := a.mark } d)

/-- The same of two operands. -/
def scalar2 (s : State) (x y : Src) (d : Dst) (f : Word → Word → Word) : Host.Outcome State Fault Refusal :=
  issue s fun k th s1 =>
    let a := (th.regs k.sid).read x
    let b := (th.regs k.sid).read y
    if a.pending || b.pending then .wait .result
    else .done (s1.push k { bits := f a.bits b.bits, mark := meet a.mark b.mark } d)

/-- The same of three operands. -/
def scalar3 (s : State) (x y z : Src) (d : Dst) (f : Word → Word → Word → Word) : Host.Outcome State Fault Refusal :=
  issue s fun k th s1 =>
    let a := (th.regs k.sid).read x
    let b := (th.regs k.sid).read y
    let c := (th.regs k.sid).read z
    if a.pending || b.pending || c.pending then .wait .result
    else .done (s1.push k { bits := f a.bits b.bits c.bits, mark := meet a.mark (meet b.mark c.mark) } d)

/-- Goes on with operands that are ready and, being consumed, clean; waits for a result; traps POISON (R305). -/
def consume (vs : List Val) (k : Head) : Head :=
  if vs.any Val.pending then .wait .result
  else
    match marksOf vs with
    | some t => .trap (poison t)
    | none => k

/-- Goes on with operands that are ready; poison is carried. -/
def ready (vs : List Val) (k : Head) : Head := if vs.any Val.pending then .wait .result else k

/-- Replaces the value that waits for a result everywhere it stands in a register set (R40: the belt position is fixed at issue). -/
def Scalar.settle (r : Scalar) (id : Nat) (v : Val) : Scalar :=
  let f := fun (x : Val) => if x.wait = some id then v else x
  { belt := r.belt.map f, named := r.named.map f }

/-- Delivers a result to the C and A registers of a thread that wait for it. -/
def State.deliver (s : State) (tid id : Nat) (v : Val) : State :=
  s.modThread tid fun th => (th.modRegs .c fun r => r.settle id v).modRegs .a fun r => r.settle id v

/-! ### Vector operands -/

/-- A clean zero vector of L lanes. -/
def zeroVec (l : Nat) : List Lane := List.replicate l {}

/-- The lane index vector (R130). -/
def laneVec (l : Nat) : List Lane := (List.range l).map fun i => { bits := BitVec.ofNat 32 i }

/-- The lanes of a vector; a register not yet written reads L clean zero lanes, and so does a void entry (R132). -/
def Vec.get (x : Vec) (l : Nat) : List Lane := if x.void || x.lanes.isEmpty then zeroVec l else x.lanes

/-- The lanes of a named register. -/
def VState.reg (v : VState) (l : Nat) (k : Nat) : List Lane := (v.file.getD k {}).get l

/-- Reads a vector specifier (R18, R130, R132). -/
def VState.read (v : VState) (l : Nat) : VSrc → List Lane
  | .belt k => (v.belt.getD k.toNat { void := true }).get l
  | .named k => v.reg l k.toNat
  | .zero => zeroVec l
  | .lane => laneVec l

/-- The top of the mask stack; every lane is active when it is empty (R137). -/
def VState.top (v : VState) (l : Nat) : List Bool :=
  match v.masks with
  | [] => List.replicate l true
  | m :: _ => m

/-- The active lanes of an instruction (R131). -/
def VState.active (v : VState) (l : Nat) (mk : Bool) : List Bool := if mk then v.top l else List.replicate l true

/-- Active lanes from the first vector, inactive ones from the second. -/
def blend : List Bool → List Lane → List Lane → List Lane
  | true :: m, x :: xs, _ :: ys => x :: blend m xs ys
  | false :: m, _ :: xs, y :: ys => y :: blend m xs ys
  | _, _, _ => []

/-- The vector belt after a push (R132). -/
def VState.pushBelt (v : VState) (x : Vec) : VState := { v with belt := x :: v.belt.take 15 }

/-- Pushes a result with its active lanes, and copies it to the named register that DEN selects: inactive lanes of the pushed vector are
0 and clean, inactive lanes of the register keep their values (R131). It is ready from the cycle given (R151). -/
def VState.push (v : VState) (l : Nat) (act : List Bool) (x : List Lane) (d : VDst) (at_ : Nat) : VState :=
  let v1 := v.pushBelt { lanes := blend act x (zeroVec l), at_ := at_ }
  match d with
  | none => v1
  | some k => { v1 with file := setAt v1.file k.toNat { lanes := blend act x (v.reg l k.toNat), at_ := at_ } }

/-- Whether a vector is not there yet: its load has not returned, or its latency has not passed (R50, R151). -/
def Vec.pending (x : Vec) (now : Nat) : Bool := x.wait.isSome || decide (now < x.at_)

/-- Whether a specifier names a vector that is not there yet. -/
def VState.pending (v : VState) (now : Nat) : VSrc → Bool
  | .belt k => (v.belt.getD k.toNat {}).pending now
  | .named k => (v.file.getD k.toNat {}).pending now
  | _ => false

/-- Whether an instruction waits for a result: an operand, or the register it merges into. -/
def VState.waits (v : VState) (now : Nat) (xs : List VSrc) (act : List Bool) (d : VDst) : Bool :=
  xs.any (v.pending now) || match d with
    | some k => !act.all id && v.pending now (.named k)
    | none => false

/-- Whether every result of the V stream is there (R151). -/
def VState.allReady (v : VState) (now : Nat) : Bool := v.belt.all (fun x => !x.pending now) && v.file.all (fun x => !x.pending now)

/-- Pushes the place of a load's result (R40: the belt position is fixed at issue). -/
def VState.pushWait (v : VState) (l id : Nat) (d : VDst) : VState :=
  let v1 := v.pushBelt { lanes := zeroVec l, wait := some id }
  match d with
  | none => v1
  | some k => { v1 with file := setAt v1.file k.toNat { lanes := v.reg l k.toNat, wait := some id } }

/-- Delivers a load's result: active lanes take it (R131). -/
def VState.settle (v : VState) (id : Nat) (act : List Bool) (x : List Lane) : VState :=
  let f := fun (y : Vec) => if y.wait = some id then { lanes := blend act x y.lanes } else y
  { v with belt := v.belt.map f, file := v.file.map f }

/-- The machine after the V stream has pushed a vector that is ready after a latency. -/
def State.pushVec (s : State) (k : Issue) (l : Nat) (act : List Bool) (x : List Lane) (d : VDst) (lat : Nat) : State :=
  s.modThread k.tid fun th => { th with v := th.v.push l act x d (s.now + lat) }

/-- Named registers an instruction's operands name, each once (R133). -/
def namedReads (xs : List VSrc) : List Nat :=
  (xs.filterMap fun x => match x with | .named k => some k.toNat | _ => none).eraseDups

/-- The largest number of reads on one bank, over the assignment of mirrored registers that makes it least (R133, R134). -/
def bankReads (mirror : List Bool) : List Nat → List Nat → Nat
  | [], banks => banks.foldl max 0
  | r :: rs, banks =>
    let here := bankReads mirror rs (modAt banks (r % 4) (· + 1))
    if mirror.getD r false then min here (bankReads mirror rs (modAt banks ((r + 2) % 4) (· + 1))) else here

/-- Cycles by which bank conflicts delay an instruction: nb − 1, or 0 when no register is read (R133). -/
def bankStall (v : VState) (xs : List VSrc) : Nat := bankReads v.mirror (namedReads xs) [0, 0, 0, 0] - 1

end Sys2Proof.Machine
end

