-- ==== Sys2Proof/Machine/Tiles.lean ====
section
/-! DEFINITION. Tiles and rings: descriptors, where a distribution places each part, the tile-state table, ring order, and the
granules of a part (spec/10_transfer.md R191 to R198). -/

namespace Sys2Proof.Machine

/-! ### Descriptors (R191, R192) -/

def descBase (d : Word) : Nat := fieldNat d 15 0
def descRows (d : Word) : Nat := fieldNat d 23 16 + 1
def descUlen (d : Word) : Nat := fieldNat d 29 24 + 1
def descFmt (d : Word) : Nat := fieldNat d 33 30
def descDist (d : Word) : Nat := fieldNat d 36 34

/-- The rows and units of the part that a pane holds (R192). -/
def partShape (r : Rect) (d : Word) : Nat × Nat :=
  match descDist d with
  | 1 => (descRows d / r.rows, descUlen d)
  | 2 => (descRows d / r.cols, descUlen d)
  | 4 => (descRows d / r.rows, descUlen d / r.cols)
  | _ => (descRows d, descUlen d)

/-- Units of a part. -/
def partUnits (r : Rect) (d : Word) : Nat := (partShape r d).1 * (partShape r d).2

/-- Whether the distribution's requirement holds (R192). -/
def distFits (r : Rect) (d : Word) : Bool :=
  match descDist d with
  | 0 | 3 => true
  | 1 => descRows d % r.rows == 0
  | 2 => descRows d % r.cols == 0
  | 4 => descRows d % r.rows == 0 && descUlen d % r.cols == 0
  | _ => false

/-- A descriptor that `tcfg` accepts for a fragment's shape (R193). -/
def descOk (r : Rect) (d : Word) : Bool :=
  fieldNat d 63 37 == 0 && distFits r d && decide (descBase d + partUnits r d ≤ 65536)

/-- The panes that hold logical row r and unit u, the one it is read from first, and the unit in their tile register files (R192). -/
def place (rc : Rect) (d : Word) (r u : Nat) : List Nat × Nat :=
  let (pr, pu) := partShape rc d
  let at_ := fun (row unit : Nat) => descBase d + row * pu + unit
  match descDist d with
  | 1 => ([r / pr * rc.cols], at_ (r % pr) u)
  | 2 => ([r / pr], at_ (r % pr) u)
  | 3 => (List.range (rc.rows * rc.cols), at_ r u)
  | 4 => ([r / pr * rc.cols + u / pu], at_ (r % pr) (u % pu))
  | _ => ([0], at_ r u)

/-- The panes in which a tile has a part. -/
def partPanes (rc : Rect) (d : Word) : List Nat :=
  match descDist d with
  | 0 => [0]
  | 1 => (List.range rc.rows).map (· * rc.cols)
  | 2 => List.range rc.cols
  | _ => List.range (rc.rows * rc.cols)

/-! ### Granules -/

/-- A granule of a pane's tile register file. -/
def State.gran (s : State) (th : Thread) (p u : Nat) : List (BitVec 8) × Mark := (s.core (th.coreOf p)).trf.gran u

def State.setGran (s : State) (th : Thread) (p u : Nat) (bs : List (BitVec 8)) (k : Mark) : State :=
  s.modCore (th.coreOf p) fun c => { c with trf := c.trf.setGran u bs k }

/-- The logical granule at row r, unit u. -/
def State.tileGran (s : State) (th : Thread) (d : Word) (r u : Nat) : List (BitVec 8) × Mark :=
  let pl := place th.life.rect d r u
  s.gran th (pl.1.headD 0) pl.2

/-- Writes the logical granule at row r, unit u in every pane that holds it. -/
def State.setTileGran (s : State) (th : Thread) (d : Word) (r u : Nat) (bs : List (BitVec 8)) (k : Mark) : State :=
  let pl := place th.life.rect d r u
  pl.1.foldl (fun t p => t.setGran th p pl.2 bs k) s

/-- The lead pane's part: its granules in order. -/
def State.leadPart (s : State) (th : Thread) (d : Word) : List (List (BitVec 8) × Mark) :=
  (List.range (partUnits th.life.rect d)).map fun i => s.gran th 0 (descBase d + i)

/-! ### Tile states (R77, R196) -/

/-- The state as a cycle sees it: changes take effect at the cycle's end (R77). -/
def Tile.seen (t : Tile) (now : Nat) : TileSt := if t.since ≤ now then t.st else t.prev

/-- Whether the tile is in a state and nothing has taken it in this cycle. -/
def Tile.isIn (t : Tile) (x : TileSt) (now : Nat) : Bool := t.st == x && decide (t.since ≤ now)

/-- Moves a tile to a state at the end of this cycle. -/
def Tile.go (t : Tile) (x : TileSt) (now : Nat) : Tile := { t with prev := t.seen now, st := x, since := now + 1 }

def Thread.tile? (th : Thread) (n : Nat) : Option Tile := sget none th.tiles n

def Thread.setTile (th : Thread) (n : Nat) (t : Option Tile) : Thread := { th with tiles := sset none th.tiles n t }

/-- Changes a configured tile. -/
def Thread.modTile (th : Thread) (n : Nat) (f : Tile → Tile) : Thread :=
  match th.tile? n with
  | some t => th.setTile n (some (f t))
  | none => th

/-- Moves the tail past the tiles that are no longer FILLING, of those that writers have taken (R197). -/
def tailOver (th : Thread) (now : Nat) : Nat → Ring → Ring
  | 0, r => r
  | f + 1, r =>
    if r.wtake = 0 then r
    else
      match th.tile? (r.first + r.tail) with
      | some t =>
        if t.st != .filling && decide (t.since ≤ now) then
          tailOver th now f { r with tail := (r.tail + 1) % r.n, wtake := r.wtake - 1 }
        else r
      | none => r

/-- A ring as this cycle sees it. -/
def Thread.ring? (th : Thread) (now k : Nat) : Option Ring :=
  match sget none th.rings k with
  | some r => some (tailOver th now 16 r)
  | none => none

def Thread.setRing (th : Thread) (k : Nat) (r : Option Ring) : Thread := { th with rings := sset none th.rings k r }

/-! ### Taking tiles -/

/-- What naming a tile or ring comes to. -/
inductive Take where
  | null
  | bad
  | wait
  | ok (t : Taken) (desc : Word)
  deriving DecidableEq, Repr

/-- Whether a writer can start (R196, R197, R198). -/
def Thread.writer (th : Thread) (now : Nat) : TileRef → Take
  | .tile n =>
    if n = 255 then .null
    else
      match th.tile? n.toNat with
      | none => .bad
      | some t => if t.ring.isSome then .bad else if t.isIn .free now then .ok ⟨n.toNat, none⟩ t.desc else .wait
  | .ring k =>
    match th.ring? now k.toNat with
    | none => .bad
    | some r =>
      let n := r.first + (r.tail + r.wtake) % r.n
      match th.tile? n with
      | none => .bad
      | some t => if t.isIn .free now && decide (r.wtake < r.n) then .ok ⟨n, some k.toNat⟩ t.desc else .wait

/-- Whether a consumer can start (R196, R198). -/
def Thread.consumer (th : Thread) (now : Nat) : TileRef → Take
  | .tile n =>
    if n = 255 then .bad
    else
      match th.tile? n.toNat with
      | none => .bad
      | some t => if t.isIn .full now then .ok ⟨n.toNat, none⟩ t.desc else .wait
  | .ring k =>
    match th.ring? now k.toNat with
    | none => .bad
    | some r =>
      let n := r.first + (r.head + r.rtake) % r.n
      match th.tile? n with
      | none => .bad
      | some t => if t.isIn .full now then .ok ⟨n, some k.toNat⟩ t.desc else .wait

/-- A writer has started: the tile is FILLING, and on a ring it is the next one taken. -/
def Thread.startWrite (th : Thread) (now : Nat) (t : Taken) : Thread :=
  let th1 := th.modTile t.tile fun x => x.go .filling now
  match t.ring with
  | none => th1
  | some k =>
    match th.ring? now k with
    | some r => th1.setRing k (some { r with wtake := r.wtake + 1 })
    | none => th1

/-- The writer's last byte is written: the tile is FULL (R196); the ring's tail moves past it in order (R197). -/
def Thread.endWrite (th : Thread) (now : Nat) (t : Taken) : Thread := th.modTile t.tile fun x => x.go .full now

/-- The head as a cycle sees it: it moves at the cycle's end (R77, R78). -/
def Ring.seenHead (r : Ring) (now : Nat) : Nat := if r.headSince ≤ now then r.head else r.headWas

/-- The ring once the tile at its head is FREE. -/
def Ring.headOn (r : Ring) (now : Nat) : Ring :=
  { r with head := (r.head + 1) % r.n, rtake := r.rtake - 1, headWas := r.seenHead now, headSince := now + 1 }

/-- A consumer has started: a ring's tile is DRAINING, a plain tile has one more read in progress. -/
def Thread.startRead (th : Thread) (now : Nat) (t : Taken) : Thread :=
  match t.ring with
  | none => th.modTile t.tile fun x => { x with reads := x.reads + 1 }
  | some k =>
    let th1 := th.modTile t.tile fun x => { x.go .draining now with isOver := false }
    match th.ring? now k with
    | some r => th1.setRing k (some { r with rtake := r.rtake + 1 })
    | none => th1

/-- Frees the tiles at a ring's head whose consumers have retired, in taking order (R154, R196). -/
def headOver (now : Nat) : Nat → Nat → Thread → Thread
  | 0, _, th => th
  | f + 1, k, th =>
    match th.ring? now k with
    | some r =>
      if r.rtake = 0 then th
      else
        match th.tile? (r.first + r.head) with
        | some t =>
          if t.st == .draining && t.isOver then
            headOver now f k
              ((th.modTile (r.first + r.head) fun x => { x.go .free now with isOver := false }).setRing k (some (r.headOn now)))
          else th
        | none => th
    | none => th

/-- A consumer has retired: a read by number is over; a ring's tile is free once every consumer that took an earlier tile has retired, whatever
reads by number go on (R196). -/
def Thread.endRead (th : Thread) (now : Nat) (t : Taken) : Thread :=
  match t.ring with
  | none => th.modTile t.tile fun x => { x with reads := x.reads - 1 }
  | some k => headOver now 16 k (th.modTile t.tile fun x => { x with isOver := true })

/-- Goes on with the tile a writer takes; a write to t255 goes to `null` (R198). -/
def withWriter (th : Thread) (now : Nat) (t : TileRef) (null : Head) (k : Taken → Word → Head) : Head :=
  match th.writer now t with
  | .null => null
  | .bad => .trap (illegal)
  | .wait => .wait .tile
  | .ok x d => k x d

/-- Goes on with the tile a consumer takes. -/
def withConsumer (th : Thread) (now : Nat) (t : TileRef) (k : Taken → Word → Head) : Head :=
  match th.consumer now t with
  | .ok x d => k x d
  | .wait => .wait .tile
  | _ => .trap (illegal)

/-- The descriptor a name leads to, without waiting: of a ring, that of its first member. -/
def Thread.descOf (th : Thread) (now : Nat) : TileRef → Option Word
  | .tile n => (th.tile? n.toNat).map (·.desc)
  | .ring k =>
    match th.ring? now k.toNat with
    | some r => (th.tile? r.first).map (·.desc)
    | none => none

/-- The member tiles of a ring. -/
def Ring.members (r : Ring) : List Nat := (List.range r.n).map (r.first + ·)

/-- Whether a tile is FILLING or DRAINING. -/
def Tile.busy (t : Tile) (now : Nat) : Bool := !(t.isIn .free now || t.isIn .full now)

/-- The state code (R78). -/
def TileSt.code : TileSt → Nat
  | .free => 0
  | .filling => 1
  | .full => 2
  | .draining => 3

end Sys2Proof.Machine
end

