-- ==== Sys2Proof/Machine/Global.lean ====
section
/-! DEFINITION. Global memory: page tables and the two stages of translation, TLBs, homes and proxies, reads and writes of lines, the
undo log (spec/10_transfer.md R202, R209, R211 to R213; spec/11_ordering.md R229; spec/15_traps.md R306, R320). -/

namespace Sys2Proof.Machine

/-! ### Page tables (R211, R212) -/

/-- What an access needs of a leaf. -/
inductive Need where
  | rd | wr | atomic
  deriving DecidableEq, Repr

/-- A failed translation: its kind, stage and level. -/
structure XlFault where
  code : Nat
  stage : Nat
  level : Nat
  deriving DecidableEq, Repr

/-- A translated address with the permissions its leaf grants and the leaf's level. -/
structure Leaf where
  out : Nat
  rd : Bool
  wr : Bool
  atomic : Bool
  level : Nat
  deriving DecidableEq, Repr

def Leaf.grants (l : Leaf) : Need → Bool
  | .rd => l.rd
  | .wr => l.wr
  | .atomic => l.atomic

/-- The logarithm of the bytes that an entry of a level maps. -/
def levelLog (l : Nat) : Nat := 46 - 10 * l

/-- The output address of a table entry. -/
def pteOut (e : Word) : Nat := fieldNat e 55 16 * 65536

/-- Whether an entry is good at its level (R212). -/
def pteGood (l : Nat) (e : Word) : Bool :=
  bitOf e 0 && fieldNat e 15 5 == 0 &&
    (if bitOf e 1 then l != 3 else l != 0 && pteOut e % 2 ^ levelLog l == 0)

/-- Walks a table from the root through the levels given; `entry` reads a table entry at an address (R211). -/
def walkTable (stage : Nat) (entry : Nat → Except XlFault Word) (va : Nat) : List Nat → Nat → Except XlFault Leaf
  | [], _ => .error { code := trapTranslation, stage := stage, level := 3 }
  | l :: ls, table =>
    match entry (table + 8 * (va / 2 ^ levelLog l % 1024)) with
    | .error f => .error f
    | .ok e =>
      if !pteGood l e then .error { code := trapTranslation, stage := stage, level := l }
      else if bitOf e 1 then walkTable stage entry va ls (pteOut e)
      else .ok { out := pteOut e + va % 2 ^ levelLog l, rd := bitOf e 2, wr := bitOf e 3, atomic := bitOf e 4, level := l }

/-- The word at a physical address, as a walk reads it. -/
def State.physWord (s : State) (pa : Nat) : Word := wordOf (s.mem.read pa 8)

/-- The partition stage of an intermediate address, without its permissions. -/
def State.partLeaf (s : State) (p ia : Nat) : Except XlFault Leaf :=
  walkTable 2 (fun a => .ok (s.physWord a)) (ia % 2 ^ 56) [0, 1, 2, 3] (s.part p).set.proot.toNat

/-- The partition stage of an intermediate address for an access (R212). -/
def State.partXl (s : State) (p ia : Nat) (n : Need) : Except XlFault Nat :=
  match s.partLeaf p ia with
  | .error f => .error f
  | .ok l => if l.grants n then .ok l.out else .error { code := trapPermission, stage := 2, level := l.level }

/-- The tenant root of a context: the valid entry of lowest index that names it (R211, R327). -/
def State.tenantRoot (s : State) (p : Nat) (ctx : BitVec 24) : Option Nat :=
  ((s.part p).set.ctxtab.find? fun e => bitOf e.2.1 63 && fieldNat e.2.1 23 0 == ctx.toNat).map fun e =>
    fieldNat e.2.2 55 16 * 65536

/-- Both stages of a virtual address, walked afresh: the tenant leaf's permission, then the partition leaf's (R211, R212). Answers the
leaf with the permissions that both stages grant. -/
def State.walkBoth (s : State) (p : Nat) (ctx : BitVec 24) (va : Nat) (n : Need) : Except XlFault Leaf :=
  match s.tenantRoot p ctx with
  | none => .error { code := trapTranslation, stage := 1, level := 0 }
  | some root =>
    match walkTable 1 (fun a => (s.partXl p a .rd).map s.physWord) va [0, 1, 2, 3] root with
    | .error f => .error f
    | .ok t =>
      if !t.grants n then .error { code := trapPermission, stage := 1, level := t.level }
      else
        match s.partLeaf p t.out with
        | .error f => .error f
        | .ok q =>
          if !q.grants n then .error { code := trapPermission, stage := 2, level := q.level }
          else .ok { q with rd := t.rd && q.rd, wr := t.wr && q.wr, atomic := t.atomic && q.atomic }

/-! ### TLBs (R213) -/

/-- Entries of a core's access TLB, entries of a die's TLB, and walks of a die at once. -/
def accessEntries : Nat := 512
def dieEntries : Nat := 32768
def dieWalks : Nat := 64

def TlbEntry.grants (e : TlbEntry) : Need → Bool
  | .rd => e.rd
  | .wr => e.wr
  | .atomic => e.atomic

/-- Whether an entry translates a page of a context. -/
def TlbEntry.isFor (e : TlbEntry) (p : Nat) (ctx : BitVec 24) (page : Nat) : Bool :=
  e.part == p && e.ctx == some ctx && e.page == page

/-- The physical address of a virtual one by a TLB that holds a translation which permits the access. -/
def tlbFind (l : List TlbEntry) (p : Nat) (ctx : BitVec 24) (va : Nat) (n : Need) : Option Nat :=
  (l.find? fun e => e.isFor p ctx (va / 65536) && e.grants n).map fun e => 65536 * e.phys + va % 65536

/-- A TLB of at most `cap` entries with one more, in place of an older one of its page; where none is free, which entry leaves is the free
value named by n (log 68). -/
def tlbInsert (cap n : Nat) (e : TlbEntry) (l : List TlbEntry) : List TlbEntry :=
  let rest := l.filter fun x => !(x.part == e.part && x.ctx == e.ctx && x.page == e.page)
  if rest.length < cap then e :: rest else e :: dropAt rest (Config.freeVictim n % rest.length)

/-- The physical address of a virtual one by the TLB of a die. -/
def State.tlbGet (s : State) (d p : Nat) (ctx : BitVec 24) (va : Nat) (n : Need) : Option Nat :=
  tlbFind (s.die d).tlb p ctx va n

/-- The entry that a combined translation makes. -/
def Leaf.entry (l : Leaf) (p : Nat) (ctx : BitVec 24) (va : Nat) : TlbEntry :=
  { part := p, ctx := some ctx, page := va / 65536, phys := l.out / 65536, rd := l.rd, wr := l.wr, atomic := l.atomic }

/-- Puts a combined translation into the TLB of a die. -/
def State.tlbPut (s : State) (d p : Nat) (ctx : BitVec 24) (va : Nat) (l : Leaf) : State :=
  { s.modDie d fun x => { x with tlb := tlbInsert dieEntries s.fresh (l.entry p ctx va) x.tlb } with fresh := s.fresh + 1 }

/-- The physical address that the access engine of a thread finds: in the access TLB of its lead core, else in the TLB of the die. -/
def State.accGet (s : State) (th : Thread) (va : Nat) (n : Need) : Option Nat :=
  match tlbFind (s.core th.life.rect.lead).tlb th.life.part th.life.ctx va n with
  | some pa => some pa
  | none => s.tlbGet th.life.rect.die th.life.part th.life.ctx va n

/-- Copies the die's translation of a page into the access TLB of a thread's lead core, when that misses. -/
def State.accFill (s : State) (th : Thread) (n : Need) (va : Nat) : State :=
  let p := th.life.part
  match tlbFind (s.core th.life.rect.lead).tlb p th.life.ctx va n,
      (s.die th.life.rect.die).tlb.find? fun e => e.isFor p th.life.ctx (va / 65536) && e.grants n with
  | none, some e =>
    { s.modCore th.life.rect.lead fun c => { c with tlb := tlbInsert accessEntries s.fresh e c.tlb } with fresh := s.fresh + 1 }
  | _, _ => s

/-- Drops the translations of a partition that `out` selects, from every TLB. -/
def State.tlbDrop (s : State) (out : TlbEntry → Bool) : State :=
  { s with
    cores := s.cores.map fun c => { c with tlb := c.tlb.filter fun e => !out e },
    dies := s.dies.map fun d => { d with tlb := d.tlb.filter fun e => !out e } }

/-- Translates at once: what the C stream and the device do. A miss walks and fills the TLB; a failed walk is not held. -/
def State.xlate (s : State) (d p : Nat) (ctx : BitVec 24) (va : Nat) (n : Need) : State × Except XlFault Nat :=
  match s.tlbGet d p ctx va n with
  | some pa => (s, .ok pa)
  | none =>
    match s.walkBoth p ctx va n with
    | .ok l => (s.tlbPut d p ctx va l, .ok l.out)
    | .error f => (s, .error f)

/-! ### Homes, reads and writes -/

/-- Whose line a physical line is; where no range names its home, the die is a free value (log 7). -/
def State.homeOf (s : State) (l : Nat) : Home :=
  match s.homes.find? fun r => decide (r.base ≤ 64 * l) && decide (64 * l < r.base + r.size) with
  | some r => r.home
  | none => .die (Config.freeHome l).toNat

/-- Bytes of HBM that a die is built with: 128 GB, in R2's decimal units (R1). -/
def dieHbm : Nat := 128 * 10 ^ 9

/-- Bytes of HBM that a die offers: what it is built with, less what it has retired with no spare row left, 64 bytes to an entry (R1). -/
def State.hbmBytes (s : State) (d : Nat) : Nat := dieHbm - 64 * (s.die d).retired.length

/-- Whether the ranges that name a die as their home fit its HBM (R1). -/
def State.homesFit (s : State) : Bool :=
  (List.range 8).all fun d => decide ((s.homes.filter fun r => r.home == .die d).foldl (fun n r => n + r.size) 0 ≤ s.hbmBytes d)

/-- The home that a range names for a line. -/
def State.namedHome (s : State) (l : Nat) : Option Home :=
  (s.homes.find? fun r => decide (r.base ≤ 64 * l) && decide (64 * l < r.base + r.size)).map (·.home)

/-- Numbers without those that repeat the one before them. -/
def withoutRepeats : List Nat → List Nat
  | a :: b :: r => if a = b then withoutRepeats (b :: r) else a :: withoutRepeats (b :: r)
  | l => l

/-- The lines of a memory that hold anything. -/
def Mem.lines (m : Mem) : List Nat :=
  withoutRepeats (m.cells.map fun c => c.1 / 64) ++ (m.marks.map (·.1)).filter fun l => !m.cells.any fun c => c.1 / 64 == l

/-- Whether memory of some bytes that keeps the lines with homes of one kind has room for line l beside what the others hold. -/
def State.roomFor (s : State) (l bytes : Nat) (kind : Option Home → Bool) : Bool :=
  decide (64 * ((s.mem.lines.filter fun x => x != l && kind (s.namedHome x)).length + 1) ≤ bytes)

/-- Whether a line has a place in HBM: it has not been retired, and the lines that hold anything fill neither its die nor the package. Which
addresses have memory behind them the spec does not say: any may have, as long as there is room (R1; DESIGN CHOICE, log 7). Of host memory and of
other packages it gives no size. -/
def State.held (s : State) (l : Nat) : Bool :=
  let all := ((List.range 8).map s.hbmBytes).sum
  let inPackage := s.roomFor l all fun h => match h with
    | some (.die _) | none => true
    | _ => false
  match s.namedHome l with
  | some (.die d) => !(s.die d).retired.contains l && s.roomFor l (s.hbmBytes d) (· == some (.die d)) && inPackage
  | some _ => true
  | none => !(s.dies.any fun d => d.retired.contains l) && inPackage

/-! ### L2 slices (R1, R12) -/

/-- Lines of one slice: 4 MiB. -/
def sliceLines : Nat := 65536

/-- A die's L2 slices with one more line: where its slice is full, which of the slice's lines leaves is the free value named by n; the
slice a line belongs to is a free value as well (log 8). -/
def l2Insert (n line : Nat) (l2 : List Nat) : List Nat :=
  let rest := l2.filter (· != line)
  if rest.length < sliceLines then line :: rest
  else
    let mine := rest.filter fun x => Config.freeSlice x == Config.freeSlice line
    if mine.length < sliceLines then line :: rest
    else line :: rest.filter (· != mine.getD (Config.freeVictim n % mine.length) 0)

/-- Loads a line into its home slice. -/
def State.l2Load (s : State) (line : Nat) : State :=
  match s.homeOf line with
  | .die d => { s.modDie d fun x => { x with l2 := l2Insert s.fresh line x.l2 } with fresh := s.fresh + 1 }
  | _ => s

/-- A slice of a die loads or evicts a line on its own: a line homed there alone. -/
def State.sliceMove (s : State) (d line : Nat) (load : Bool) : State :=
  if s.homeOf line != .die d then s
  else if load then s.l2Load line
  else s.modDie d fun x => { x with l2 := x.l2.filter (· != line) }

/-- Whether a line is present where a residency probe asks: in its home slice, or, of a line homed elsewhere, as this package's proxy
(R229, R272). -/
def State.present (s : State) (line : Nat) : Bool :=
  match s.homeOf line with
  | .die d => (s.die d).l2.contains line
  | .package _ => s.proxies.any fun x => x.line == line
  | .host => false

/-- The die whose devices serve a line of this package. -/
def Home.dieOr (h : Home) : Nat :=
  match h with
  | .die d => d
  | _ => 0

def Home.isHost : Home → Bool
  | .host => true
  | _ => false

def Home.isForeign : Home → Bool
  | .package _ => true
  | _ => false

/-- A line as a read sees it: a foreign line through its proxy, unless the record's scope is sys (R229); a line that the Juron link
delivers marked as erroneous arrives poisoned with the tag of a record of class 7 (R304; log 36). -/
def State.readLine (s : State) (sys : Bool) (l : Nat) : State × (List (BitVec 8) × Mark) :=
  if (s.homeOf l).isForeign && !sys then
    match s.proxies.find? fun x => x.line == l with
    | some x => (s, (x.bytes, x.mark))
    | none =>
      let g := s.mem.line l
      ({ s with proxies := { line := l, bytes := g.1, mark := g.2 } :: s.proxies }, g)
  else if s.hostBad.contains l && (s.homeOf l).isHost then
    let (s1, tag) := s.record 0 3 7 false (Config.freePart s.fresh).toNat (s.core 0).lcyc.toNat none
    (s1, (lostBytes s.fresh, some tag))
  else (s, s.mem.line l)

/-- Drops the proxy of a line. -/
def State.dropProxy (s : State) (l : Nat) : State := { s with proxies := s.proxies.filter fun x => x.line != l }

/-- Writes part of a line at its home (R202, R229). A line that has no place in HBM, or has been retired, keeps nothing that is written to it: it
reads as before (R1, R339; DESIGN CHOICE, log 7). -/
def State.writeLine (s : State) (l : Nat) (bs : List (Option (BitVec 8))) (k : Mark) : State :=
  let s1 := s.dropProxy l
  { s1 with
    mem := if s.held l then s1.mem.lineWrite l bs k s1.fresh else s1.mem, fresh := s1.fresh + 1,
    hostBad := if s1.hostBad.isEmpty || !bs.all Option.isSome then s1.hostBad else s1.hostBad.filter (· != l) }

/-- Logs a line that an open checkpoint interval writes for the first time; a line homed elsewhere sets UNLOG (R320). -/
def State.logLine (s : State) (tid l : Nat) : State :=
  s.modThread tid fun th =>
    if !th.life.ckpt.isOpen then th
    else
      match s.homeOf l with
      | .die _ =>
        if th.life.undo.any fun u => u.line == l then th
        else
          let g := s.mem.line l
          th.modLife fun f => { f with undo := { line := l, bytes := g.1, mark := g.2 } :: f.undo }
      | _ => th.modLife fun f => { f with ckpt := { f.ckpt with unlog := true } }

/-- Counts events of the fence status (R228). -/
def State.countFence (s : State) (tid : Nat) (f : FenceCounts → FenceCounts) : State :=
  s.modThread tid fun th => { th with a := { th.a with fence := f th.a.fence } }

/-- A count that holds at 0xFFFF. -/
def hold16 (n : Nat) : Nat := min n 65535

def FenceCounts.addDead (f : FenceCounts) (n : Nat) : FenceCounts := { f with dead := hold16 (f.dead + n) }
def FenceCounts.addRefused (f : FenceCounts) (n : Nat) : FenceCounts := { f with refused := hold16 (f.refused + n) }
def FenceCounts.addPoisoned (f : FenceCounts) (n : Nat) : FenceCounts := { f with poisoned := hold16 (f.poisoned + n) }
def FenceCounts.addTimeout (f : FenceCounts) (n : Nat) : FenceCounts := { f with timeout := hold16 (f.timeout + n) }

/-- The partition of a thread. -/
def State.partOfThread (s : State) (tid : Nat) : Nat :=
  match s.thread? tid with
  | some th => th.life.part
  | none => 0

/-- A write of part of a line by an access command of a thread: logged and written, or, where `late` says so, seen only later; counted when
what is written is poisoned. -/
def State.cmdWriteLine (s : State) (tid l : Nat) (bs : List (Option (BitVec 8))) (k : Mark) (late : Bool := false) : State :=
  let s1 :=
    if late then { s with late := s.late ++ [{ tid := tid, part := s.partOfThread tid, line := l, bytes := bs, mark := k }] }
    else (s.logLine tid l).writeLine l bs k
  if k.isSome then s1.countFence tid fun f => f.addPoisoned 1 else s1

/-- A late write is seen from now on, unless an older one of its line is not seen yet (R230). -/
def State.land (s : State) (k : Nat) : State :=
  match s.late[k]? with
  | none => s
  | some w =>
    if (s.late.take k).any fun x => x.line == w.line then s
    else { (s.logLine w.tid w.line).writeLine w.line w.bytes w.mark with late := dropAt s.late k }

/-- Whether a thread has a late write to a line that satisfies a condition. -/
def State.hasLate (s : State) (tid : Nat) (f : Nat → Bool) : Bool := s.late.any fun w => w.tid == tid && f w.line

/-- The lines of a list of addresses, each once, in order of first use. -/
def linesOf (as : List Nat) : List Nat := as.foldl (fun ls a => if ls.contains (a / 64) then ls else ls ++ [a / 64]) []

/-- Reads bytes at physical addresses, each with the mark of its line: an address of none reads 0, clean. -/
def State.readPhys (s : State) (sys : Bool) (as : List (Option Nat)) : State × List (BitVec 8 × Mark) :=
  let ls := linesOf (as.filterMap id)
  let (s1, gs) := ls.foldl (init := (s, ([] : List (Nat × (List (BitVec 8) × Mark))))) fun acc l =>
    let (t, g) := acc.1.readLine sys l
    (t, acc.2 ++ [(l, g)])
  let one := fun (a : Option Nat) =>
    match a with
    | none => ((0 : BitVec 8), (none : Mark))
    | some x => match gs.find? fun g => g.1 == x / 64 with
      | some g => (g.2.1.getD (x % 64) 0, g.2.2)
      | none => (0, none)
  (s1, as.map one)

/-- A byte to be written, with its physical address and its mark. -/
abbrev PByte := Nat × BitVec 8 × Mark

/-- The bytes of one line among some; of two for one address the later stands. -/
def lineSlots (l : Nat) (xs : List PByte) : List (Option (BitVec 8)) :=
  (List.range 64).map fun i => (xs.reverse.find? fun x => x.1 == 64 * l + i).map (·.2.1)

/-- The mark that a line takes from the bytes written into it. -/
def lineMark (l : Nat) (xs : List PByte) : Mark := meetAll ((xs.filter fun x => x.1 / 64 == l).map (·.2.2))

/-- Writes bytes at physical addresses for an access command, line by line. -/
def State.writePhys (s : State) (tid : Nat) (xs : List PByte) (late : Bool := false) : State :=
  (linesOf (xs.map (·.1))).foldl (fun t l => t.cmdWriteLine tid l (lineSlots l xs) (lineMark l xs) late) s

/-- The mark of the poisoned bytes, if some line of host memory would take one (R306). -/
def State.hostPoison (s : State) (xs : List PByte) : Mark :=
  meetAll ((linesOf (xs.map (·.1))).map fun l => if (s.homeOf l).isHost then lineMark l xs else none)

/-- Writes a byte string from offset o of line l on, line by line; the fuel bounds the number of lines. -/
def State.writeFrom (s : State) : Nat → Nat → Nat → List (BitVec 8) → State
  | 0, _, _, _ => s
  | f + 1, l, o, bs =>
    if bs.isEmpty then s
    else
      let now := bs.take (64 - o)
      let sl := List.replicate o none ++ now.map some ++ List.replicate (64 - o - now.length) none
      (s.writeLine l sl none).writeFrom f (l + 1) 0 (bs.drop (64 - o))

/-- Writes bytes at consecutive physical addresses, as the C stream and the device do: neither logged nor counted. -/
def State.writeRaw (s : State) (pa : Nat) (bs : List (BitVec 8)) : State :=
  s.writeFrom (bs.length / 64 + 2) (pa / 64) (pa % 64) bs

/-- The host writes bytes over its link: into this package's memory or into its own; a line of another package is not written so (R243; log 11). -/
def State.hostWrite (s : State) (pa : Nat) (bs : List (BitVec 8)) : State :=
  let a := pa % 2 ^ 56
  let lines := (List.range ((a + bs.length + 63) / 64 - a / 64)).map (a / 64 + ·)
  if lines.any fun l => (s.homeOf l).isForeign then s else s.writeRaw a bs

/-! ### Reads and writes of the C stream and of the device -/

/-- Bytes at consecutive virtual addresses, translated page by page: the machine after, and the bytes with their mark, or the fault with
the address it was met at. -/
def State.readVirt (s : State) (d p : Nat) (ctx : BitVec 24) (va n : Nat) : State × Except (XlFault × Nat) (List (BitVec 8) × Mark) :=
  let pages := (List.range ((va + n + 65535) / 65536 - va / 65536)).map fun i => max va (65536 * (va / 65536 + i))
  let (s1, r) := pages.foldl (init := (s, (.ok [] : Except (XlFault × Nat) (List (Nat × Nat))))) fun acc a =>
    match acc.2 with
    | .error _ => acc
    | .ok l =>
      match acc.1.xlate d p ctx (a % 2 ^ 56) .rd with
      | (t, .ok pa) => (t, .ok (l ++ [(a / 65536, pa / 65536)]))
      | (t, .error f) => (t, .error (f, a % 2 ^ 56))
  match r with
  | .error f => (s1, .error f)
  | .ok l =>
    let phys := fun (a : Nat) => match l.find? fun x => x.1 == a / 65536 with
      | some x => some (65536 * x.2 + a % 65536)
      | none => none
    let (s2, g) := s1.readPhys false ((List.range n).map fun i => phys (va + i))
    (s2, .ok (g.map (·.1), meetAll (g.map (·.2))))

/-- Whether every page of a range of virtual addresses translates for an access; the first fault if not. -/
def State.probeVirt (s : State) (d p : Nat) (ctx : BitVec 24) (va n : Nat) (need : Need) : State × Option (XlFault × Nat) :=
  let pages := (List.range ((va + n + 65535) / 65536 - va / 65536)).map fun i => max va (65536 * (va / 65536 + i))
  pages.foldl (init := (s, none)) fun acc a =>
    match acc.2 with
    | some _ => acc
    | none =>
      match acc.1.xlate d p ctx (a % 2 ^ 56) need with
      | (t, .ok _) => (t, none)
      | (t, .error f) => (t, some (f, a % 2 ^ 56))

/-- Writes bytes at consecutive virtual addresses whose pages translate. -/
def State.writeVirt (s : State) (d p : Nat) (ctx : BitVec 24) (va : Nat) (bs : List (BitVec 8)) : State :=
  let pages := (List.range ((va + bs.length + 65535) / 65536 - va / 65536)).map fun i => max va (65536 * (va / 65536 + i))
  pages.foldl (init := s) fun t a =>
    let stop := min (va + bs.length) (65536 * (a / 65536) + 65536)
    match t.xlate d p ctx (a % 2 ^ 56) .wr with
    | (u, .ok pa) => u.writeRaw pa ((bs.drop (a - va)).take (stop - a))
    | (u, .error _) => u

/-- Bytes at consecutive intermediate addresses, through the partition stage alone (R311); none on a fault. -/
def State.readPool (s : State) (p ia n : Nat) : Option (List (BitVec 8) × Mark) :=
  let pages := (List.range ((ia + n + 65535) / 65536 - ia / 65536)).map fun i => max ia (65536 * (ia / 65536 + i))
  pages.foldl (init := some ([], none)) fun acc a =>
    match acc, s.partXl p a .rd with
    | some (bs, k), .ok pa =>
      let stop := min (ia + n) (65536 * (a / 65536) + 65536)
      let m := stop - a
      let ls := (List.range ((pa + m + 63) / 64 - pa / 64)).map (pa / 64 + ·)
      some (bs ++ s.mem.read pa m, meet k (meetAll (ls.map s.mem.mark)))
    | _, _ => none

/-- Writes bytes at consecutive intermediate addresses; none on a fault. -/
def State.writePool (s : State) (p ia : Nat) (bs : List (BitVec 8)) : Option State :=
  let pages := (List.range ((ia + bs.length + 65535) / 65536 - ia / 65536)).map fun i => max ia (65536 * (ia / 65536 + i))
  pages.foldl (init := some s) fun acc a =>
    match acc with
    | none => none
    | some t =>
      match t.partXl p a .wr with
      | .error _ => none
      | .ok pa =>
        let stop := min (ia + bs.length) (65536 * (a / 65536) + 65536)
        some (t.writeRaw pa ((bs.drop (a - ia)).take (stop - a)))

end Sys2Proof.Machine
end

