-- ==== Sys2Proof/Machine/Scalar.lean ====
section
/-! DEFINITION. The shared scalar class of the C and A streams (spec/03_scalar.md R47 to R56). -/

namespace Sys2Proof.Machine

/-- What a stream or policy instruction answers. -/
abbrev Answer := Host.Outcome State Fault Refusal

/-- A width operation: operands narrowed, f in the integers, the result narrowed and extended once (R45). -/
def widthOp (ws : WS) (f : Int → Int → Int) (a b : Word) : Word :=
  wrapW (f (extW a ws.w.bits ws.s) (extW b ws.w.bits ws.s)) ws.w.bits ws.s

/-- A bitwise operation at a width, in two's complement (R48). -/
def bitOp (ws : WS) (f : Word → Word → Word) (a b : Word) : Word :=
  wrapW (f (BitVec.ofInt 64 (extW a ws.w.bits ws.s)) (BitVec.ofInt 64 (extW b ws.w.bits ws.s))).toInt ws.w.bits ws.s

/-- The shift count: the second operand as an unsigned pattern, modulo the width (R48). -/
def shiftCount (ws : WS) (b : Word) : Nat := b.toNat % ws.w.bits

/-- The shifts and rotation of R48. -/
def shiftOp (kind : ShiftKind) (ws : WS) (a b : Word) : Word :=
  let w := ws.w.bits
  let c := shiftCount ws b
  let v : Int :=
    match kind with
    | .shl => extW a w ws.s * (2 ^ c : Nat)
    | .shr => extW a w false / (2 ^ c : Nat)
    | .sar => extW a w true / (2 ^ c : Nat)
    | .rot =>
      let u := extW a w false
      u * (2 ^ c : Nat) + u / (2 ^ (w - c) : Nat)
  wrapW v w ws.s

/-- Quotient rounded toward zero; −1 for a zero divisor (R48). -/
def divF (a b : Int) : Int := if b = 0 then -1 else Int.tdiv a b

/-- Remainder; the dividend for a zero divisor (R48). -/
def remF (a b : Int) : Int := if b = 0 then a else a - b * Int.tdiv a b

/-- Whether a condition holds between two integers (R51). -/
def condHolds (c : Cond) (a b : Int) : Bool :=
  match c with
  | .eq => a == b
  | .ne => a != b
  | .lt => decide (a < b)
  | .le => decide (a ≤ b)
  | .gt => decide (b < a)
  | .ge => decide (b ≤ a)

/-- 1 when the condition holds at the width, else 0 (R51). -/
def cmpOp (c : Cond) (ws : WS) (a b : Word) : Word :=
  if condHolds c (extW a ws.w.bits ws.s) (extW b ws.w.bits ws.s) then 1 else 0

/-- Leading zero bits of the w low bits (R53). -/
def clzF (a : Word) : Nat → Nat
  | 0 => 0
  | w + 1 => if bitOf a w then 0 else clzF a w + 1

/-- One bits among the w low bits (R53). -/
def popF (a : Word) : Nat → Nat
  | 0 => 0
  | w + 1 => (if bitOf a w then 1 else 0) + popF a w

/-- Bits pos+len−1..pos, extended (R55). -/
def bextF (sgn : Bool) (pos len : Nat) (a : Word) : Word := BitVec.ofInt 64 (extW (a >>> pos) len sgn)

/-- The insertion of R55. -/
def binsF (pos len : Nat) (a v d : Word) : Word :=
  let q := (pos + d.toNat) % 64
  (List.range len).foldl (init := a) fun r i =>
    if q + i ≤ 63 then (r &&& ~~~(1#64 <<< (q + i))) ||| ((BitVec.ofNat 64 (if bitOf v i then 1 else 0)) <<< (q + i)) else r

/-- nop (R47): no operand, no push. -/
def execNop (s : State) : Answer := issue s fun _ _ s1 => .done s1

/-- add (R48). -/
def execAdd (ws : WS) (x y : Src) (d : Dst) (s : State) : Answer := scalar2 s x y d (widthOp ws fun a b => a + b)

/-- sub (R48). -/
def execSub (ws : WS) (x y : Src) (d : Dst) (s : State) : Answer := scalar2 s x y d (widthOp ws fun a b => a - b)

/-- mul (R48). -/
def execMul (ws : WS) (x y : Src) (d : Dst) (s : State) : Answer := scalar2 s x y d (widthOp ws fun a b => a * b)

/-- mulh: the high half of the product (R48). -/
def execMulh (ws : WS) (x y : Src) (d : Dst) (s : State) : Answer :=
  scalar2 s x y d (widthOp ws fun a b => a * b / (2 ^ ws.w.bits : Nat))

/-- div (R48). -/
def execDiv (ws : WS) (x y : Src) (d : Dst) (s : State) : Answer := scalar2 s x y d (widthOp ws divF)

/-- rem (R48). -/
def execRem (ws : WS) (x y : Src) (d : Dst) (s : State) : Answer := scalar2 s x y d (widthOp ws remF)

/-- and (R48). -/
def execAnd (ws : WS) (x y : Src) (d : Dst) (s : State) : Answer := scalar2 s x y d (bitOp ws fun a b => a &&& b)

/-- or (R48). -/
def execOr (ws : WS) (x y : Src) (d : Dst) (s : State) : Answer := scalar2 s x y d (bitOp ws fun a b => a ||| b)

/-- xor (R48). -/
def execXor (ws : WS) (x y : Src) (d : Dst) (s : State) : Answer := scalar2 s x y d (bitOp ws fun a b => a ^^^ b)

/-- andn: a and not b (R48). -/
def execAndn (ws : WS) (x y : Src) (d : Dst) (s : State) : Answer := scalar2 s x y d (bitOp ws fun a b => a &&& ~~~b)

/-- shl (R48). -/
def execShl (ws : WS) (x y : Src) (d : Dst) (s : State) : Answer := scalar2 s x y d (shiftOp .shl ws)

/-- shr (R48). -/
def execShr (ws : WS) (x y : Src) (d : Dst) (s : State) : Answer := scalar2 s x y d (shiftOp .shr ws)

/-- sar (R48). -/
def execSar (ws : WS) (x y : Src) (d : Dst) (s : State) : Answer := scalar2 s x y d (shiftOp .sar ws)

/-- rot (R48). -/
def execRot (ws : WS) (x y : Src) (d : Dst) (s : State) : Answer := scalar2 s x y d (shiftOp .rot ws)

/-- min (R48). -/
def execMin (ws : WS) (x y : Src) (d : Dst) (s : State) : Answer :=
  scalar2 s x y d (widthOp ws fun a b => if a ≤ b then a else b)

/-- max (R48). -/
def execMax (ws : WS) (x y : Src) (d : Dst) (s : State) : Answer :=
  scalar2 s x y d (widthOp ws fun a b => if b ≤ a then a else b)

/-- cmp (R51). -/
def execCmp (c : Cond) (ws : WS) (x y : Src) (d : Dst) (s : State) : Answer := scalar2 s x y d (cmpOp c ws)

/-- sel: the operand not selected, and its poison, do not reach the result (R54); it is still read, so the instruction waits for it. -/
def execSel (c x y : Src) (d : Dst) (s : State) : Answer :=
  issue s fun k th s1 =>
    let vc := (th.regs k.sid).read c
    let vx := (th.regs k.sid).read x
    let vy := (th.regs k.sid).read y
    if vc.pending || vx.pending || vy.pending then .wait .result
    else
      let v := if vc.bits = 0 then vy else vx
      .done (s1.push k { bits := v.bits, mark := meet vc.mark v.mark } d)

/-- clz (R53). -/
def execClz (ws : WS) (x : Src) (d : Dst) (s : State) : Answer :=
  scalar1 s x d fun a => wrapW (clzF a ws.w.bits) ws.w.bits ws.s

/-- popc (R53). -/
def execPopc (ws : WS) (x : Src) (d : Dst) (s : State) : Answer :=
  scalar1 s x d fun a => wrapW (popF a ws.w.bits) ws.w.bits ws.s

/-- bext (R55). -/
def execBext (sgn : Bool) (x : Src) (pos len1 : BitVec 6) (d : Dst) (s : State) : Answer :=
  scalar1 s x d (bextF sgn pos.toNat (len1.toNat + 1))

/-- bins (R55). -/
def execBins (x v sh : Src) (pos len1 : BitVec 6) (d : Dst) (s : State) : Answer :=
  scalar3 s x v sh d (binsF pos.toNat (len1.toNat + 1))

/-- ext (R53). -/
def execExt (ws : WS) (x : Src) (d : Dst) (s : State) : Answer :=
  scalar1 s x d fun a => wrapW (extW a ws.w.bits ws.s) ws.w.bits ws.s

/-- lea (R56). -/
def execLea (x y z : Src) (sh : BitVec 3) (d : Dst) (s : State) : Answer :=
  scalar3 s x y z d fun a b c => a + (b <<< sh.toNat) + c

/-- mov (R53). -/
def execMov (x : Src) (d : Dst) (s : State) : Answer := scalar1 s x d id

/-- addi (R52). -/
def execAddi (ws : WS) (x : Src) (i : Imm) (d : Dst) (s : State) : Answer :=
  scalar1 s x d fun a => widthOp ws (fun a b => a + b) a i.value

/-- andi (R52). -/
def execAndi (ws : WS) (x : Src) (i : Imm) (d : Dst) (s : State) : Answer :=
  scalar1 s x d fun a => bitOp ws (fun a b => a &&& b) a i.value

/-- ori (R52). -/
def execOri (ws : WS) (x : Src) (i : Imm) (d : Dst) (s : State) : Answer :=
  scalar1 s x d fun a => bitOp ws (fun a b => a ||| b) a i.value

/-- xori (R52). -/
def execXori (ws : WS) (x : Src) (i : Imm) (d : Dst) (s : State) : Answer :=
  scalar1 s x d fun a => bitOp ws (fun a b => a ^^^ b) a i.value

/-- shi (R52). -/
def execShi (kind : ShiftKind) (ws : WS) (x : Src) (i : Imm) (d : Dst) (s : State) : Answer :=
  scalar1 s x d fun a => shiftOp kind ws a i.value

/-- cmpi (R51, R52). -/
def execCmpi (c : Cond) (ws : WS) (x : Src) (i : Imm) (d : Dst) (s : State) : Answer :=
  scalar1 s x d fun a => cmpOp c ws a i.value

/-- lit (R52). -/
def execLit (ws : WS) (i : Imm) (d : Dst) (s : State) : Answer :=
  issue s fun k _ s1 => .done (s1.pushWord k (wrapW (extW i.value ws.w.bits ws.s) ws.w.bits ws.s) d)

end Sys2Proof.Machine
end

