-- ==== Sys2Proof/Machine/Control.lean ====
section
/-! DEFINITION. Control and coupling: branches, loop counters, rep, go and stop, guard FIFOs, word tiles, lcyc and self
(spec/04_control.md R59 to R83). -/

namespace Sys2Proof.Machine

/-- A word made of fields, each a value and the place of its lowest bit. -/
def wordFields (fs : List (Nat × Nat)) : Word := BitVec.ofNat 64 (fs.foldl (fun a f => a + f.1 * 2 ^ f.2) 0)

/-- A Bool as a number. -/
def b2n (b : Bool) : Nat := if b then 1 else 0

/-- An instruction that a running kernel does not allow (R82). -/
def notInKernel (k : Issue) (th : Thread) (h : Head) : Head := if th.inKernel k.sid then .trap (illegal) else h

/-- Whether bc's condition holds (R62). -/
def bcHolds (c : BcCond) (x : Word) : Bool :=
  match c with
  | .z => x == 0
  | .nz => x != 0
  | .neg => decide (x.toInt < 0)
  | .nneg => decide (0 ≤ x.toInt)
  | .pos => decide (0 < x.toInt)
  | .npos => decide (x.toInt ≤ 0)

/-- b (R62). -/
def execB (off : BitVec 24) (s : State) : Answer := issue s fun k th s1 => s.branchOff k th s1 off

/-- bc: a branch that is not taken checks nothing (R62). -/
def execBc (c : BcCond) (x : Src) (off : BitVec 24) (s : State) : Answer :=
  issue s fun k th s1 =>
    let a := (th.regs k.sid).read x
    consume [a] (if bcHolds c a.bits then s.branchOff k th s1 off else .done s1)

/-- jmp (R62). -/
def execJmp (x : Src) (s : State) : Answer :=
  issue s fun k th s1 =>
    let a := (th.regs k.sid).read x
    consume [a] (if a.bits.toNat < 65536 then s.branchTo k th s1 a.bits.toNat else .trap (illegal))

/-- call (R63). -/
def execCall (off : BitVec 24) (s : State) : Answer :=
  issue s fun k th s1 =>
    if 16 ≤ th.c.stack.length then .trap (illegal)
    else
      s.branchOff k th (s1.modThread k.tid fun t => { t with c := { t.c with stack := (k.pc + 1) :: t.c.stack } }) off

/-- ret (R63). -/
def execRet (s : State) : Answer :=
  issue s fun k th s1 =>
    match th.c.stack with
    | [] => .trap (illegal)
    | a :: _ =>
      s.branchTo k th (s1.modThread k.tid fun t => { t with c := { t.c with stack := t.c.stack.tail } }) a.toNat

/-- The fields of a loop counter (R64). -/
def lcCount (w : Word) : Nat := fieldNat w 31 0
def lcReload (w : Word) : Nat := fieldNat w 63 32

/-- loop (R65). -/
def execLoop (n : BitVec 2) (off : BitVec 24) (s : State) : Answer :=
  issue s fun k th s1 =>
    let w := (th.strm k.sid).lc.getD n.toNat 0
    let put := fun (c : Nat) => s1.modThread k.tid fun t => t.modStrm k.sid fun st =>
      { st with lc := setAt st.lc n.toNat (wordFields [(c, 0), (lcReload w, 32)]) }
    if 1 < lcCount w then s.branchOff k th (put (lcCount w - 1)) off else .done (put (lcReload w))

/-- rep with a count, at most 4096: the word after it is repeated; with 0 it is passed over, with its literal (R67). In a kernel, a
repeated word that is the kernel's last and has a literal past it traps (R82). -/
def doRep (s : State) (k : Issue) (th : Thread) (s1 : State) (n : Nat) : Head :=
  let (kb, kn) := (th.strm k.sid).kernel
  let w := (s.fetch th k.next.toNat).1
  let lit := bitOf w 39
  if th.inKernel k.sid && lit && k.next.toNat + 1 == kb + kn then .trap (illegal)
  else if n = 0 then
    .done (s1.modThread k.tid fun t => t.modStrm k.sid fun st =>
      { st with idleRef := s.now + 1, pc := k.next + (if lit then 2 else 1) })
  else .done (s1.modThread k.tid fun t => t.modStrm k.sid fun st => { st with repCount := n })

/-- rep imm (R67): the count is 1 to 4096, which decoding checks. -/
def execRepImm (n : BitVec 13) (s : State) : Answer := issue s fun k th s1 => doRep s k th s1 n.toNat

/-- rep x (R67). -/
def execRepOperand (x : Src) (s : State) : Answer :=
  issue s fun k th s1 =>
    let a := (th.regs k.sid).read x
    consume [a] (if a.bits.toNat ≤ 4096 then doRep s k th s1 a.bits.toNat else .trap (illegal))

/-- A stream that is not running in this cycle (R59, R61). -/
def Strm.idleAt (st : Strm) (now : Nat) : Bool :=
  match st.run with
  | .notStarted => true
  | .running => false
  | .stopped t => decide (t ≤ now)

/-- Starts a stream in the next cycle if it is not running (R60). -/
def Strm.start (st : Strm) (now : Nat) : Strm :=
  if st.idleAt now then { st with run := .running, idleRef := now, hold := none, wait := .none } else st

/-- go: a named stream whose section is empty traps before any is started (R60). -/
def execGo (ga gv gm : Bool) (s : State) : Answer :=
  issue s fun k th s1 =>
    notInKernel k th <|
      if (ga && th.sa.words == 0) || (gv && th.sv.words == 0) || (gm && th.sm.words == 0) then .trap (illegal)
      else
        .done (s1.modThread k.tid fun t =>
          { t with
            sa := if ga then t.sa.start s.now else t.sa,
            sv := if gv then t.sv.start s.now else t.sv,
            sm := if gm then t.sm.start s.now else t.sm })

/-- Whether A, V and M are all NOT STARTED or STOPPED. -/
def Thread.joined (th : Thread) (now : Nat) : Bool := th.sa.idleAt now && th.sv.idleAt now && th.sm.idleAt now

/-- stop: in the C stream a join; in the others the stream is STOPPED from the next cycle (R61). -/
def execStop (s : State) : Answer :=
  issue s fun k th s1 =>
    notInKernel k th <|
      match k.sid with
      | .c => if th.joined s.now then .done s1 else .wait .join
      | _ => .done (s1.modThread k.tid fun t => t.modStrm k.sid fun st => { st with run := .stopped (s.now + 1) })

/-! ### What a guard or word tile carries (R75) -/

def CAccess.isStore : CAccess → Bool
  | .store .. => true
  | .aop .. => true
  | _ => false

def Cmd.isStore (c : Cmd) : Bool :=
  match c.instr with
  | .stA .. => true
  | .tssp .. => true
  | _ => false

/-- Whether every earlier store that R75 names has been performed. -/
def Thread.storesDone (th : Thread) : StreamId → Bool
  | .c => !th.c.queue.any CAccess.isStore
  | _ => !th.a.cmds.any Cmd.isStore

/-! ### Guard FIFOs -/

/-- The values a slot holds: those not flushed (R70). -/
def guardHeld (l : List GuardVal) : List GuardVal := l.filter fun g => g.gone.isNone

/-- A fence. -/
def Cmd.isFence (c : Cmd) : Bool :=
  match c.instr with
  | .fence .. => true
  | _ => false

/-- Whether every earlier fence of the A stream has completed: what its `gpush` says in the pattern of R234 (log 70). -/
def Thread.fencesDone (th : Thread) (sid : StreamId) : Bool :=
  sid == .c || !th.a.cmds.any Cmd.isFence

/-- The machine with the guard of a `gpush` that waits kept as this cycle has shown it (R71). -/
def State.keepPeek (s : State) (k : Issue) : State :=
  s.modThread k.tid fun th => th.modStrm k.sid fun st =>
    { st with peek := some (s.now, !k.gnot, if k.gpop && !th.isStageGuard k.gsl.toNat then k.gsl.toNat else 0) }

/-- gpush (R71, R72, R75): Full is judged with its own guard popped and the pops that earlier turns of the cycle have made; where it waits
for room it keeps the guard it has peeked at for its later turn in the cycle. -/
def execGpush (x : Src) (n : BitVec 4) (s : State) : Answer :=
  issue s fun k th s1 =>
    let a := (th.regs k.sid).read x
    if th.isStageGuard n.toNat then .trap (illegal)
    else
      consume [a] <|
        if !(th.storesDone k.sid && th.fencesDone k.sid) then .wait .none
        else if 8 ≤ (guardHeld ((th.popGuard s.now k.gsl k.gpop).guards.getD n.toNat [])).length then .hold (s.keepPeek k) .none
        else
          .done (s1.modThread k.tid fun t =>
            { t with guards := modAt t.guards n.toNat fun l =>
                l.filter (fun g => g.gone.isNone || g.gone == some s.now) ++ [{ val := a.bits != 0, at_ := s.now }] })

/-- gflush: removes the values pushed before this cycle; streams served later in the cycle still see them (R71, R73). -/
def execGflush (n : BitVec 4) (s : State) : Answer :=
  issue s fun k th s1 =>
    if th.isStageGuard n.toNat then .trap (illegal)
    else
      .done (s1.modThread k.tid fun t =>
        { t with guards := modAt t.guards n.toNat fun l =>
            (l.filter fun g => g.gone.isNone || g.gone == some s.now).map fun g =>
              if g.at_ < s.now then { g with gone := some s.now } else g })

/-! ### Word tiles -/

/-- The granule a `wtw` writes: the value in bytes 0 to 7, then zeros (R76). -/
def wtwBytes (w : Word) : List (BitVec 8) := wordBytes w ++ List.replicate 56 0

/-- wtw: FILLING in the cycle of issue and FULL two cycles later (R76). Row 0 of the lead pane's part. -/
def execWtw (x : Opnd) (t : TileRef) (s : State) : Answer :=
  issue s fun k th s1 =>
    let a := (th.regs k.sid).readOpnd x
    withWriter th s.now t (ready [a] (.done s1)) fun tk d =>
      ready [a] <|
        if !th.storesDone k.sid then .wait .none
        else
          let s2 := s1.setGran th 0 (descBase d) (wtwBytes a.bits) a.mark
          .done (s2.modThread k.tid fun u =>
            (u.startWrite s.now tk).modTile tk.tile fun y => { y with prev := .filling, st := .full, since := s.now + 2 })

/-- What `rtw` reads: the first word of the lead pane's part, with the granule's mark (R77). -/
def State.rtwValue (s : State) (th : Thread) (d : Word) : Val :=
  let g := s.gran th 0 (descBase d)
  { bits := wordOf (g.1.take 8), mark := g.2 }

/-- rtw (R77): a plain tile without KEEP is FREE from the next cycle; with KEEP it stays FULL; a ring's head is consumed. Without KEEP a
ring's member named by its number traps. -/
def execRtw (keep : Bool) (t : TileRef) (d : Dst) (s : State) : Answer :=
  issue s fun k th s1 =>
    let member := match t with
      | .tile n => ((th.tile? n.toNat).bind (·.ring)).isSome
      | .ring _ => false
    if !keep && member then .trap (illegal)
    else
      withConsumer th s.now t fun tk desc =>
        let v := s.rtwValue th desc
        let s2 := s1.modThread k.tid fun u =>
          match tk.ring with
          | some _ => (u.startRead s.now tk).endRead s.now tk
          | none => if keep then u else u.modTile tk.tile fun y => y.go .free s.now
        .done (s2.push k v d)

/-- The word `tstate` pushes (R78). -/
def tstateWord (th : Thread) (now : Nat) (t : TileRef) : Word :=
  match t with
  | .tile n =>
    if n = 255 then 0
    else
      match th.tile? n.toNat with
      | some x => wordFields [((x.seen now).code, 0)]
      | none => wordFields [(1, 63)]
  | .ring k =>
    match th.ring? now k.toNat with
    | none => wordFields [(1, 63)]
    | some r =>
      let sts := r.members.map fun n => ((th.tile? n).map fun x => x.seen now).getD .free
      let full := (sts.filter (· == .full)).length
      let head := (sts.getD (r.seenHead now) .free).code
      wordFields [(r.n - 1, 16), (r.tail, 12), (r.seenHead now, 8), (full, 3), (head, 0)]

/-- tstate (R78). -/
def execTstate (t : TileRef) (d : Dst) (s : State) : Answer :=
  issue s fun k th s1 => .done (s1.pushWord k (tstateWord th s.now t) d)

/-- lcyc (R79). -/
def execLcyc (d : Dst) (s : State) : Answer :=
  issue s fun k th s1 => .done (s1.pushWord k (s.core th.life.rect.lead).lcyc d)

/-- The word `self` pushes (R79). -/
def selfWord (s : State) (th : Thread) : Word :=
  let r := th.life.rect
  wordFields [(s.dev.pkg.toNat, 52), (r.die, 49), (4 * r.crow + r.ccol, 45), (th.life.part, 41), (r.lrows, 39), (r.lcols, 37),
    (th.life.ctx.toNat, 0)]

/-- self (R79). -/
def execSelf (d : Dst) (s : State) : Answer := issue s fun k th s1 => .done (s1.pushWord k (selfWord s th) d)

end Sys2Proof.Machine
end

