-- ==== Sys2Proof/Machine/Scratch.lean ====
section
/-! DEFINITION. The C-stream path to the scratchpad: addresses, the L1, the load and store queues and what each access does when it is
performed; ld, st, ldx, stx, mark, linv, aop, wadr (spec/05_scratchpad.md R84 to R101). -/

namespace Sys2Proof.Machine

/-- The sum of sp_addr before its legality check (R89). -/
def spSum (base idx : Word) (disp : BitVec 16) : Word := base + idx + disp.signExtend 64

/-- Goes on with a legal address of n bytes, else traps BOUNDS (R84, R89). -/
def withAddr (th : Thread) (ea : Word) (n : Nat) (k : Nat → Head) : Head :=
  if legalAddr th.panes ea.toNat n then k ea.toNat else .trap bounds

/-- The value a load pushes: the bytes extended at the width, with the mark of their word (R90). -/
def loadValue (ws : WS) (x : List (BitVec 8) × Mark) : Val :=
  { bits := wrapW (extW (wordOf x.1) ws.w.bits ws.s) ws.w.bits ws.s, mark := x.2 }

/-! ### The L1 (R87) -/

/-- The set of a line: bits 11..6 of its address (log 71: R87 gives 64 sets and no index). -/
def L1Line.set (x : L1Line) : Nat := x.line % 64

/-- The bytes and mark of an access inside a line. -/
def L1Line.get (x : L1Line) (o n : Nat) : List (BitVec 8) × Mark :=
  match x.marks.getD (o / 8) none with
  | some t => (List.replicate n 0, some t)
  | none => ((x.bytes.drop o).take n, none)

/-- A line with bytes stored into it, words merging as in the scratchpad (R101). A narrow store merges by the mark that the line's own copy of the
word has, which may be stale: into a clean copy of a poisoned scratchpad word it puts its bytes, and a poisoned copy of a clean word stays. R87
does not say what a line keeps there (DESIGN CHOICE, log 71). -/
def L1Line.put (x : L1Line) (o : Nat) (bs : List (BitVec 8)) (k : Mark) : L1Line :=
  let u := o / 8
  if bs.length != 8 && (x.marks.getD u none).isSome then x
  else
    match k with
    | some _ =>
      { x with bytes := x.bytes.take (8 * u) ++ List.replicate 8 0 ++ x.bytes.drop (8 * u + 8), marks := setAt x.marks u k }
    | none => { x with bytes := x.bytes.take o ++ bs ++ x.bytes.drop (o + bs.length), marks := setAt x.marks u none }

/-- Installs a line as its set's most recent, the eighth older one leaving (R87). Lines stand from the most recent on. -/
def installLine (l1 : List L1Line) (x : L1Line) : List L1Line :=
  let same := l1.filter fun y => y.set == x.set && y.line != x.line
  x :: l1.filter (fun y => y.line != x.line && !(y.set == x.set && !(same.take 7).contains y))

/-- The line of a local address as the scratchpad holds it. -/
def State.spLine (s : State) (th : Thread) (ea : Nat) : L1Line :=
  let ws := s.spWords th (ea / 64 * 64) 8
  { line := ea / 64, bytes := ws.flatMap fun w => wordBytes w.1, marks := ws.map (·.2) }

def State.modL1 (s : State) (th : Thread) (f : List L1Line → List L1Line) : State :=
  s.modCore th.life.rect.lead fun c => { c with l1 := f c.l1 }

/-- A load through the L1: a hit reads the line; a miss, and so a hit on a line whose parity is wrong, fills it, each of its eight words
being read (R87, R100). -/
def State.l1Load (s : State) (th : Thread) (ea n : Nat) : State × (List (BitVec 8) × Mark) :=
  match (s.core th.life.rect.lead).l1.find? fun x => x.line == ea / 64 && !x.bad with
  | some x => (s.modL1 th fun l => installLine l x, x.get (ea % 64) n)
  | none =>
    let s1 := s.spTouch th (ea / 64 * 64) 64
    let x := s1.spLine th ea
    (s1.modL1 th fun l => installLine l x, x.get (ea % 64) n)

/-- Updates a line that holds an access's bytes; a miss allocates nothing (R87). The update is no use for the replacement (log 71). -/
def State.l1Store (s : State) (th : Thread) (ea : Nat) (bs : List (BitVec 8)) (k : Mark) : State :=
  s.modL1 th fun l => l.map fun x => if x.line == ea / 64 then x.put (ea % 64) bs k else x

/-- Invalidates the line that holds an address. -/
def State.l1Drop (s : State) (th : Thread) (ea : Nat) : State := s.modL1 th fun l => l.filter fun x => x.line != ea / 64

/-! ### Performing an access -/

/-- The new contents of an `aop` (R94): o the old value, v the operand, e the expected value of cas. -/
def aopNew (op : AopOp) (o v e : Int) (x y : Word) : Int :=
  match op with
  | .add => o + v
  | .xchg => v
  | .cas => if o = e then v else o
  | .min => if o ≤ v then o else v
  | .max => if v ≤ o then o else v
  | .and => (x &&& y).toInt
  | .or => (x ||| y).toInt

/-- An `aop` as it is performed (R94): the machine after, and the value pushed. -/
def State.doAop (s : State) (th : Thread) (op : AopOp) (ws : WS) (ea : Nat) (v e : Val) : State × Val :=
  let s0 := s.spTouch th ea ws.w.size
  let old := s0.spLoad th ea ws.w.size
  let o := extW (wordOf old.1) ws.w.bits ws.s
  let a := extW v.bits ws.w.bits ws.s
  let n := aopNew op o a (extW e.bits ws.w.bits ws.s) (BitVec.ofInt 64 o) (BitVec.ofInt 64 a)
  let k := meetAll (old.2 :: v.mark :: match op with | .cas => [e.mark] | _ => [])
  let bs := leBytes ws.w.size (wrapW n ws.w.bits ws.s).toNat
  let s1 := match k with
    | some _ =>
      let base := ea / 8 * 8
      (s0.spStore th base (List.replicate 8 0) k).l1Store th base (List.replicate 8 0) k
    | none => (s0.spStore th ea bs none).l1Store th ea bs none
  (s1, { bits := wrapW o ws.w.bits ws.s, mark := old.2 })

/-- What an access reads or writes: its first byte and its length. -/
def CAccess.range : CAccess → Nat × Nat
  | .load _ ws ea _ => (ea, ws.w.size)
  | .store _ w ea _ => (ea, w.size)
  | .aop _ ws ea _ _ _ => (ea, ws.w.size)
  | _ => (0, 0)

def CAccess.isLoad : CAccess → Bool
  | .load .. => true
  | .aop .. => true
  | _ => false

def CAccess.isMark : CAccess → Bool
  | .mark => true
  | .aop .. => true
  | _ => false

def CAccess.isLinv : CAccess → Bool
  | .linv .. => true
  | _ => false

/-- Whether two byte ranges meet. -/
def meets (a b : Nat × Nat) : Bool := decide (a.1 < b.1 + b.2) && decide (b.1 < a.1 + a.2)

/-- Whether an access may be performed when these older ones have not been (R88). -/
def CAccess.permitted (x : CAccess) (older : List CAccess) : Bool :=
  match x with
  | .load .. => !older.any fun y => y.isLoad || y.isMark || y.isLinv
  | .store .. => !older.any fun y => y.isStore || y.isMark || (y.isLoad && meets y.range x.range)
  | .linv .. => !older.any CAccess.isLoad
  | _ => !older.any fun y => y.isLoad || y.isStore || y.isMark

/-- An access performed, apart from its leaving the queue (R87, R90, R91, R93, R94). -/
def State.doAccess (s : State) (th : Thread) : CAccess → State
  | .load viaL1 ws ea id =>
    if viaL1 then
      let (s1, x) := s.l1Load th ea ws.w.size
      s1.deliver th.tid id (loadValue ws x)
    else
      let s1 := s.spTouch th ea ws.w.size
      s1.deliver th.tid id (loadValue ws (s1.spLoad th ea ws.w.size))
  | .store viaL1 w ea v =>
    let bs := leBytes w.size v.bits.toNat
    if viaL1 then (s.spStore th ea bs v.mark).l1Store th ea bs v.mark
    else (s.spStore th ea bs v.mark).l1Drop th ea
  | .mark => s
  | .linv lo hi => s.modL1 th fun l => l.filter fun x => !(decide (64 * x.line < hi) && decide (lo < 64 * x.line + 64))
  | .aop op ws ea v e id =>
    let (s1, x) := s.doAop th op ws ea v e
    s1.deliver th.tid id x

/-- Performs the k-th access of a thread's C-stream queues if R88 permits it. -/
def State.performAccess (s : State) (tid k : Nat) : State :=
  match s.thread? tid with
  | none => s
  | some th =>
    match th.c.queue[k]? with
    | none => s
    | some x =>
      if x.permitted (th.c.queue.take k) then
        (s.doAccess th x).modThread tid fun t => { t with c := { t.c with queue := dropAt t.c.queue k } }
      else s

/-- Performs every access of a thread's queues, oldest first: what pre-emption and traps wait for (R88). -/
def State.drainC (s : State) (tid : Nat) : State :=
  match s.thread? tid with
  | none => s
  | some th =>
    (th.c.queue.foldl (fun t x => t.doAccess th x) s).modThread tid fun t => { t with c := { t.c with queue := [] } }

/-! ### Meanings -/

/-- Adds an access to a thread's queues. -/
def State.enqueue (s : State) (k : Issue) (x : CAccess) : State :=
  s.modThread k.tid fun t => { t with c := { t.c with queue := t.c.queue ++ [x] } }

def Thread.loads (th : Thread) : Nat := (th.c.queue.filter fun x => match x with | .load .. => true | _ => false).length

def Thread.stores (th : Thread) : Nat := (th.c.queue.filter fun x => match x with | .store .. => true | _ => false).length

/-- ld and ldx of the C stream: enters the load queue, waiting while it is full (R88, R90). -/
def cLoad (viaL1 : Bool) (ws : WS) (base idx : Src) (disp : BitVec 16) (d : Dst) (s : State) : Answer :=
  issue s fun k th s1 =>
    let b := (th.regs k.sid).read base
    let x := (th.regs k.sid).read idx
    consume [b, x] <|
      withAddr th (spSum b.bits x.bits disp) ws.w.size fun ea =>
        if 16 ≤ th.loads then .wait .none
        else
          let (s2, id) := s1.newId
          .done ((s2.enqueue k (.load viaL1 ws ea id)).push k { wait := some id } d)

/-- st and stx of the C stream (R88, R91). -/
def cStore (viaL1 : Bool) (w : Width) (base val : Src) (disp : BitVec 16) (s : State) : Answer :=
  issue s fun k th s1 =>
    let b := (th.regs k.sid).read base
    let v := (th.regs k.sid).read val
    ready [v] <|
      consume [b] <|
        withAddr th (spSum b.bits 0 disp) w.size fun ea =>
          if 16 ≤ th.stores then .wait .none else .done (s1.enqueue k (.store viaL1 w ea v))

/-- ld (R90). -/
def execLd (ws : WS) (base idx : Src) (disp : BitVec 16) (d : Dst) (s : State) : Answer := cLoad true ws base idx disp d s

/-- st (R91). -/
def execSt (w : Width) (base val : Src) (disp : BitVec 16) (s : State) : Answer := cStore true w base val disp s

/-- ldx (R90). -/
def execLdx (ws : WS) (base idx : Src) (disp : BitVec 16) (d : Dst) (s : State) : Answer := cLoad false ws base idx disp d s

/-- stx (R91). -/
def execStx (w : Width) (base val : Src) (disp : BitVec 16) (s : State) : Answer := cStore false w base val disp s

/-- mark: waits for nothing itself (R92). -/
def execMark (s : State) : Answer := issue s fun k _ s1 => .done (s1.enqueue k .mark)

/-- linv (R93). -/
def execLinv (base len : Src) (disp : BitVec 16) (s : State) : Answer :=
  issue s fun k th s1 =>
    let b := (th.regs k.sid).read base
    let l := (th.regs k.sid).read len
    consume [b, l] <|
      let ea := (spSum b.bits 0 disp).toNat
      .done (s1.enqueue k (if l.bits = 0 then .linv 0 0 else .linv ea (ea + l.bits.toNat)))

/-- aop: acts as a mark; the value it pushes is there once it is performed; cas compares with the named register DN (R94). -/
def execAop (op : AopOp) (ws : WS) (base val : Src) (disp : BitVec 16) (d : Dst) (s : State) : Answer :=
  issue s fun k th s1 =>
    let b := (th.regs k.sid).read base
    let v := (th.regs k.sid).read val
    let e := match op, d with
      | .cas, some n => (th.regs k.sid).read (.named n)
      | _, _ => Val.ofWord 0
    ready [v, e] <|
      consume [b] <|
        withAddr th (spSum b.bits 0 disp) ws.w.size fun ea =>
          let (s2, id) := s1.newId
          .done ((s2.enqueue k (.aop op ws ea v e id)).push k { wait := some id } d)

/-- A word of the window as a wadr keeps it: what stands there, apart from errors that no read has met (R95, R100). -/
def State.polledAt (s : State) (th : Thread) (ea : Nat) : Polled :=
  { since := th.sc.idleRef, unit := ea / 8, word := s.spWords th (ea / 8 * 8) 1 }

/-- Whether a wadr at its address has read nothing yet at its place, or a word that has been written since (R95). -/
def State.pollDue (s : State) (th : Thread) (ea : Nat) : Bool := th.c.polled != some (s.polledAt th ea)

/-- wadr: acts as a mark, so it waits until every older access is performed; then it reads around the L1, and again whenever its 8-byte word
stands otherwise than it read it, until the condition holds. A wait that a save latched pushes the bytes read then (R95, R96). -/
def execWadr (c : Cond) (ws : WS) (base val : Src) (disp : BitVec 16) (d : Dst) (s : State) : Answer :=
  issue s fun k th s1 =>
    let b := (th.regs k.sid).read base
    let v := (th.regs k.sid).read val
    consume [b, v] <|
      withAddr th (spSum b.bits 0 disp) ws.w.size fun ea =>
        if th.sc.latched then .done (s1.pushWord k th.sc.latch d)
        else if !th.c.queue.isEmpty then .wait .wadr
        else if !s.pollDue th ea then .wait .wadr
        else
          let x := (s.spTouch th ea ws.w.size).spLoad th ea ws.w.size
          match x.2 with
          | some t => .trapIn (s.spTouch th ea ws.w.size) (poison t)
          | none =>
            let r := loadValue ws x
            if condHolds c (extW r.bits ws.w.bits ws.s) (extW v.bits ws.w.bits ws.s) then .done (s1.push k r d)
            else .hold (s.modThread k.tid fun t => { t with c := { t.c with polled := some (s.polledAt th ea) } }) .wadr

end Sys2Proof.Machine
end

