-- ==== Sys2Proof/Machine/Cmd.lean ====
section
/-! DEFINITION. What every command of an A stream shares: range slots and scratchpad ranges, record fields and byte addresses, the
addresses of each element, the order among commands, waiting for a walk, parking (spec/10_transfer.md R199, R201, R205 to R209, R214). -/

namespace Sys2Proof.Machine

/-! ### Record fields (R199) -/

def recFmt (r : BufRec) : Nat := fieldNat (r.getD 0 0) 63 60
def recBchk (r : BufRec) : Nat := fieldNat (r.getD 0 0) 59 58
def recBase (r : BufRec) : Nat := fieldNat (r.getD 0 0) 55 0
def recFen (r : BufRec) : Bool := bitOf (r.getD 1 0) 61
def recFses (r : BufRec) : Nat := fieldNat (r.getD 1 0) 60 58
def recSys (r : BufRec) : Bool := fieldNat (r.getD 1 0) 57 56 == 2
def recExtent (r : BufRec) : Nat := fieldNat (r.getD 1 0) 55 0
def recS1 (r : BufRec) : Int := ((r.getD 2 0).extractLsb' 0 32).toInt
def recS2 (r : BufRec) : Int := ((r.getD 2 0).extractLsb' 32 32).toInt
def recV (r : BufRec) : Bool := bitOf (r.getD 3 0) 63
def recDist (r : BufRec) : Nat := fieldNat (r.getD 3 0) 62 60
/-- Bytes moved per row. -/
def recRow (r : BufRec) : Nat := fieldNat (r.getD 3 0) 59 48 + 1

/-- A record without a reserved value (R199). -/
def recOk (r : BufRec) : Bool :=
  decide (recFmt r < 13) && recBchk r != 3 && fieldNat (r.getD 0 0) 57 56 != 3 && fieldNat (r.getD 1 0) 63 62 == 0 &&
    (recFen r || recFses r == 0) && fieldNat (r.getD 1 0) 57 56 != 3 && !(recBchk r == 2 && recExtent r == 0) &&
    recDist r != 5 && recDist r != 6 && fieldNat (r.getD 3 0) 47 0 == 0

/-- What byte_va answers (R201). -/
inductive ByteVa where
  | at_ (va : Nat)
  | zero
  | out
  deriving DecidableEq, Repr

/-- byte_va (R201). -/
def byteVa (r : BufRec) (rel : Int) : ByteVa :=
  if 0 ≤ rel && decide (rel < recExtent r) then .at_ ((recBase r + rel.toNat) % 2 ^ 56)
  else
    match recBchk r with
    | 0 => .out
    | 1 => .zero
    | _ => .at_ ((recBase r + (rel % (recExtent r : Int)).toNat) % 2 ^ 56)

/-- The address of a byte, once the command has passed its bounds check. -/
def ByteVa.va? : ByteVa → Option Nat
  | .at_ a => some a
  | _ => none

/-- row_rel (R201). -/
def rowRel (r : BufRec) (off : Int) (row : Nat) (g : Option (BitVec 4)) : Int :=
  match g with
  | none => off + row * recS1 r
  | some k => off + (row % 2 ^ k.toNat : Nat) * recS1 r + (row / 2 ^ k.toNat : Nat) * recS2 r

/-- Whether n bytes from a record-relative offset stay in bounds in the mode that faults. -/
def inExtent (r : BufRec) (rel : Int) (n : Nat) : Bool :=
  recBchk r != 0 || (decide (0 ≤ rel) && decide (rel + n ≤ recExtent r))

/-! ### Zero blocks and index tiles (R202, R204) -/

/-- Bytes in a block of an element format (R106, R204). -/
def blockBytes (fmt : Nat) : Nat := if fmt = 4 then 16 else if fmt = 2 || fmt = 3 then 24 else 32

/-- Whether byte k of row r belongs to a block whose scale is −128. -/
def skipped (rc : BufRec) (scales : List (BitVec 8)) (row k : Nat) : Bool :=
  let bb := blockBytes (recFmt rc)
  scales.getD (row * (recRow rc / bb) + k / bb) 0 == 0x80

/-- Entry r of an index tile. -/
def indexAt (bs : List (BitVec 8)) (row : Nat) : Int := (BitVec.ofNat 32 (leNat ((bs.drop (4 * row)).take 4))).toInt

/-! ### Copy nests (R206, R207) -/

def Level.count (l : Level) : Nat := l.c.toNat

/-- The product of the counts. -/
def nestProduct (ls : List Level) : Nat := ls.foldl (fun n l => n * l.count) 1

/-- The sum of i × stride over the levels at element e. -/
def nestAt (stride : Level → Int) : List Level → Nat → Int
  | [], _ => 0
  | l :: r, e => (e % l.count : Nat) * stride l + nestAt stride r (e / l.count)

def Level.src (l : Level) : Int := l.ss.toInt
def Level.dst (l : Level) : Int := l.ds.toInt

/-- The least and greatest sum over the nest, when every count is at least 1. -/
def nestMin (stride : Level → Int) (ls : List Level) : Int :=
  ls.foldl (fun a l => a + min 0 ((l.count - 1 : Nat) * stride l)) 0

def nestMax (stride : Level → Int) (ls : List Level) : Int :=
  ls.foldl (fun a l => a + max 0 ((l.count - 1 : Nat) * stride l)) 0

/-- A legal local block of n bytes (R207). -/
def blockOk (panes : Nat) (a : Int) (n : Nat) : Bool :=
  decide (0 ≤ a) && decide (a < 2 ^ 28) && decide (a.toNat / 2 ^ 24 < panes) && a % 8 == 0 &&
    decide (a.toNat % 2 ^ 24 + n ≤ spBytes)

/-- Whether every block of a nest is legal: outermost level first, a level being opened only where its blocks do not all lie in one pane. -/
def nestOk (panes n : Nat) (stride : Level → Int) : List Level → Int → Bool
  | [], a => blockOk panes a n
  | l :: r, a =>
    let lo := a + nestMin stride (l :: r)
    let hi := a + nestMax stride (l :: r)
    if blockOk panes lo n && blockOk panes hi n && lo.toNat / 2 ^ 24 == hi.toNat / 2 ^ 24 &&
        (l :: r).all (fun x => x.count ≤ 1 || stride x % 8 == 0) then true
    else (List.range l.count).all fun i => nestOk panes n stride r (a + i * stride l)

/-! ### Scratchpad ranges (R208) -/

/-- The panes whose scratchpads a `tlsp` or `tssp` uses (R205). -/
def spMovers (rc : Rect) (d : Word) : List Nat := if descDist d = 3 then [0] else partPanes rc d

/-- The offset of part row r of a `tlsp` or `tssp`. -/
def spRow (addr : Word) (stride : Int) (row : Nat) : Int := (fieldNat addr 23 0 : Int) + row * stride

/-- The descriptor of the tile a command has taken. -/
def Thread.cmdDesc (th : Thread) (c : Cmd) : Word :=
  match c.taken with
  | some t => match th.tile? t.tile with
    | some x => x.desc
    | none => 0
  | none => 0

/-- A send's source word (R220). -/
def sendLen (w : Word) : Nat := fieldNat w 63 32
def sendSrc (w : Word) : Nat := fieldNat w 27 0

/-- The scratchpad bytes of a command, as intervals of local addresses (R208). -/
def Thread.cmdRanges (th : Thread) (c : Cmd) : List (Nat × Nat) :=
  match c.instr with
  | .ldA ws _ _ disp _ => let ea := (spSum c.a.bits c.b.bits disp).toNat; [(ea, ea + ws.w.size)]
  | .stA w _ _ disp => let ea := (spSum c.a.bits 0 disp).toNat; [(ea, ea + w.size)]
  | .tlsp .. | .tssp .. =>
    let d := th.cmdDesc c
    let (rows, units) := partShape th.life.rect d
    (spMovers th.life.rect d).flatMap fun p =>
      (List.range rows).map fun r =>
        let o := p * 2 ^ 24 + (spRow c.a.bits c.b.bits.toInt r).toNat
        (o, o + 64 * units)
  | .ncopy dir k _ _ _ _ =>
    let n := 2 ^ k.toNat
    let box := fun (base : Int) (f : Level → Int) => (base + nestMin f c.nest, base + nestMax f c.nest + n)
    match dir with
    | .gl => let b := box c.a.bits.toInt Level.dst; [(b.1.toNat, b.2.toNat)]
    | .lg => let b := box c.a.bits.toInt Level.src; [(b.1.toNat, b.2.toNat)]
    | .ll =>
      let x := box c.a.bits.toInt Level.src
      let y := box c.b.bits.toInt Level.dst
      [((min x.1 y.1).toNat, (max x.2 y.2).toNat)]
  | .send .. | .sendf .. => [(sendSrc c.b.bits, sendSrc c.b.bits + sendLen c.b.bits)]
  | _ => []

/-- Whether two lists of intervals meet. -/
def rangesMeet (a b : List (Nat × Nat)) : Bool := a.any fun x => b.any fun y => decide (x.1 < y.2) && decide (y.1 < x.2)

/-! ### Elements -/

/-- A command behind which no later command performs an access (R227, R291). -/
def Cmd.isBarrier (c : Cmd) : Bool :=
  match c.instr with
  | .fence .. | .fltopen .. | .fltclose .. => true
  | _ => false

/-- A barrier that has not been performed. -/
def Cmd.blocks (c : Cmd) : Bool := c.isBarrier && decide (c.elem < c.total)

/-- An A-stream ld or st (R99). -/
def Cmd.isScalar (c : Cmd) : Bool :=
  match c.instr with
  | .ldA .. | .stA .. => true
  | _ => false

/-- What a command needs of its global addresses (R203, R226). -/
def Cmd.need (c : Cmd) : Need :=
  match c.instr with
  | .tst .. | .tsca .. => .wr
  | .ncopy .lg .. => .wr
  | .gamo .. => .atomic
  | _ => .rd

/-- The row-relative offset of a row of a global tile command (R202). -/
def Cmd.rowOff (c : Cmd) (row : Nat) : Int :=
  match c.instr with
  | .tld g .. => rowRel c.brec c.a.bits.toInt row g
  | .tst g .. => rowRel c.brec c.a.bits.toInt row g
  | _ => c.a.bits.toInt + indexAt c.auxBytes row * recS1 c.brec

/-- The addresses of the bytes of element e, one for each byte that a granule or block has: none where nothing is moved, and none of a
prefetch, which never parks (R210). A gamo's bytes follow byte_va of its offset (R226). -/
def Thread.cmdVas (th : Thread) (c : Cmd) (e : Nat) : List (Option Nat) :=
  match c.instr with
  | .tld .. | .tst .. | .tgat .. | .tsca .. =>
    if c.taken.isNone then [] else
    let ul := descUlen (th.cmdDesc c)
    let row := e / ul
    let rel := c.rowOff row
    (List.range 64).map fun i =>
      let k := 64 * (e % ul) + i
      let skip : Bool := match c.instr with
        | .tld _ true .. => skipped c.brec c.auxBytes row k
        | _ => false
      if recRow c.brec ≤ k || skip then none else (byteVa c.brec (rel + k)).va?
  | .ncopy .gl k .. =>
    (List.range (2 ^ k.toNat)).map fun (i : Nat) => (byteVa c.brec (c.b.bits.toInt + nestAt Level.src c.nest e + (i : Int))).va?
  | .ncopy .lg k .. =>
    (List.range (2 ^ k.toNat)).map fun (i : Nat) => (byteVa c.brec (c.b.bits.toInt + nestAt Level.dst c.nest e + (i : Int))).va?
  | .gamo _ ws .. => (List.range ws.w.size).map fun (i : Nat) => (byteVa c.brec c.a.bits.toInt).va?.map (· + i)
  | _ => []

/-- The first address of an element that neither the access TLB nor its die's TLB translates. -/
def State.missing (s : State) (th : Thread) (c : Cmd) (e : Nat) : Option Nat :=
  ((th.cmdVas c e).filterMap id).find? fun va => (s.accGet th va c.need).isNone

/-- The physical addresses of an element whose addresses all translate. -/
def State.cmdPhys (s : State) (th : Thread) (c : Cmd) (e : Nat) : List (Option Nat) :=
  (th.cmdVas c e).map fun a => a.bind fun va => s.accGet th va c.need

/-- Where an address lies whatever access is meant, if it is mapped at all. -/
def State.whereIs (s : State) (th : Thread) (va : Nat) : Option Nat :=
  let one := fun (n : Need) =>
    match s.accGet th va n with
    | some pa => some pa
    | none => match s.walkBoth th.life.part th.life.ctx va n with
      | .ok l => some l.out
      | .error _ => none
  (one .rd).orElse fun _ => (one .wr).orElse fun _ => one .atomic

/-- The lines of an element, each by its virtual and, where mapped, its physical number. -/
def State.cmdLines (s : State) (th : Thread) (c : Cmd) (e : Nat) : List (Nat × Option Nat) :=
  (linesOf ((th.cmdVas c e).filterMap id)).map fun l => (l, (s.whereIs th (64 * l)).map (· / 64))

/-- Whether two lists name one line. -/
def sameLine (a b : List (Nat × Option Nat)) : Bool :=
  a.any fun x => b.any fun y => x.1 == y.1 || (x.2.isSome && x.2 == y.2)

/-- Whether an element yet to come of an earlier command touches one of these lines (R209). -/
def State.lineAhead (s : State) (th : Thread) (older : List Cmd) (ls : List (Nat × Option Nat)) : Bool :=
  !ls.isEmpty && older.any fun o =>
    (List.range (o.total - o.elem)).any fun i => sameLine (s.cmdLines th o (o.elem + i)) ls

/-! ### Commands of a thread -/

def Thread.cmd? (th : Thread) (id : Nat) : Option Cmd := th.a.cmds.find? fun c => c.id == id

/-- The commands that issued before one. -/
def Thread.cmdsBefore (th : Thread) (id : Nat) : List Cmd := th.a.cmds.takeWhile fun c => c.id != id

def State.modCmd (s : State) (tid id : Nat) (f : Cmd → Cmd) : State :=
  s.modThread tid fun th => { th with a := { th.a with cmds := th.a.cmds.map fun c => if c.id = id then f c else c } }

/-- Whether a range slot is free (R208). -/
def Thread.slotFree (th : Thread) : Bool := decide (th.a.cmds.length < 64)

/-- Whether one of these ranges is held by an earlier command (R208). -/
def Thread.rangeHeld (th : Thread) (older : List Cmd) (rs : List (Nat × Nat)) : Bool :=
  older.any fun o => rangesMeet (th.cmdRanges o) rs

/-- Whether a command may perform its next element: it is neither parked nor waiting for a walk, no earlier fence or filter command is
incomplete, a barrier of its own kind waits for every earlier command, A-stream loads and stores keep their order, no range or line
is held ahead of it, and no late write of its thread is on one of its lines (R99, R208, R209, R227, R291). -/
def State.cmdFree (s : State) (th : Thread) (c : Cmd) : Bool :=
  let older := th.cmdsBefore c.id
  !c.parked && !c.walking && decide (c.elem < c.total) && !older.any Cmd.blocks &&
    (!c.isBarrier || older.isEmpty) && (!c.isScalar || !older.any Cmd.isScalar) &&
    !th.rangeHeld older (th.cmdRanges c) && !s.lineAhead th older (s.cmdLines th c c.elem) &&
    !s.hasLate th.tid fun l => (s.cmdLines th c c.elem).any fun x => x.2 == some l

/-- Adds a command at its issue. -/
def State.addCmd (s : State) (k : Issue) (c : Cmd) : State :=
  s.modThread k.tid fun th => { th with a := { th.a with cmds := th.a.cmds ++ [c] } }

/-- Removes a completed command. -/
def State.dropCmd (s : State) (tid id : Nat) : State :=
  s.modThread tid fun th => { th with a := { th.a with cmds := th.a.cmds.filter fun c => c.id != id } }

/-- One more element performed. -/
def State.cmdDone1 (s : State) (tid id : Nat) : State := s.modCmd tid id fun c => { c with elem := c.elem + 1 }

/-- Waits for a walk of the page of an address (R213): with as many walks pending in the die as it can hold, the command tries again in
its next turn. -/
def State.waitWalk (s : State) (th : Thread) (id va : Nat) : State :=
  let w : Walk := { part := th.life.part, ctx := th.life.ctx.toNat, page := va / 65536 }
  let d := th.life.rect.die
  let s1 := s.modCmd th.tid id fun c => { c with walking := true }
  if (s.die d).walks.contains w then s1
  else if (s.die d).walks.length < dieWalks then s1.modDie d fun x => { x with walks := x.walks ++ [w] }
  else s

/-- The translations of an element, copied into the access TLB (R213). -/
def State.fillFor (s : State) (th : Thread) (c : Cmd) : State :=
  (((th.cmdVas c c.elem).filterMap id).map (· / 65536)).eraseDups.foldl (fun t pg => t.accFill th c.need (65536 * pg)) s

/-- Whether an element would write a line that has to be logged while the thread's undo log is full (R319). -/
def State.logFull (s : State) (th : Thread) : Bool :=
  th.life.ckpt.isOpen && decide ((s.part th.life.part).undoLines ≤ th.life.undo.length)

def State.logWaits (s : State) (th : Thread) (c : Cmd) : Bool :=
  c.need != .rd && s.logFull th && (linesOf ((s.cmdPhys th c c.elem).filterMap id)).any fun l =>
    match s.homeOf l with
    | .die _ => !th.life.undo.any fun u => u.line == l
    | _ => false

/-! ### Parking (R214, R303, R306) -/

/-- A prefetch, which never parks (R210, R214). -/
def Cmd.isPrefetch (c : Cmd) : Bool :=
  match c.instr with
  | .pfch .. => true
  | .tld .. | .tgat .. => c.taken.isNone
  | _ => false

/-- A command parked. -/
def Cmd.park (c : Cmd) : Cmd := if c.isPrefetch then c else { c with parked := true, walking := false }

/-- Parks a command and every one that issued after it. -/
def parkFrom (id : Nat) : List Cmd → List Cmd
  | [] => []
  | c :: r => if c.id = id then (c :: r).map Cmd.park else c :: parkFrom id r

/-- Whether a command issued before another. -/
def Thread.earlier (th : Thread) (a b : Nat) : Bool := (th.cmdsBefore b).any fun c => c.id == a

/-- A command meets a fault: it and every later one park. The fault reported is that of the earliest-issued faulting command. The thread
takes the trap once its other streams wait (R214); a thread that is being saved takes it at once; beside another stream's trap it is the A
stream's secondary trap, unless it falls in the same cycle and comes first (R303). -/
def Thread.parkFault (th : Thread) (now id : Nat) (f : FaultRec) : Thread :=
  let th1 := { th with a := { th.a with cmds := parkFrom id th.a.cmds } }
  let mine := fun (t : Thread) => t.modLife fun l => { l with faultCmd := some id }
  match th.life.trapping, th.life.faultCmd with
  | true, some old => if th.earlier id old then mine (th1.modLife fun l => { l with fault := f }) else th1
  | true, none =>
    let t := th1.takeTrap now f
    if t.life.fault == f && th.life.fault != f then mine t else t
  | false, some old =>
    if th.life.waitingTrap.isSome && !th.earlier id old then th1 else mine (th1.modLife fun l => { l with waitingTrap := some f })
  | false, none =>
    match th.life.phase with
    | .running => mine (th1.modLife fun l => { l with waitingTrap := some f })
    | _ => mine (th1.takeTrap now f)

/-- A command of a thread meets a fault. -/
def State.parkFault (s : State) (tid id : Nat) (pc : BitVec 16) (t : TrapInfo) : State :=
  s.modThread tid fun th => th.parkFault s.now id (t.record .a pc)

/-- Whether a stream has nothing to do but wait: it is not running, its head waits, or it has arrived at an end of its kernel (R80). -/
def Thread.waits (th : Thread) (now : Nat) (sid : StreamId) : Bool :=
  let st := th.strm sid
  st.idleAt now || st.wdog.isSome || (th.takesPart sid && !th.loop.finished && th.loop.arrived.getD (streamNum sid) false)

/-- Whether something of the thread's own is still under way that a stream may wait for: a command that no fault has parked, an access, an
operation of the field or a result of the V stream. -/
def Thread.underWay (th : Thread) (now : Nat) : Bool :=
  th.a.cmds.any (fun c => !c.parked && !c.isPrefetch) || !th.c.queue.isEmpty || !th.v.queue.isEmpty || !th.m.ops.isEmpty ||
    !th.dues.isEmpty || !th.v.allReady now

/-- Whether another thread, a decision or a packet may end what the C stream waits for: its barrier, its `yield`, `ffuse` or `fchain`, a wadr
whose word no parked command has in its ranges. -/
def Thread.waitsOutside (th : Thread) (ea : Option Nat) : Bool :=
  th.sc.run == .running && th.sc.wdog.isSome &&
    (th.sc.wait == .gbar || th.c.pending != .none || th.life.offerE || th.life.offerW || match ea with
      | some a => !th.rangeHeld (th.a.cmds.filter (·.parked)) [(a / 8 * 8, a / 8 * 8 + 8)]
      | none => false)

/-- Whether the C, V and M streams wait on nothing but what the parked commands would provide, be it through each other or the A stream, which
issues nothing more (R214; log 74). -/
def Thread.allStuck (th : Thread) (now : Nat) (ea : Option Nat) : Bool :=
  th.waits now .c && th.waits now .v && th.waits now .m && !th.underWay now && !th.waitsOutside ea

/-- Takes the trap of a parked command once the other streams wait on what the parked commands would provide, or once the thread is being saved
(R214, R303). `ea` is the address of a wadr at the head of the C stream. -/
def Thread.releaseTrap (th : Thread) (now : Nat) (ea : Option Nat) : Thread :=
  match th.life.waitingTrap with
  | none => th
  | some f =>
    if th.life.phase != .running || th.allStuck now ea then
      (th.firstTrap now f).modLife fun l => { l with trapAt := none }
    else th

/-- The trap of a translation that fails at an element (R301, R313). -/
def XlFault.trap (f : XlFault) (va elem : Nat) : TrapInfo :=
  { code := f.code, detail := BitVec.ofNat 64 elem, stage := f.stage, level := f.level, va := BitVec.ofNat 56 va, elem := elem }

/-- Every command parked at its resume index (R214, R216): a send's is at most the first element whose packet was refused or failed, which is
not written at its destination, and it is sent again (log 77). A prefetch is left out: it never parks, and changes no value (R210; log 77). -/
def Thread.parkAll (th : Thread) : Thread :=
  { th with a := { th.a with cmds := (th.a.cmds.filter fun c => !c.isPrefetch).map fun c =>
    { c.park with elem := min c.elem (c.bad.getD c.elem), bad := none } } }

/-- A sendf whose flag is lost with a packet of its payload, and not yet counted (R222). -/
def Cmd.flagLost (c : Cmd) : Bool :=
  match c.instr with
  | .sendf .. => !c.parked && c.elem + 1 == c.total && c.packets.isEmpty && c.bad.isSome
  | _ => false

/-- A thread that runs or is brought to its boundaries. -/
def Phase.active : Phase → Bool
  | .running => true
  | .saving .. => true
  | _ => false

/-- Whether an A-stream load or store that no fault has parked has still to be performed. -/
def Cmd.toPerform (c : Cmd) : Bool := c.isScalar && !c.parked && decide (c.elem < c.total)

/-- Whether the engine still works on a command: always while the thread runs; while it is being saved, on A-stream loads and stores and
whatever was issued before one of them, on the count of a lost flag, and on the commands issued before the one whose fault is reported (R99,
R214, R216, R222; log 74). -/
def Thread.engineOn (th : Thread) (c : Cmd) : Bool :=
  match th.life.phase with
  | .running => true
  | .saving .. =>
    c.isScalar || c.flagLost || (th.a.cmds.any fun x => x.toPerform && th.earlier c.id x.id) || match th.life.faultCmd with
      | some f => th.earlier c.id f
      | none => false
  | _ => false

end Sys2Proof.Machine
end

