-- ==== Sys2Proof/Machine/Length.lean ====
section
/-! DEFINITION. The save length of a thread: the sections of its context save area and where they begin (spec/15_traps.md R311, R315). -/

namespace Sys2Proof.Machine

/-! ### Fields of a task record (R241) -/

def trImage (r : Record) : Nat := fieldNat (r.getD 0 0) 55 0
def trFrame (r : Record) : Word := r.getD 1 0
def trJoin (r : Record) : Nat := fieldNat (r.getD 2 0) 55 0
def trCq (r : Record) : Nat := fieldNat (r.getD 3 0) 60 56
def trCont (r : Record) : Nat := fieldNat (r.getD 3 0) 55 0
def trHint (r : Record) : Nat := fieldNat (r.getD 4 0) 55 0
def trSmin (r : Record) : Nat := fieldNat (r.getD 5 0) 63 60
def trSpref (r : Record) : Nat := fieldNat (r.getD 5 0) 59 56
def trTiles (r : Record) : Nat := fieldNat (r.getD 5 0) 55 48
def trHwmu (r : Record) : Nat := fieldNat (r.getD 5 0) 41 24
def trCtx (r : Record) : BitVec 24 := (r.getD 5 0).extractLsb' 0 24
def trStages (r : Record) : Nat := fieldNat (r.getD 6 0) 63 60
def trN (r : Record) : Nat := fieldNat (r.getD 6 0) 31 0

/-- The entry given for stream k, in the order C, A, V, M. -/
def trEntry (r : Record) (k : Nat) : Nat := fieldNat (r.getD 7 0) (16 * k + 15) (16 * k)

/-- The next multiple of 64. -/
def pad64 (n : Nat) : Nat := (n + 63) / 64 * 64

/-- Bytes of section TILEDATA for a tile of g granules. -/
def tileBytes (g : Nat) : Nat := 64 * g + pad64 (2 * g)

/-- The lengths of the twelve sections (R315). -/
def sectionLens (panes tiles tiledata hwmu masks parked handles : Nat) : List Nat :=
  [8192, 16 * tiles, 256, tiledata, 32 * (4096 * panes), 36 * (4096 * panes), 96 * (64 * panes), 192 * (64 * panes),
    masks * max 8 (8 * panes), 80 * hwmu * panes, 256 * parked, 8 * handles]

/-- Where each section begins, and where the last one ends. -/
def sectionOffs : Nat → List Nat → List Nat × Nat
  | n, [] => ([], n)
  | n, l :: r =>
    let o := pad64 n
    let (os, e) := sectionOffs (o + l) r
    (o :: os, e)

/-- Granules of a tile's logical form. -/
def descGrans (d : Word) : Nat := descRows d * descUlen d

/-- The tile data of the configured tiles below TILES. -/
def tiledataLen (tiles : Sparse (Option Tile)) (n : Nat) : Nat :=
  (List.range n).foldl (fun a t => match sget none tiles t with | some x => a + tileBytes (descGrans x.desc) | none => a) 0

/-- The save length that a shape, tiles and a number of handles give: parked commands counted at 64, the mask stack at 16 (R311). -/
def saveLen (panes : Nat) (r : Record) (tiles : Sparse (Option Tile)) (handles : Nat) : Nat :=
  (sectionOffs 4096 (sectionLens panes (trTiles r) (tiledataLen tiles (trTiles r)) (trHwmu r) 16 64 handles)).2

/-- A thread's save length. -/
def Thread.saveLen (th : Thread) : Nat :=
  Sys2Proof.Machine.saveLen th.panes th.life.record th.tiles th.life.handles.length

/-- SLOTSZ of a partition. -/
def State.slotSize (s : State) (p : Nat) : Nat := 2 ^ (s.part p).set.slotlog

end Sys2Proof.Machine
end

