-- ==== Sys2Proof/Machine/Flags.lean ====
section
/-! DEFINITION. The sticky flags of FSTAT and how an instruction raises them (spec/06_formats.md R117 to R119). -/

namespace Sys2Proof.Machine

/-- A set of flags, laid out as FSTAT (R118). -/
abbrev Flags := BitVec 8

def flNone : Flags := 0
def flNV : Flags := 1
def flDZ : Flags := 2
def flOF : Flags := 4
def flUF : Flags := 8
def flNX : Flags := 16
def flSAT : Flags := 32
def flIOV : Flags := 64
def flSN : Flags := 128

/-- A flag when a condition holds. -/
def flIf (b : Bool) (f : Flags) : Flags := if b then f else 0

/-- ORs flags into a thread's FSTAT (R117, R119). -/
def Thread.raiseFlags (th : Thread) (f : Flags) : Thread := { th with cnt := { th.cnt with fstat := th.cnt.fstat ||| f } }

/-- What an instruction has still to do when its result is ready, if anything (R115, R119, R149). -/
def Thread.addDue (th : Thread) (d : Due) : Thread :=
  if d.flags == 0 && !d.phase && d.read.isNone then th else { th with dues := th.dues ++ [d] }

/-- The thread in which an instruction raises flags, and advances DPH, at the end of a cycle. -/
def Thread.flagsAt (th : Thread) (at_ : Nat) (sid : StreamId) (f : Flags) (phase : Bool := false) : Thread :=
  th.addDue { at_ := at_, sid := sid, flags := f, phase := phase }

/-- The machine in which a thread's V stream raises flags when the result of the instruction it issues now is ready, after its latency
(R119, R129, R151). -/
def State.flagsIn (s : State) (tid lat : Nat) (f : Flags) (phase : Bool := false) : State :=
  s.modThread tid fun th => th.flagsAt (s.now + lat) .v f phase

/-- Whether a stream's earlier dth instruction has still to retire (R115). -/
def Thread.phaseDue (th : Thread) (sid : StreamId) : Bool := th.dues.any fun d => d.sid == sid && d.phase

/-- Whether a stream's earlier instruction raises flags only after this cycle (R119). -/
def Thread.flagsOwed (th : Thread) (now : Nat) (sid : StreamId) : Bool :=
  th.dues.any fun d => d.sid == sid && d.flags != 0 && decide (now < d.at_)

end Sys2Proof.Machine
end

