-- ==== Sys2Proof/Machine/Num.lean ====
section
/-! DEFINITION. Exact numbers, element formats, and the one rounding helper of the part (spec/06_formats.md R104 to R116): a value is
NaN, an infinity, or a signed dyadic number. -/

namespace Sys2Proof.Machine

/-- NaN, an infinity, or (-1)^neg × m × 2^e; m = 0 is a signed zero. -/
inductive Num where
  | nan
  | inf (neg : Bool)
  | fin (neg : Bool) (m : Nat) (e : Int)
  deriving DecidableEq, Repr

/-- The formats a value is rounded to or read from (R104, R109). -/
inductive Fmt where
  | e4m3 | e5m2 | e3m2 | e2m3 | e2m1 | int8 | bf16 | f32 | a36
  deriving DecidableEq, Repr

/-- Exponent bits, fraction bits and bias (R104, R109). -/
def Fmt.params : Fmt → Nat × Nat × Nat
  | .e4m3 => (4, 3, 7)
  | .e5m2 => (5, 2, 15)
  | .e3m2 => (3, 2, 3)
  | .e2m3 => (2, 3, 1)
  | .e2m1 => (2, 1, 1)
  | .int8 => (0, 7, 0)
  | .bf16 => (8, 7, 127)
  | .f32 => (8, 23, 127)
  | .a36 => (9, 26, 255)

def Fmt.width : Fmt → Nat
  | .e4m3 | .e5m2 | .int8 => 8
  | .e3m2 | .e2m3 => 6
  | .e2m1 => 4
  | .bf16 => 16
  | .f32 => 32
  | .a36 => 36

/-- The exponent of the largest binade (R104). -/
def Fmt.emax : Fmt → Int
  | .e4m3 => 8
  | .e5m2 => 15
  | .e3m2 => 4
  | .e2m3 => 2
  | .e2m1 => 2
  | .int8 => 0
  | .bf16 | .f32 => 127
  | .a36 => 255

/-- The code of the largest finite magnitude. -/
def Fmt.maxCode : Fmt → Nat
  | .e4m3 => 0x7E
  | .e5m2 => 0x7B
  | .e3m2 => 0x1F
  | .e2m3 => 0x1F
  | .e2m1 => 7
  | .int8 => 127
  | .bf16 => 0x7F7F
  | .f32 => 0x7F7FFFFF
  | .a36 => 0x7FBFFFFFF

def Fmt.hasInf : Fmt → Bool
  | .e5m2 | .bf16 | .f32 | .a36 => true
  | _ => false

def Fmt.hasNan : Fmt → Bool
  | .e4m3 | .e5m2 | .bf16 | .f32 | .a36 => true
  | _ => false

/-- nan_code (R112). -/
def Fmt.nanCode : Fmt → Nat
  | .e4m3 => 0x7F
  | .e5m2 => 0x7F
  | .bf16 => 0x7FC0
  | .f32 => 0x7FC00000
  | .a36 => 0x7FE000000
  | _ => 0

/-- The narrow format of a format code that quantisation, dequantisation and `mma` take (R28, R104). -/
def narrowFmt : EFmt → Fmt
  | .e4m3 => .e4m3
  | .e5m2 => .e5m2
  | .e3m2 => .e3m2
  | .e2m3 => .e2m3
  | .e2m1 => .e2m1
  | .i8 => .int8
  | .bf16 => .bf16
  | .a36 => .a36
  | _ => .f32

/-! ### Decoding (R105) -/

/-- The value of a code's low bits in a format (R105). -/
def decodeNum (f : Fmt) (c : Nat) : Num :=
  match f with
  | .int8 =>
    let v := extW (BitVec.ofNat 64 c) 8 true
    .fin (decide (v < 0)) v.natAbs (-6)
  | _ =>
    let (eb, mb, bias) := f.params
    let sg := c / 2 ^ (eb + mb) % 2 == 1
    let e := c / 2 ^ mb % 2 ^ eb
    let m := c % 2 ^ mb
    if f.hasInf && e == 2 ^ eb - 1 then (if m = 0 then .inf sg else .nan)
    else if f == .e4m3 && e == 15 && m == 7 then .nan
    else if e = 0 then .fin sg m (1 - bias - mb)
    else .fin sg (2 ^ mb + m) ((e : Int) - bias - mb)

/-- A signalling NaN of a format with a quiet bit: NaN with the top fraction bit 0. -/
def isSnan (f : Fmt) (c : Nat) : Bool :=
  let (_, mb, _) := f.params
  decodeNum f c == .nan && c / 2 ^ (mb - 1) % 2 == 0

/-! ### Rounding (R112 to R114) -/

/-- The five low bits reversed. -/
def bitreverse5 (n : Nat) : Nat :=
  16 * (n % 2) + 8 * (n / 2 % 2) + 4 * (n / 4 % 2) + 2 * (n / 8 % 2) + n / 16 % 2

/-- Whether a magnitude with fraction r / 2^k above the integer i is rounded up (R112, R114). -/
def roundUp (rnd : Rnd) (neg : Bool) (i r k p ph : Nat) : Bool :=
  match rnd with
  | .rne => decide (2 ^ k < 2 * r) || (2 * r == 2 ^ k && i % 2 == 1)
  | .rtz => false
  | .rdn => decide (0 < r) && neg
  | .rup => decide (0 < r) && !neg
  | .dth => decide ((2 * bitreverse5 ((p + ph) % 32) + 1) * 2 ^ k ≤ 64 * r)

/-- A magnitude m × 2^e rounded to a multiple of 2^e0: the multiple, and whether it is inexact. -/
def roundAt (rnd : Rnd) (neg : Bool) (m : Nat) (e e0 : Int) (p ph : Nat) : Nat × Bool :=
  if e0 ≤ e then (m * 2 ^ (e - e0).toNat, false)
  else
    let k := (e0 - e).toNat
    let i := m / 2 ^ k
    let r := m % 2 ^ k
    (if roundUp rnd neg i r k p ph then i + 1 else i, r != 0)

/-- The sign bit of a format as a number. -/
def Fmt.sign (f : Fmt) (neg : Bool) : Nat := if neg then 2 ^ (f.width - 1) else 0

/-- overflow (R113); `isInf` tells an infinite value from a finite one that is too large. -/
def overflowCode (f : Fmt) (ov : Ov) (rnd : Rnd) (neg isInf : Bool) : Nat :=
  match f with
  | .int8 => if neg then 0x80 else 0x7F
  | .e4m3 => f.sign neg + (if ov == .nan then 0x7F else f.maxCode)
  | .e5m2 | .bf16 | .f32 | .a36 =>
    let toMax := ov == .sat || (!isInf && (rnd == .rtz || (rnd == .rdn && !neg) || (rnd == .rup && neg)))
    f.sign neg + (if toMax then f.maxCode else f.maxCode + 1)
  | _ => f.sign neg + f.maxCode

/-- The clamp of an INT8 result (R112). -/
def clampInt (v lo hi : Int) : Int := max lo (min v hi)

/-- round_fp (R112): the code and the flags. -/
def roundFp (y : Num) (f : Fmt) (rnd : Rnd) (ov : Ov) (p ph : Nat) : Nat × Flags :=
  match y with
  | .nan => (f.nanCode, flIf (!f.hasNan) flNV)
  | .inf neg => (overflowCode f ov rnd neg true, if f == .int8 then flSAT else flIf (!f.hasInf) flOF)
  | .fin neg m e =>
    if m = 0 then (if f == .int8 then 0 else f.sign neg, 0)
    else if f == .int8 then
      let (i, nx) := roundAt rnd neg m e (-6) p ph
      let v : Int := if neg then -(i : Int) else i
      let c := clampInt v (-128) 127
      ((c % 256).toNat, flIf nx flNX ||| flIf (c != v) flSAT)
    else
      let (_, mb, bias) := f.params
      let top := (Nat.log2 m : Int) + e
      let e0 := max top (1 - bias) - mb
      let (i, nx) := roundAt rnd neg m e e0 p ph
      let code := ((e0 + mb + bias).toNat * 2 ^ mb + i) - 2 ^ mb
      if f.maxCode < code then (overflowCode f ov rnd neg false, flIf nx flNX ||| flOF)
      else (f.sign neg + code, flIf nx flNX ||| flIf (nx && decide (top < 1 - (bias : Int))) flUF)

/-- A value rounded to an integer (R121: round_fp at e = 0): the integer, and whether it is inexact. -/
def roundInt (neg : Bool) (m : Nat) (e : Int) (rnd : Rnd) : Int × Bool :=
  let (i, nx) := roundAt rnd neg m e 0 0 0
  (if neg then -(i : Int) else i, nx)

/-! ### Exact arithmetic -/

def Num.isZero : Num → Bool
  | .fin _ 0 _ => true
  | _ => false

def Num.neg : Num → Num
  | .nan => .nan
  | .inf n => .inf (!n)
  | .fin n m e => .fin (!n) m e

def Num.abs : Num → Num
  | .nan => .nan
  | .inf _ => .inf false
  | .fin _ m e => .fin false m e

/-- Multiplies by a power of two. -/
def Num.scale (k : Int) : Num → Num
  | .fin n m e => .fin n m (e + k)
  | x => x

/-- The number of an integer. -/
def Num.ofInt (v : Int) : Num := .fin (decide (v < 0)) v.natAbs 0

/-- The exact product, with NV for 0 × Inf. -/
def Num.mul : Num → Num → Num × Flags
  | .nan, _ => (.nan, 0)
  | _, .nan => (.nan, 0)
  | .inf a, .inf b => (.inf (a != b), 0)
  | .inf a, .fin b m _ => if m = 0 then (.nan, flNV) else (.inf (a != b), 0)
  | .fin a m _, .inf b => if m = 0 then (.nan, flNV) else (.inf (a != b), 0)
  | .fin a m e, .fin b n f => (.fin (a != b) (m * n) (e + f), 0)

/-- A signed magnitude as an integer. -/
def signedOf (neg : Bool) (m : Nat) : Int := if neg then -(m : Int) else m

/-- The exact sum, with NV for Inf − Inf. An exact zero is −0 when both operands are −0, or when the mode is rdn and they are not both
+0. -/
def Num.add (rnd : Rnd) : Num → Num → Num × Flags
  | .nan, _ => (.nan, 0)
  | _, .nan => (.nan, 0)
  | .inf a, .inf b => if a = b then (.inf a, 0) else (.nan, flNV)
  | .inf a, .fin .. => (.inf a, 0)
  | .fin .., .inf b => (.inf b, 0)
  | .fin a m e, .fin b n f =>
    let g := min e f
    let v := signedOf a (m * 2 ^ (e - g).toNat) + signedOf b (n * 2 ^ (f - g).toNat)
    if v = 0 then (.fin (if m = 0 && n = 0 && a == b then a else rnd == .rdn) 0 0, 0) else (.fin (decide (v < 0)) v.natAbs g, 0)

/-- Comparison of two numbers: none when one is NaN. Zeros are equal. -/
def Num.cmp : Num → Num → Option Ordering
  | .nan, _ => none
  | _, .nan => none
  | .inf a, .inf b => some (if a = b then .eq else if a then .lt else .gt)
  | .inf a, .fin .. => some (if a then .lt else .gt)
  | .fin .., .inf b => some (if b then .gt else .lt)
  | .fin a m e, .fin b n f =>
    let g := min e f
    some (compare (signedOf a (m * 2 ^ (e - g).toNat)) (signedOf b (n * 2 ^ (f - g).toNat)))

/-! ### Roots, reciprocals, exponentials and logarithms, to enough bits for one rounding -/

/-- The integer part of a square root, bit by bit from bit k − 1. -/
def isqrtFrom (n : Nat) : Nat → Nat → Nat
  | 0, r => r
  | k + 1, r =>
    let t := r + 2 ^ k
    isqrtFrom n k (if t * t ≤ n then t else r)

def isqrt (n : Nat) : Nat := isqrtFrom n (Nat.log2 n / 2 + 1) 0

/-- A quotient of naturals with its lowest bit set when it is inexact, so that one rounding of it is that of the exact quotient. -/
def stickyDiv (a b : Nat) : Nat := 2 * (a / b) + (if a % b = 0 then 0 else 1)

/-- 1 / (m × 2^e) for m > 0. -/
def recipNum (neg : Bool) (m : Nat) (e : Int) : Num :=
  let k := Nat.log2 m + 64
  .fin neg (stickyDiv (2 ^ k) m) (-(k : Int) - e - 1)

/-- 1 / sqrt(m × 2^e) for m > 0: with e made even, the root of 2^(2k) / m. -/
def rsqrtNum (m : Nat) (e : Int) : Num :=
  let m1 := if e % 2 = 0 then m else 2 * m
  let e1 := if e % 2 = 0 then e else e - 1
  let k := Nat.log2 m1 + 64
  let q := 2 ^ (2 * k) / m1
  let r := isqrt q
  .fin false (2 * r + (if r * r * m1 = 2 ^ (2 * k) then 0 else 1)) (-(k : Int) - e1 / 2 - 1)

/-- Bits of the fixed-point fractions below. -/
def fxBits : Nat := 320

/-- 2 × artanh(a / b) in fixed point, by its series: the term z^(2j+1) and the number 2j+1. -/
def artanhSum (zz : Nat) : Nat → Nat → Nat → Nat
  | 0, _, _ => 0
  | f + 1, term, j => term / j + artanhSum zz f (term * zz / 2 ^ fxBits) (j + 2)

/-- ln of a number a / b in [1, 2), in fixed point. -/
def lnFx (a b : Nat) : Nat :=
  let z := (a - b) * 2 ^ fxBits / (a + b)
  2 * artanhSum (z * z / 2 ^ fxBits) 110 z 1

/-- ln 2 in fixed point, as twice the logarithm of the square root's series would be slow: artanh(1/3) directly. -/
def ln2Fx : Nat := 2 * artanhSum (2 ^ fxBits / 9) 110 (2 ^ fxBits / 3) 1

/-- The exponential series of a fixed-point fraction. -/
def expSum (x : Nat) : Nat → Nat → Nat → Nat
  | 0, _, _ => 0
  | f + 1, term, j => term + expSum x f (term * x / 2 ^ fxBits / j) (j + 1)

/-- 2^(n + r / 2^k) for r < 2^k: exact when r = 0, else with its lowest bit set (the value is irrational). -/
def exp2Num (n : Int) (r k : Nat) : Num :=
  if r = 0 then .fin false 1 n
  else
    let x := r * ln2Fx / 2 ^ k
    .fin false (2 * expSum x 90 (2 ^ fxBits) 1 + 1) (n - fxBits - 1)

/-- log2 of m × 2^e for m > 0: exact for a power of two, else with its lowest bit set. -/
def log2Num (m : Nat) (e : Int) : Num :=
  let t := Nat.log2 m
  let ex : Int := e + t
  if m = 2 ^ t then .fin (decide (ex < 0)) ex.natAbs 0
  else
    let fr := lnFx m (2 ^ t) * 2 ^ fxBits / ln2Fx
    let v : Int := ex * (2 ^ fxBits : Nat) + fr
    .fin (decide (v < 0)) (2 * v.natAbs + 1) (-(fxBits : Int) - 1)

end Sys2Proof.Machine
end

