-- ==== Sys2Proof/Machine/VArith.lean ====
section
/-! DEFINITION. Vector arithmetic, requantisation helpers, reductions and permutes (spec/07_vector.md R130 to R146). -/

namespace Sys2Proof.Machine

/-! ### Elements (R130) -/

def LaneBits (t : LaneTy) : Nat :=
  match t with
  | .f32 | .s32 | .z32 => 32
  | .bf16 | .s16 | .z16 => 16
  | .s8 | .z8 => 8

def laneFloat (t : LaneTy) : Bool :=
  match t with
  | .f32 | .bf16 => true
  | _ => false

def laneSigned (t : LaneTy) : Bool :=
  match t with
  | .s32 | .s16 | .s8 => true
  | _ => false

/-- The floating-point format of a lane type. -/
def laneFmt (t : LaneTy) : Fmt := if t == .bf16 then .bf16 else .f32

/-- The elements of a lane as patterns, lowest first. -/
def elems (t : LaneTy) (x : BitVec 32) : List Nat :=
  let w := LaneBits t
  (List.range (32 / w)).map fun i => x.toNat / 2 ^ (w * i) % 2 ^ w

/-- A lane from its elements. -/
def joinElems (t : LaneTy) (es : List Nat) : BitVec 32 :=
  BitVec.ofNat 32 (es.foldr (fun e a => e % 2 ^ LaneBits t + 2 ^ LaneBits t * a) 0)

/-- An element as an integer of its type. -/
def elemInt (t : LaneTy) (e : Nat) : Int := extW (BitVec.ofNat 64 e) (LaneBits t) (laneSigned t)

/-- Whether an integer lies in the range of a type. -/
def inRange (t : LaneTy) (v : Int) : Bool :=
  let w := LaneBits t
  if laneSigned t then decide (-(2 ^ (w - 1) : Nat) ≤ v) && decide (v < (2 ^ (w - 1) : Nat)) else decide (0 ≤ v) && decide (v < (2 ^ w : Nat))

/-- The lowest and highest integer of a type. -/
def typeMin (t : LaneTy) : Int := if laneSigned t then -(2 ^ (LaneBits t - 1) : Nat) else 0

def typeMax (t : LaneTy) : Int := if laneSigned t then (2 ^ (LaneBits t - 1) : Nat) - 1 else (2 ^ LaneBits t : Nat) - 1

/-- The low bits of an integer, with IOV when it is outside the element's range (R130). -/
def wrapElem (t : LaneTy) (v : Int) : Nat × Flags := ((v % (2 ^ LaneBits t : Nat)).toNat, flIf (!inRange t v) flIOV)

/-- The ends of a type's range taken for what lies outside it, with SAT. -/
def clampElem (t : LaneTy) (v : Int) : Nat × Flags :=
  let c := clampInt v (typeMin t) (typeMax t)
  ((c % (2 ^ LaneBits t : Nat)).toNat, flIf (c != v) flSAT)

/-! ### Element operations -/

/-- A floating-point value rounded once to a lane type; NV for each signalling NaN among the operands (R112, R116). -/
def floatOut (t : LaneTy) (rnd : Rnd) (ops : List Nat) (x : Num × Flags) : Nat × Flags :=
  let r := roundFp x.1 (laneFmt t) rnd .dflt 0 0
  (r.1, x.2 ||| r.2 ||| flIf (ops.any fun c => isSnan (laneFmt t) c) flNV)

/-- vadd, vsub and vmul of an element (R140). -/
def addElem (t : LaneTy) (rnd : Rnd) (a b : Nat) : Nat × Flags :=
  if laneFloat t then floatOut t rnd [a, b] ((decodeNum (laneFmt t) a).add rnd (decodeNum (laneFmt t) b))
  else wrapElem t (elemInt t a + elemInt t b)

def subElem (t : LaneTy) (rnd : Rnd) (a b : Nat) : Nat × Flags :=
  if laneFloat t then floatOut t rnd [a, b] ((decodeNum (laneFmt t) a).add rnd (decodeNum (laneFmt t) b).neg)
  else wrapElem t (elemInt t a - elemInt t b)

def mulElem (t : LaneTy) (rnd : Rnd) (a b : Nat) : Nat × Flags :=
  if laneFloat t then floatOut t rnd [a, b] ((decodeNum (laneFmt t) a).mul (decodeNum (laneFmt t) b))
  else wrapElem t (elemInt t a * elemInt t b)

/-- vfma and vfms: one rounding (R140). -/
def fmaElem (t : LaneTy) (rnd : Rnd) (minus : Bool) (a b c : Nat) : Nat × Flags :=
  let f := laneFmt t
  let p := (decodeNum f a).mul (decodeNum f b)
  let z := decodeNum f c
  let q := p.1.add rnd (if minus then z.neg else z)
  floatOut t rnd [a, b, c] (q.1, p.2 ||| q.2)

/-- Whether a is before b in the order of vmin: −0 < +0 (R140). -/
def numBefore (a b : Num) : Bool :=
  match a.cmp b with
  | some .lt => true
  | some .eq => match a, b with
    | .fin na 0 _, .fin nb _ _ => na && !nb
    | _, _ => false
  | _ => false

/-- vmin (and vmax with `greater`) of an element: a NaN yields the other operand, two NaNs the canonical one (R140). The rule names the
other operand for one quiet NaN: for one signalling NaN, which raises NV, the model takes the same (DEDUCED, log 75). -/
def minElem (t : LaneTy) (greater : Bool) (a b : Nat) : Nat × Flags :=
  if laneFloat t then
    let f := laneFmt t
    let x := decodeNum f a
    let y := decodeNum f b
    let r := match x, y with
      | .nan, .nan => f.nanCode
      | .nan, _ => b
      | _, .nan => a
      | _, _ => if greater then (if numBefore x y then b else a) else (if numBefore y x then b else a)
    (r, flIf (isSnan f a || isSnan f b) flNV)
  else
    let x := elemInt t a
    let y := elemInt t b
    (if greater then (if x < y then b else a) else (if y < x then b else a), 0)

/-- vabs and vneg of an element (R140). -/
def absElem (t : LaneTy) (a : Nat) : Nat × Flags :=
  if laneFloat t then
    let f := laneFmt t
    (if decodeNum f a = .nan then f.nanCode else a % 2 ^ (LaneBits t - 1), 0)
  else if laneSigned t then wrapElem t (elemInt t a).natAbs
  else (a, 0)

def negElem (t : LaneTy) (a : Nat) : Nat × Flags :=
  if laneFloat t then
    let f := laneFmt t
    (if decodeNum f a = .nan then f.nanCode else (a + 2 ^ (LaneBits t - 1)) % 2 ^ LaneBits t, 0)
  else wrapElem t (0 - elemInt t a)

/-- Shifts of an element by the count modulo its width; right shifts are logical or arithmetic whatever the type says (R140). -/
def shlElem (t : LaneTy) (a b : Nat) : Nat × Flags := (a * 2 ^ (b % LaneBits t) % 2 ^ LaneBits t, 0)

def shrElem (t : LaneTy) (a b : Nat) : Nat × Flags := (a / 2 ^ (b % LaneBits t), 0)

def sarElem (t : LaneTy) (a b : Nat) : Nat × Flags :=
  let w := LaneBits t
  let v := extW (BitVec.ofNat 64 a) w true / (2 ^ (b % w) : Nat)
  ((v % (2 ^ w : Nat)).toNat, 0)

/-- Whether a condition holds for an ordering; none is unordered (R141). -/
def vcondHolds (c : VCond) (o : Option Ordering) : Bool :=
  match c, o with
  | .un, none => true
  | .un, _ => false
  | .ne, none => true
  | _, none => false
  | .eq, some x => x == .eq
  | .ne, some x => x != .eq
  | .lt, some x => x == .lt
  | .le, some x => x != .gt
  | .gt, some x => x == .gt
  | .ge, some x => x != .lt

/-- vcmp of an element (R141). -/
def cmpElem (c : VCond) (t : LaneTy) (a b : Nat) : Nat × Flags :=
  let yes := fun (x : Bool) => if x then 2 ^ LaneBits t - 1 else 0
  if laneFloat t then
    let f := laneFmt t
    let o := (decodeNum f a).cmp (decodeNum f b)
    let ordered := match c with
      | .lt | .le | .gt | .ge => true
      | _ => false
    (yes (vcondHolds c o), flIf (isSnan f a || isSnan f b || (ordered && o.isNone)) flNV)
  else (yes (vcondHolds c (some (compare (elemInt t a) (elemInt t b)))), 0)

/-- The code of an infinity. -/
def infCode (f : Fmt) (neg : Bool) : Nat := f.sign neg + f.maxCode + 1

/-- vrcp of an element (R142). -/
def rcpElem (t : LaneTy) (a : Nat) : Nat × Flags :=
  let f := laneFmt t
  match decodeNum f a with
  | .nan => (f.nanCode, flIf (isSnan f a) flNV)
  | .inf n => (f.sign n, 0)
  | .fin n 0 _ => (infCode f n, flDZ)
  | .fin n m e => roundFp (recipNum n m e) f .rne .dflt 0 0

/-- vrsq of an element (R142). -/
def rsqElem (t : LaneTy) (a : Nat) : Nat × Flags :=
  let f := laneFmt t
  match decodeNum f a with
  | .nan => (f.nanCode, flIf (isSnan f a) flNV)
  | .inf n => if n then (f.nanCode, flNV) else (0, 0)
  | .fin n 0 _ => (infCode f n, flDZ)
  | .fin n m e => if n then (f.nanCode, flNV) else roundFp (rsqrtNum m e) f .rne .dflt 0 0

/-- vexp2 of an element (R142); exponents beyond ±1000 round as ±1000 does. -/
def exp2Elem (t : LaneTy) (a : Nat) : Nat × Flags :=
  let f := laneFmt t
  match decodeNum f a with
  | .nan => (f.nanCode, flIf (isSnan f a) flNV)
  | .inf n => (if n then 0 else infCode f false, 0)
  | .fin neg m e =>
    let k := (-e).toNat
    let v := signedOf neg (m * 2 ^ e.toNat)
    let n := v / (2 ^ k : Nat)
    let r := (v % (2 ^ k : Nat)).toNat
    roundFp (exp2Num (clampInt n (-1000) 1000) r k) f .rne .dflt 0 0

/-- vlog2 of an element (R142). -/
def log2Elem (t : LaneTy) (a : Nat) : Nat × Flags :=
  let f := laneFmt t
  match decodeNum f a with
  | .nan => (f.nanCode, flIf (isSnan f a) flNV)
  | .inf n => if n then (f.nanCode, flNV) else (infCode f false, 0)
  | .fin _ 0 _ => (infCode f true, flDZ)
  | .fin n m e => if n then (f.nanCode, flNV) else roundFp (log2Num m e) f .rne .dflt 0 0

/-! ### Lanes -/

/-- What a lane operation gives: the lane and its flags. -/
abbrev LaneOut := BitVec 32 × Flags

/-- An element operation on the elements of a lane. -/
def onElems1 (t : LaneTy) (f : Nat → Nat × Flags) (a : BitVec 32) : LaneOut :=
  let r := (elems t a).map f
  (joinElems t (r.map (·.1)), r.foldl (fun x y => x ||| y.2) 0)

def onElems2 (t : LaneTy) (f : Nat → Nat → Nat × Flags) (a b : BitVec 32) : LaneOut :=
  let r := List.zipWith f (elems t a) (elems t b)
  (joinElems t (r.map (·.1)), r.foldl (fun x y => x ||| y.2) 0)

def onElems3 (t : LaneTy) (f : Nat → Nat → Nat → Nat × Flags) (a b c : BitVec 32) : LaneOut :=
  let r := List.zipWith (fun (x : Nat) (g : Nat × Nat) => f x g.1 g.2) (elems t a) ((elems t b).zip (elems t c))
  (joinElems t (r.map (·.1)), r.foldl (fun x y => x ||| y.2) 0)

/-- A lane-by-lane result: active lanes are computed and take their sources' poison; the others are not computed (R131). -/
def lanes1 (f : BitVec 32 → LaneOut) : List Bool → List Lane → List Lane × Flags
  | m :: ms, x :: xs =>
    let r := lanes1 f ms xs
    if m then
      let y := f x.bits
      ({ bits := y.1, mark := x.mark } :: r.1, y.2 ||| r.2)
    else ({} :: r.1, r.2)
  | _, _ => ([], 0)

def lanes2 (f : BitVec 32 → BitVec 32 → LaneOut) : List Bool → List Lane → List Lane → List Lane × Flags
  | m :: ms, a :: as, b :: bs =>
    let r := lanes2 f ms as bs
    if m then
      let y := f a.bits b.bits
      ({ bits := y.1, mark := meet a.mark b.mark } :: r.1, y.2 ||| r.2)
    else ({} :: r.1, r.2)
  | _, _, _ => ([], 0)

def lanes3 (f : BitVec 32 → BitVec 32 → BitVec 32 → LaneOut) :
    List Bool → List Lane → List Lane → List Lane → List Lane × Flags
  | m :: ms, a :: as, b :: bs, c :: cs =>
    let r := lanes3 f ms as bs cs
    if m then
      let y := f a.bits b.bits c.bits
      ({ bits := y.1, mark := meet a.mark (meet b.mark c.mark) } :: r.1, y.2 ||| r.2)
    else ({} :: r.1, r.2)
  | _, _, _, _ => ([], 0)

/-! ### Issuing -/

/-- Adds to a 48-bit counter, which holds at its greatest value (R103, R133, R210). -/
def hold48 (c n : Nat) : Nat := min (c + n) (2 ^ 48 - 1)

/-- The wait of a vector instruction on its operands and on its register banks (R57, R133): goes on with the number of bank-conflict
cycles. -/
def vready (s : State) (k : Issue) (th : Thread) (xs : List VSrc) (act : List Bool) (d : VDst) (f : Nat → Head) : Head :=
  let n := bankStall th.v xs
  if th.v.waits s.now xs act d then .wait .result
  else if s.now < k.counted + n then .wait .none
  else f n

/-- The machine with bank-conflict cycles counted in VSTALL (R133). -/
def State.addVstall (s : State) (tid n : Nat) : State :=
  s.modThread tid fun th => { th with cnt := { th.cnt with vstall := hold48 th.cnt.vstall n } }

/-- A latency of R129 or R151: so many cycles, and so many for each doubling of the panes. -/
abbrev Lat := Nat × Nat

/-- The latency of a type's arithmetic: 4 cycles in floating point, else 1 (R151). -/
def latOf (t : LaneTy) : Lat := (if laneFloat t then 4 else 1, 0)

/-- A latency in a thread's fragment. -/
def Thread.lat (th : Thread) (l : Lat) : Nat := l.1 + l.2 * (th.life.rect.lrows + th.life.rect.lcols)

/-- A vector instruction that pushes one vector: f computes it from the thread and the active lanes; `wr` says which lanes of the
result are written (R131, R145). It is ready, and its flags are raised, after its latency (R119, R151). -/
def vecOp (lat : Lat) (xs : List VSrc) (mk : Bool) (d : VDst) (s : State) (wr : List Bool → List Bool)
    (f : Thread → List Bool → List Lane × Flags) : Answer :=
  issue s fun k th s1 =>
    let act := th.v.active th.lanes mk
    vready s k th xs act d fun n =>
      let r := f th act
      .done (((s1.pushVec k th.lanes (wr act) r.1 d (th.lat lat)).flagsIn k.tid (th.lat lat) r.2).addVstall k.tid n)

/-- A lane-by-lane instruction of one operand. -/
def vec1 (lat : Lat) (mk : Bool) (x : VSrc) (d : VDst) (f : BitVec 32 → LaneOut) (s : State) : Answer :=
  vecOp lat [x] mk d s id fun th act => lanes1 f act (th.v.read th.lanes x)

/-- A lane-by-lane instruction of two operands. -/
def vec2 (lat : Lat) (mk : Bool) (x y : VSrc) (d : VDst) (f : BitVec 32 → BitVec 32 → LaneOut) (s : State) : Answer :=
  vecOp lat [x, y] mk d s id fun th act => lanes2 f act (th.v.read th.lanes x) (th.v.read th.lanes y)

/-- A lane-by-lane instruction of three operands. -/
def vec3 (lat : Lat) (mk : Bool) (x y z : VSrc) (d : VDst) (f : BitVec 32 → BitVec 32 → BitVec 32 → LaneOut) (s : State) : Answer :=
  vecOp lat [x, y, z] mk d s id fun th act =>
    lanes3 f act (th.v.read th.lanes x) (th.v.read th.lanes y) (th.v.read th.lanes z)

/-! ### R140 to R142 -/

/-- vadd. -/
def execVadd (t : LaneTy) (rnd : Rnd) (mk : Bool) (x y : VSrc) (d : VDst) (s : State) : Answer :=
  vec2 (latOf t) mk x y d (onElems2 t (addElem t rnd)) s

/-- vsub. -/
def execVsub (t : LaneTy) (rnd : Rnd) (mk : Bool) (x y : VSrc) (d : VDst) (s : State) : Answer :=
  vec2 (latOf t) mk x y d (onElems2 t (subElem t rnd)) s

/-- vmul. -/
def execVmul (t : LaneTy) (rnd : Rnd) (mk : Bool) (x y : VSrc) (d : VDst) (s : State) : Answer :=
  vec2 (4, 0) mk x y d (onElems2 t (mulElem t rnd)) s

/-- vfma. -/
def execVfma (t : LaneTy) (rnd : Rnd) (mk : Bool) (x y z : VSrc) (d : VDst) (s : State) : Answer :=
  vec3 (4, 0) mk x y z d (onElems3 t (fmaElem t rnd false)) s

/-- vfms. -/
def execVfms (t : LaneTy) (rnd : Rnd) (mk : Bool) (x y z : VSrc) (d : VDst) (s : State) : Answer :=
  vec3 (4, 0) mk x y z d (onElems3 t (fmaElem t rnd true)) s

/-- vmin. -/
def execVmin (t : LaneTy) (mk : Bool) (x y : VSrc) (d : VDst) (s : State) : Answer :=
  vec2 (latOf t) mk x y d (onElems2 t (minElem t false)) s

/-- vmax. -/
def execVmax (t : LaneTy) (mk : Bool) (x y : VSrc) (d : VDst) (s : State) : Answer :=
  vec2 (latOf t) mk x y d (onElems2 t (minElem t true)) s

/-- vabs. R151's table gives its latency in the row of integers alone; it is 1 for floats too (DESIGN CHOICE, log 88). -/
def execVabs (t : LaneTy) (mk : Bool) (x : VSrc) (d : VDst) (s : State) : Answer := vec1 (1, 0) mk x d (onElems1 t (absElem t)) s

/-- vneg, of latency 1 for floats too, as vabs (DESIGN CHOICE, log 88). -/
def execVneg (t : LaneTy) (mk : Bool) (x : VSrc) (d : VDst) (s : State) : Answer := vec1 (1, 0) mk x d (onElems1 t (negElem t)) s

/-- vand: all 32 bits, for any T. -/
def execVand (_t : LaneTy) (mk : Bool) (x y : VSrc) (d : VDst) (s : State) : Answer := vec2 (1, 0) mk x y d (fun a b => (a &&& b, 0)) s

/-- vor. -/
def execVor (_t : LaneTy) (mk : Bool) (x y : VSrc) (d : VDst) (s : State) : Answer := vec2 (1, 0) mk x y d (fun a b => (a ||| b, 0)) s

/-- vxor. -/
def execVxor (_t : LaneTy) (mk : Bool) (x y : VSrc) (d : VDst) (s : State) : Answer := vec2 (1, 0) mk x y d (fun a b => (a ^^^ b, 0)) s

/-- vshl. -/
def execVshl (t : LaneTy) (mk : Bool) (x y : VSrc) (d : VDst) (s : State) : Answer := vec2 (1, 0) mk x y d (onElems2 t (shlElem t)) s

/-- vshr. -/
def execVshr (t : LaneTy) (mk : Bool) (x y : VSrc) (d : VDst) (s : State) : Answer := vec2 (1, 0) mk x y d (onElems2 t (shrElem t)) s

/-- vsar. -/
def execVsar (t : LaneTy) (mk : Bool) (x y : VSrc) (d : VDst) (s : State) : Answer := vec2 (1, 0) mk x y d (onElems2 t (sarElem t)) s

/-- vcmp (R141). -/
def execVcmp (c : VCond) (t : LaneTy) (mk : Bool) (x y : VSrc) (d : VDst) (s : State) : Answer :=
  vec2 (1, 0) mk x y d (onElems2 t (cmpElem c t)) s

/-- One lane of vsel: the condition and the operands selected give the poison (R140). -/
def selLane (t : LaneTy) (a b c : Lane) : Lane :=
  let cs := elems t a.bits
  { bits := joinElems t (List.zipWith (fun (x : Nat) (g : Nat × Nat) => if x = 0 then g.2 else g.1) cs ((elems t b.bits).zip (elems t c.bits))),
    mark := meet a.mark (meet (if cs.any (· != 0) then b.mark else none) (if cs.any (· == 0) then c.mark else none)) }

/-- vsel. -/
def execVsel (t : LaneTy) (mk : Bool) (x y z : VSrc) (d : VDst) (s : State) : Answer :=
  vecOp (1, 0) [x, y, z] mk d s id fun th _ =>
    (List.zipWith (fun a (g : Lane × Lane) => selLane t a g.1 g.2) (th.v.read th.lanes x)
      ((th.v.read th.lanes y).zip (th.v.read th.lanes z)), 0)

/-- vrcp (R142): rne whatever RND holds. -/
def execVrcp (t : LaneTy) (_rnd : Rnd) (mk : Bool) (x : VSrc) (d : VDst) (s : State) : Answer := vec1 (10, 0) mk x d (onElems1 t (rcpElem t)) s

/-- vrsq (R142). -/
def execVrsq (t : LaneTy) (_rnd : Rnd) (mk : Bool) (x : VSrc) (d : VDst) (s : State) : Answer := vec1 (10, 0) mk x d (onElems1 t (rsqElem t)) s

/-- vexp2 (R142). -/
def execVexp2 (t : LaneTy) (_rnd : Rnd) (mk : Bool) (x : VSrc) (d : VDst) (s : State) : Answer := vec1 (10, 0) mk x d (onElems1 t (exp2Elem t)) s

/-- vlog2 (R142). -/
def execVlog2 (t : LaneTy) (_rnd : Rnd) (mk : Bool) (x : VSrc) (d : VDst) (s : State) : Answer := vec1 (10, 0) mk x d (onElems1 t (log2Elem t)) s

/-- vclamp of an element: vmin(vmax(a, b), c) (R140). -/
def clampElem3 (t : LaneTy) (a b c : Nat) : Nat × Flags :=
  let x := minElem t true a b
  let y := minElem t false x.1 c
  (y.1, x.2 ||| y.2)

/-- vclamp. -/
def execVclamp (t : LaneTy) (mk : Bool) (x y z : VSrc) (d : VDst) (s : State) : Answer := vec3 (latOf t) mk x y z d (onElems3 t (clampElem3 t)) s

/-- vmov. -/
def execVmov (mk : Bool) (x : VSrc) (d : VDst) (s : State) : Answer := vec1 (1, 0) mk x d (fun a => (a, 0)) s

/-! ### R143, R144 -/

/-- The 32 bits of a VI immediate; none when a literal has a bit above them (R21). -/
def viBits (i : Imm) : Option (BitVec 32) :=
  match i with
  | .short v => some (v.signExtend 32)
  | .lit v => if v.toNat < 2 ^ 32 then some (BitVec.ofNat 32 v.toNat) else none

/-- A vector instruction with an immediate: a literal outside its limit traps ILLEGAL at issue (R21). -/
def vecImm (i : Imm) (s : State) (f : BitVec 32 → Answer) : Answer :=
  match viBits i with
  | some v => f v
  | none => issue s fun _ _ _ => .trap (illegal)

/-- vlit (R143). -/
def execVlit (mk : Bool) (i : Imm) (d : VDst) (s : State) : Answer :=
  vecImm i s fun v => vecOp (1, 0) [] mk d s id fun th _ => (List.replicate th.lanes { bits := v }, 0)

/-- vaddi (R143): the low bits of imm as an element. -/
def execVaddi (t : LaneTy) (mk : Bool) (x : VSrc) (i : Imm) (d : VDst) (s : State) : Answer :=
  vecImm i s fun v => vec1 (1, 0) mk x d (onElems1 t fun a => addElem t .rne a (v.toNat % 2 ^ LaneBits t)) s

/-- vdot4 of a lane (R144). -/
def dot4Lane (t : LaneTy) (a b c : BitVec 32) : LaneOut :=
  let w := if laneSigned t then LaneTy.s32 else LaneTy.z32
  let v := (List.zipWith (fun x y => elemInt t x * elemInt t y) (elems t a) (elems t b)).foldl (· + ·) (elemInt w c.toNat)
  let r := wrapElem w v
  (BitVec.ofNat 32 r.1, r.2)

/-- vdot4 (R144). -/
def execVdot4 (t : LaneTy) (mk : Bool) (x y z : VSrc) (d : VDst) (s : State) : Answer := vec3 (4, 0) mk x y z d (dot4Lane t) s

/-- vrsh of a lane (R144): round half up, then clamp. -/
def rshLane (t : LaneTy) (a b : BitVec 32) : LaneOut :=
  let n := b.toNat % 32
  let x := a.toInt
  let y := if n = 0 then x else (x + (2 ^ (n - 1) : Nat)) / (2 ^ n : Nat)
  let c := clampInt y (typeMin t) (typeMax t)
  (BitVec.ofInt 32 c, flIf (c != y) flSAT)

/-- vrsh (R144). -/
def execVrsh (t : LaneTy) (mk : Bool) (x y : VSrc) (d : VDst) (s : State) : Answer := vec2 (4, 0) mk x y d (rshLane t) s

/-- vmulq of a lane (R144). -/
def mulqLane (a b : BitVec 32) : LaneOut :=
  let y := (a.toInt * b.toInt + (2 ^ 30 : Nat)) / (2 ^ 31 : Nat)
  let c := clampInt y (typeMin .s32) (typeMax .s32)
  (BitVec.ofInt 32 c, flIf (c != y) flSAT)

/-- vmulq (R144). -/
def execVmulq (mk : Bool) (x y : VSrc) (d : VDst) (s : State) : Answer := vec2 (4, 0) mk x y d mulqLane s

/-! ### Reductions (R145) -/

/-- The lanes that are active. -/
def activeOf : List Bool → List Lane → List Lane
  | true :: ms, x :: xs => x :: activeOf ms xs
  | false :: ms, _ :: xs => activeOf ms xs
  | _, _ => []

/-- The exact sum of numbers: of zeros alone, and of values that cancel, the sign is that of adding them in turn (log 15). -/
def sumNums (rnd : Rnd) : List Num → Num × Flags
  | [] => (.fin false 0 0, 0)
  | x :: r => r.foldl (fun a y => let z := a.1.add rnd y; (z.1, a.2 ||| z.2)) (x, 0)

/-- The 32-bit type an integer reduction gives. -/
def wideOf (t : LaneTy) : LaneTy := if laneSigned t then .s32 else .z32

/-- A reduction's element as a lane: BF16 in both halves; integers extended to 32 bits. R145 says both halves of vredadd; the model reads it so of
vredmax and vredmin too (DESIGN CHOICE, log 88). -/
def spreadElem (t : LaneTy) (e : Nat) : BitVec 32 :=
  if t == .f32 then BitVec.ofNat 32 e
  else if t == .bf16 then BitVec.ofNat 32 (e + 65536 * e)
  else BitVec.ofInt 32 (elemInt t e)

/-- The sum of elements, as a lane (R145). -/
def sumElems (t : LaneTy) (rnd : Rnd) (es : List Nat) : LaneOut :=
  if laneFloat t then
    let r := floatOut t rnd es (sumNums rnd (es.map (decodeNum (laneFmt t))))
    (spreadElem t r.1, r.2)
  else
    let r := wrapElem (wideOf t) ((es.map (elemInt t)).foldl (· + ·) 0)
    (BitVec.ofNat 32 r.1, r.2)

/-- The greatest or least element, as a lane; of no elements the lowest or highest value of the type. -/
def extremeElems (t : LaneTy) (greater : Bool) (es : List Nat) : LaneOut :=
  match es with
  | [] =>
    let e := if laneFloat t then infCode (laneFmt t) greater
      else ((if greater then typeMin t else typeMax t) % (2 ^ LaneBits t : Nat)).toNat
    (spreadElem t e, 0)
  | x :: r =>
    let start := minElem t greater x x
    let z := r.foldl (fun a y => let w := minElem t greater a.1 y; (w.1, a.2 ||| w.2)) start
    (spreadElem t z.1, z.2)

/-- A reduction: its lane in every lane of the result, with the lowest tag of the lanes it takes (R145). -/
def vecReduce (t : LaneTy) (mk : Bool) (x : VSrc) (d : VDst) (f : List Nat → LaneOut) (s : State) : Answer :=
  vecOp (6, 2) [x] mk d s (fun act => act.map fun _ => true) fun th act =>
    let ls := activeOf act (th.v.read th.lanes x)
    let r := f (ls.flatMap fun l => elems t l.bits)
    (List.replicate th.lanes { bits := r.1, mark := meetAll (ls.map (·.mark)) }, r.2)

/-- vredadd. -/
def execVredadd (t : LaneTy) (rnd : Rnd) (mk : Bool) (x : VSrc) (d : VDst) (s : State) : Answer := vecReduce t mk x d (sumElems t rnd) s

/-- vredmax. -/
def execVredmax (t : LaneTy) (mk : Bool) (x : VSrc) (d : VDst) (s : State) : Answer := vecReduce t mk x d (extremeElems t true) s

/-- vredmin. -/
def execVredmin (t : LaneTy) (mk : Bool) (x : VSrc) (d : VDst) (s : State) : Answer := vecReduce t mk x d (extremeElems t false) s

/-- The running sums of the active lanes: those up to each lane, exact and then rounded or wrapped (R145). -/
def scanLanes (t : LaneTy) (rnd : Rnd) : List Lane → List Bool → List Lane → List Lane × Flags
  | seen, m :: ms, x :: xs =>
    if m then
      let seen1 := seen ++ [x]
      let v := sumElems t rnd (seen1.flatMap fun l => elems t l.bits)
      let r := scanLanes t rnd seen1 ms xs
      ({ bits := v.1, mark := meetAll (seen1.map (·.mark)) } :: r.1, v.2 ||| r.2)
    else
      let r := scanLanes t rnd seen ms xs
      ({} :: r.1, r.2)
  | _, _, _ => ([], 0)

/-- vscan. -/
def execVscan (t : LaneTy) (rnd : Rnd) (mk : Bool) (x : VSrc) (d : VDst) (s : State) : Answer :=
  vecOp (6, 2) [x] mk d s id fun th act => scanLanes t rnd [] act (th.v.read th.lanes x)

/-! ### Permutes (R146) -/

/-- A permute: the source lane of each lane from its place and b's lane there, with the poison of that lane and of b's lane named. -/
def vecPermute (mk : Bool) (x y : VSrc) (d : VDst) (fromLane0 : Bool) (f : Nat → Nat → Nat → Nat) (s : State) : Answer :=
  vecOp (3, 2) [x, y] mk d s id fun th _ =>
    let l := th.lanes
    let a := th.v.read l x
    let b := th.v.read l y
    ((List.range l).map fun i =>
      let c := b.getD (if fromLane0 then 0 else i) {}
      let v := a.getD (f l i c.bits.toNat) {}
      { bits := v.bits, mark := meet v.mark c.mark }, 0)

/-- vperm. -/
def execVperm (mk : Bool) (x y : VSrc) (d : VDst) (s : State) : Answer := vecPermute mk x y d false (fun l _ b => b % l) s

/-- vrot. -/
def execVrot (mk : Bool) (x y : VSrc) (d : VDst) (s : State) : Answer := vecPermute mk x y d true (fun l i k => (i + l - k % l) % l) s

/-- vbcast. -/
def execVbcast (mk : Bool) (x y : VSrc) (d : VDst) (s : State) : Answer := vecPermute mk x y d true (fun l _ k => k % l) s

/-- The lowest index among the active lanes that hold the greatest element, NaN lanes left out; −1 if there is none (R146). -/
def argmaxLanes (t : LaneTy) (act : List Bool) (ls : List Lane) : Int :=
  let val := fun (x : Lane) => if laneFloat t then decodeNum .f32 x.bits.toNat else Num.ofInt (elemInt t x.bits.toNat)
  let r := (act.zip ls).foldl (init := ((0 : Nat), (none : Option (Nat × Num)))) fun a p =>
    let v := val p.2
    (a.1 + 1,
      if !p.1 || v == .nan then a.2
      else
        match a.2 with
        | none => some (a.1, v)
        | some b => if b.2.cmp v = some .lt then some (a.1, v) else some b)
  match r.2 with
  | some b => b.1
  | none => -1

/-- vargmax: the result goes to the active lanes (R131, R146). -/
def execVargmax (t : LaneTy) (mk : Bool) (x : VSrc) (d : VDst) (s : State) : Answer :=
  vecOp (6, 2) [x] mk d s id fun th act =>
    let a := th.v.read th.lanes x
    let v := argmaxLanes t act a
    (List.replicate th.lanes { bits := BitVec.ofInt 32 v, mark := meetAll ((activeOf act a).map (·.mark)) }, 0)

end Sys2Proof.Machine
end

