-- ==== Sys2Proof/Machine/Access.lean ====
section
/-! DEFINITION. The access engine's instructions and the elements of their commands: A-stream ld and st, brec, tld, tst, tgat, tsca, tcfg,
rcfg, tfree, nset, ncopy, tlsp, tssp, pfch (spec/05_scratchpad.md R99; spec/10_transfer.md R191 to R218; 14 R290 for bound stores). -/

namespace Sys2Proof.Machine

/-! ### Issuing a command -/

/-- A command as the issuing instruction makes it. -/
def cmdOf (k : Issue) (i : Instr) (a b t : Val) : Cmd :=
  { id := 0, instr := i, word := k.word, lit := k.lit, pc := k.pc, a := a, b := b, t := t }

/-- Goes on when a range slot is free; waits at issue when none is (R208). -/
def withSlot (th : Thread) (h : Head) : Head := if th.slotFree then h else .wait .none

/-- Issues a command under a fresh identity; f says what else changes, given the identity. -/
def issueCmd (s1 : State) (k : Issue) (c : Cmd) (f : State → Nat → State) : Head :=
  let (s2, id) := s1.newId
  .done (f (s2.addCmd k { c with id := id }) id)

/-! ### A-stream loads and stores (R99) -/

/-- ld of the A stream. -/
def execLdA (ws : WS) (base idx : Src) (disp : BitVec 16) (d : Dst) (s : State) : Answer :=
  issue s fun k th s1 =>
    let b := (th.regs .a).read base
    let x := (th.regs .a).read idx
    consume [b, x] <|
      withAddr th (spSum b.bits x.bits disp) ws.w.size fun _ =>
        withSlot th <|
          issueCmd s1 k (cmdOf k (.ldA ws base idx disp d) b x {}) fun t id => t.push k { wait := some id } d

/-- st of the A stream. -/
def execStA (w : Width) (base val : Src) (disp : BitVec 16) (s : State) : Answer :=
  issue s fun k th s1 =>
    let b := (th.regs .a).read base
    let v := (th.regs .a).read val
    ready [v] <|
      consume [b] <|
        withAddr th (spSum b.bits 0 disp) w.size fun _ =>
          withSlot th <| issueCmd s1 k (cmdOf k (.stA w base val disp) b v {}) fun t _ => t

/-! ### Buffer records -/

/-- brec: waits at the head until its read may be performed, then writes the record (R200). -/
def execBrec (r : BitVec 8) (addr : Src) (s : State) : Answer :=
  issue s fun k th s1 =>
    let a := (th.regs .a).read addr
    consume [a] <|
      if !legalAddr th.panes a.bits.toNat 32 then .trap bounds
      else
        let ea := a.bits.toNat
        withSlot th <|
          if th.a.cmds.any Cmd.blocks || th.rangeHeld th.a.cmds [(ea, ea + 32)] then .wait .none
          else
            let u := s.spTouch th ea 32
            let ws := u.spWords th ea 4
            match meetAll (ws.map (·.2)) with
            | some t => .trapIn u (poison t)
            | none =>
              let rec_ := ws.map (·.1)
              if recOk rec_ then
                .done ((s1.spTouch th ea 32).modThread k.tid fun t =>
                  { t with a := { t.a with recs := sset [0, 0, 0, 0] t.a.recs r.toNat rec_ } })
              else .trapIn u (illegal)

/-- A record of the table; one never written is 0 (R199). -/
def Thread.record (th : Thread) (r : BitVec 8) : BufRec := sget [0, 0, 0, 0] th.a.recs r.toNat

/-- Goes on with a valid record (R199). -/
def withRec (th : Thread) (r : BitVec 8) (k : BufRec → Head) : Head :=
  if recV (th.record r) then k (th.record r) else .trap (illegal)

/-- Goes on with the descriptor of a tile operand that is configured, suits the record, and is long enough for its rows (R199, R202). -/
def withDesc (th : Thread) (now : Nat) (rc : BufRec) (t : TileRef) (k : Word → Head) : Head :=
  match th.descOf now t with
  | none => .trap (illegal)
  | some d => if (recDist rc == 7 || recDist rc == descDist d) && decide (recRow rc ≤ 64 * descUlen d) then k d else .trap (illegal)

/-- The lead pane's part as bytes, with the mark of its first n bytes' granules. -/
def State.leadBytes (s : State) (th : Thread) (d : Word) (n : Nat) : List (BitVec 8) × Mark :=
  let gs := (s.leadPart th d).take ((n + 63) / 64)
  (gs.flatMap (·.1), meetAll (gs.map (·.2)))

/-- Bytes of the lead part of a tile. -/
def leadSize (rc : Rect) (d : Word) : Nat := 64 * partUnits rc d

/-- Goes on with the first n bytes of a scale or index tile, named by a value: configured, large enough, FULL and clean (R202, R204). -/
def withAux (s : State) (th : Thread) (v : Val) (ok : Word → Bool) (n : Word → Nat) (k : List (BitVec 8) → Head) : Head :=
  if 254 < v.bits.toNat then .trap (illegal)
  else
    match th.tile? v.bits.toNat with
    | none => .trap (illegal)
    | some x =>
      if !(ok x.desc && decide (n x.desc ≤ leadSize th.life.rect x.desc)) then .trap (illegal)
      else if !x.isIn .full s.now then .wait .tile
      else
        let g := s.leadBytes th x.desc (n x.desc)
        match g.2 with
        | some t => .trap (poison t)
        | none => k (g.1.take (n x.desc))

/-- Whether every byte that a global tile command moves stays in bounds (R201, R204). -/
def rowsOk (c : Cmd) (rows : Nat) : Bool :=
  (List.range rows).all fun r =>
    match c.instr with
    | .tld _ true .. =>
      let bb := blockBytes (recFmt c.brec)
      (List.range (recRow c.brec / bb)).all fun j =>
        skipped c.brec c.auxBytes r (j * bb) || inExtent c.brec (c.rowOff r + (j * bb : Nat)) bb
    | _ => inExtent c.brec (c.rowOff r) (recRow c.brec)

/-- Takes a tile for a load and issues the command. -/
def startLoad (s1 : State) (k : Issue) (th : Thread) (now : Nat) (t : TileRef) (c : Cmd) : Head :=
  withSlot th <|
    withWriter th now t (.trap (illegal)) fun tk d =>
      issueCmd s1 k { c with taken := some tk, total := descGrans d } fun u _ => u.modThread k.tid fun x => x.startWrite now tk

/-- Takes a tile for a store and issues the command. -/
def startStore (s1 : State) (k : Issue) (th : Thread) (now : Nat) (t : TileRef) (c : Cmd) : Head :=
  withSlot th <|
    withConsumer th now t fun tk d =>
      issueCmd s1 k { c with taken := some tk, total := descGrans d } fun u _ => u.modThread k.tid fun x => x.startRead now tk

/-- tld (R202, R204); a tld of t255 is a prefetch whose row count the second operand gives (R210); of any other tile the second operand is
read only with SC. -/
def execTld (g : Option (BitVec 4)) (sc : Bool) (r : BitVec 8) (t : TileRef) (off sOpnd : Src) (s : State) : Answer :=
  issue s fun k th s1 =>
    let o := (th.regs .a).read off
    let x := (th.regs .a).read sOpnd
    consume (if sc || t == .tile 255 then [o, x] else [o]) <|
      withRec th r fun rc =>
        let c := { cmdOf k (.tld g sc r t off sOpnd) o (if sc || t == .tile 255 then x else {}) {} with brec := rc }
        if t = .tile 255 then
          if sc || x.bits = 0 || 256 < x.bits.toNat then .trap (illegal)
          else withSlot th (issueCmd s1 k c fun u _ => u)
        else
          withDesc th s.now rc t fun d =>
            if !sc then if rowsOk c (descRows d) then startLoad s1 k th s.now t c else .trap bounds
            else
              let bb := blockBytes (recFmt rc)
              if 5 < recFmt rc || recRow rc % bb != 0 then .trap (illegal)
              else
                withAux s th x (fun _ => true) (fun _ => descRows d * (recRow rc / bb)) fun bs =>
                  let c1 := { c with auxBytes := bs }
                  if rowsOk c1 (descRows d) then startLoad s1 k th s.now t c1 else .trap bounds

/-- Whether a bound store's record and offsets suit its elements (R290). -/
def boundOk (rc : BufRec) (off : Int) : Bool :=
  if !recFen rc then true
  else
    let z : Nat := if recFmt rc = 8 then 4 else 2
    (recFmt rc == 7 || recFmt rc == 8) && off % z == 0 && recS1 rc % z == 0 && recS2 rc % z == 0 && recRow rc % z == 0

/-- tst (R202, R290). -/
def execTst (g : Option (BitVec 4)) (r : BitVec 8) (t : TileRef) (off : Src) (s : State) : Answer :=
  issue s fun k th s1 =>
    let o := (th.regs .a).read off
    consume [o] <|
      withRec th r fun rc =>
        withDesc th s.now rc t fun d =>
          let c := { cmdOf k (.tst g r t off) o {} {} with brec := rc }
          if !boundOk rc o.bits.toInt then .trap (illegal)
          else if rowsOk c (descRows d) then startStore s1 k th s.now t c else .trap bounds

/-- An index tile is LEAD or REP (R202). -/
def indexDist (d : Word) : Bool := descDist d == 0 || descDist d == 3

/-- The bytes of an index tile that are read: its lead part in full, at least 4 for each row (R202). -/
def indexSize (rc : Rect) (rows : Nat) (d : Word) : Nat := max (4 * rows) (leadSize rc d)

/-- tgat (R202); of t255, a prefetch of one row for each entry of the index tile (R210). -/
def execTgat (r : BitVec 8) (t : TileRef) (off x : Src) (s : State) : Answer :=
  issue s fun k th s1 =>
    let o := (th.regs .a).read off
    let v := (th.regs .a).read x
    consume [o, v] <|
      withRec th r fun rc =>
        let c := { cmdOf k (.tgat r t off x) o v {} with brec := rc }
        if t = .tile 255 then
          withAux s th v indexDist (indexSize th.life.rect 0) fun bs =>
            withSlot th (issueCmd s1 k { c with auxBytes := bs } fun u _ => u)
        else
          withDesc th s.now rc t fun d =>
            withAux s th v indexDist (indexSize th.life.rect (descRows d)) fun bs =>
              let c1 := { c with auxBytes := bs }
              if rowsOk c1 (descRows d) then startLoad s1 k th s.now t c1 else .trap bounds

/-- tsca (R202). -/
def execTsca (r : BitVec 8) (t : TileRef) (off x : Src) (s : State) : Answer :=
  issue s fun k th s1 =>
    let o := (th.regs .a).read off
    let v := (th.regs .a).read x
    consume [o, v] <|
      withRec th r fun rc =>
        withDesc th s.now rc t fun d =>
          withAux s th v indexDist (indexSize th.life.rect (descRows d)) fun bs =>
            let c := { cmdOf k (.tsca r t off x) o v {} with brec := rc, auxBytes := bs }
            if rowsOk c (descRows d) then startStore s1 k th s.now t c else .trap bounds

/-! ### Configuring tiles and rings -/

/-- A tile freed at the end of this cycle. -/
def Tile.freed (t : Tile) (now : Nat) : Tile := { t.go .free now with vwriter := false }

/-- tcfg (R193, R311): checked at issue, before it waits; `.clr` has no operand. -/
def execTcfg (clr : Bool) (n : BitVec 8) (desc : Src) (s : State) : Answer :=
  issue s fun k th s1 =>
    let a := (th.regs .a).read desc
    consume (if clr then [] else [a]) <|
      let old := th.tile? n.toNat
      let new : Tile := { desc := a.bits, since := s.now + 1 }
      let grown := (th.setTile n.toNat (some new)).saveLen
      if n = 255 || (match old with | some t => t.ring.isSome | none => false) then .trap (illegal)
      else if !clr && !descOk th.life.rect a.bits then .trap (illegal)
      else if !clr && decide (n.toNat < trTiles th.life.record) && decide (s.slotSize th.life.part < grown) then .trap (illegal 11)
      else if (match old with | some t => t.busy s.now || decide (0 < t.reads) | none => false) then .wait .tile
      else .done (s1.modThread k.tid fun t => t.setTile n.toNat (if clr then none else some new))

/-- Whether tiles may join ring k together (R194). -/
def Thread.joinable (th : Thread) (k : Nat) (ms : List Nat) : Bool :=
  match ms.map th.tile? with
  | some x :: r =>
    (some x :: r).all fun o => match o with
      | some y =>
        (y.ring.isNone || y.ring == some k) && descRows y.desc == descRows x.desc && descUlen y.desc == descUlen x.desc &&
          descFmt y.desc == descFmt x.desc && descDist y.desc == descDist x.desc
      | none => false
  | _ => false

/-- rcfg (R194). -/
def execRcfg (clr : Bool) (n : BitVec 5) (first : BitVec 8) (n1 : BitVec 4) (s : State) : Answer :=
  issue s fun k th s1 =>
    let old := match th.ring? s.now n.toNat with
      | some r => r.members
      | none => []
    let new := if clr then [] else (List.range (n1.toNat + 1)).map (first.toNat + ·)
    if !clr && (decide (254 < first.toNat + n1.toNat) || !th.joinable n.toNat new) then .trap (illegal)
    else if old.any (fun m => match th.tile? m with | some t => t.busy s.now | none => false) then .wait .tile
    else
      .done (s1.modThread k.tid fun t =>
        let t1 := old.foldl (fun u m => u.modTile m fun x => { x.freed s.now with ring := none }) t
        let t2 := new.foldl (fun u m => u.modTile m fun x => { x.freed s.now with ring := some n.toNat }) t1
        t2.setRing n.toNat (if clr then none else some { first := first.toNat, n := n1.toNat + 1 }))

/-- tfree (R195). -/
def execTfree (t : TileRef) (s : State) : Answer :=
  issue s fun k th s1 =>
    match t with
    | .tile n =>
      if n = 255 then .done s1
      else
        match th.tile? n.toNat with
        | none => .trap (illegal)
        | some x =>
          if x.ring.isSome then .trap (illegal)
          else if x.busy s.now || 0 < x.reads then .wait .tile
          else .done (s1.modThread k.tid fun u => u.modTile n.toNat fun y => y.freed s.now)
    | .ring n =>
      match th.ring? s.now n.toNat with
      | none => .trap (illegal)
      | some r =>
        if r.members.any (fun m => match th.tile? m with | some x => x.busy s.now || decide (0 < x.reads) | none => false) then
          .wait .tile
        else
          .done (s1.modThread k.tid fun u =>
            (r.members.foldl (fun v m => v.modTile m fun y => y.freed s.now) u).setRing n.toNat
              (some { first := r.first, n := r.n }))

/-! ### Scratchpad and tiles (R205) -/

/-- The checks of tlsp and tssp on their addresses. -/
def spRowsOk (rc : Rect) (d addr : Word) (stride : Int) : Bool :=
  let (rows, units) := partShape rc d
  (List.range rows).all fun r =>
    let o := spRow addr stride r
    decide (0 ≤ o) && decide (o + 64 * units ≤ spBytes)

/-- tlsp and tssp: their operands and checks, then how the tile is taken. -/
def spMove (t : TileRef) (addr stride : Src) (i : Instr) (null : State → Head)
    (go : State → Issue → Thread → Nat → TileRef → Cmd → Head) (s : State) : Answer :=
  issue s fun k th s1 =>
    let a := (th.regs .a).read addr
    let x := (th.regs .a).read stride
    consume [a, x] <|
      if t = .tile 255 then null s1
      else
        match th.descOf s.now t with
        | none => .trap (illegal)
        | some d =>
          if a.bits.toNat < 2 ^ 24 && a.bits.toNat % 64 == 0 && x.bits.toInt % 64 == 0 &&
              spRowsOk th.life.rect d a.bits x.bits.toInt then
            go s1 k th s.now t (cmdOf k i a x {})
          else .trap bounds

/-- tlsp (R205): of t255 it completes at once. -/
def execTlsp (t : TileRef) (addr stride : Src) (s : State) : Answer :=
  spMove t addr stride (.tlsp t addr stride) (fun s1 => .done s1) startLoad s

/-- tssp (R205). -/
def execTssp (t : TileRef) (addr stride : Src) (s : State) : Answer :=
  spMove t addr stride (.tssp t addr stride) (fun _ => .trap (illegal)) startStore s

/-! ### Copy nests -/

/-- nset (R206). -/
def execNset (hi : BitVec 3) (nest : BitVec 2) (level : BitVec 3) (count : Src) (strides : Opnd) (s : State) : Answer :=
  issue s fun k th s1 =>
    let c := (th.regs .a).read count
    let x := (th.regs .a).readOpnd strides
    consume [c, x] <|
      if hi != 0 || 5 < level.toNat || 2 ^ 32 ≤ c.bits.toNat then .trap (illegal)
      else
        let l : Level := { c := c.bits.truncate 32, ss := x.bits.extractLsb' 0 32, ds := x.bits.extractLsb' 32 32 }
        .done (s1.modThread k.tid fun t =>
          { t with a := { t.a with nests := modAt t.a.nests nest.toNat fun ls => setAt ls level.toNat l } })

/-- ncopy (R207). -/
def execNcopy (dir : CopyDir) (bk : BitVec 4) (nest : BitVec 2) (r : BitVec 8) (lbase gop : Src) (s : State) : Answer :=
  issue s fun k th s1 =>
    let a := (th.regs .a).read lbase
    let x := (th.regs .a).read gop
    consume [a, x] <|
      let ls := th.a.nests.getD nest.toNat []
      let n := 2 ^ bk.toNat
      let c := { cmdOf k (.ncopy dir bk nest r lbase gop) a x {} with nest := ls, total := nestProduct ls }
      let localOk := fun (base : Word) (f : Level → Int) => nestOk th.panes n f ls.reverse base.toInt
      let globalOk := fun (rc : BufRec) (f : Level → Int) =>
        recBchk rc != 0 ||
          (decide (0 ≤ x.bits.toInt + nestMin f ls) && decide (x.bits.toInt + nestMax f ls + n ≤ recExtent rc))
      let go := fun (c1 : Cmd) (ok : Bool) =>
        if 2 ^ 48 < nestProduct ls then Head.trap (illegal)
        else if nestProduct ls = 0 then .done s1
        else if !ok then .trap bounds
        else withSlot th (issueCmd s1 k c1 fun u _ => u)
      match dir with
      | .ll => go c (localOk a.bits Level.src && localOk x.bits Level.dst)
      | .gl => withRec th r fun rc => go { c with brec := rc } (globalOk rc Level.src && localOk a.bits Level.dst)
      | .lg => withRec th r fun rc => go { c with brec := rc } (globalOk rc Level.dst && localOk a.bits Level.src)

/-! ### Prefetch -/

/-- pfch (R210). -/
def execPfch (r : BitVec 8) (off len : Src) (s : State) : Answer :=
  issue s fun k th s1 =>
    let o := (th.regs .a).read off
    let n := (th.regs .a).read len
    consume [o, n] <|
      withRec th r fun rc =>
        if 2 ^ 24 < n.bits.toNat then .trap (illegal)
        else withSlot th (issueCmd s1 k { cmdOf k (.pfch r off len) o n {} with brec := rc } fun u _ => u)

/-- The lines that n bytes from a record-relative offset lie in, of those inside the extent. -/
def extentLines (rc : BufRec) (rel : Int) (n : Nat) : List Nat :=
  let lo := (max 0 rel).toNat
  let hi := (min (recExtent rc : Int) (rel + n)).toNat
  if hi ≤ lo then []
  else
    let first := (recBase rc + lo) / 64
    (List.range ((recBase rc + hi + 63) / 64 - first)).map fun i => (first + i) % 2 ^ 50

/-- The lines of the bytes of one row, mapped as a load would map them; bytes out of bounds are dropped. -/
def rowLines (rc : BufRec) (rel : Int) : List Nat :=
  linesOf ((List.range (recRow rc)).filterMap fun (k : Nat) => (byteVa rc (rel + (k : Int))).va?)

/-- The lines that a prefetch asks for, by virtual address. -/
def prefetchLines (c : Cmd) : List Nat :=
  match c.instr with
  | .pfch .. => extentLines c.brec c.a.bits.toInt c.b.bits.toNat
  | .tld g .. => (List.range c.b.bits.toNat).flatMap fun r => rowLines c.brec (rowRel c.brec c.a.bits.toInt r g)
  | _ => (List.range (c.auxBytes.length / 4)).flatMap fun r => rowLines c.brec (c.rowOff r)

/-- Asks for one line of a prefetch: its page is translated once, `known` holding the pages met so far and where each lies. -/
def State.prefetchLine (s : State) (th : Thread) (known : List (Nat × Option Nat)) (l : Nat) : State × List (Nat × Option Nat) :=
  match known.find? fun x => x.1 == l / 1024 with
  | some (_, some pa) => (s.l2Load (pa / 64 + l % 1024), known)
  | some (_, none) => (s, known)
  | none =>
    match s.xlate th.life.rect.die th.life.part th.life.ctx (65536 * (l / 1024)) .rd with
    | (t, .ok pa) => (t.l2Load (pa / 64 + l % 1024), (l / 1024, some pa) :: known)
    | (t, .error _) => (t, (l / 1024, none) :: known)

/-- Performs a prefetch: each line is loaded into its home slice, and every page whose translation fails counts in PFDROP (R210). -/
def State.doPrefetch (s : State) (th : Thread) (c : Cmd) : State :=
  let (s1, known) := (prefetchLines c).foldl (init := (s, ([] : List (Nat × Option Nat)))) fun acc l =>
    acc.1.prefetchLine th acc.2 l
  let n := (known.filter fun x => x.2.isNone).length
  s1.modThread th.tid fun t => { t with cnt := { t.cnt with pfdrop := hold48 t.cnt.pfdrop n } }

/-! ### Elements -/

/-- Bytes of the window of a pane, each with the mark of its word, a poisoned word reading 0 (R102). -/
def State.spBytesOf (s : State) (th : Thread) (ea n : Nat) : List (BitVec 8 × Mark) :=
  ((s.spWords th ea (n / 8)).flatMap fun w => (wordBytes w.1).map fun b => (b, w.2))

/-- Writes bytes into the window of a pane, word by word (R101, R207). -/
def State.spPutBytes (s : State) (th : Thread) (ea : Nat) (bs : List (BitVec 8 × Mark)) : State :=
  s.modCore (th.coreOf (ea / 2 ^ 24)) fun c =>
    { c.spFresh (wordsFrom (ea % 2 ^ 24) bs.length) with sp := c.sp.spBytesAt (ea % 2 ^ 24) bs }

/-- The elements of a granule that a bound store counts, each with its line: offset div z and value as binary32 (R292). An element of which any
byte is suppressed gives nothing (DEDUCED from R292's "Bytes suppressed by clamp-and-zero give nothing", log 82). -/
def boundVals (c : Cmd) (e ul : Nat) (bs : List (BitVec 8)) (pas : List (Option Nat)) : List (Nat × Nat × BitVec 32) :=
  let z := if recFmt c.brec = 8 then 4 else 2
  let rel := c.rowOff (e / ul) + (64 * (e % ul) : Nat)
  (List.range (64 / z)).filterMap fun i =>
    match pas.getD (z * i) none with
    | none => none
    | some pa =>
      if ((pas.drop (z * i)).take z).any Option.isNone then none else
      let o := rel + (z * i : Nat)
      let o1 := if recBchk c.brec = 2 then (o % (recExtent c.brec : Int)).toNat else o.toNat
      let raw := leNat ((bs.drop (z * i)).take z)
      some (pa / 64, o1 / z, BitVec.ofNat 32 (if z = 2 then raw * 65536 else raw))

/-- Sends the lines of a bound store to their base dies (R290, R292). -/
def State.sendLines (s : State) (th : Thread) (c : Cmd) (vals : List (Nat × Nat × BitVec 32)) (k : Mark) : State :=
  (vals.map (·.1)).eraseDups.foldl (init := s) fun t l =>
    match t.homeOf l with
    | .die d =>
      let x : FilterLine :=
        { tid := th.tid, cmd := c.id, session := recFses c.brec, part := th.life.part, ctx := th.life.ctx,
          vals := (vals.filter fun v => v.1 == l).map (·.2), mark := k }
      t.modDie d fun y => { y with lines := y.lines ++ [x] }
    | _ => t

/-- A granule of a load (R202). -/
def State.loadElem (s : State) (th : Thread) (c : Cmd) : State :=
  let d := th.cmdDesc c
  let (s1, bs) := s.readPhys (recSys c.brec) (s.cmdPhys th c c.elem)
  s1.setTileGran th d (c.elem / descUlen d) (c.elem % descUlen d) (bs.map (·.1)) (meetAll (bs.map (·.2)))

/-- What a store writes: the bytes that have addresses, each with the mark of where it comes from. -/
def pbytes (pas : List (Option Nat)) (bs : List (BitVec 8 × Mark)) : List PByte :=
  (pas.zip bs).filterMap fun x => x.1.map fun pa => (pa, x.2)

/-- Performs a global write unless it would put poison into host memory, which parks the command (R306). -/
def State.storeBytes (s : State) (th : Thread) (c : Cmd) (xs : List PByte) (late : Bool) (go : State → State) : State :=
  match s.hostPoison xs with
  | some t => s.parkFault th.tid c.id c.pc { code := trapPoison, detail := BitVec.ofNat 64 c.elem, elem := c.elem, tag := t }
  | none => (go (s.writePhys th.tid xs late)).cmdDone1 th.tid c.id

/-- A granule of a store (R202). -/
def State.storeElem (s : State) (th : Thread) (c : Cmd) (late : Bool := false) : State :=
  let d := th.cmdDesc c
  let ul := descUlen d
  let g := s.tileGran th d (c.elem / ul) (c.elem % ul)
  let pas := s.cmdPhys th c c.elem
  let bound : Bool := match c.instr with
    | .tst .. => recFen c.brec
    | _ => false
  s.storeBytes th c (pbytes pas (g.1.map fun b => (b, g.2))) late fun t =>
    if bound then t.sendLines th c (boundVals c c.elem ul g.1 pas) g.2 else t

/-- A granule of a tlsp or tssp (R205): the panes that hold it, and its offset in their scratchpads. -/
def spElem (th : Thread) (c : Cmd) : List Nat × Nat × Nat :=
  let d := th.cmdDesc c
  let (ps, u) := place th.life.rect d (c.elem / descUlen d) (c.elem % descUlen d)
  let units := (partShape th.life.rect d).2
  let i := u - descBase d
  (ps, u, (spRow c.a.bits c.b.bits.toInt (i / units)).toNat + 64 * (i % units))

/-- A granule from the scratchpad: each pane its own part, a REP tile from the lead pane. -/
def State.tlspElem (s : State) (th : Thread) (c : Cmd) : State :=
  let (ps, u, o) := spElem th c
  let src := ps.headD 0
  let s1 := s.spTouch th (2 ^ 24 * src + o) 64
  let ws := s1.spWords th (2 ^ 24 * src + o) 8
  let bs := ws.flatMap fun w => wordBytes w.1
  ps.foldl (fun t p => t.setGran th p u bs (meetAll (ws.map (·.2)))) s1

/-- A granule to the scratchpad: each pane its own part, a REP tile into the lead pane alone. -/
def State.tsspElem (s : State) (th : Thread) (c : Cmd) : State :=
  let (ps, u, o) := spElem th c
  let p := ps.headD 0
  let g := s.gran th p u
  s.spPutBytes th (2 ^ 24 * p + o) (g.1.map fun b => (b, g.2))

/-- A block of a copy (R207). -/
def State.copyElem (s : State) (th : Thread) (c : Cmd) (dir : CopyDir) (n : Nat) (late : Bool := false) : State :=
  let atSrc := nestAt Level.src c.nest c.elem
  let atDst := nestAt Level.dst c.nest c.elem
  match dir with
  | .gl =>
    let (s1, bs) := s.readPhys (recSys c.brec) (s.cmdPhys th c c.elem)
    (s1.spPutBytes th (c.a.bits.toInt + atDst).toNat bs).cmdDone1 th.tid c.id
  | .lg =>
    let ea := (c.a.bits.toInt + atSrc).toNat
    let s1 := s.spTouch th ea n
    s1.storeBytes th c (pbytes (s1.cmdPhys th c c.elem) (s1.spBytesOf th ea n)) late id
  | .ll =>
    let ea := (c.a.bits.toInt + atSrc).toNat
    let s1 := s.spTouch th ea n
    (s1.spPutBytes th (c.b.bits.toInt + atDst).toNat (s1.spBytesOf th ea n)).cmdDone1 th.tid c.id

/-- Performs an A-stream load or store (R99). -/
def State.scalarElem (s : State) (th : Thread) (c : Cmd) : State :=
  match c.instr with
  | .ldA ws _ _ disp _ =>
    let ea := (spSum c.a.bits c.b.bits disp).toNat
    let s1 := s.spTouch th ea ws.w.size
    s1.deliver th.tid c.id (loadValue ws (s1.spLoad th ea ws.w.size))
  | .stA w _ _ disp => s.spStore th (spSum c.a.bits 0 disp).toNat (leBytes w.size c.b.bits.toNat) c.b.mark
  | _ => s

/-- Performs the next element of a command of this file, its addresses all translated; `late` says that what it writes to global memory is
seen later (R230). -/
def State.accessElem (s : State) (th : Thread) (c : Cmd) (late : Bool := false) : State :=
  match c.instr with
  | .ldA .. | .stA .. => (s.scalarElem th c).cmdDone1 th.tid c.id
  | .tld .. | .tgat .. =>
    if c.taken.isNone then (s.doPrefetch th c).cmdDone1 th.tid c.id else (s.loadElem th c).cmdDone1 th.tid c.id
  | .tst .. | .tsca .. => s.storeElem th c late
  | .tlsp .. => (s.tlspElem th c).cmdDone1 th.tid c.id
  | .tssp .. => (s.tsspElem th c).cmdDone1 th.tid c.id
  | .ncopy dir k .. => s.copyElem th c dir (2 ^ k.toNat) late
  | .pfch .. => (s.doPrefetch th c).cmdDone1 th.tid c.id
  | _ => s

/-! ### Completion -/

/-- The tile a completed command releases: a load's tile goes FULL, a store's read ends (R196). -/
def Thread.releaseTile (th : Thread) (now : Nat) (c : Cmd) : Thread :=
  match c.taken, c.instr with
  | some t, .tld .. | some t, .tgat .. | some t, .tlsp .. => th.endWrite now t
  | some t, .tst .. | some t, .tsca .. | some t, .tssp .. => th.endRead now t
  | _, _ => th

/-- Whether a command has nothing left to do: every element performed, every packet settled, every line of a bound store taken by its base
die, and, for a flag that failed to go, nothing more (R209, R222, R290). -/
def State.cmdComplete (s : State) (tid : Nat) (c : Cmd) : Bool :=
  !c.parked && c.elem == c.total && c.packets.isEmpty && c.got.isNone &&
    !s.dies.any fun d => d.lines.any fun l => l.tid == tid && l.cmd == c.id

/-- The machine once a command has completed: its tile is released and its range slot freed (R196, R208, R209). -/
def State.complete (s : State) (tid : Nat) (c : Cmd) : State :=
  (s.modThread tid fun th => th.releaseTile s.now c).dropCmd tid c.id

/-- ACCESS_COMMAND_COMPLETE (R196, R197, R208, R209): nothing while the command has something left to do. -/
def execAccessCommandComplete (tid id : Nat) (s : State) : Answer :=
  match s.thread? tid with
  | none => .next s
  | some th =>
    match th.cmd? id with
    | none => .next s
    | some c => if s.cmdComplete tid c then .next (s.complete tid c) else .next s

/-! ### Page walks (R213, R214) -/

/-- The address whose page a command waits on. -/
def State.waitsOn (s : State) (th : Thread) (c : Cmd) : Option Nat := if c.walking then s.missing th c c.elem else none

/-- The walk of a thread's page. -/
def Thread.walk (th : Thread) (va : Nat) : Walk := { part := th.life.part, ctx := th.life.ctx.toNat, page := va / 65536 }

/-- Whether the end of a page's walk ends the wait of a command: it waits on that page, or on none that a walk is under way for. -/
def State.walkOver (s : State) (page : Nat) (th : Thread) (c : Cmd) : Bool :=
  c.walking && match s.waitsOn th c with
    | none => true
    | some va => va / 65536 == page || !(s.die th.life.rect.die).walks.contains (th.walk va)

/-- A command that waits for no walk. -/
def Cmd.wake (c : Cmd) : Cmd := { c with walking := false }

/-- Serves one command of a thread (`th` as the walk ended, `u` with its earlier commands served): its wait is over, or it parks where the walk
has failed; one that an earlier command's fault has parked meets none of its own (R214). -/
def State.serveCmd (s : State) (page : Nat) (th u : Thread) (c : Cmd) : Thread :=
  if !s.walkOver page th c then u
  else
    let woken := { u with a := { u.a with cmds := u.a.cmds.map fun x => if x.id = c.id then x.wake else x } }
    match s.waitsOn th c with
    | none => woken
    | some va =>
      match va / 65536 == page, s.walkBoth th.life.part th.life.ctx va c.need with
      | true, .error f => if (u.cmd? c.id).any (·.walking) then u.parkFault s.now c.id ((f.trap va c.elem).record .a c.pc) else u
      | _, _ => woken

/-- The translation that a page's walk gives a command which waits on it fills the TLBs of its die and of its lead core. -/
def State.fillWalk (s : State) (page : Nat) (th : Thread) (t : State) (c : Cmd) : State :=
  match s.waitsOn th c with
  | none => t
  | some va =>
    if va / 65536 = page then
      match s.walkBoth th.life.part th.life.ctx va c.need with
      | .ok l => (t.tlbPut th.life.rect.die th.life.part th.life.ctx va l).accFill th c.need va
      | .error _ => t
    else t

/-- Whether a thread is one of a walk's die, partition and context. -/
def Thread.walksIn (th : Thread) (d : Nat) (w : Walk) : Bool :=
  th.life.part == w.part && th.life.ctx.toNat == w.ctx && th.life.rect.die == d

/-- PAGE_WALK_COMPLETE: one walk of a die serves every command there that waits on its page (R213). The walks of die d for partition p are
those of walker 16 d + p. -/
def execPageWalkComplete (walker ctx page : Nat) (s : State) : Answer :=
  let d := walker / 16
  let w : Walk := { part := walker % 16, ctx := ctx, page := page }
  if !(s.die d).walks.contains w then .next s
  else
    let s1 := s.modDie d fun x => { x with walks := x.walks.filter (· != w) }
    let s2 := (s.threads.filter (·.walksIn d w)).foldl (fun t th => th.a.cmds.foldl (s.fillWalk page th) t) s1
    .next { s2 with threads := s.threads.map fun th => if th.walksIn d w then th.a.cmds.foldl (s.serveCmd page th) th else th }

end Sys2Proof.Machine
end

