-- ==== Sys2Proof/Machine/Fetch.lean ====
section
/-! DEFINITION. Bringing a stream to its head instruction: fetch windows and tags, counted cycles, the loop unit's arrivals, illegal
words, words that rep may not repeat, and guards (spec/02_encoding.md R16, R17; spec/04_control.md R57, R67 to R74, R80, R81). -/

namespace Sys2Proof.Machine

/-- Whether an instruction pushes a value onto its stream's belt when it runs, so a void 0 when it is guarded off (R74). -/
def pushes : Instr → Bool
  | .add .. | .sub .. | .mul .. | .mulh .. | .div .. | .rem .. | .and .. | .or .. | .xor .. | .andn .. | .shl ..
  | .shr .. | .sar .. | .rot .. | .min .. | .max .. | .cmp .. | .sel .. | .clz .. | .popc .. | .bext .. | .bins ..
  | .ext .. | .lea .. | .mov .. | .addi .. | .andi .. | .ori .. | .xori .. | .shi .. | .cmpi .. | .lit .. | .rtw ..
  | .tstate .. | .lcyc .. | .self .. | .ld .. | .ldx .. | .aop .. | .wadr .. | .ldA .. | .gjoin .. | .gleave ..
  | .gbar .. | .spawn .. | .grab .. | .yield .. | .ckpt .. | .fsplit .. | .ffuse .. | .fchain .. | .funchain ..
  | .fquery .. | .smopen .. | .smapp .. | .smprop .. | .smsave .. | .smload .. | .smclose .. | .draw .. | .tacc ..
  | .tsamp .. | .sysr .. | .ptst .. | .gamo .. | .fence .. => true
  | .vadd .. | .vsub .. | .vmul .. | .vfma .. | .vfms .. | .vmin .. | .vmax .. | .vabs .. | .vneg .. | .vand ..
  | .vor .. | .vxor .. | .vshl .. | .vshr .. | .vsar .. | .vcmp .. | .vsel .. | .vrcp .. | .vrsq .. | .vexp2 ..
  | .vlog2 .. | .vclamp .. | .vmov .. | .vlit .. | .vaddi .. | .vdot4 .. | .vrsh .. | .vmulq .. | .vredadd ..
  | .vredmax .. | .vredmin .. | .vscan .. | .vperm .. | .vrot .. | .vbcast .. | .vargmax .. | .vmget .. | .vld ..
  | .vldx .. | .vldt .. | .vcvt .. | .vqnt .. | .vdeq .. | .vbsc .. | .vsce .. | .vpak .. | .vupk .. => true
  | _ => false

/-- Words that trap ILLEGAL when repeated (R68). -/
def repForbids (sid : StreamId) : Instr → Bool
  | .b .. | .bc .. | .call .. | .ret | .jmp .. | .loop .. | .repImm .. | .repOperand .. | .go .. | .stop => true
  | .done | .yield .. | .ckpt .. | .fsplit .. | .ffuse .. | .fchain .. | .funchain .. | .trap .. | .brk .. => sid == .c
  | _ => false

/-- What a stage guard reads (R81). -/
def Thread.stageGuard (th : Thread) (sid : StreamId) (g : Nat) : Bool :=
  let st := g - 8
  th.inKernel sid && decide (st < th.loop.s) && decide (st ≤ th.loop.step) && decide (th.loop.step - st < th.loop.n)

/-- Whether a `gpush` of an earlier stream that waits for room in this cycle, and that has another turn in it, is to pop the head of a slot
when it finds room then: what a later stream sees there is not settled yet (R71). A turn of V or M is put behind such turns once. -/
def State.headKept (s : State) (th : Thread) (sid : StreamId) (g : BitVec 4) : Bool :=
  g != 0 && (th.strm sid).behind != some s.now &&
    [StreamId.c, .a].any fun x => decide (streamNum x < streamNum sid) && s.turns.contains (.stream th.tid x) && match (th.strm x).peek with
      | some (t, _, slot) => t == s.now && slot == g.toNat
      | none => false

/-- The stream's turn is put behind the turns of a `gpush` that waits, which then tries once more: what the stream pops may make room for it.
A stream has its later turns of the cycle anyway. -/
def State.putBehind (s : State) (th : Thread) (sid : StreamId) : State :=
  if sid == .a then s
  else
    let s1 := s.modThread th.tid fun t => t.modStrm sid fun st => { st with behind := some s.now }
    { s1 with turns := s.turns ++ [.stream th.tid sid, .stream th.tid .c, .stream th.tid .a] }

/-- The guard's value in this cycle: none while its slot is empty (R70, R71). A `gpush` that has waited for room in this cycle keeps what
it has peeked at. -/
def Thread.guardValue (th : Thread) (now : Nat) (sid : StreamId) (g : BitVec 4) : Option Bool :=
  if g = 0 then some true
  else if th.isStageGuard g.toNat then some (th.stageGuard sid g.toNat)
  else
    match (th.strm sid).peek.filter fun x => x.1 == now with
    | some (_, v, _) => some v
    | none => ((th.guards.getD g.toNat []).find? fun v => v.seen now).map (·.val)

/-- The effects of a guarded-off instruction besides those of its place (R74): a void 0 on the belt where it would have pushed. -/
def Thread.pushVoid (th : Thread) (sid : StreamId) (i : Instr) : Thread :=
  if pushes i then
    match sid with
    | .v => { th with v := th.v.pushBelt { void := true } }
    | .m => th
    | _ => th.modRegs sid fun r => { r with belt := pushBelt Val.empty r.belt }
  else th

/-- The streams of a thread that take part in its loop have all arrived (R80). -/
def Thread.allArrived (th : Thread) : Bool :=
  [StreamId.c, .a, .v, .m].all fun x => !th.takesPart x || th.loop.arrived.getD (streamNum x) false

/-- A stream arrived in the loop unit, at the first word of its kernel; the last one ends the step (R80). -/
def Thread.arriveAt (th : Thread) (sid : StreamId) (kb : Nat) : Thread :=
  let t1 : Thread := { th.modStrm sid (fun st => { st with pc := BitVec.ofNat 16 kb }) with
    loop := { th.loop with arrived := setAt th.loop.arrived (streamNum sid) true } }
  if t1.allArrived then
    { t1 with loop := { t1.loop with inStep := false, step := if t1.loop.inStep then t1.loop.step + 1 else t1.loop.step } }
  else t1

/-- Marks a stream as arrived; the next step begins no earlier than the cycle after the last one's arrival (R80). -/
def State.arrive (s : State) (tid : Nat) (sid : StreamId) (kb : Nat) : State :=
  s.modThread tid fun th =>
    let t1 := th.arriveAt sid kb
    if t1.allArrived then { t1 with loop := { t1.loop with ks := s.now + 1 } } else t1

/-- What a stream's turn comes to: the machine has moved (or nothing happens in this cycle), or an instruction runs. -/
inductive Begin where
  | moved (s : State)
  | run (i : Instr) (s : State)
  /-- The thread is frozen in this cycle, and only a trap of the instruction counts (R303): how the run of it in `go` would end is asked,
  and `s` takes nothing but its trap. -/
  | tie (i : Instr) (go s : State) (tid : Nat)

/-- The issue of the word at a stream's head. -/
def State.headIssue (s : State) (th : Thread) (sid : StreamId) : Issue :=
  let st := th.strm sid
  let w := (s.fetch th st.pc.toNat).1
  let h := headerOf w
  { tid := th.tid, sid := sid, gsl := h.gsl, gnot := h.gnot, gpop := h.gpop, pc := st.pc, next := st.pc + (if hasLit w then 2 else 1),
    counted := s.countedAt th st, word := w, lit := if hasLit w then (s.fetch th (st.pc.toNat + 1)).1 else 0 }

/-- The instruction at a stream's head, if its word is one. -/
def State.headInstr (s : State) (th : Thread) (sid : StreamId) : Option Instr :=
  let k := s.headIssue th sid
  match decodeWord sid k.word k.lit with
  | .ok i => some i
  | .error _ => none

/-- The word at the head, once its place is reached. -/
def State.beginWord (s : State) (th : Thread) (sid : StreamId) : Begin :=
  let st := th.strm sid
  let pc := st.pc.toNat
  let w := (s.fetch th pc).1
  let ill := fun (t : TrapInfo) => Begin.moved (s.takeTrap th.tid (t.record sid st.pc))
  let counted := s.countedAt th st
  if !st.inWindow pc || (s.fetch th pc).2 then if s.now < counted then .moved s else ill (illegal)
  else
    if s.now < counted then .moved s
    else if hasLit w && !st.inWindow (pc + 1) then ill (illegal)
    else
      let k := s.headIssue th sid
      match decodeWord sid k.word k.lit with
      | .error _ => ill (illegal)
      | .ok i =>
        if 0 < st.repCount && repForbids sid i then ill (illegal)
        else
          if s.headKept th sid k.gsl then .moved (s.putBehind th sid) else
          match th.guardValue s.now sid k.gsl with
          | none => .moved (s.waitAt k .guard)
          | some g =>
            if g != k.gnot then .run i { s with cur := .stream k }
            else .moved ((s.advance k).modThread th.tid fun t => t.pushVoid sid i)

/-- The trap that a thread has taken in `t`, taken in `s` (R303). -/
def State.tieTrap (s : State) (tid : Nat) (t : State) : State :=
  match t.thread? tid with
  | some th => if th.life.trapping then s.takeTrap tid th.life.fault else s
  | none => s

/-- A stream of a thread that a trap of another stream, a pre-emption or a checkpoint has frozen in this very cycle: its head issues no more, and
where it would trap in this cycle it does (R303). -/
def State.beginTie (s : State) (th : Thread) (sid : StreamId) : Begin :=
  let free := th.modLife fun l => { l with phase := .running, trapping := false, waitingTrap := none, faultCmd := none }
  let go := s.modThread th.tid fun _ => free
  match go.beginWord free sid with
  | .moved t => .moved (s.tieTrap th.tid t)
  | .run i t => .tie i t s th.tid
  | .tie .. => .moved s

/-- Whether a thread has been frozen in this cycle, its decision cycle (R254, R303), with this stream still to have its turn. -/
def Thread.frozenNow (th : Thread) (now : Nat) (sid : StreamId) : Bool :=
  (match th.life.phase with
    | .saving _ d => d == now
    | _ => false) &&
    !(th.life.trapping && th.life.fault.strm == sid) && (th.strm sid).run == .running && (th.strm sid).idleRef != now &&
    !(sid == .a && th.a.cmds.any (·.parked)) && !(th.takesPart sid && !th.loop.finished && !th.inKernel sid)

/-- A stream's turn: nothing while it is not running, its thread is being saved, or its commands are parked (R59, R214); the loop unit's
places (R80); else the word at its head. A kernel ends where falling through passes its last word, whose literal may stand past it. A
stream arrives in the turn in which it is found there: C and A in the cycle in which their last word issues, V and M in the next (log 72). A rep that is the kernel's last word has its repeated word
past the kernel: the stream arrives there with the count kept, and the count applies to the next word the stream issues, the kernel's first in the
next step or the epilogue's. R82 does not say (DESIGN CHOICE, log 87). -/
def State.beginStream (s : State) (tid : Nat) (sid : StreamId) : Begin :=
  match s.thread? tid with
  | none => .moved s
  | some th =>
    let st := th.strm sid
    if th.frozenNow s.now sid then s.beginTie th sid
    else if th.life.phase != .running || st.run != .running then .moved s
    else if sid == .a && th.a.cmds.any (·.parked) then .moved s
    else if th.takesPart sid && !th.loop.finished then
      let (kb, kn) := st.kernel
      let there := th.loop.arrived.getD (streamNum sid) false
      if there then .moved s
      else if !th.loop.inStep && st.pc.toNat == kb then .moved (s.arrive tid sid kb)
      else if th.loop.inStep && decide (kb + kn ≤ st.pc.toNat) then .moved (s.arrive tid sid kb)
      else if th.loop.inStep && s.now < th.loop.ks then .moved s
      else s.beginWord th sid
    else s.beginWord th sid

end Sys2Proof.Machine
end

