-- ==== Sys2Proof/Machine/Image.lean ====
section
/-! DEFINITION. CRC-32, task records, and code images as Gangplank checks and loads them (spec/02_encoding.md R38, R39; spec/12_tasks.md
R241, R242). -/

namespace Sys2Proof.Machine

/-! ### CRC-32 (IEEE 802.3: reflected, started and ended with all ones) -/

def crcBits : Nat → BitVec 32 → BitVec 32
  | 0, c => c
  | n + 1, c => crcBits n (if bitOf c 0 then (c >>> 1) ^^^ 0xEDB88320 else c >>> 1)

def crcByte (c : BitVec 32) (b : BitVec 8) : BitVec 32 := crcBits 8 (c ^^^ b.setWidth 32)

def crc32 (bs : List (BitVec 8)) : BitVec 32 := ~~~(bs.foldl crcByte 0xFFFFFFFF)

/-- A byte string with n bytes at offset o made 0. -/
def blank (bs : List (BitVec 8)) (o n : Nat) : List (BitVec 8) := bs.take o ++ List.replicate n 0 ++ bs.drop (o + n)

/-! ### Task records (R242) -/

/-- A shape code (R175). -/
def shapeOk (c : Nat) : Bool := decide (c / 4 < 3) && decide (c % 4 < 3)

/-- A well-formed task record. -/
def recordOk (r : Record) : Bool :=
  fieldNat (r.getD 0 0) 63 56 == 0 && fieldNat (r.getD 2 0) 63 56 == 0 && fieldNat (r.getD 3 0) 63 61 == 0 &&
    fieldNat (r.getD 4 0) 63 56 == 0 && fieldNat (r.getD 5 0) 47 42 == 0 && fieldNat (r.getD 6 0) 59 32 == 0 &&
    trImage r % 64 == 0 && trJoin r % 8 == 0 && trCont r % 64 == 0 &&
    shapeOk (trSmin r) && shapeOk (trSpref r) && decide (trSmin r / 4 ≤ trSpref r / 4) &&
    decide (trSmin r % 4 ≤ trSpref r % 4) && decide (trHwmu r ≤ 0x30000) && decide (trStages r ≤ 8) &&
    (trStages r != 0 || trN r == 0)

/-- A record with another owner context. -/
def Record.withCtx (r : Record) (c : BitVec 24) : Record :=
  setAt r 5 ((r.getD 5 0).extractLsb' 24 40 ++ c)

/-- The bytes of a record. -/
def Record.bytes (r : Record) : List (BitVec 8) := r.flatMap wordBytes

/-! ### Images (R38) -/

/-- A code image as read: its bytes, LENGTH of them. -/
abbrev Img := List (BitVec 8)

/-- The word at a byte offset. -/
def Img.at_ (b : Img) (o : Nat) : Word := wordOf ((b.drop o).take 8)

/-- Header word k. -/
def Img.w (b : Img) (k : Nat) : Word := Img.at_ b (8 * k)

def Img.length (b : Img) : Nat := fieldNat (Img.w b 1) 63 32
def Img.loop (b : Img) : Bool := bitOf (Img.w b 1) 16
def Img.hwm (b : Img) : Nat := fieldNat (Img.w b 2) 63 32
def Img.nrec (b : Img) : Nat := fieldNat (Img.w b 3) 63 32
def Img.maxpane (b : Img) : Nat := fieldNat (Img.w b 3) 23 16
def Img.stages (b : Img) : Nat := fieldNat (Img.w b 3) 15 8
def Img.tiles (b : Img) : Nat := fieldNat (Img.w b 3) 7 0
def Img.recoff (b : Img) : Nat := fieldNat (Img.w b 4) 63 32
def Img.ndata (b : Img) : Nat := fieldNat (Img.w b 5) 63 32
def Img.dataoff (b : Img) : Nat := fieldNat (Img.w b 5) 31 0

/-- A section: its words, where they lie in the image, its entry, and its place in instruction memory. -/
structure Section where
  words : Nat
  offset : Nat
  entry : Nat
  imbase : Nat
  deriving DecidableEq, Repr

def Img.sect (b : Img) (s : Nat) : Section :=
  let x := Img.w b (8 + 2 * s)
  let y := Img.w b (9 + 2 * s)
  { words := fieldNat x 63 32, offset := fieldNat x 31 0, entry := fieldNat y 63 32, imbase := fieldNat y 31 0 }

/-- Loop sub-section k of stream s: first word and length. -/
def Img.sub (b : Img) (s k : Nat) : Nat × Nat :=
  let x := Img.w b (16 + 3 * s + k)
  (fieldNat x 31 0, fieldNat x 63 32)

/-- The words of a section. -/
def Img.code (b : Img) (s : Nat) : List Word :=
  let x := Img.sect b s
  wordsOf ((b.drop x.offset).take (8 * x.words))

/-- The tags of a section's words (R39); none when a literal runs past the end. -/
def tagScan : List Word → Option (List (Word × Bool))
  | [] => some []
  | [w] => if bitOf w 39 then none else some [(w, false)]
  | w :: l :: r =>
    if bitOf w 39 then (tagScan r).map fun t => (w, false) :: (l, true) :: t
    else (tagScan (l :: r)).map fun t => (w, false) :: t

/-- A data block: its first word and its bytes. -/
structure Block where
  head : Word
  bytes : List (BitVec 8)
  deriving DecidableEq, Repr

def Block.addr (x : Block) : Nat := fieldNat x.head 27 0
def Block.size (x : Block) : Nat := fieldNat x.head 63 32

/-- The n data blocks from offset o; none when one lies beyond the image. The fuel bounds their number. -/
def blocksFrom (b : Img) : Nat → Nat → Nat → Option (List Block)
  | _, 0, _ => some []
  | 0, _, _ => none
  | f + 1, n + 1, o =>
    let h := Img.at_ b o
    let size := (fieldNat h 63 32 + 7) / 8 * 8
    if b.length < o + 8 + size then none
    else (blocksFrom b f n (o + 8 + size)).map fun r => { head := h, bytes := (b.drop (o + 8)).take (fieldNat h 63 32) } :: r

def Img.blocks (b : Img) : Option (List Block) := blocksFrom b (b.length / 8 + 1) (Img.ndata b) (Img.dataoff b)

/-- The streams of an image in order. -/
def streams4 : List Nat := [0, 1, 2, 3]

/-- Whether two non-empty sections overlap. -/
def overlaps (x y : Section) : Bool :=
  x.words != 0 && y.words != 0 && decide (x.imbase < y.imbase + y.words) && decide (y.imbase < x.imbase + x.words)

/-- The check that an image of LENGTH bytes fails first (R39); none when it is accepted for n panes. -/
def Img.check (b : Img) (panes : Nat) : Option Nat :=
  let n := b.length
  let ss := streams4.map (Img.sect b)
  let subs := streams4.map fun s => [0, 1, 2].map (Img.sub b s)
  let full := fun (s : Nat) => ((ss.getD s ⟨0, 0, 0, 0⟩).words != 0 : Bool)
  if Img.w b 0 != 0x3147_4D49_4854_444C || fieldNat (Img.w b 1) 15 0 != 1 || decide (Img.length b < 256) || Img.length b % 8 != 0 then
    some 1
  else if (crc32 (blank b 16 4)).toNat != fieldNat (Img.w b 2) 31 0 then some 2
  else if ss.any (fun x => x.offset % 8 != 0 || decide (n < x.offset + 8 * x.words)) ||
      Img.recoff b % 8 != 0 || decide (n < Img.recoff b + 32 * Img.nrec b) ||
      Img.dataoff b % 8 != 0 || decide (n < Img.dataoff b) || (Img.blocks b).isNone then some 3
  else if ss.any (fun x => x.words != 0 && decide (65536 < x.imbase + x.words)) ||
      streams4.any (fun i => streams4.any fun j => decide (i < j) && overlaps (ss.getD i ⟨0, 0, 0, 0⟩) (ss.getD j ⟨0, 0, 0, 0⟩)) ||
      ss.any (fun x => x.words == 0 && (x.offset != 0 || x.entry != 0 || x.imbase != 0)) then some 4
  else if ss.any (fun x => x.words != 0 && decide (x.words ≤ x.entry)) ||
      streams4.any (fun s => (subs.getD s []).any fun u => decide ((ss.getD s ⟨0, 0, 0, 0⟩).words < u.1 + u.2)) ||
      (!Img.loop b && subs.any fun us => us.any fun u => u.2 != 0) then some 5
  else if streams4.any (fun s => full s && (tagScan (Img.code b s)).isNone) then some 6
  else
    let blocks := (Img.blocks b).getD []
    if Img.hwm b % 64 != 0 || decide (spBytes < Img.hwm b) ||
        blocks.any (fun x => x.addr % 8 != 0 || decide (Img.hwm b < x.addr % 2 ^ 24 + x.size) ||
          decide (spBytes < x.addr % 2 ^ 24 + x.size)) then some 7
    else if decide (panes ≤ Img.maxpane b) || blocks.any (fun x => decide (Img.maxpane b < x.addr / 2 ^ 24)) then some 8
    else if decide (256 < Img.nrec b) ||
        (if Img.loop b then Img.stages b == 0 || decide (8 < Img.stages b) else Img.stages b != 0) ||
        fieldNat (Img.w b 1) 31 17 != 0 || fieldNat (Img.w b 3) 31 24 != 0 || fieldNat (Img.w b 4) 31 0 != 0 ||
        [6, 7, 28, 29, 30, 31].any (fun k => Img.w b k != 0) || blocks.any (fun x => fieldNat x.head 31 28 != 0) then some 9
    else none

/-- Reads an image: first the words that give its LENGTH, then its bytes; the refusal code of a fault, or of check 1 (R39). -/
def State.readImage (s : State) (d p : Nat) (ctx : BitVec 24) (va : Nat) : State × Except Nat Img :=
  match s.readVirt d p ctx va 16 with
  | (s1, .error _) => (s1, .error 0x11)
  | (s1, .ok (h, _)) =>
    if Img.w h 0 != 0x3147_4D49_4854_444C || fieldNat (Img.w h 1) 15 0 != 1 || decide (Img.length h < 256) || Img.length h % 8 != 0 then
      (s1, .error 1)
    else
      match s1.readVirt d p ctx va (Img.length h) with
      | (s2, .error _) => (s2, .error 0x11)
      | (s2, .ok (b, _)) => (s2, .ok b)

/-- A read and checked image for n panes. -/
def State.takeImage (s : State) (d p : Nat) (ctx : BitVec 24) (va panes : Nat) : State × Except Nat Img :=
  match s.readImage d p ctx va with
  | (s1, .error c) => (s1, .error c)
  | (s1, .ok b) =>
    match Img.check b panes with
    | some c => (s1, .error c)
    | none => (s1, .ok b)

/-! ### Loading -/

/-- Writes a list of tagged words into instruction memory from an address on. -/
def putCode (m : Sparse (Word × Bool)) (a : Nat) : List (Word × Bool) → Sparse (Word × Bool)
  | [] => m
  | x :: r => putCode (sset (0, false) m a x) (a + 1) r

/-- Loads the sections and tags of an image into the lead core of a rectangle. -/
def State.loadCode (s : State) (lead : Nat) (b : Img) : State :=
  streams4.foldl (init := s) fun t i =>
    let x := Img.sect b i
    if x.words = 0 then t
    else t.modCore lead fun c => { c with imem := putCode c.imem x.imbase ((tagScan (Img.code b i)).getD []) }

/-- Zeroes the bytes below HWM of each pane and copies the data blocks (R39). -/
def State.loadData (s : State) (rc : Rect) (b : Img) : State :=
  let h := Img.hwm b
  let s1 := s.modCores rc.cores fun c =>
    { c with spBad := c.spBad.filter (fun u => h / 8 ≤ u), sp := (c.sp.zero 0 h).clean 0 (h / 8) }
  ((Img.blocks b).getD []).foldl (init := s1) fun t x =>
    t.modCore (rc.cores.getD (x.addr / 2 ^ 24) 0) fun c => { c with sp := c.sp.write (x.addr % 2 ^ 24) x.bytes }

/-- The window, program counter and sub-sections of stream i, with the entry that a task record gives (0xFFFF: the image's). -/
def Strm.load (st : Strm) (b : Img) (i e : Nat) : Strm :=
  let x := Img.sect b i
  { st with
    base := x.imbase, words := x.words, pc := BitVec.ofNat 16 (x.imbase + if e = 0xFFFF then x.entry else e),
    subs := [0, 1, 2].map (Img.sub b i) }

/-- The records of an image. -/
def Img.recs (b : Img) : Sparse BufRec :=
  sparseOf [0, 0, 0, 0] 0 ((List.range (Img.nrec b)).map fun k => (List.range 4).map fun j => Img.at_ b (Img.recoff b + 32 * k + 8 * j))

/-- The thread with an image's windows and entries, and its records. -/
def Thread.load (th : Thread) (b : Img) : Thread :=
  let e := fun k => trEntry th.life.record k
  { th with
    sc := th.sc.load b 0 (e 0), sa := th.sa.load b 1 (e 1), sv := th.sv.load b 2 (e 2), sm := th.sm.load b 3 (e 3),
    a := { th.a with recs := Img.recs b } }

/-- The check of R242 that a record fails against its image. -/
def recordFits (r : Record) (b : Img) : Option Nat :=
  if trStages r != Img.stages b then some 10
  else if streams4.any (fun k => trEntry r k != 0xFFFF && decide ((Img.sect b k).words ≤ trEntry r k)) then some 5
  else none

end Sys2Proof.Machine
end

