-- ==== Sys2Proof/Machine/Convert.lean ====
section
/-! DEFINITION. The conversion instructions of the V stream (spec/06_formats.md R120 to R128). -/

namespace Sys2Proof.Machine

/-! ### vcvt (R121) -/

/-- A float rounded to BF16 or binary32; a signalling NaN raises NV. -/
def floatToFmt (src dst : Fmt) (rnd : Rnd) (c : Nat) : Nat × Flags :=
  let r := roundFp (decodeNum src c) dst rnd .dflt 0 0
  (r.1, r.2 ||| flIf (isSnan src c) flNV)

/-- A number to a 32-bit integer: rounded first, which raises NX where it is inexact; NaN gives 0 and a value out of range the range's end,
each with NV (R121). -/
def numToInt (dt : LaneTy) (rnd : Rnd) (x : Num) : Nat × Flags :=
  let lo := typeMin dt
  let hi := typeMax dt
  let out := fun (v : Int) => (v % (2 ^ LaneBits dt : Nat)).toNat
  match x with
  | .nan => (0, flNV)
  | .inf n => (out (if n then lo else hi), flNV)
  | .fin n m e =>
    let (v, nx) := roundInt n m e rnd
    let w := clampInt v lo hi
    (out w, flIf (w != v) flNV ||| flIf nx flNX)

/-- A lane of vcvt (R121), from the lanes of a and b. -/
def vcvtLane (dt st : LaneTy) (rnd : Rnd) (h : Bool) (a b : BitVec 32) : LaneOut :=
  let ea := elems st a
  let eb := elems st b
  let hi : Nat := if h then 1 else 0
  let all := fun (rs : List (Nat × Flags)) => (joinElems dt (rs.map (·.1)), rs.foldl (fun x y => x ||| y.2) 0)
  if laneFloat st && laneFloat dt then
    if st == .f32 then all [floatToFmt .f32 .bf16 rnd (ea.getD 0 0), floatToFmt .f32 .bf16 rnd (eb.getD 0 0)]
    else all [floatToFmt .bf16 .f32 rnd (ea.getD hi 0)]
  else if laneFloat st then all [numToInt dt rnd (decodeNum .f32 (ea.getD 0 0))]
  else if laneFloat dt then all [roundFp (Num.ofInt (elemInt st (ea.getD 0 0))) .f32 rnd .dflt 0 0]
  else if LaneBits st = LaneBits dt then all (ea.map fun e => clampElem dt (elemInt st e))
  else if LaneBits dt < LaneBits st then all ((ea ++ eb).map fun e => clampElem dt (elemInt st e))
  else
    let n := 32 / LaneBits dt
    all (((ea.drop (hi * n)).take n).map fun e => ((elemInt st e % (2 ^ LaneBits dt : Nat)).toNat, 0))

/-- Whether the pair takes lanes of b. -/
def vcvtTakesB (dt st : LaneTy) : Bool := decide (LaneBits dt < LaneBits st)

/-- vcvt (R121). -/
def execVcvt (dt st : LaneTy) (rnd : Rnd) (mk h : Bool) (x y : VSrc) (d : VDst) (s : State) : Answer :=
  if vcvtTakesB dt st then vec2 (2, 0) mk x y d (vcvtLane dt st rnd h) s else vec1 (2, 0) mk x d (fun a => vcvtLane dt st rnd h a 0) s

/-! ### vqnt, vdeq (R122, R123) -/

/-- The scale of a lane (R107). -/
def scaleOf (b : BitVec 32) : Int := extW (BitVec.ofNat 64 b.toNat) 8 true

/-- One element of vqnt at a position of its block. -/
def qntElem (f : Fmt) (t : LaneTy) (rnd : Rnd) (ov : Ov) (ph : Nat) (k : Int) (p c : Nat) : Nat × Flags :=
  if k = -128 then (0, 0)
  else
    let r := roundFp ((decodeNum (laneFmt t) c).scale (-k)) f rnd ov p ph
    (r.1, r.2 ||| flIf (isSnan (laneFmt t) c) flNV)

/-- The lanes of vqnt: element e of a pane is at position e mod 32 (R120, R122). -/
def qntLanes (f : Fmt) (t : LaneTy) (rnd : Rnd) (ov : Ov) (ph : Nat) :
    Nat → List Bool → List Lane → List Lane → List Lane × Flags
  | i, m :: ms, a :: as, b :: bs =>
    let r := qntLanes f t rnd ov ph (i + 1) ms as bs
    if m then
      let es := elems t a.bits
      let n := es.length
      let qs := (List.range n).map fun h => qntElem f t rnd ov ph (scaleOf b.bits) ((n * (i % 64) + h) % 32) (es.getD h 0)
      ({ bits := joinElems t (qs.map (·.1)), mark := meet a.mark b.mark } :: r.1, qs.foldl (fun x y => x ||| y.2) r.2)
    else ({} :: r.1, r.2)
  | _, _, _, _ => ([], 0)

/-- vqnt: under dth it waits for the dth instructions before it, reads DPH at its issue and advances it at its retirement (R115, R122). -/
def execVqnt (fmt : EFmt) (t : LaneTy) (rnd : Rnd) (ov : Ov) (mk : Bool) (x y : VSrc) (d : VDst) (s : State) : Answer :=
  issue s fun k th s1 =>
    let act := th.v.active th.lanes mk
    vready s k th [x, y] act d fun n =>
      if rnd == .dth && th.phaseDue .v then .wait .none else
      let r := qntLanes (narrowFmt fmt) t rnd ov th.cnt.dph.toNat 0 act (th.v.read th.lanes x) (th.v.read th.lanes y)
      .done (((s1.pushVec k th.lanes act r.1 d 4).flagsIn k.tid 4 r.2 (rnd == .dth)).addVstall k.tid n)

/-- A lane of vdeq. -/
def deqLane (f : Fmt) (t : LaneTy) (rnd : Rnd) (a b : BitVec 32) : LaneOut :=
  onElems1 t (fun c =>
    let k := scaleOf b
    if k = -128 then (0, 0) else roundFp ((decodeNum f (c % 2 ^ f.width)).scale k) (laneFmt t) rnd .dflt 0 0) a

/-- vdeq (R123). -/
def execVdeq (fmt : EFmt) (t : LaneTy) (rnd : Rnd) (mk : Bool) (x y : VSrc) (d : VDst) (s : State) : Answer :=
  vec2 (3, 0) mk x y d (deqLane (narrowFmt fmt) t rnd) s

/-! ### vbsc, vsce (R124, R125) -/

/-- floor(log2) of the greatest finite magnitude among numbers, or none when all are zero; and whether some element is NaN or infinite. -/
def blockTop (xs : List Num) : Option Int × Bool × Bool :=
  xs.foldl (init := (none, false, true)) fun a x =>
    match x with
    | .fin _ 0 _ => a
    | .fin _ m e =>
      let t : Int := (Nat.log2 m : Int) + e
      (some (match a.1 with | some u => max u t | none => t), a.2.1, false)
    | _ => (a.1, true, false)

/-- The scale of a block (R124), with NV. -/
def blockScale (f : Fmt) (xs : List Num) : Int × Flags :=
  let (top, odd, zero) := blockTop xs
  let k := match top with
    | some t => clampInt (t - f.emax) (-127) 127
    | none => if zero then -128 else 0
  (k, flIf odd flNV)

/-- vbsc (R124): the blocks of each pane, 32 elements each, so 32 lanes of binary32 or 16 of BF16. -/
def execVbsc (fmt : EFmt) (t : LaneTy) (x : VSrc) (d : VDst) (s : State) : Answer :=
  vecOp (4, 0) [x] false d s id fun th _ =>
    let a := th.v.read th.lanes x
    let n := if t == .bf16 then 16 else 32
    let out := (pieces n a.length a).map fun ls =>
      let r := blockScale (narrowFmt fmt) ((ls.flatMap fun l => elems t l.bits).map (decodeNum (laneFmt t)))
      (ls.map fun _ => ({ bits := BitVec.ofInt 32 r.1, mark := meetAll (ls.map (·.mark)) } : Lane), r.2)
    (out.flatMap (·.1), out.foldl (fun v y => v ||| y.2) 0)

/-- One byte of vsce (R108, R125). -/
def sceByte (toE8 : Bool) (b : Nat) : Nat × Flags :=
  if toE8 then
    let k := extW (BitVec.ofNat 64 b) 8 true
    (if k = -128 then 0xFF else (k + 127).toNat, 0)
  else if b = 0xFF then (0x80, flSN)
  else ((((b : Int) - 127) % 256).toNat, 0)

/-- vsce (R125). -/
def execVsce (toE8 mk : Bool) (x : VSrc) (d : VDst) (s : State) : Answer := vec1 (1, 0) mk x d (onElems1 .s8 (sceByte toE8)) s

/-! ### vpak, vupk (R126, R127) -/

/-- The width of a format code that vpak and vupk take. -/
def pakWidth (fmt : EFmt) : Nat :=
  match fmt with
  | .e3m2 | .e2m3 => 6
  | .e2m1 => 4
  | _ => 8

/-- A pane's 256 bytes as one little-endian number. -/
def paneNat (ls : List Lane) : Nat := ls.foldr (fun l a => l.bits.toNat + 2 ^ 32 * a) 0

/-- The lane and the bit of it where element e's code is held: one or two codes per lane. -/
def codePlace (half : Bool) (e : Nat) : Nat × Nat := if half then (e / 2, 16 * (e % 2)) else (e, 0)

/-- Lanes of the byte string that a range of bits touches. -/
def lanesOfBits (lo n : Nat) : List Nat := (List.range ((lo + n - 1) / 32 - lo / 32 + 1)).map (lo / 32 + ·)

/-- vpak of one pane (R126). -/
def pakPane (w : Nat) (half : Bool) (g : Nat) (a b : List Lane) : List Lane :=
  let n := if half then 128 else 64
  let start := g * n * w
  let code := fun (e : Nat) =>
    let (i, sh) := codePlace half e
    (a.getD i {}).bits.toNat / 2 ^ sh % 2 ^ w
  let packed := (List.range n).foldr (fun e x => code e + 2 ^ w * x) 0
  let old := paneNat b
  let v := old % 2 ^ start + 2 ^ start * packed + 2 ^ (start + n * w) * (old / 2 ^ (start + n * w))
  (List.range 64).map fun l =>
    let from_ := (List.range n).filter fun e => (lanesOfBits (start + e * w) w).contains l
    { bits := BitVec.ofNat 32 (v / 2 ^ (32 * l)),
      mark := meet (b.getD l {}).mark (meetAll (from_.map fun e => (a.getD (codePlace half e).1 {}).mark)) }

/-- vupk of one pane (R127). -/
def upkPane (w : Nat) (half : Bool) (g : Nat) (a : List Lane) : List Lane :=
  let n := if half then 128 else 64
  let start := g * n * w
  let bytes := paneNat a
  let one := fun (e : Nat) =>
    let lo := start + e * w
    (bytes / 2 ^ lo % 2 ^ w, meetAll ((lanesOfBits lo w).map fun l => (a.getD l {}).mark))
  (List.range 64).map fun l =>
    if half then
      let x := one (2 * l)
      let y := one (2 * l + 1)
      { bits := BitVec.ofNat 32 (x.1 + 65536 * y.1), mark := meet x.2 y.2 }
    else
      let x := one l
      { bits := BitVec.ofNat 32 x.1, mark := x.2 }

/-- The panes of a vector in turn. -/
def perPane {α : Type} (th : Thread) (f : Nat → List α) : List α := (List.range th.panes).flatMap f

/-- vpak (R126). -/
def execVpak (fmt : EFmt) (half : Bool) (g : BitVec 3) (x y : VSrc) (d : VDst) (s : State) : Answer :=
  vecOp (2, 0) [x, y] false d s id fun th _ =>
    let a := th.v.read th.lanes x
    let b := th.v.read th.lanes y
    (perPane th fun p => pakPane (pakWidth fmt) half g.toNat ((a.drop (64 * p)).take 64) ((b.drop (64 * p)).take 64), 0)

/-- vupk (R127). -/
def execVupk (fmt : EFmt) (half : Bool) (g : BitVec 3) (x : VSrc) (d : VDst) (s : State) : Answer :=
  vecOp (2, 0) [x] false d s id fun th _ =>
    let a := th.v.read th.lanes x
    (perPane th fun p => upkPane (pakWidth fmt) half g.toNat ((a.drop (64 * p)).take 64), 0)

/-- vdph (R128): it waits until every earlier dth instruction of the stream has retired. -/
def execVdph (n : BitVec 5) (s : State) : Answer :=
  issue s fun k th s1 =>
    if th.phaseDue .v then .wait .none
    else .done (s1.modThread k.tid fun u => { u with cnt := { u.cnt with dph := n } })

end Sys2Proof.Machine
end

