-- ==== Sys2Proof/Machine/Matrix.lean ====
section
/-! DEFINITION. The M stream: block partials, mma, sacc, macz, mdrain, mload, mchk, and the events that retire passes, fold partials,
complete drains and loads, and conclude stand-in checks (spec/08_matrix.md R152 to R174). -/

namespace Sys2Proof.Machine

/-! ### Block partials (R111) -/

/-- A block partial's value and the marks of its special bits. -/
def bpCode (nan pinf ninf : Bool) (fix : Int) : BitVec 128 :=
  BitVec.ofNat 128 ((if nan then 2 ^ 96 else 0) + (if pinf then 2 ^ 97 else 0) + (if ninf then 2 ^ 98 else 0) +
    (fix % (2 ^ 96 : Nat)).toNat)

/-- bp_encode (R111): the pattern of the exact sum of products, and whether NaN came from 0 × Inf or from infinities that meet (R157). -/
def bpEncode (qs : List (Num × Flags)) : BitVec 128 × Bool :=
  let invalid := qs.any fun q => q.2 != 0
  let nan := qs.any fun q => q.1 == .nan
  let pinf := qs.any fun q => q.1 == .inf false
  let ninf := qs.any fun q => q.1 == .inf true
  if nan then (bpCode true false false 0, invalid)
  else if pinf && ninf then (bpCode true false false 0, true)
  else if pinf then (bpCode false true false 0, false)
  else if ninf then (bpCode false false true 0, false)
  else
    (bpCode false false false (qs.foldl (fun a q =>
      match q.1 with
      | .fin n m e => a + signedOf n (m * 2 ^ (e + 32).toNat)
      | _ => a) 0), false)

/-- FIX of a pattern. -/
def bpFix (b : BitVec 128) : Int := (b.extractLsb' 0 96).toInt

/-- Whether a pattern is read as NaN: NAN set, or not a legal pattern (R111). -/
def bpIsNan (b : BitVec 128) : Bool :=
  let sp := fieldNat b 98 96
  sp == 1 || fieldNat b 127 99 != 0 || !(sp == 0 || sp == 2 || sp == 4) || (sp != 0 && fieldNat b 95 0 != 0)

/-- A block partial as a number (R111). -/
def bpNum (b : BitVec 128) : Num :=
  if bpIsNan b then .nan
  else if bitOf b 97 then .inf false
  else if bitOf b 98 then .inf true
  else (Num.ofInt (bpFix b)).scale (-32)

/-! ### Ring operands (R155) -/

/-- The n codes packed from byte 0 of a granule (R106). -/
def codesOf (w n : Nat) (bs : List (BitVec 8)) : List Nat :=
  let v := leNat bs
  (List.range n).map fun j => v / 2 ^ (w * j) % 2 ^ w

/-- The 64 rows of a pane's part of an operand tile, as numbers with their granules' marks. A part shorter than 64 rows (a tile under another
distribution) may stand at the end of the tile register file: units beyond 65,535 read as never written. R155 does not say what lies there
(DESIGN CHOICE, log 84). -/
def State.operandRows (s : State) (th : Thread) (pane : Nat) (desc : Word) (f : EFmt) : List (List Num × Mark) :=
  (List.range 64).map fun r =>
    let g := s.gran th pane (descBase desc + r)
    ((codesOf (narrowFmt f).width 32 g.1).map (decodeNum (narrowFmt f)), g.2)

/-- The block partials of one pane: row by row (R157), and whether one raises NV. -/
def bpPane (as bs : List (List Num × Mark)) : List BpCell × Bool :=
  let cells := as.flatMap fun a => bs.map fun b =>
    let r := bpEncode (List.zipWith Num.mul a.1 b.1)
    (({ bits := r.1, mark := meet a.2 b.2 } : BpCell), r.2)
  (cells.map (·.1), cells.any (·.2))

/-- Whether a named tile's geometry is rows by units (R155). -/
def geomIs (d : Word) (rows units : Nat) : Bool := descRows d == rows && descUlen d == units

/-- The parity as an index. -/
def parIx (p : Bool) : Nat := if p then 1 else 0

/-- Changes the M state of a thread. -/
def State.modM (s : State) (tid : Nat) (f : MState → MState) : State := s.modThread tid fun th => { th with m := f th.m }

/-- The effective cadence: the largest CAD among the member panes (R153). -/
def State.effCad (s : State) (th : Thread) : Nat := (th.life.rect.cores.map fun c => (s.core c).cad).foldl max 1

/-- The passes in flight, in program order. -/
def MState.passesIn (m : MState) : List Pass := m.ops.filterMap fun o => match o with | .pass p => some p | _ => none

/-- Whether the field can take a new pass: the last one has made all its injections and its span is over, no retry is under way and no
retry's check has concluded in this cycle (R157, R170, R172). -/
def MState.fieldFree (m : MState) (now : Nat) : Bool :=
  m.retryAt != some now && m.passesIn.all fun p => p.left == 0 && decide (p.at_ + p.spacing ≤ now) && (p.attempt == 1 || p.concluded)

/-- The bank an operation in flight works on. -/
def MOp.onBank (o : MOp) (k : Nat) : Bool :=
  match o with
  | .fold f => f.acc == k
  | .load l => l.acc == k
  | _ => false

/-- Whether every earlier operation on a bank completed before this cycle (R170). -/
def MState.bankDone (m : MState) (now k : Nat) : Bool := !m.ops.any (fun o => o.onBank k) && decide (m.bankAt.getD k 0 < now)

/-- Whether every earlier `macz` and `mload` on a bank completed before this cycle: the folds on it follow one another (R158). -/
def MState.bankLoaded (m : MState) (now k : Nat) : Bool :=
  !m.ops.any (fun o => match o with | .load l => l.acc == k | _ => false) &&
    (m.ops.any (fun o => match o with | .fold f => f.acc == k | _ => false) || decide (m.bankAt.getD k 0 < now))

/-- Whether an operation in flight has flags still to raise (R119): a fold's are not known before it completes. -/
def MOp.flagsToCome : MOp → Bool
  | .pass p => p.nv
  | .fold _ => true
  | .drain d => d.flags != 0
  | .chain c => c.flags != 0
  | .load _ => false

/-- Whether an earlier M instruction has flags still to raise, for which a tile write of a later one waits (R119). -/
def MState.flagsToCome (m : MState) : Bool := m.ops.any MOp.flagsToCome

/-- W of R170. -/
def passWidth (r : Rect) : Nat := 4 * (r.rows + r.cols)

/-! ### mma (R157) -/

/-- mma: takes both tiles, makes the parity HELD and computes every element; its first injection takes place as it issues, so it waits while
a rail has stopped injecting (R336). -/
def execMma (p : Bool) (fa fb : EFmt) (ra rb : BitVec 5) (s : State) : Answer :=
  issue s fun k th s1 =>
    let r := th.life.rect
    match th.descOf s.now (.ring ra), th.descOf s.now (.ring rb) with
    | some da, some db =>
      if th.m.held.getD (parIx p) false || !geomIs da (64 * r.rows) 1 || !geomIs db (64 * r.cols) 1 then .trap (illegal)
      else
        withConsumer th s.now (.ring ra) fun ta da =>
          withConsumer th s.now (.ring rb) fun tb db =>
            if !th.m.fieldFree s.now || s.railStopped th then .wait .none
            else
              let out := (List.range th.panes).map fun i =>
                bpPane (s.operandRows th (i / r.cols * r.cols) da fa) (s.operandRows th (i % r.cols) db fb)
              let s2 := (List.range th.panes).foldl (init := s1) fun t i =>
                t.modCore (th.coreOf i) fun c =>
                  { c with bp := setAt c.bp (parIx p) (sparseOf {} 0 (out.getD i ([], false)).1) }
              let (s3, id) := s2.newId
              let cad := s.effCad th
              let pass : Pass :=
                { id := id, par := p, a := ta, b := tb, inj := if fa == .e2m1 then 4 else 8, at_ := s.now,
                  left := if fa == .e2m1 then 3 else 7, spacing := cad, nv := out.any (·.2) }
              .done (s3.modThread k.tid fun t =>
                let t1 := (t.startRead s.now ta).startRead s.now tb
                { t1 with m := { t1.m with
                  held := setAt t1.m.held (parIx p) true,
                  lastPass := setAt t1.m.lastPass (parIx p) (some id),
                  ops := t1.m.ops ++ [.pass pass] } })
    | _, _ => .trap (illegal)

/-- The cadence of the next injection of a pass is read when it takes place (R153, R170); a retry starts when every pass before it has
made its injections. -/
def Pass.inject (p : Pass) (now cad : Nat) (free : Bool) : Pass :=
  if p.left = 0 then p
  else if p.left = p.inj then
    (if free && decide (p.at_ ≤ now) then { p with at_ := now, left := p.left - 1, spacing := cad } else p)
  else if p.at_ + p.spacing ≤ now then { p with left := p.left - 1, spacing := now - p.at_ + cad }
  else p

/-- The passes of a thread at the start of a cycle. -/
def State.injectAll (s : State) (th : Thread) : Thread :=
  let free := th.m.passesIn.all fun p => p.left == p.inj || (p.left == 0 && decide (p.at_ + p.spacing ≤ s.now))
  let cad := s.effCad th
  { th with m := { th.m with ops := th.m.ops.map fun o =>
      match o with
      | .pass p => .pass (p.inject s.now cad free)
      | o => o } }

/-! ### sacc (R158 to R160) -/

/-- sacc and sacc.i: takes the scale tiles, makes the parity EMPTY; the fold follows, four cycles after its pass has retired, or, of a
parity that a resume made HELD, after the issue (R160, R170, R351). -/
def startFold (int p : Bool) (acc : BitVec 2) (rsa rsb : BitVec 5) (s : State) : Answer :=
  issue s fun k th s1 =>
    let r := th.life.rect
    match th.descOf s.now (.ring rsa), th.descOf s.now (.ring rsb) with
    | some da, some db =>
      if !th.m.held.getD (parIx p) false || !geomIs da 1 r.rows || !geomIs db 1 r.cols then .trap (illegal)
      else
        withConsumer th s.now (.ring rsa) fun ta _ =>
          withConsumer th s.now (.ring rsb) fun tb _ =>
            if !th.m.bankLoaded s.now acc.toNat then .wait .none
            else
              let (s2, id) := s1.newId
              let pid := (th.m.lastPass.getD (parIx p) none).getD 0
              let live := th.m.passesIn.any fun q => q.id == pid
              let fold : Fold :=
                { id := id, passId := pid, int := int, acc := acc.toNat, rs := ta, cs := tb,
                  part := (List.range th.panes).map fun i => (s.core (th.coreOf i)).bp.getD (parIx p) [],
                  due := if live then none
                    else some ((if (th.m.lastPass.getD (parIx p) none).isSome then th.m.retAt.getD (parIx p) 0 else s.now) + 4) }
              .done (s2.modThread k.tid fun t =>
                let t1 := (t.startRead s.now ta).startRead s.now tb
                { t1 with m := { t1.m with held := setAt t1.m.held (parIx p) false, ops := t1.m.ops ++ [.fold fold] } })
    | _, _ => .trap (illegal)

/-- sacc (R158). -/
def execSacc (p : Bool) (acc : BitVec 2) (rsa rsb : BitVec 5) (s : State) : Answer := startFold false p acc rsa rsb s

/-- sacc.i (R159). -/
def execSaccI (p : Bool) (acc : BitVec 2) (rsa rsb : BitVec 5) (s : State) : Answer := startFold true p acc rsa rsb s

/-- An accumulator element in the float reading. -/
def accNum (b : BitVec 36) : Num := decodeNum .a36 b.toNat

/-- One element of a float fold: the new bits and the flags (R158). -/
def foldFloat (a : BitVec 36) (b : BitVec 128) (ka kb : Int) : BitVec 36 × Flags :=
  if ka = -128 || kb = -128 then (a, 0)
  else
    let x := accNum a
    let y := (bpNum b).scale (ka + kb)
    let z := x.add .rne y
    let r := roundFp z.1 .a36 .rne .dflt 0 0
    (BitVec.ofNat 36 r.1, z.2 ||| r.2)

/-- One element of an integer fold (R159). -/
def foldInt (a : BitVec 36) (b : BitVec 128) (ka kb : Int) : BitVec 36 × Flags :=
  let hi : Int := 2 ^ 35 - 1
  let lo : Int := -(2 ^ 35)
  if ka = -128 || kb = -128 then (a, 0)
  else if bpIsNan b then (a, flNV)
  else if bitOf b 97 then (BitVec.ofInt 36 hi, flSAT)
  else if bitOf b 98 then (BitVec.ofInt 36 lo, flSAT)
  else
    let e := ka + kb - 20
    let f := bpFix b
    let t := if 0 ≤ e then f * (2 ^ e.toNat : Nat) else (f + (2 ^ (-e - 1).toNat : Nat)) / (2 ^ (-e).toNat : Nat)
    let n := a.toInt + t
    let c := clampInt n lo hi
    (BitVec.ofInt 36 c, flIf (c != n) flSAT)

/-- A fold of one pane: the cells of the bank from its old cells, the partials, and the pane's own copies of the scale granules
(R155, R158, R160). -/
def foldPane (int : Bool) (cells : List AccCell) (part : List BpCell) (rs cs : List (BitVec 8) × Mark) : List (AccCell × Flags) :=
  (List.zip cells part).zipIdx.map fun x =>
    let c := x.1.1
    let b := x.1.2
    let scale := fun (bs : List (BitVec 8)) (i : Nat) => (bs.getD i 0).toInt
    let ka := scale rs.1 (x.2 / 64)
    let kb := scale cs.1 (x.2 % 64)
    let r := if int then foldInt c.bits b.bits ka kb else foldFloat c.bits b.bits ka kb
    let dropped := ka = -128 || kb = -128
    ({ bits := r.1, mark := meet c.mark (meet rs.2 (meet cs.2 (if dropped then none else b.mark))) }, r.2)

/-- Removes the first operation with an identity. -/
def dropOp (id : Nat) (ops : List MOp) : List MOp :=
  ops.filter fun o =>
    match o with
    | .pass p => p.id != id
    | .fold f => f.id != id
    | .drain d => d.id != id
    | .chain c => c.id != id
    | .load l => l.id != id

/-- The dense cells of a bank of a pane. -/
def State.bank (s : State) (core k : Nat) : List AccCell := sdense {} 4096 0 ((s.core core).acc.getD k [])

def State.setBank (s : State) (core k : Nat) (cells : List AccCell) : State :=
  s.modCore core fun c => { c with acc := setAt c.acc k (sparseOf {} 0 cells) }

/-- Performs a fold on every pane, and retires it. -/
def State.doFold (s : State) (th : Thread) (f : Fold) : State :=
  let r := th.life.rect
  let gr := fun (t : Taken) (i u : Nat) => s.gran th i (descBase ((th.tile? t.tile).map (·.desc) |>.getD 0) + u)
  let out := (List.range th.panes).foldl (init := (s, (0 : Flags))) fun a i =>
    let cells := foldPane f.int (s.bank (th.coreOf i) f.acc) (sdense {} 4096 0 (f.part.getD i []))
      (gr f.rs i (i / r.cols)) (gr f.cs i (i % r.cols))
    (a.1.setBank (th.coreOf i) f.acc (cells.map (·.1)), cells.foldl (fun x c => x ||| c.2) a.2)
  out.1.modThread th.tid fun t =>
    let t1 := ((t.endRead s.now f.rs).endRead s.now f.cs).flagsAt s.now .m out.2
    { t1 with m := { t1.m with ops := dropOp f.id t1.m.ops, bankAt := setAt t1.m.bankAt f.acc s.now } }

/-- The fold that may complete now: of the folds in flight whose passes have retired four cycles ago, the first that no earlier operation
on its bank precedes, one cycle after the previous one on it (R168, R170). -/
def foldReady (now : Nat) (bankAt : List Nat) : List MOp → List MOp → Option Fold
  | _, [] => none
  | before, o :: r =>
    match o with
    | .fold f =>
      let ok := match f.due with
        | some d => decide (d ≤ now) && !before.any (fun q => q.onBank f.acc) && decide (bankAt.getD f.acc 0 < now)
        | none => false
      if ok then some f else foldReady now bankAt (before ++ [o]) r
    | _ => foldReady now bankAt (before ++ [o]) r

/-- SACC_FOLD_COMPLETE: the folds of one sacc are performed (R158, R168, R170). -/
def execSaccFoldComplete (tid : Nat) (s : State) : Answer :=
  .next (match s.thread? tid with
    | none => s
    | some th =>
      match foldReady s.now th.m.bankAt [] th.m.ops with
      | some f => s.doFold th f
      | none => s)

/-! ### Retirement (R157) -/

/-- The pass that may retire: the first whose check has concluded and whose rings no earlier pass still holds tiles of. -/
def passReady : List Pass → List Pass → Option Pass
  | _, [] => none
  | before, p :: r =>
    let clash := before.any fun q => q.a.ring == p.a.ring || q.a.ring == p.b.ring || q.b.ring == p.a.ring || q.b.ring == p.b.ring
    if p.concluded && !clash then some p else passReady (before ++ [p]) r

/-- Retires a pass: its tiles go FREE, the panes' pass counts advance, and its sacc may follow four cycles later. -/
def State.retirePass (s : State) (th : Thread) (p : Pass) : State :=
  let s1 := s.modCores th.life.rect.cores fun c => { c with passCount := (c.passCount + 1) % 64 }
  s1.modThread th.tid fun t =>
    let t1 := ((t.endRead s.now p.a).endRead s.now p.b).flagsAt s.now .m (flIf p.nv flNV)
    { t1 with m := { t1.m with
      passAt := some s.now,
      passes := (t1.m.passes + 1) % 65536,
      retAt := if t1.m.lastPass.getD (parIx p.par) none == some p.id then setAt t1.m.retAt (parIx p.par) s.now else t1.m.retAt,
      ops := (dropOp p.id t1.m.ops).map fun o =>
        match o with
        | .fold f => .fold (if f.passId = p.id then { f with due := some (s.now + 4) } else f)
        | o => o } }

/-- MMA_PASS_RETIRE (R157). -/
def execMmaPassRetire (tid : Nat) (s : State) : Answer :=
  .next (match s.thread? tid with
    | none => s
    | some th =>
      match passReady [] th.m.passesIn with
      | some p => s.retirePass th p
      | none => s)

/-! ### The stand-in row (R172, R173) -/

/-- Changes a pass in flight. -/
def State.modPass (s : State) (tid id : Nat) (f : Pass → Pass) : State :=
  s.modM tid fun m => { m with ops := m.ops.map fun o =>
    match o with
    | .pass p => .pass (if p.id = id then f p else p)
    | o => o }

/-- A class 4 record in the die log of a pane (R172, R304, R341). -/
def State.fieldRecord (s : State) (th : Thread) (pane kind : Nat) (repl : Bool) : State × Tag :=
  let c := th.coreOf pane
  s.record (c / 16) kind 4 repl th.life.part (s.core c).lcyc.toNat none

/-- The row a pane checks on the pass that stands i-th among those not yet retired (R172). -/
def State.rho (s : State) (th : Thread) (pane i : Nat) : Nat := ((s.core (th.coreOf pane)).passCount + i) % 64

/-- Maps a row of a pane onto its stand-in: REPLACE is raised and the fault recorded (R173). -/
def State.mapRow (s : State) (th : Thread) (pane row : Nat) : State :=
  let c := th.coreOf pane
  let (s1, _) := s.fieldRecord th pane 2 true
  let s2 := (s1.modCore c fun x => { x with mapped := some row }).replace (c / 16)
  { s2.countLasting with dev := { s2.countLasting.dev with flashBusy := true } }

/-- Free values, poisoned, in row ρ of a block partial. -/
def loseRow (row n : Nat) (t : Tag) (cells : Sparse BpCell) : Sparse BpCell :=
  sparseOf {} 0 ((sdense {} 4096 0 cells).zipIdx.map fun x =>
    if x.2 / 64 = row then { bits := Config.freeBp (64 * n + x.2 % 64), mark := some t } else x.1)

/-- Row ρ of an unresolved pass keeps working values that nothing fixes, poisoned with the tag of a new record (R172): in the register
while the pass is its parity's latest, and in the fold that reads it. -/
def State.loseRho (s : State) (th : Thread) (p : Pass) (pane row : Nat) : State :=
  let (s1, tag) := s.fieldRecord th pane 3 false
  let f := loseRow row s1.fresh tag
  let latest := th.m.lastPass.getD (parIx p.par) none == some p.id
  let s2 := if latest then s1.modCore (th.coreOf pane) fun c => { c with bp := modAt c.bp (parIx p.par) f } else s1
  let s3 := s2.modM th.tid fun m => { m with
    unres := true,
    ops := m.ops.map fun o =>
      match o with
      | .fold g => .fold (if g.passId = p.id then { g with part := modAt g.part pane f } else g)
      | o => o }
  { s3 with fresh := s3.fresh + 1 }

/-- The outcome of one conclusion of a pass's stand-in check (R172): `bad` are the mismatches, each pane's with its lowest differing
column; `i` is the pass's place among those not yet retired. -/
def State.concludeCheck (s : State) (th : Thread) (p : Pass) (i : Nat) (bad : List PaneCheck) : State :=
  let retry := fun (t : State) (n : Nat) => t.modPass th.tid p.id fun q =>
    { q with attempt := n, prior := if n = 2 then bad else q.prior, at_ := s.now + 1, left := q.inj, spacing := 0 }
  let done := fun (t : State) =>
    (t.modPass th.tid p.id fun q => { q with concluded := true }).modM th.tid fun m =>
      { m with retryAt := if p.attempt = 1 then m.retryAt else some s.now }
  let transient := fun (t : State) =>
    done ((t.fieldRecord th ((p.prior.map (·.pane)).headD 0) 1 false).1.modM th.tid fun m => { m with trans := min (m.trans + 1) 65535 })
  if p.attempt = 1 then (if bad.isEmpty then done s else retry s 2)
  else if bad.isEmpty then transient s
  else if p.attempt = 2 then
    let lasting := bad.filter fun b => p.prior.any fun q => q.pane == b.pane && q.column == b.column
    let s1 := lasting.foldl (init := s) fun t b => t.mapRow th b.pane (s.rho th b.pane i)
    retry (if lasting.isEmpty then s1 else s1.modM th.tid fun m => { m with lasting := true }) 3
  else done (bad.foldl (init := s) fun t b => t.loseRho th p b.pane (s.rho th b.pane i))

/-- Whether a pass is through the field, its check not concluded: W + 8 cycles after its span (R170). -/
def Pass.checkDue (p : Pass) (r : Rect) (now : Nat) : Bool :=
  !p.concluded && p.left == 0 && decide (p.at_ + p.spacing + passWidth r + 8 ≤ now)

/-- STAND_IN_CHECK: the check of the first pass that is through the field concludes, at issue + D + W + 8, also behind a pass that is being
retried (R170, R172). `panes` are the mismatches the environment reports; a pane whose checking has stopped reports none. -/
def execStandInCheck (tid : Nat) (panes : List PaneCheck) (s : State) : Answer :=
  .next (match s.thread? tid with
    | none => s
    | some th =>
      match th.m.passesIn.zipIdx.find? fun x => x.1.checkDue th.life.rect s.now with
      | none => s
      | some (p, i) =>
        let bad := panes.filter fun b =>
          b.mismatch && decide (b.pane < th.panes) && (s.core (th.coreOf b.pane)).mapped.isNone
        s.concludeCheck th p i bad)

/-! ### macz, mdrain, mload, mchk (R161 to R167) -/

/-- macz (R161): completes two cycles after issue. -/
def execMacz (acc : BitVec 2) (s : State) : Answer :=
  issue s fun k th s1 =>
    if th.m.bankDone s.now acc.toNat then
      let s2 := s1.modCores th.life.rect.cores fun c => { c with acc := setAt c.acc acc.toNat [] }
      .done (s2.modM k.tid fun m => { m with bankAt := setAt m.bankAt acc.toNat (s.now + 2) })
    else .wait .none

/-- Bits of one drained element, and units per 64 elements (R164). -/
def drainWidth : EFmt → Nat
  | .e3m2 | .e2m3 => 6
  | .e2m1 => 4
  | .bf16 => 16
  | .f32 | .i32 => 32
  | .a36 => 64
  | _ => 8

def drainUnits : EFmt → Nat
  | .bf16 => 2
  | .f32 | .i32 => 4
  | .a36 => 8
  | _ => 1

/-- The A36 container of an element (R110). -/
def container (c : AccCell) : Nat :=
  c.bits.toNat + match c.mark with
    | some t => 2 ^ 63 + t.toNat * 2 ^ 51
    | none => 0

/-- One drained element at column x (R163). -/
def drainCode (fmt : EFmt) (rnd : Rnd) (ov : Ov) (int : Bool) (sh : Int) (ph x : Nat) (c : AccCell) : Nat × Flags :=
  match fmt with
  | .a36 => (container c, 0)
  | .i32 => if int then clampElem .s32 c.bits.toInt else numToInt .s32 rnd ((accNum c.bits).scale (-sh))
  | _ => roundFp ((accNum c.bits).scale (-sh)) (narrowFmt fmt) rnd ov (x % 32) ph

/-- Elements of w bits packed into granules from byte 0, each granule with the lowest tag of the elements in it (R106, R163). -/
def packRow (w units : Nat) (xs : List (Nat × Mark)) : List (List (BitVec 8) × Mark) :=
  let v := xs.foldr (fun x a => x.1 % 2 ^ w + 2 ^ w * a) 0
  let bytes := leBytes (64 * units) v
  (List.range units).map fun u =>
    ((bytes.drop (64 * u)).take 64,
      meetAll ((xs.zipIdx.filter fun x => x.2 * w / 512 == u || (x.2 * w + w - 1) / 512 == u).map (·.1.2)))

/-- The rows of a drained pane, each as its granules, with the flags. -/
def drainPane (fmt : EFmt) (rnd : Rnd) (ov : Ov) (int : Bool) (sh : Int) (ph : Nat) (cells : List AccCell) :
    List (List (List (BitVec 8) × Mark)) × Flags :=
  let rows := pieces 64 64 cells
  let out := rows.map fun row =>
    let cs := row.zipIdx.map fun x => (drainCode fmt rnd ov int sh ph x.2 x.1, x.1.mark)
    (packRow (drainWidth fmt) (drainUnits fmt) (cs.map fun c => (c.1.1, c.2)), cs.foldl (fun a c => a ||| c.1.2) (0 : Flags))
  (out.map (·.1), out.foldl (fun a r => a ||| r.2) 0)

/-- Writes a granule of the tile register file; there is none beyond unit 65,535, where the write has no effect (DESIGN CHOICE, log 84). -/
def State.putGran (s : State) (th : Thread) (p u : Nat) (bs : List (BitVec 8)) (k : Mark) : State :=
  if u < 65536 then s.setGran th p u bs k else s

/-- Writes a pane's rows of u granules into its part. -/
def State.putRows (s : State) (th : Thread) (pane base u : Nat) (rows : List (List (List (BitVec 8) × Mark))) : State :=
  rows.zipIdx.foldl (init := s) fun t r =>
    r.1.zipIdx.foldl (init := t) fun v g => v.putGran th pane (base + r.2 * u + g.2) g.1.1 g.1.2

/-- The bank after an mdrain has read it. -/
def State.drained (s : State) (th : Thread) (acc : Nat) (clr : Bool) : State :=
  let s1 := if clr then s.modCores th.life.rect.cores fun c => { c with acc := setAt c.acc acc [] } else s
  s1.modM th.tid fun m => { m with bankAt := setAt m.bankAt acc s.now }

/-- The thread a chain's link on the east edge joins, if it still stands (R185). -/
def State.eastOf (s : State) (th : Thread) : Option Thread := th.life.chainE.bind s.thread?

/-- The 32-column blocks of a chained drain (R165): block b holds, for each pane row, the rows' codes of columns 32b to 32b + 31. -/
def chainBlocks (w : Nat) (rows cols : Nat) (codes : Nat → List (List (Nat × Mark))) : List (List (List (BitVec 8) × Mark)) :=
  (List.range (2 * cols)).map fun b =>
    (List.range rows).flatMap fun pr =>
      (codes (pr * cols + b / 2)).map fun row =>
        (packRow w 1 ((row.drop (32 * (b % 2))).take 32)).headD ([], none)

/-- Writes one block of a chained drain into a tile of the neighbour's A ring: row y goes to the west pane of its pane row (R155, R165). -/
def State.putBlock (s : State) (east : Thread) (base : Nat) (rows : List (List (BitVec 8) × Mark)) : State :=
  rows.zipIdx.foldl (init := s) fun t g => t.putGran east (g.2 / 64 * east.life.rect.cols) (base + g.2 % 64) g.1.1 g.1.2

/-- A delivery of a chained drain begins (R165): its first block goes into the tile that the neighbour's ring gives, FULL 72 + 4 × pcols
cycles later. -/
def State.startBlock (s : State) (th east : Thread) (c : ChainOut) (tk : Taken) (d : Word) : State × ChainOut :=
  ((s.putBlock east (descBase d) (c.blocks.headD [])).modThread east.tid fun e => e.startWrite s.now tk,
    { c with going := some (tk, s.now + 72 + 4 * th.life.rect.cols) })

/-- Whether a chained drain has blocks whose delivery has not begun. -/
def ChainOut.toStart (c : ChainOut) : Bool := decide ((if c.going.isSome then 1 else 0) < c.blocks.length)

/-- Whether an earlier chained drain has blocks whose delivery has not begun: those of a later one come after them (R165). -/
def MState.chainBusy (m : MState) : Bool := m.ops.any fun o => match o with | .chain c => c.toStart | _ => false

/-- mdrain (R162 to R165): a write of a tile waits until the flags of the instructions before it are raised (R119); a chained drain issues
when the neighbour's tail tile is FREE and every block of the chained drains before it has been begun, and its first delivery begins as it
issues. -/
def execMdrain (acc : BitVec 2) (t : TileRef) (ch : Bool) (fmt : EFmt) (rnd : Rnd) (ov : Ov) (int clr : Bool) (dsh : BitVec 6)
    (s : State) : Answer :=
  issue s fun k th s1 =>
    let r := th.life.rect
    let u := drainUnits fmt
    let sh := dsh.toInt
    let ph := th.cnt.dph.toNat
    let dth := rnd == .dth
    let waits := !th.m.bankDone s.now acc.toNat ||
      (dth && (th.phaseDue .m || th.m.ops.any fun o => match o with | .drain d => d.dth | .chain c => c.dth | _ => false))
    let waitsTile := waits || th.m.flagsToCome
    let panes := fun (_ : Unit) => (List.range th.panes).map fun i => drainPane fmt rnd ov int sh ph (s.bank (th.coreOf i) acc.toNat)
    let flagsOf := fun (ps : List (List (List (List (BitVec 8) × Mark)) × Flags)) => ps.foldl (fun a x => a ||| x.2) (0 : Flags)
    if ch then
      match s.eastOf th, t with
      | some east, .ring n =>
        match east.descOf s.now (.ring n) with
        | some d =>
          if !geomIs d (64 * r.rows) 1 then .trap (illegal)
          else if waitsTile then .wait .none
          else
            let codes := fun (i : Nat) => (pieces 64 64 (s.bank (th.coreOf i) acc.toNat)).map fun row =>
              row.zipIdx.map fun x => ((drainCode fmt rnd ov int sh ph x.2 x.1).1, x.1.mark)
            let (s2, id) := (s1.drained th acc.toNat clr).newId
            let c : ChainOut :=
              { id := id, ring := n.toNat, blocks := chainBlocks (drainWidth fmt) r.rows r.cols codes, flags := flagsOf (panes ()),
                dth := dth }
            if th.m.chainBusy then .wait .tile else
            match east.writer s.now (.ring n) with
            | .ok tk dd =>
              let (s3, c1) := s2.startBlock th east c tk dd
              .done (s3.modM k.tid fun m => { m with ops := m.ops ++ [.chain c1] })
            | _ => .wait .tile
        | none => .trap (illegal)
      | _, _ => .trap (illegal)
    else if t = .tile 255 then
      if waits then .wait .none
      else .done ((s1.drained th acc.toNat clr).modThread k.tid fun v => v.flagsAt s.now .m (flagsOf (panes ())) dth)
    else
      match th.descOf s.now t with
      | none => .trap (illegal)
      | some d =>
        if !geomIs d (64 * r.rows) (u * r.cols) then .trap (illegal)
        else
          withWriter th s.now t (.trap (illegal)) fun tk dd =>
            if waitsTile then .wait .none
            else
              let ps := panes ()
              let s2 := ps.zipIdx.foldl (init := s1.drained th acc.toNat clr) fun v x => v.putRows th x.2 (descBase dd) u x.1.1
              let (s3, id) := s2.newId
              let dr : Drain := { id := id, taken := tk, due := s.now + 8 + 64 * u, flags := flagsOf ps, dth := dth }
              .done (s3.modThread k.tid fun v =>
                let v1 := v.startWrite s.now tk
                { v1 with m := { v1.m with ops := v1.m.ops ++ [.drain dr] } })

/-- MDRAIN_COMPLETE: the first drain that is due writes its last byte: its tile goes FULL, and at the end of the cycle its flags are raised
and a dithered one advances the phase (R115, R119, R164). -/
def execMdrainComplete (tid : Nat) (s : State) : Answer :=
  .next (match s.thread? tid with
    | none => s
    | some th =>
      match th.m.ops.filterMap fun o => match o with | .drain d => if d.due ≤ s.now then some d else none | _ => none with
      | [] => s
      | d :: _ =>
        s.modThread tid fun t =>
          let t1 := (t.endWrite s.now d.taken).flagsAt s.now .m d.flags d.dth
          { t1 with m := { t1.m with ops := dropOp d.id t1.m.ops } })

/-- The chained drain with its first delivery over, or gone when that was its last. -/
def MState.afterBlock (m : MState) (c : ChainOut) : MState :=
  { m with ops := if c.blocks.isEmpty then dropOp c.id m.ops else m.ops.map fun o =>
      match o with
      | .chain x => if x.id = c.id then .chain c else .chain x
      | o => o }

/-- The chained drains of a thread, in program order. -/
def MState.chains (m : MState) : List ChainOut := m.ops.filterMap fun o => match o with | .chain c => some c | _ => none

/-- The chained drain that moves on: the first whose delivery in progress ends, else the first with none in progress. -/
def MState.nextChain (m : MState) (now : Nat) : Option ChainOut :=
  (m.chains.find? fun c => match c.going with | some g => decide (g.2 ≤ now) | none => false).orElse fun _ =>
    m.chains.find? fun c => c.going.isNone

/-- CHAIN_DELIVERY: a delivery of a chained drain that is in progress ends 72 + 4 × pcols cycles after it began, or the next one starts once
the neighbour's tail tile is FREE (R165). With the link gone the blocks left have no destination (log 17). -/
def execChainDelivery (tid : Nat) (s : State) : Answer :=
  .next (match s.thread? tid with
    | none => s
    | some th =>
      match if (s.eastOf th).isNone then th.m.chains.head? else th.m.nextChain s.now with
      | none => s
      | some c =>
        let fin := fun (t : State) => t.modThread tid fun v => v.flagsAt s.now .m c.flags c.dth
        match s.eastOf th with
        | none => fin (s.modM tid fun m => { m with ops := dropOp c.id m.ops })
        | some east =>
          match c.going with
          | some (tk, due) =>
            if due ≤ s.now then
              let c1 := { c with going := none, blocks := c.blocks.tail }
              let s1 := (s.modThread east.tid fun e => e.endWrite s.now tk).modM tid fun m => m.afterBlock c1
              if c1.blocks.isEmpty then fin s1 else s1
            else s
          | none =>
            match c.blocks, east.writer s.now (.ring (BitVec.ofNat 5 c.ring)) with
            | _ :: _, .ok tk d =>
              let (s1, c1) := s.startBlock th east c tk d
              s1.modM tid fun m => m.afterBlock c1
            | [], _ => s.modM tid fun m => { m with ops := dropOp c.id m.ops }
            | _, _ => s)

/-- One element that mload reads from a pane's row of u granules (R166). -/
def loadCell (fmt : EFmt) (row : List (List (BitVec 8) × Mark)) (x : Nat) : AccCell :=
  let w := drainWidth fmt / 8
  let g := row.getD (x * w / 64) ([], none)
  let v := leNat ((g.1.drop (x * w % 64)).take w)
  match fmt with
  | .a36 => { bits := BitVec.ofNat 36 v, mark := if v / 2 ^ 63 % 2 = 1 then some (BitVec.ofNat 12 (v / 2 ^ 51)) else none }
  | .i32 => { bits := (BitVec.ofNat 32 v).signExtend 36, mark := g.2 }
  | _ => { bits := BitVec.ofNat 36 (roundFp (decodeNum .f32 v) .a36 .rne .dflt 0 0).1, mark := g.2 }

/-- mload (R166). -/
def execMload (acc : BitVec 2) (t : TileRef) (fmt : EFmt) (s : State) : Answer :=
  issue s fun k th s1 =>
    let r := th.life.rect
    let u := drainUnits fmt
    match th.descOf s.now t with
    | none => .trap (illegal)
    | some d =>
      if t = .tile 255 || !geomIs d (64 * r.rows) (u * r.cols) then .trap (illegal)
      else
        withConsumer th s.now t fun tk dd =>
          if !th.m.bankDone s.now acc.toNat then .wait .none
          else
            let s2 := (List.range th.panes).foldl (init := s1) fun v i =>
              v.setBank (th.coreOf i) acc.toNat ((List.range 64).flatMap fun row =>
                let gs := (List.range u).map fun j => s.gran th i (descBase dd + row * u + j)
                (List.range 64).map fun x => loadCell fmt gs x)
            let (s3, id) := s2.newId
            .done (s3.modThread k.tid fun v =>
              let v1 := v.startRead s.now tk
              { v1 with m := { v1.m with ops := v1.m.ops ++ [.load ⟨id, acc.toNat, tk, s.now + 8 + 64 * u⟩] } })

/-- MLOAD_COMPLETE: the first load that is due completes; a ring tile goes FREE (R166, R170). -/
def execMloadComplete (tid : Nat) (s : State) : Answer :=
  .next (match s.thread? tid with
    | none => s
    | some th =>
      match th.m.ops.filterMap fun o => match o with | .load l => if l.due ≤ s.now then some l else none | _ => none with
      | [] => s
      | l :: _ =>
        s.modThread tid fun t =>
          let t1 := t.endRead s.now l.taken
          { t1 with m := { t1.m with ops := dropOp l.id t1.m.ops, bankAt := setAt t1.m.bankAt l.acc s.now } })

/-- The word mchk writes (R167). -/
def mchkWord (s : State) (th : Thread) : Word :=
  let nochk := th.life.rect.cores.any fun c => (s.core c).mapped.isSome
  wordFields [(th.m.trans, 32), (th.m.passes, 16), (b2n th.m.lasting, 15), (b2n nochk, 14), (b2n th.m.unres, 13)]

/-- mchk: a word-tile writer, once every earlier mma has retired before this cycle; its tile is FULL at issue + 2, for a wait tested from the
cycle after (R167, R170). -/
def execMchk (t : TileRef) (s : State) : Answer :=
  issue s fun k th s1 =>
    if !th.m.passesIn.isEmpty || th.m.passAt == some s.now || (t != .tile 255 && th.m.flagsToCome) then
      match th.writer s.now t with
      | .bad => .trap (illegal)
      | _ => .wait .none
    else
      withWriter th s.now t (.done s1) fun tk d =>
        .done ((s1.setGran th 0 (descBase d) (wtwBytes (mchkWord s th)) none).modThread k.tid fun u =>
          (u.startWrite s.now tk).modTile tk.tile fun y => { y with prev := .filling, st := .full, since := s.now + 3 })

end Sys2Proof.Machine
end

