-- ==== Sys2Proof/Machine/Messaging.lean ====
section
/-! DEFINITION. Messages, atomics, fences, groups and the Carousel: send, sendf, flag, gamo, fence, gjoin, gleave, gbar, and the events
that carry and deliver packets (spec/11_ordering.md R219 to R240). -/

namespace Sys2Proof.Machine

/-! ### Destination words (R219) -/

def dstFlagw (w : Word) : Nat := fieldNat w 63 43
def dstPkg (w : Word) : Nat := fieldNat w 42 31
def dstDie (w : Word) : Nat := fieldNat w 30 28
def dstCore (w : Word) : Nat := fieldNat w 27 24
def dstOff (w : Word) : Nat := fieldNat w 23 0

/-! ### The Carousel (R236 to R240) -/

/-- The next stop in a direction. -/
def nextStop (stop : Nat) (cw : Bool) : Nat := if cw then (stop + 1) % 8 else (stop + 7) % 8

/-- The input port of a stop, by the direction of the packets that enter it. -/
def portIx (stop : Nat) (cw : Bool) : Nat := 2 * stop + (if cw then 0 else 1)

def State.port (s : State) (k : Nat) : Port := s.ports.getD k {}

def State.modPort (s : State) (k : Nat) (f : Port → Port) : State := { s with ports := modAt s.ports k f }

/-- Hops from one stop to another in a direction. -/
def hops (a b : Nat) (cw : Bool) : Nat := if cw then (b + 8 - a) % 8 else (a + 8 - b) % 8

/-- Whether no link of a path is dead. -/
def State.pathAlive (s : State) (cw : Bool) : Nat → Nat → Bool
  | 0, _ => true
  | n + 1, stop => let t := nextStop stop cw; !(s.port (portIx t cw)).dead && s.pathAlive cw n t

/-- The egress port for a package (R240). -/
def egressPort (p : Nat) : Nat := (11 * p + p / 36) % 36

/-- The stop of a fabric port (R240). -/
def portStop (e : Nat) : Nat := if e < 32 then e / 4 else 2 * (e - 32)

/-- The direction a packet takes: the one forced, or the shorter one, clockwise at four hops; an unforced packet turns away from a dead
link. None when no way is left (R236). -/
def State.direction (s : State) (route : Route) (a b : Nat) : Option Bool :=
  let alive := fun (cw : Bool) => s.pathAlive cw (hops a b cw) a
  match route with
  | .cw => if alive true then some true else none
  | .ccw => if alive false then some false else none
  | .short =>
    let cw := decide (hops a b true ≤ 4)
    if alive cw then some cw else if alive (!cw) then some (!cw) else none

/-! ### Launching and settling packets -/

/-- What becomes of a packet (R222, R225, R228). -/
inductive Fate where
  | delivered (poisoned : Nat)
  | refused
  | dead
  deriving DecidableEq, Repr

/-- The permits that a packet's slots will give back. -/
def Slots.add (a b : Slots) : Slots := { sh := a.sh + b.sh, ma := a.ma + b.ma, mb := a.mb + b.mb, fb := a.fb + b.fb }

/-- The permits that a packet's slots owe, in the order in which its flits free them: its leading flits hold the reserved class, its
trailing ones SH (R237). -/
def Slots.owed (h : Slots) (pkt : Nat) : List Owed :=
  List.replicate h.ma ⟨pkt, 1⟩ ++ List.replicate h.mb ⟨pkt, 2⟩ ++ List.replicate h.fb ⟨pkt, 3⟩ ++ List.replicate h.sh ⟨pkt, 0⟩

/-- A packet leaves the port it is in: its slots are owed to the upstream count (R238). -/
def State.leavePort (s : State) (p : Packet) : State :=
  match p.wher with
  | .port stop cw => s.modPort (portIx stop cw) fun q => { q with owed := q.owed ++ p.held.owed p.id }
  | _ => s

/-- A command one of whose packets was refused or failed: the first such element is kept. -/
def Cmd.fail (c : Cmd) (e : Nat) : Cmd := { c with bad := some (min e (c.bad.getD e)) }

/-- Counts the end of a packet for its sender (R228): one that has been given up counts nothing more. -/
def State.countFate (s : State) (p : Packet) (f : Fate) : State :=
  if p.lost then s
  else
    let s1 := s.modCmd p.tid p.cmd fun c =>
      let c1 := { c with packets := c.packets.filter (· != p.id) }
      match f with
      | .delivered _ => c1
      | _ => c1.fail p.elem
    match f with
    | .delivered n => s1.countFence p.tid fun c => c.addPoisoned n
    | .refused => s1.countFence p.tid fun c => c.addRefused 1
    | .dead => s1.countFence p.tid fun c => c.addDead 1

/-- A packet is done with; what becomes of one from another package is that package's to count. -/
def State.settlePacket (s : State) (p : Packet) (f : Fate) : State :=
  let s0 := s.leavePort p
  let s1 := if p.src = s.dev.pkg.toNat then s0.countFate p f else s0
  { s1 with packets := s1.packets.filter fun q => q.id != p.id }

/-- Launches a packet from a die (R220, R236, R240): on its own die it goes core to core, otherwise by the Carousel to the destination die
or to its egress port's stop; for an unknown package, or with no way left, it fails, counted DEAD. -/
def State.launch (s : State) (p : Packet) (route : Route) : State :=
  let (s1, id) := s.newId
  let own := decide (p.pkg = s.dev.pkg.toNat)
  let exit := if own then p.die else portStop (egressPort p.pkg)
  let p1 := { p with id := id, src := s.dev.pkg.toNat, exitStop := exit, forced := route != .short }
  let s2 := s1.modCmd p.tid p.cmd fun c => { c with packets := c.packets ++ [id] }
  if !own && (s.dev.unknown.contains p.pkg || s.fabDead.getD (egressPort p.pkg) false) then s2.countFate p1 .dead
  else if exit = p.srcDie then
    { s2 with packets := s2.packets ++ [{ p1 with wher := if own then .core else .fabric }] }
  else
    match s.direction route p.srcDie exit with
    | none => s2.countFate p1 .dead
    | some cw => { s2 with packets := s2.packets ++ [{ p1 with cw := cw }] }

/-- A packet of another package enters this one at the fabric port for that package, whose stop it starts from (R240): on the destination
die it is at its core; otherwise the Carousel carries it; at a dead fabric port, or with no way left, it is that package's to count. -/
def State.arrival (s : State) (p : Packet) : State :=
  let own := s.dev.pkg.toNat
  if p.src = own || p.pkg != own || s.dev.unknown.contains p.src || s.fabDead.getD (egressPort p.src) false then s
  else
    let (s1, id) := s.newId
    let p1 : Packet :=
      { p with id := id, lost := false, after := none, srcDie := portStop (egressPort p.src), exitStop := p.die, forced := false,
               wher := .source, mainB := false, foot := false, held := {} }
    if p.die = p1.srcDie then { s1 with packets := s1.packets ++ [{ p1 with wher := .core }] }
    else
      match s.direction .short p1.srcDie p.die with
      | none => s1
      | some cw => { s1 with packets := s1.packets ++ [{ p1 with cw := cw }] }

/-- Flits of a packet (R220). -/
def Packet.flits (p : Packet) : Nat := (8 * p.data.length + 511) / 512

/-- The stop a packet waits at for a link, if it waits for one. -/
def Packet.stop? (p : Packet) : Option Nat :=
  match p.wher with
  | .source => some p.srcDie
  | .port k _ => if k = p.exitStop then none else some k
  | _ => none

def Packet.inRing (p : Packet) : Bool :=
  match p.wher with
  | .port .. => true
  | _ => false

/-- Whether another packet that waits for the same link goes first: those in the ring before injections, the oldest first (R237). -/
def goesBefore (q p : Packet) : Bool :=
  q.stop? == p.stop? && q.cw == p.cw && q.id != p.id &&
    ((q.inRing && !p.inRing) || (q.inRing == p.inRing && decide (q.id < p.id)))

/-- Takes n places from two classes, the own one first (R237). -/
def takeFrom (own : Nat) (n : Nat) : Nat × Nat := (min n own, n - min n own)

/-- place (R237): the slots taken and whether the packet is on the Footbridge from now on; none when it must wait. -/
def placeIn (h : Slots) (n : Nat) (mb foot : Bool) : Option (Slots × Bool) :=
  let own := if mb then h.mb else h.ma
  if !foot && decide (n ≤ h.sh) then some ({ sh := n }, false)
  else if !foot && decide (n ≤ own + h.sh) then
    let (a, b) := takeFrom own n
    some (if mb then { sh := b, mb := a } else { sh := b, ma := a }, false)
  else if n ≤ h.fb + h.sh then
    let (a, b) := takeFrom h.fb n
    some ({ sh := b, fb := a }, true)
  else none

/-- Slots taken away. -/
def Slots.sub (a b : Slots) : Slots := { sh := a.sh - b.sh, ma := a.ma - b.ma, mb := a.mb - b.mb, fb := a.fb - b.fb }

/-- The permit counts as they stood at the start of this cycle: what came back in it counts from the next (R343). -/
def Port.counts (q : Port) (now : Nat) : Slots := if q.backAt = now then q.have_.sub q.back else q.have_

/-- One slot of a class. -/
def Slots.one : Nat → Slots
  | 0 => { sh := 1 }
  | 1 => { ma := 1 }
  | 2 => { mb := 1 }
  | _ => { fb := 1 }

/-- Drops the first permit of a class that is owed for a packet with no earlier flit's permit before it; none if there is no such. -/
def payOwed (cls : Nat) : List Nat → List Owed → Option (List Owed)
  | _, [] => none
  | before, o :: r =>
    if o.cls = cls && !before.contains o.pkt then some r else (payOwed cls (o.pkt :: before) r).map (o :: ·)

/-- Whether a hop crosses the Landing, between stops 7 and 0. -/
def crosses (stop : Nat) (cw : Bool) : Bool := if cw then stop == 7 else stop == 0

/-- PACKET_PLACE (R237, R239, R240, R343): moves the head of a waiting packet over its next link once places are taken for all its flits,
by the counts as they stood at the start of the cycle, one packet on a link in a cycle. A dead link ahead fails it, unless it still stands at
its source, unforced, with another way to go. -/
def execPacketPlace (pkt : Nat) (s : State) : Answer :=
  match s.packets.find? fun p => p.id == pkt with
  | none => .next s
  | some p =>
    match p.stop? with
    | none => .next s
    | some stop =>
      let turn := s.direction .short p.srcDie p.exitStop
      let cw := if p.inRing || p.forced || s.pathAlive p.cw (hops p.srcDie p.exitStop p.cw) p.srcDie then p.cw else turn.getD p.cw
      let t := nextStop stop cw
      let k := portIx t cw
      let p1 := { p with cw := cw }
      if (s.port k).dead then .next (s.settlePacket p .dead)
      else if (s.port k).placedAt == some s.now || s.packets.any fun q => goesBefore q p1 then .next s
      else
        let mb := p.mainB || crosses stop cw
        match placeIn ((s.port k).counts s.now) p.flits mb p.foot with
        | none => .next s
        | some (h, foot) =>
          let s1 := (s.leavePort p).modPort k fun q => { q with have_ := q.have_.sub h, placedAt := some s.now }
          let p2 := { p1 with wher := .port t cw, mainB := mb, foot := p.foot || foot, held := h }
          .next { s1 with packets := s1.packets.map fun q => if q.id = pkt then p2 else q }

/-- PERMIT_RETURN (R237, R238, R343): a permit that a freed slot owes returns to the upstream count, of one packet its leading flits'
first, and counts from the next cycle. -/
def execPermitReturn (port cls : Nat) (s : State) : Answer :=
  .next (s.modPort port fun q =>
    match payOwed cls [] q.owed with
    | none => q
    | some r =>
      { q with
        owed := r, have_ := q.have_.add (Slots.one cls), backAt := s.now,
        back := if q.backAt = s.now then q.back.add (Slots.one cls) else Slots.one cls })

/-! ### Admission and delivery (R223, R225) -/

/-- Whether a window admits n bytes at an offset from a sender (R224, R225). -/
def winAdmits (w : Word) (pkg part off n : Nat) : Bool :=
  bitOf w 63 && (bitOf w 62 || fieldNat w 60 49 == pkg) && (bitOf w 61 || fieldNat w 48 45 == part) &&
    decide (64 * fieldNat w 17 0 ≤ off) && decide (off + n ≤ 64 * fieldNat w 35 18 + 64)

/-- Whether a partition's reset is in progress: its own command, or a device reset, or the reset of the die that DARG0 named as it was accepted,
where that names one (R225, R328, R333). -/
def State.resetting (s : State) (p : Nat) : Bool :=
  ((s.part p).cmd.busy && (s.part p).cmd.op == 4) ||
    (s.dev.cmd.busy && (s.dev.cmd.op == 6 ||
      (s.dev.cmd.op == 5 && match s.dev.cmd.inv with
        | some (d, _) => decide (d.toNat < 8) && (s.partsOn d.toNat).contains p
        | none => false)))

/-- Whether a core admits a packet: never when it belongs to no partition, is disabled, or its partition is quiesced or being reset
(R225, R321). -/
def State.admits (s : State) (core pkg part off n : Nat) : Bool :=
  match s.partOf core with
  | none => false
  | some p =>
    !(s.core core).disabled && !(s.part p).quiesced && !s.resetting p && (s.core core).wins.any fun w => winAdmits w pkg part off n

/-- Writes whole words into a core's scratchpad as requester X (R223). -/
def State.putWords (s : State) (core off : Nat) (ws : List (Word × Mark)) : State :=
  s.modCore core fun c => { c.spFresh (wordsFrom off (8 * ws.length)) with sp := c.sp.spWords off ws }

/-- Whether a packet is where it is delivered: at its core, at its destination's stop, or in the fabric. -/
def Packet.there (p : Packet) : Bool :=
  match p.wher with
  | .port k _ => k == p.exitStop
  | .source => false
  | _ => true

/-- Whether a packet's core takes it: what its head met, where some of it is written already (R225). -/
def State.takesPacket (s : State) (p : Packet) : Bool :=
  p.taken.isSome || s.admits (16 * p.die + p.core) p.src p.part p.off (8 * p.data.length)

/-- Writes the words of a packet up to its n-th that are not yet written, in increasing order, each once (R223). -/
def State.putPacket (s : State) (p : Packet) (n : Nat) : State :=
  let k := p.taken.getD 0
  s.putWords (16 * p.die + p.core) (p.off + 8 * k) ((p.data.take n).drop k)

/-- The first n words of a packet that is being delivered to a core of this package are written, if the core admits it as its head comes; its
delivery writes the others (R223, R225). -/
def State.deliverWords (s : State) (pkt n : Nat) : State :=
  match s.packets.find? fun p => p.id == pkt with
  | none => s
  | some p =>
    if p.there && p.pkg == s.dev.pkg.toNat && s.takesPacket p then
      { s.putPacket p n with packets := s.packets.map fun q => if q.id = pkt then { q with taken := some (max n (p.taken.getD 0)) } else q }
    else s

/-- Poisoned words of a payload. -/
def poisonedWords (ws : List (Word × Mark)) : Nat := (ws.filter fun w => w.2.isSome).length

/-- After a delivered result block's payload its die sends the flag; after a refused one it does not (R293). -/
def State.sendAfter (s : State) (p : Packet) : State :=
  match p.after with
  | none => s
  | some (off, w) => s.launch { p with off := off, data := [(w, none)], after := none, wher := .source, mainB := false, foot := false,
                                       held := {}, taken := none } .short

/-- PACKET_DELIVERY (R222, R223, R225, R240): a packet that has reached its core, or its destination's stop, is admitted or refused there, once;
one for another package leaves by its fabric port, and that package decides. -/
def execPacketDelivery (pkt : Nat) (peerAdmits : Bool) (s : State) : Answer :=
  match s.packets.find? fun p => p.id == pkt with
  | none => .next s
  | some p =>
    if !p.there then .next s
    else if p.pkg = s.dev.pkg.toNat then
      if s.takesPacket p then
        .next (((s.putPacket p p.data.length).sendAfter p).settlePacket p (.delivered (poisonedWords p.data)))
      else .next (s.settlePacket p .refused)
    else if s.fabDead.getD (egressPort p.pkg) false then .next (s.settlePacket p .dead)
    else if peerAdmits then .next ((s.sendAfter p).settlePacket p (.delivered (poisonedWords p.data)))
    else .next (s.settlePacket p .refused)

/-- WRITE_TIMEOUT (R228): counts one TIMEOUT. A packet not acknowledged in time is failed for its sender; whether its bytes are written
later stays open. A thread at rest has none under way: its store has waited for them (R214; log 77). -/
def execWriteTimeout (tid : Nat) (what : Unacked) (s : State) : Answer :=
  match what with
  | .packet =>
    match s.packets.find? fun p => p.tid == tid && p.src == s.dev.pkg.toNat && !p.lost with
    | none => .next s
    | some p =>
      let s1 := s.modCmd tid p.cmd fun c => { c with packets := c.packets.filter (· != p.id) }.fail p.elem
      let s2 : State := { s1 with packets := s1.packets.map fun (q : Packet) => if q.id = p.id then { q with lost := true } else q }
      .next (s2.countFence tid fun c => c.addTimeout 1)
  | .write =>
    match s.thread? tid with
    | none => .next s
    | some th =>
      if th.life.phase.active && th.a.cmds.any fun c => c.need != .rd && decide (0 < c.elem) then .next (s.countFence tid fun c => c.addTimeout 1) else .next s

/-! ### The send family -/

/-- The checks of R221 that follow those for poison: reserved bits, then bounds. -/
def sendCheck (panes : Nat) (dst src : Word) (flagged plain : Bool) (h : Head) : Head :=
  let len := if plain then 8 else sendLen src
  if (!flagged && dstFlagw dst != 0) || (!plain && fieldNat src 31 28 != 0) then .trap (illegal)
  else if dstOff dst % 8 != 0 || len % 8 != 0 || decide (spBytes < dstOff dst + len) ||
      (!plain && !(decide (sendSrc src / 2 ^ 24 < panes) && sendSrc src % 8 == 0 &&
        decide (sendSrc src % 2 ^ 24 + len ≤ spBytes))) ||
      (flagged && decide (0xBFFFF8 < 8 * dstFlagw dst)) then .trap bounds
  else h

/-- Packets of a payload (R220). -/
def packetCount (len : Nat) : Nat := (len + 4095) / 4096

/-- send: of no bytes it completes at once (R221, R222). -/
def execSend (route : Route) (dst src : Src) (s : State) : Answer :=
  issue s fun k th s1 =>
    let a := (th.regs .a).read dst
    let b := (th.regs .a).read src
    consume [a, b] <|
      sendCheck th.panes a.bits b.bits false false <|
        if sendLen b.bits = 0 then .done s1
        else
          withSlot th (issueCmd s1 k { cmdOf k (.send route dst src) a b {} with total := packetCount (sendLen b.bits) } fun u _ => u)

/-- sendf (R221, R222). -/
def execSendf (route : Route) (dst : Src) (src : Opnd) (val : Src) (s : State) : Answer :=
  issue s fun k th s1 =>
    let a := (th.regs .a).read dst
    let b := (th.regs .a).readOpnd src
    let v := (th.regs .a).read val
    ready [v] <|
      consume [a, b] <|
        sendCheck th.panes a.bits b.bits true false <|
          withSlot th <|
            issueCmd s1 k { cmdOf k (.sendf route dst src val) a b v with total := packetCount (sendLen b.bits) + 1 } fun u _ => u

/-- flag (R221, R222). -/
def execFlag (route : Route) (dst : Src) (val : Opnd) (s : State) : Answer :=
  issue s fun k th s1 =>
    let a := (th.regs .a).read dst
    let v := (th.regs .a).readOpnd val
    consume [a, v] <|
      sendCheck th.panes a.bits 0 false true <|
        withSlot th (issueCmd s1 k (cmdOf k (.flag route dst val) a v {}) fun u _ => u)

/-- A packet of a command, about to be launched. -/
def packetOf (th : Thread) (c : Cmd) (off : Nat) (data : List (Word × Mark)) : Packet :=
  { id := 0, src := 0, tid := th.tid, cmd := c.id, part := th.life.part, pkg := dstPkg c.a.bits, die := dstDie c.a.bits, core := dstCore c.a.bits,
    off := off, data := data, srcDie := th.life.rect.die, exitStop := 0, cw := true, forced := false }

/-- Launches packet e of a send's payload, reading its bytes now (R220, R222). -/
def State.sendPayload (s : State) (th : Thread) (c : Cmd) (route : Route) : State :=
  let n := min 4096 (sendLen c.b.bits - 4096 * c.elem)
  let ea := sendSrc c.b.bits + 4096 * c.elem
  let s1 := s.spTouch th ea n
  (s1.launch { packetOf th c (dstOff c.a.bits + 4096 * c.elem) (s1.spWords th ea (n / 8)) with elem := c.elem } route).cmdDone1 th.tid c.id

/-- Whether an earlier send of the same stream to the same core still has something to write (R222). -/
def Thread.sendAhead (th : Thread) (c : Cmd) : Bool :=
  (th.cmdsBefore c.id).any fun o =>
    match o.instr with
    | .send .. | .sendf .. | .flag .. => o.a.bits.extractLsb' 24 19 == c.a.bits.extractLsb' 24 19
    | _ => false

/-- Performs the next element of a send: payload packets in order; a sendf's flag once every payload packet has been delivered, not at all
when one was refused or failed; a flag after every earlier send to its core. -/
def State.sendElem (s : State) (th : Thread) (c : Cmd) : State :=
  match c.instr with
  | .send route .. => s.sendPayload th c route
  | .sendf route .. =>
    if c.elem + 1 < c.total then s.sendPayload th c route
    else if !c.packets.isEmpty then s
    else if c.bad.isSome then (s.countFence th.tid fun f => f.addRefused 1).cmdDone1 th.tid c.id
    else (s.launch (packetOf th c (8 * dstFlagw c.a.bits) [(c.t.bits, c.t.mark)]) route).cmdDone1 th.tid c.id
  | .flag route .. =>
    if th.sendAhead c then s else (s.launch (packetOf th c (dstOff c.a.bits) [(c.b.bits, none)]) route).cmdDone1 th.tid c.id
  | _ => s

/-! ### Atomics (R226) -/

/-- The new contents of a gamo. -/
def gamoNew (op : GamoOp) (o v e : Int) : Int :=
  match op with
  | .add => o + v
  | .xchg => v
  | .cas => if o = e then v else o
  | .min => if o ≤ v then o else v
  | .max => if v ≤ o then o else v
  | .incb => if o < v then o + 1 else o

/-- gamo: outside the extent under clamp-and-zero nothing is performed and 0 is pushed. -/
def execGamo (op : GamoOp) (ws : WS) (r : BitVec 8) (off : Src) (val : Opnd) (c : Src) (d : Dst) (s : State) : Answer :=
  issue s fun k th s1 =>
    let o := (th.regs .a).read off
    let v := (th.regs .a).readOpnd val
    let e := match op with
      | .cas => (th.regs .a).read c
      | _ => Val.ofWord 0
    ready [v, e] <|
      consume [o] <|
        withRec th r fun rc =>
          match byteVa rc o.bits.toInt with
          | .out => .trap bounds
          | .zero => .done (s1.pushWord k 0 d)
          | .at_ va =>
            if va % ws.w.size != 0 then .trap bounds
            else
              withSlot th <|
                issueCmd s1 k { cmdOf k (.gamo op ws r off val c d) o v e with brec := rc } fun u id => u.push k { wait := some id } d

/-- An atomic as it is performed on a line: the old value with the line's mark, and the bytes and mark written (R94, R226). -/
def gamoLine (op : GamoOp) (w : Width) (sgn : Bool) (old : List (BitVec 8) × Mark) (v e : Val) : Val × List (BitVec 8) × Mark :=
  let o := extW (wordOf old.1) w.bits sgn
  let n := gamoNew op o (extW v.bits w.bits sgn) (extW e.bits w.bits sgn)
  let k := meetAll (old.2 :: v.mark :: match op with | .cas => [e.mark] | _ => [])
  ({ bits := wrapW o w.bits sgn, mark := old.2 }, leBytes w.size (wrapW n w.bits sgn).toNat, k)

/-- Performs a gamo at its line's home; host memory is not performed on (R226). -/
def State.gamoElem (s : State) (th : Thread) (c : Cmd) : State :=
  match c.instr, (s.cmdPhys th c 0).headD none with
  | .gamo op ws .., some pa =>
    let put := fun (t : State) (v : Val) => t.modCmd th.tid c.id fun x => { x with elem := 1, got := some v }
    if (s.homeOf (pa / 64)).isHost then put (s.countFence th.tid fun f => f.addRefused 1) (Val.ofWord 0)
    else
      let g := s.mem.line (pa / 64)
      let (v, bs, k) := gamoLine op ws.w ws.s ((g.1.drop (pa % 64)).take ws.w.size, g.2) c.b c.t
      put (s.writePhys th.tid ((List.range bs.length).map fun i => (pa + i, bs.getD i 0, k))) v
  | _, _ => s

/-- GAMO_RETURN (R226): the value reaches the belt. -/
def execGamoReturn (tid id : Nat) (s : State) : Answer :=
  match (s.thread? tid).bind fun th => th.cmd? id with
  | none => .next s
  | some c =>
    match c.got with
    | none => .next s
    | some v => .next ((s.deliver tid id v).dropCmd tid id)

/-! ### Fences (R227, R228) -/

/-- fence. -/
def execFence (sc : Scope) (d : Dst) (s : State) : Answer :=
  issue s fun k th s1 =>
    withSlot th <| issueCmd s1 k (cmdOf k (.fence sc d) {} {} {}) fun u id => u.push k { wait := some id } d

/-- The fence status word. -/
def FenceCounts.word (f : FenceCounts) : Word := wordFields [(f.dead, 48), (f.refused, 32), (f.poisoned, 16), (f.timeout, 0)]

/-- Whether a line is homed in this package. -/
def State.homedHere (s : State) (l : Nat) : Bool :=
  match s.homeOf l with
  | .die _ => true
  | _ => false

/-- Whether another thread is a member of a group that a thread belongs to. -/
def State.hasFellow (s : State) (th : Thread) : Bool :=
  (s.part th.life.part).groups.any fun e => match e.2 with
    | some g => g.members.contains th.tid && g.members.any (· != th.tid)
    | none => false

/-- Whether a fence of a scope waits for a late write of its thread: at sys for every one; at dev for those homed in this package; at grp for
the same where another thread is a member of its groups (R227). -/
def State.fenceWaits (s : State) (th : Thread) (sc : Scope) : Bool :=
  match sc with
  | .sys => s.hasLate th.tid fun _ => true
  | .dev => s.hasLate th.tid s.homedHere
  | .grp => s.hasFellow th && s.hasLate th.tid s.homedHere

/-- FENCE_COMPLETE: once every earlier command of the stream has completed and the writes of its scope are seen, the status is pushed and the
counts are cleared. A packet is settled when its bytes are written, so of sends the scopes add nothing (log 18). -/
def execFenceComplete (tid id : Nat) (s : State) : Answer :=
  match s.thread? tid with
  | none => .next s
  | some th =>
    match th.cmd? id with
    | none => .next s
    | some c =>
      match c.instr with
      | .fence sc _ =>
        if c.parked || !(th.cmdsBefore id).isEmpty || !th.engineOn c || s.fenceWaits th sc then .next s
        else
          .next (((s.deliver tid id (Val.ofWord th.a.fence.word)).countFence tid fun _ => {}).dropCmd tid id)
      | _ => .next s

/-! ### Groups and barriers (R232, R233) -/

def Part.group? (p : Part) (g : Nat) : Option Group := sget none p.groups g

def Part.setGroup (p : Part) (g : Nat) (x : Option Group) : Part := { p with groups := sset none p.groups g x }

/-- The table entry of a key. -/
def Part.findGroup (p : Part) (key : Word) : Option (Nat × Group) :=
  p.groups.findSome? fun e => match e.2 with
    | some g => if g.key = key then some (e.1, g) else none
    | none => none

/-- The free entry of lowest index. -/
def Part.freeGroup (p : Part) : Option Nat := (List.range 256).find? fun i => (p.group? i).isNone

/-- The status word of the group instructions (R232). -/
def groupStatus (count idx code : Nat) : Word := wordFields [(count, 16), (idx, 8), (code, 0)]

/-- The group after a member has left; none when it was the last (R232, R233). -/
def Group.leave (g : Group) (tid : Nat) : Option Group :=
  let ms := g.members.filter (· != tid)
  if ms.isEmpty then none
  else
    some { g with members := ms, waitNext := g.waitNext.filter (· != tid),
                  awaited := if g.arrived.contains tid then g.awaited else g.awaited.filter (· != tid) }

/-- A thread leaves a group of its partition. -/
def State.leaveGroup (s : State) (tid p : Nat) (key : Word) : State :=
  match (s.part p).findGroup key with
  | none => s
  | some (i, g) =>
    (s.modPart p fun q => q.setGroup i (g.leave tid)).modThread tid fun th =>
      th.modLife fun l => { l with keys := l.keys.filter (· != key) }

/-- A thread leaves all its groups (R233). -/
def State.leaveGroups (s : State) (th : Thread) : State := th.life.keys.foldl (fun t k => t.leaveGroup th.tid th.life.part k) s

/-- Goes on with a key, which must not be 0 (R232). -/
def withKey (th : Thread) (key : Src) (h : Word → Head) : Head :=
  let a := (th.regs .c).read key
  consume [a] (if a.bits = 0 then .trap (illegal) else h a.bits)

/-- gjoin (R232): member already, then the thread's limit, then the table's. -/
def execGjoin (key : Src) (d : Dst) (s : State) : Answer :=
  issue s fun k th s1 =>
    withKey th key fun w =>
      let p := th.life.part
      let join := fun (i : Nat) (g : Group) (code : Nat) =>
        Head.done (((s1.modPart p fun q => q.setGroup i (some { g with members := g.members ++ [th.tid] })).modThread th.tid fun t =>
          t.modLife fun l => { l with keys := l.keys ++ [w] }).pushWord k (groupStatus (g.members.length + 1) i code) d)
      match (s.part p).findGroup w with
      | some (i, g) =>
        if g.members.contains th.tid then .done (s1.pushWord k (groupStatus g.members.length i 3) d)
        else if 16 ≤ th.life.keys.length then .done (s1.pushWord k (groupStatus g.members.length 0 4) d)
        else join i g 0
      | none =>
        if 16 ≤ th.life.keys.length then .done (s1.pushWord k (groupStatus 0 0 4) d)
        else
          match (s.part p).freeGroup with
          | none => .done (s1.pushWord k (groupStatus 0 0 2) d)
          | some i => join i { key := w, members := [] } 1

/-- gleave (R232). -/
def execGleave (key : Src) (d : Dst) (s : State) : Answer :=
  issue s fun k th s1 =>
    withKey th key fun w =>
      match (s.part th.life.part).findGroup w with
      | none => .done (s1.pushWord k (groupStatus 0 0 6) d)
      | some (i, g) =>
        if !g.members.contains th.tid then .done (s1.pushWord k (groupStatus g.members.length 0 6) d)
        else .done ((s1.leaveGroup th.tid th.life.part w).pushWord k (groupStatus (g.members.length - 1) i 0) d)

/-- Sets what the head of a C stream has begun. -/
def State.setPending (s : State) (tid : Nat) (p : Pending) : State := s.modThread tid fun th => { th with c := { th.c with pending := p } }

/-- gbar: acts as a mark; arrives once, in the open episode that awaits it or else in the next one, and waits for its completion
(R233, R234). -/
def execGbar (key : Src) (d : Dst) (s : State) : Answer :=
  issue s fun k th s1 =>
    withKey th key fun w =>
      let p := th.life.part
      let put := fun (i : Nat) (g : Group) (b : Pending) =>
        Head.hold ((s.modPart p fun q => q.setGroup i (some g)).setPending th.tid b) .gbar
      match th.c.pending with
      | .barDone x => .done ((s1.setPending th.tid .none).pushWord k x d)
      | .barArrived _ | .barNext _ => .wait .gbar
      | _ =>
        if th.sc.latched then .done (s1.pushWord k th.sc.latch d)
        else if !th.c.queue.isEmpty then .wait .none
        else
          match (s.part p).findGroup w with
          | none => .done (s1.pushWord k (groupStatus 0 0 6) d)
          | some (i, g) =>
            if !g.members.contains th.tid then .done (s1.pushWord k (groupStatus 0 0 6) d)
            else if !g.isOpen then
              put i { g with isOpen := true, awaited := g.members, arrived := [th.tid] } (.barArrived w)
            else if g.arrived.contains th.tid then put i g (.barArrived w)
            else if g.awaited.contains th.tid then put i { g with arrived := g.arrived ++ [th.tid] } (.barArrived w)
            else put i { g with waitNext := if g.waitNext.contains th.tid then g.waitNext else g.waitNext ++ [th.tid] } (.barNext w)

/-- Whether an open episode is complete: every awaited member has arrived (one that left is awaited no more). -/
def Group.complete (g : Group) : Bool := g.isOpen && g.awaited.all fun t => g.arrived.contains t

end Sys2Proof.Machine
end

