-- ==== Sys2Proof/Machine/Save.lean ====
section
/-! DEFINITION. The context save area: its header, its sections, and what a stored one says (spec/15_traps.md R312 to R317). -/

namespace Sys2Proof.Machine

/-! ### Small forms -/

/-- A mark in 16 bits: VOID, P, TAG (R314, R315). -/
def mark16 (void : Bool) (m : Mark) : Nat :=
  (if void then 2 ^ 15 else 0) + match m with
    | some t => 2 ^ 12 + t.toNat
    | none => 0

def markOf (n : Nat) : Mark := if n / 2 ^ 12 % 2 = 1 then some (BitVec.ofNat 12 n) else none

/-- A stored value: a belt entry whose result has not come is stored void, a named register as a clean 0 (log 20). -/
def Val.mark16 (v : Val) : Nat := Sys2Proof.Machine.mark16 (v.void || v.pending) v.mark
def Val.stored (v : Val) : Word := if v.pending then 0 else v.bits

/-- The value that stored bits and a mark give. -/
def valOf (w : Word) (n : Nat) : Val := { void := n / 2 ^ 15 % 2 = 1, bits := w, mark := markOf n }

/-- 16-bit values, four to a word. -/
def pack16 (f : Nat) : List Nat → List Word
  | [] => []
  | x :: r =>
    match f with
    | 0 => []
    | g + 1 => wordFields (((x :: r).take 4).zipIdx.map fun y => (y.1, 16 * y.2)) :: pack16 g ((x :: r).drop 4)

def unpack16 (ws : List Word) : List Nat := ws.flatMap fun w => (List.range 4).map fun i => fieldNat w (16 * i + 15) (16 * i)

/-- A list made n long with zeros. -/
def padTo (n : Nat) (l : List Word) : List Word := (l ++ List.replicate n 0).take n

def padBytes (n : Nat) (l : List (BitVec 8)) : List (BitVec 8) := l ++ List.replicate (n - l.length) 0

/-- The code of a run state (R314). -/
def RunState.code : RunState → Nat
  | .notStarted => 0
  | .running => 1
  | .stopped _ => 2

/-- The codes of WAIT (R314). -/
def waits8 : List WaitFor := [.none, .tile, .guard, .wadr, .gbar, .join, .done, .result]

def WaitFor.code (w : WaitFor) : Nat := waits8.idxOf w

/-! ### The header (R312, R313, R314) -/

/-- What a store knows besides the thread: REASON, each stream's remaining idle, the section directory, the resume indices of the parked
commands, the length. -/
structure SaveInfo where
  reason : Nat
  ridle : List Nat
  dir : List (Nat × Nat)
  parked : List Nat
  length : Nat
  depth : Nat
  deriving DecidableEq, Repr

/-- The words with which each stream block begins. -/
def Strm.block (st : Strm) (ridle : Nat) (latch : Word) : List Word :=
  [wordFields [(ridle, 32), (st.trap2, 20), (st.run.code, 16), (st.pc.toNat, 0)],
    wordFields [(if st.repCount = 0 then 0 else st.pc.toNat, 16), (st.repCount, 0)],
    wordFields [(b2n st.latched, 4), (st.wait.code, 0)], latch] ++ st.lc

def Scalar.block (r : Scalar) : List Word :=
  pack16 4 (r.belt.map Val.mark16) ++ pack16 4 (r.named.map fun v => Sys2Proof.Machine.mark16 false v.mark) ++ r.belt.map Val.stored ++ r.named.map Val.stored

/-- A level of a nest. -/
def Level.words (l : Level) : List Word := [wordFields [(l.c.toNat, 0)], wordFields [(l.ds.toNat, 32), (l.ss.toNat, 0)]]

/-- The return stack as it is stored: entry 0 is the oldest return address (R63). -/
def CState.block (c : CState) : List Word :=
  [wordFields [(c.stack.length, 0)]] ++ padTo 4 (pack16 4 (c.stack.reverse.map (·.toNat)))

def IndexReg.words (x : IndexReg) : List Word := [wordFields [(x.step.toNat, 32), (x.val.toNat, 0)], wordFields [(x.lim.toNat, 0)]]

def MState.block (m : MState) (u : LoopUnit) : List Word :=
  [wordFields [(b2n (m.held.getD 1 false), 1), (b2n (m.held.getD 0 false), 0)],
    wordFields [(m.trans, 32), (m.passes, 16), (b2n m.lasting, 15), (b2n m.unres, 13)],
    wordFields ([(u.n, 32), (u.s, 0)] ++ u.arrived.zipIdx.map fun x => (b2n x.1, 4 + x.2)),
    wordFields [(u.t, 0)], wordFields [(u.step, 0)]]

/-- A guard FIFO's word: how many values, and the values from the head. -/
def guardWord (l : List GuardVal) : Word :=
  let h := guardHeld l
  wordFields ((h.length, 8) :: h.zipIdx.map fun g => (b2n g.1.val, g.2))

/-- CKST (R308). -/
def Life.ckst (l : Life) : Word :=
  wordFields [(l.slot, 48), (l.ckpt.seq.toNat % 2 ^ 32, 16), (b2n l.ckpt.unlog, 2), (b2n l.ckpt.isOpen, 1), (b2n l.ckpt.half, 0)]

def StreamId.code : StreamId → Nat
  | .c => 0
  | .a => 1
  | .v => 2
  | .m => 3

def Life.faultWords (l : Life) (reason : Nat) : List Word :=
  let f := if reason = 1 then l.fault else {}
  [wordFields [(f.pc.toNat, 16), (StreamId.code f.strm, 8), (f.code, 0)], f.detail,
    wordFields [(f.level, 57), (f.stage - 1, 56), (f.va.toNat, 0)], wordFields [(f.elem, 0)], wordFields [(f.tag.toNat, 0)], 0, 0, 0]

/-- The identity, its CRC left 0. -/
def Thread.identity (th : Thread) (x : SaveInfo) : List Word :=
  let l := th.life
  [wordFields [(0x544843534131, 16), (1, 0)],
    wordFields [(x.length, 32), (l.rect.shape, 28), (x.reason, 24), (l.ctx.toNat, 0)],
    wordFields [(trTiles l.record, 48), (trHwmu l.record, 24), (l.part, 16), (l.slot, 0)], l.ckpt.seq, 0, 0, 0, 0]

def Thread.stateWords (th : Thread) : List Word :=
  [wordFields ([(th.cnt.dph.toNat, 8), (th.cnt.fstat.toNat, 0)] ++ th.v.mirror.zipIdx.map fun m => (b2n m.1, 32 + m.2)),
    wordFields [(th.cnt.vstall, 0)], wordFields [(th.cnt.pfdrop, 0)], wordFields [(th.cnt.spV, 0)], wordFields [(th.cnt.spC, 0)],
    wordFields [(th.cnt.spA, 0)], wordFields [(th.cnt.spX, 0)], th.life.ckst]

/-- The header's 512 words, the identity's CRC left 0. -/
def Thread.header (th : Thread) (x : SaveInfo) : List Word :=
  let i := fun k => x.ridle.getD k 0
  th.identity x ++ th.life.faultWords x.reason ++ padTo 8 th.life.record ++ th.stateWords ++
    padTo 64 (th.sc.block (i 0) th.sc.latch ++ th.c.regs.block ++ th.c.block) ++
    padTo 96 (th.sa.block (i 1) th.a.fence.word ++ th.a.regs.block ++ th.a.nests.flatMap fun n => n.flatMap Level.words) ++
    padTo 32 (th.sv.block (i 2) 0 ++ th.v.idx.flatMap IndexReg.words ++ [wordFields [(x.depth, 0)]]) ++
    padTo 16 (th.sm.block (i 3) 0 ++ th.m.block th.loop) ++
    ((List.range 16).map fun g => if g = 0 || th.isStageGuard g then 0 else guardWord (th.guards.getD g [])) ++
    padTo 16 th.life.keys ++ padTo 16 (x.dir.map fun d => wordFields [(d.2, 32), (d.1, 0)]) ++
    padTo 64 (x.parked.map fun e => wordFields [(1, 63), (e, 0)]) ++ List.replicate 160 0

/-! ### The sections (R315) -/

/-- The rings a save records, as its cycle leaves them: those with every member below TILES (R254). -/
def Thread.savedRing (th : Thread) (now k : Nat) : Option Ring :=
  match th.ring? (now + 1) k with
  | some r => if r.first + r.n ≤ trTiles th.life.record then some r else none
  | none => none

def Thread.tileDesc (th : Thread) (now t : Nat) : List Word :=
  match th.tile? t with
  | none => [0, 0]
  | some x =>
    let k := x.ring.filter fun k => (th.savedRing now k).isSome
    [x.desc, wordFields [(b2n x.vwriter, 16), (k.getD 0, 4), (b2n k.isSome, 3), (1, 2), (x.st.code, 0)]]

def ringWord (o : Option Ring) : Word :=
  match o with
  | some r => wordFields [(1, 63), (r.tail, 16), (r.head, 12), (r.n - 1, 8), (r.first, 0)]
  | none => 0

/-- Bytes then marks, each mark two bytes, padded to 64. -/
def granBytes (gs : List (List (BitVec 8) × Mark)) : List (BitVec 8) :=
  let ms := gs.flatMap fun g => leBytes 2 (mark16 false g.2)
  gs.flatMap (·.1) ++ padBytes (pad64 ms.length) ms

/-- The logical granules of a tile in row-major order. -/
def State.tileGrans (s : State) (th : Thread) (d : Word) : List (List (BitVec 8) × Mark) :=
  (List.range (descRows d)).flatMap fun r => (List.range (descUlen d)).map fun u => s.tileGran th d r u

/-- Elements of every pane in logical row-major order. -/
def gather {α : Type} (d : α) (r : Rect) (panes : List (List α)) : List α :=
  (List.range (64 * r.rows)).flatMap fun y =>
    (List.range r.cols).flatMap fun j => (((panes.getD (y / 64 * r.cols + j) []).drop (64 * (y % 64))).take 64 ++ List.replicate 64 d).take 64

def vecMarks (l : Nat) (v : Vec) : List (BitVec 8) :=
  (v.get l).flatMap fun x => leBytes 2 (mark16 v.void x.mark)

/-- A set of vectors: lanes in order, then marks. -/
def vecBytes (l : Nat) (vs : List Vec) : List (BitVec 8) :=
  (vs.flatMap fun v => (v.get l).flatMap fun x => leBytes 4 x.bits.toNat) ++ vs.flatMap (vecMarks l)

/-- A mask's bytes. -/
def maskBytes (l : Nat) (m : List Bool) : List (BitVec 8) :=
  leBytes (max 8 (l / 8)) (m.zipIdx.foldl (fun a b => a + b2n b.1 * 2 ^ b.2) 0)

/-- A parked command's body. -/
def Cmd.body (c : Cmd) : List (BitVec 8) :=
  padBytes 256 <| ([c.word, c.lit, c.a.bits, c.b.bits, c.t.bits,
    wordFields [(c.a.mark16, 0), (c.b.mark16, 16), (c.t.mark16, 32)], wordFields [(c.elem, 0)], 0] ++ padTo 4 c.brec ++
    padTo 12 (c.nest.flatMap Level.words)).flatMap wordBytes

/-- The belts of a thread made 16 entries long. -/
def VState.belt16 (v : VState) : List Vec := (v.belt ++ List.replicate 16 ({ void := true } : Vec)).take 16

/-- The sections of a thread's context. -/
def State.sections (s : State) (th : Thread) : List (List (BitVec 8)) :=
  let n := trTiles th.life.record
  let h := trHwmu th.life.record
  let l := th.lanes
  let rc := th.life.rect
  let sp := rc.cores.map fun k => (s.core k).sp.spRange 0 (8 * h)
  let bank := fun (k : Nat) => gather ({} : AccCell) rc (rc.cores.map fun c => s.bank c k)
  let bps := [0, 1].flatMap fun k => gather ({} : BpCell) rc (rc.cores.map fun c => sdense {} 4096 0 ((s.core c).bp.getD k []))
  [((List.range 256).flatMap fun r => padTo 4 (sget [0, 0, 0, 0] th.a.recs r)).flatMap wordBytes,
    ((List.range n).flatMap (th.tileDesc s.now)).flatMap wordBytes,
    ((List.range 32).map fun k => ringWord (th.savedRing s.now k)).flatMap wordBytes,
    (List.range n).flatMap fun t => match th.tile? t with
      | some x => granBytes (s.tileGrans th x.desc)
      | none => [],
    [0, 1, 2, 3].flatMap fun k => (bank k).flatMap fun c => leBytes 8 (container c),
    (bps.flatMap fun b => leBytes 16 b.bits.toNat) ++ bps.flatMap fun b => leBytes 2 (mark16 false b.mark),
    vecBytes l th.v.belt16, vecBytes l th.v.file,
    th.v.masks.reverse.flatMap (maskBytes l),
    (sp.flatMap fun ws => ws.flatMap fun w => wordBytes w.1) ++ sp.flatMap fun ws => ws.flatMap fun w => leBytes 2 (mark16 false w.2),
    th.a.cmds.flatMap Cmd.body,
    th.life.handles.flatMap wordBytes]

/-- Joins sections at their offsets, from the header's end. -/
def joinSections : Nat → List (List (BitVec 8)) → List (BitVec 8)
  | _, [] => []
  | n, x :: r => List.replicate (pad64 n - n) 0 ++ x ++ joinSections (pad64 n + x.length) r

/-- Remaining idle of a stream at the save cycle (R58). -/
def State.remaining (s : State) (th : Thread) (st : Strm) (d : Nat) : Nat := min 1023 (s.countedAt th st - d)

/-- The CSA of a thread as it stands, all its commands being parked (R312 to R316). -/
def State.csa (s : State) (th : Thread) (reason d : Nat) : List (BitVec 8) :=
  let ss := s.sections th
  let (os, len) := sectionOffs 4096 (ss.map List.length)
  let x : SaveInfo :=
    { reason := reason, ridle := [th.sc, th.sa, th.sv, th.sm].map fun st => s.remaining th st d,
      dir := os.zip (ss.map List.length), parked := th.a.cmds.map (·.elem), length := len, depth := th.v.masks.length }
  let b := (th.header x).flatMap wordBytes ++ joinSections 4096 ss
  b.take 32 ++ leBytes 4 (crc32 b).toNat ++ b.drop 36

/-- The first n of the five steps in which a context goes into a half of its slot (R316): word 0 cleared; the sections; the header from
0x040; the identity but its first word; that word. -/
def storeSteps (n : Nat) (b : List (BitVec 8)) : List (Nat × List (BitVec 8)) :=
  [(0, List.replicate 8 0), (4096, b.drop 4096), (64, (b.take 4096).drop 64), (8, (b.take 64).drop 8), (0, b.take 8)].take n

/-! ### Reading a CSA -/

/-- Word k of a byte string. -/
def word8 (b : List (BitVec 8)) (k : Nat) : Word := wordOf ((b.drop (8 * k)).take 8)

/-- The stream that a block's words give. -/
def Strm.ofBlock (st : Strm) (ws : List Word) : Strm :=
  let w := fun k => ws.getD k 0
  { st with
    run := match fieldNat (w 0) 17 16 with
      | 0 => .notStarted
      | 1 => .running
      | _ => .stopped 0,
    pc := (w 0).extractLsb' 0 16, trap2 := fieldNat (w 0) 23 20, repCount := fieldNat (w 1) 12 0,
    wait := waits8.getD (fieldNat (w 2) 3 0) .none, wdog := none, latched := bitOf (w 2) 4, latch := w 3,
    hold := none, idleRef := 0, early := [], lc := [w 4, w 5, w 6, w 7] }

def Scalar.ofBlock (ws : List Word) : Scalar :=
  let ms := unpack16 (ws.take 8)
  { belt := (List.range 16).map fun k => valOf (ws.getD (8 + k) 0) (ms.getD k 0),
    named := (List.range 16).map fun k => valOf (ws.getD (24 + k) 0) (ms.getD (16 + k) 0) }

def Level.ofWords (ws : List Word) (k : Nat) : Level :=
  { c := (ws.getD (2 * k) 0).extractLsb' 0 32, ss := (ws.getD (2 * k + 1) 0).extractLsb' 0 32,
    ds := (ws.getD (2 * k + 1) 0).extractLsb' 32 32 }

def IndexReg.ofWords (ws : List Word) (k : Nat) : IndexReg :=
  { val := (ws.getD (2 * k) 0).extractLsb' 0 32, step := (ws.getD (2 * k) 0).extractLsb' 32 32,
    lim := (ws.getD (2 * k + 1) 0).extractLsb' 0 32 }

def streamOf (n : Nat) : StreamId := if n = 0 then .c else if n = 1 then .a else if n = 2 then .v else .m

def FaultRec.ofWords (ws : List Word) : FaultRec :=
  let w := fun k => ws.getD k 0
  { strm := streamOf (fieldNat (w 0) 11 8), code := fieldNat (w 0) 7 0, pc := (w 0).extractLsb' 16 16, detail := w 1,
    stage := fieldNat (w 2) 56 56 + 1, level := fieldNat (w 2) 58 57, va := (w 2).extractLsb' 0 56, elem := fieldNat (w 3) 47 0,
    tag := (w 4).extractLsb' 0 12 }

def FenceCounts.ofWord (w : Word) : FenceCounts :=
  { dead := fieldNat w 63 48, refused := fieldNat w 47 32, poisoned := fieldNat w 31 16, timeout := fieldNat w 15 0 }

/-- The return stack of its block. -/
def stackOf (ws : List Word) (depth : Nat) : List (BitVec 16) := (((unpack16 ws).take depth).map (BitVec.ofNat 16)).reverse

/-- The thread that a header gives, over one whose life and windows stand; vectors, tiles and commands come from the sections. -/
def Thread.ofHeader (th : Thread) (h : List Word) : Thread :=
  let at_ := fun (k n : Nat) => (h.drop k).take n
  let w := fun k => h.getD k 0
  let m := at_ 224 16
  let st := at_ 24 8
  { th with
    life := { th.life with
      record := at_ 16 8, fault := FaultRec.ofWords (at_ 8 8), keys := (at_ 256 16).filter (· != 0),
      ckpt := { th.life.ckpt with
        seq := w 3, unlog := bitOf (w 31) 2, isOpen := bitOf (w 31) 1, half := bitOf (w 31) 0 } },
    sc := th.sc.ofBlock (at_ 32 8), sa := { th.sa.ofBlock (at_ 96 8) with latch := 0 }, sv := { th.sv.ofBlock (at_ 192 8) with latch := 0 },
    sm := { th.sm.ofBlock m with latch := 0 },
    c := { regs := Scalar.ofBlock (at_ 40 40),
           stack := stackOf (at_ 81 4) (fieldNat (w 80) 4 0) },
    a := { th.a with
      regs := Scalar.ofBlock (at_ 104 40), fence := FenceCounts.ofWord (w 99), cmds := [],
      nests := (List.range 4).map fun n => (List.range 6).map fun l => Level.ofWords (at_ (144 + 12 * n) 12) l },
    v := { idx := (List.range 8).map fun i => IndexReg.ofWords (at_ 200 16) i,
           mirror := (List.range 32).map fun i => bitOf (st.getD 0 0) (32 + i) },
    m := { held := [bitOf (m.getD 8 0) 0, bitOf (m.getD 8 0) 1], trans := fieldNat (m.getD 9 0) 47 32,
           passes := fieldNat (m.getD 9 0) 31 16, lasting := bitOf (m.getD 9 0) 15, unres := bitOf (m.getD 9 0) 13 },
    guards := (List.range 16).map fun g =>
      let x := w (240 + g)
      (List.range (fieldNat x 11 8)).map fun i => { val := bitOf x i, at_ := 0 },
    cnt := { fstat := (st.getD 0 0).extractLsb' 0 8, dph := (st.getD 0 0).extractLsb' 8 5, vstall := fieldNat (st.getD 1 0) 47 0,
             spV := fieldNat (st.getD 3 0) 47 0, spC := fieldNat (st.getD 4 0) 47 0, spA := fieldNat (st.getD 5 0) 47 0,
             spX := fieldNat (st.getD 6 0) 47 0, pfdrop := fieldNat (st.getD 2 0) 47 0 },
    loop := { s := fieldNat (m.getD 10 0) 3 0, n := fieldNat (m.getD 10 0) 63 32, t := fieldNat (m.getD 11 0) 32 0,
              step := fieldNat (m.getD 12 0) 32 0, arrived := (List.range 4).map fun i => bitOf (m.getD 10 0) (4 + i) } }

/-- A tile from its two words. -/
def tileOf (d st : Word) : Option Tile :=
  if bitOf st 2 then
    let x : TileSt := match fieldNat st 1 0 with
      | 0 => .free
      | 1 => .filling
      | 2 => .full
      | _ => .draining
    some { desc := d, st := x, prev := x, ring := if bitOf st 3 then some (fieldNat st 8 4) else none, vwriter := bitOf st 16 }
  else none

/-- Tiles that consumers hold from a ring's head, or that writers hold from its tail (R197). -/
def ringTakes (tiles : Sparse (Option Tile)) (r : Ring) : Ring :=
  let st := fun (o : Nat) => match sget none tiles (r.first + o % r.n) with
    | some x => x.st
    | none => .free
  let room := if r.head = r.tail then r.n else (r.head + r.n - r.tail) % r.n
  let reading := ((List.range r.n).takeWhile fun j => st (r.head + j) == .draining).length
  let writing := if st r.tail == .filling then ((List.range room).takeWhile fun j => st (r.tail + j) != .free).length else 0
  { r with rtake := reading, wtake := writing }

def ringOf (tiles : Sparse (Option Tile)) (w : Word) : Option Ring :=
  if bitOf w 63 then
    some (ringTakes tiles { first := fieldNat w 7 0, n := fieldNat w 11 8 + 1, head := fieldNat w 15 12, tail := fieldNat w 19 16 })
  else none

/-! ### Parked commands -/

/-- The tile a command writes. -/
def writesTile : Instr → Option TileRef
  | .tld _ _ _ t _ _ | .tgat _ t _ _ | .tlsp t _ _ => if t = .tile 255 then none else some t
  | _ => none

/-- The tile a command reads as its source. -/
def readsTile : Instr → Option TileRef
  | .tst _ _ t _ | .tsca _ t _ _ | .tssp t _ _ => some t
  | _ => none

/-- Whether a command has a scale or index tile, named by its second operand. -/
def hasAux : Instr → Bool
  | .tld _ sc .. => sc
  | .tgat .. | .tsca .. => true
  | _ => false

/-- Whether an instruction of the A stream is an access command. -/
def isCommand : Instr → Bool
  | .ldA .. | .stA .. | .tld .. | .tst .. | .tgat .. | .tsca .. | .tlsp .. | .tssp .. | .ncopy .. | .pfch .. | .send .. | .sendf ..
  | .flag .. | .gamo .. | .fence .. | .fltopen .. | .fltclose .. => true
  | _ => false

/-- A command that names, by what its context holds, a tile that was not saved (R254). -/
def Cmd.lost (c : Cmd) (tiles : Nat) (rings : Sparse (Option Ring)) : Bool :=
  let ref := fun (t : Option TileRef) => match t with
    | some (.tile n) => decide (tiles ≤ n.toNat)
    | some (.ring k) => (sget none rings k.toNat).isNone
    | none => false
  ref (writesTile c.instr) || ref (readsTile c.instr) || (hasAux c.instr && decide (tiles ≤ c.b.bits.toNat))

/-- Whether a command names a tile at or above TILES, or a member of a ring that has one, as the context is stored (R254). -/
def Thread.losesTile (th : Thread) (now : Nat) (c : Cmd) : Bool :=
  let gone := fun (n : Nat) => decide (trTiles th.life.record ≤ n) || match (th.tile? n).bind (·.ring) with
    | some k => (th.savedRing now k).isNone
    | none => false
  let ref := fun (t : Option TileRef) => match t with
    | some (.tile n) => gone n.toNat
    | some (.ring k) => (th.savedRing now k.toNat).isNone
    | none => false
  ref (writesTile c.instr) || ref (readsTile c.instr) || (hasAux c.instr && gone c.b.bits.toNat)

/-- What is kept beside a stored context. -/
def Thread.side (th : Thread) (now : Nat) : Side :=
  { belt := th.a.regs.belt.map (·.wait), named := th.a.regs.named.map (·.wait),
    cmds := th.a.cmds.map fun c =>
      { id := c.id, pc := c.pc, taken := c.taken, aux := if hasAux c.instr then some c.auxBytes else none, lost := th.losesTile now c },
    place := some (th.loop.inStep, th.loop.finished) }

/-- How many elements a command has. -/
def Cmd.count (c : Cmd) (d : Word) : Nat :=
  match c.instr with
  | .tld .. | .tst .. | .tgat .. | .tsca .. | .tlsp .. | .tssp .. => if c.taken.isSome then descGrans d else 1
  | .ncopy .. => nestProduct c.nest
  | .send .. => packetCount (sendLen c.b.bits)
  | .sendf .. => packetCount (sendLen c.b.bits) + 1
  | _ => 1

/-- The command of a body; none when its word is not one of an access command. -/
def cmdOfBody (b : List (BitVec 8)) (x : Option SideCmd) : Option Cmd :=
  let w := word8 b
  match decodeWord .a (w 0) (w 1) with
  | .ok i =>
    if isCommand i then
      let ms := unpack16 [w 5]
      let nest : List Level := match i with
        | .ncopy .. => (List.range 6).map fun l => Level.ofWords ((List.range 12).map fun j => w (12 + j)) l
        | _ => []
      some { id := match x with | some y => y.id | none => 0, instr := i, word := w 0, lit := w 1,
             pc := match x with | some y => y.pc | none => 0,
             a := valOf (w 2) (ms.getD 0 0), b := valOf (w 3) (ms.getD 1 0), t := valOf (w 4) (ms.getD 2 0),
             brec := (List.range 4).map fun j => w (8 + j), nest := nest, elem := fieldNat (w 6) 47 0, parked := true,
             taken := x.bind (·.taken) }
    else none
  | _ => none

/-- The member of a ring, from an offset on, that is in a state and not among those given. -/
def ringPick (tiles : Sparse (Option Tile)) (r : Ring) (o : Nat) (x : TileSt) (used : List Nat) : Option Nat :=
  ((List.range r.n).map fun j => r.first + (o + j) % r.n).find? fun t =>
    !used.contains t && match sget none tiles t with
      | some y => y.st == x && !y.vwriter
      | none => false

/-- The tile a command had taken, where nothing beside the body says: a plain tile by its number, a ring's in ring order. -/
def takenOf (tiles : Sparse (Option Tile)) (rings : Sparse (Option Ring)) (used : List Nat) (i : Instr) : Option Taken :=
  let pick := fun (t : TileRef) (w : Bool) => match t with
    | .tile n => some { tile := n.toNat, ring := none : Taken }
    | .ring k => (sget none rings k.toNat).bind fun r =>
      (ringPick tiles r (if w then r.tail else r.head) (if w then .filling else .draining) used).map fun n =>
        { tile := n, ring := some k.toNat : Taken }
  match writesTile i, readsTile i with
  | some t, _ => pick t true
  | none, some t => pick t false
  | none, none => none

/-- Commands with the tiles they had taken and their numbers of elements. -/
def takeAll (tiles : Sparse (Option Tile)) (rings : Sparse (Option Ring)) : List Nat → List Cmd → List Cmd
  | _, [] => []
  | used, c :: r =>
    let t := c.taken.orElse fun _ => takenOf tiles rings used c.instr
    let d := match t with
      | some x => match sget none tiles x.tile with
        | some y => y.desc
        | none => 0
      | none => 0
    let c1 := { c with taken := t }
    { c1 with total := c1.count d } :: takeAll tiles rings ((t.map fun x => [x.tile]).getD [] ++ used) r

/-! ### Sections read back -/

/-- The granules of a tile's data from bytes: its bytes and marks. -/
def gransOf (g : Nat) (b : List (BitVec 8)) : List (List (BitVec 8) × Mark) :=
  (pieces 64 g b).zip ((pieces 2 g ((b.drop (64 * g)).take (2 * g))).map fun m => markOf (leNat m))

/-- Puts a tile's granules in their panes. -/
def State.putTile (s : State) (th : Thread) (d : Word) (gs : List (List (BitVec 8) × Mark)) : State :=
  gs.zipIdx.foldl (fun t x => t.setTileGran th d (x.2 / descUlen d) (x.2 % descUlen d) x.1.1 x.1.2) s

/-- The vectors of a section: n of them, of l lanes. -/
def vecsOf (n l : Nat) (b : List (BitVec 8)) : List Vec :=
  let vs := pieces (4 * l) n b
  let ms := pieces (2 * l) n (b.drop (4 * l * n))
  (vs.zip ms).map fun x =>
    let marks := (pieces 2 l x.2).map leNat
    { void := decide (2 ^ 15 ≤ marks.headD 0),
      lanes := ((pieces 4 l x.1).zip marks).map fun y => { bits := BitVec.ofNat 32 (leNat y.1), mark := markOf y.2 } }

def masksOf (n l : Nat) (b : List (BitVec 8)) : List (List Bool) :=
  ((pieces (max 8 (l / 8)) n b).map fun m => (List.range l).map fun i => Nat.testBit (leNat m) i).reverse

/-- The elements that lie in a pane, in the pane's order, out of logical row-major order. -/
def scatter {α : Type} (r : Rect) (pane : Nat) (xs : List α) : List α :=
  let w := 64 * r.cols
  (List.range 64).flatMap fun y => ((xs.drop ((64 * (pane / r.cols) + y) * w + 64 * (pane % r.cols))).take 64)

/-- An accumulator element of its container. -/
def cellOf (n : Nat) : AccCell :=
  { bits := BitVec.ofNat 36 n, mark := if n / 2 ^ 63 % 2 = 1 then some (BitVec.ofNat 12 (n / 2 ^ 51)) else none }

/-- Puts the accumulators of a section in their panes. -/
def State.putAcc (s : State) (rc : Rect) (b : List (BitVec 8)) : State :=
  let e := 4096 * (rc.rows * rc.cols)
  let banks := (pieces (8 * e) 4 b).map fun x => (pieces 8 e x).map fun c => cellOf (leNat c)
  rc.cores.zipIdx.foldl (init := s) fun t k =>
    t.modCore k.1 fun c => { c with acc := banks.map fun x => sparseOf {} 0 (scatter rc k.2 x) }

def State.putBp (s : State) (rc : Rect) (b : List (BitVec 8)) : State :=
  let e := 4096 * (rc.rows * rc.cols)
  let cells := ((pieces 16 (2 * e) b).zip (pieces 2 (2 * e) (b.drop (32 * e)))).map fun x =>
    ({ bits := BitVec.ofNat 128 (leNat x.1), mark := markOf (leNat x.2) } : BpCell)
  rc.cores.zipIdx.foldl (init := s) fun t k =>
    t.modCore k.1 fun c =>
      { c with bp := [sparseOf {} 0 (scatter rc k.2 (cells.take e)), sparseOf {} 0 (scatter rc k.2 (cells.drop e))] }

/-- Puts the saved bytes of every pane's scratchpad. -/
def State.putScratch (s : State) (rc : Rect) (h : Nat) (b : List (BitVec 8)) : State :=
  let p := rc.cores.length
  let ms := b.drop (64 * h * p)
  rc.cores.zipIdx.foldl (init := s) fun t k =>
    let ws := pieces 8 (8 * h) ((b.drop (64 * h * k.2)).take (64 * h))
    let ks := pieces 2 (8 * h) ((ms.drop (16 * h * k.2)).take (16 * h))
    let xs := (ws.zip ks).map fun x => (wordOf x.1, markOf (leNat x.2))
    t.modCore k.1 fun c => { c.spFresh (List.range (8 * h)) with sp := c.sp.spWords 0 xs }

/-! ### Checks (R316) -/

/-- The bytes of section i by the directory that the thread's own fields give. -/
def sectionAt (b : List (BitVec 8)) (dir : List (Nat × Nat)) (i : Nat) : List (BitVec 8) :=
  let d := dir.getD i (0, 0)
  (b.drop d.1).take d.2

/-- A word with ones in the fields given. -/
def maskOf (fs : List (Nat × Nat)) : Word := fs.foldl (fun a f => a ||| BitVec.ofNat 64 (2 ^ (f.1 + 1) - 2 ^ f.2)) 0

def allOnes : Word := BitVec.allOnes 64

/-- Four marks: of belt entries, and of named registers, which are never void (R314). -/
def beltMask : Word := 0x9FFF9FFF9FFF9FFF
def namedMask : Word := 0x1FFF1FFF1FFF1FFF

/-- The fields of a stream block's first words. -/
def strmMask (latch : Word) : List Word :=
  [maskOf [(41, 32), (23, 20), (17, 16), (15, 0)], maskOf [(31, 16), (12, 0)], maskOf [(4, 0)], latch] ++ List.replicate 4 allOnes

def scalarMask : List Word := List.replicate 4 beltMask ++ List.replicate 4 namedMask ++ List.replicate 32 allOnes

/-- The header's fields: every other bit is reserved (R312 to R315). -/
def headerMask (th : Thread) (np : Nat) : List Word :=
  [allOnes, allOnes, maskOf [(55, 48), (41, 24), (19, 16), (15, 0)], allOnes, maskOf [(31, 0)], 0, 0, 0] ++
    [maskOf [(31, 16), (11, 8), (7, 0)], allOnes, maskOf [(58, 0)], maskOf [(47, 0)], maskOf [(11, 0)], 0, 0, 0] ++
    List.replicate 8 allOnes ++
    [maskOf [(63, 32), (12, 8), (7, 0)]] ++ List.replicate 6 (maskOf [(47, 0)]) ++ [maskOf [(63, 16), (2, 0)]] ++
    padTo 64 (strmMask allOnes ++ scalarMask ++ [maskOf [(4, 0)]] ++ List.replicate 4 allOnes) ++
    padTo 96 (strmMask allOnes ++ scalarMask ++ (List.replicate 24 [maskOf [(31, 0)], allOnes]).flatten) ++
    padTo 32 (strmMask 0 ++ (List.replicate 8 [allOnes, maskOf [(31, 0)]]).flatten ++ [maskOf [(4, 0)]]) ++
    padTo 16 (strmMask 0 ++
      [maskOf [(1, 0)], maskOf [(47, 32), (31, 16), (15, 15), (13, 13)], maskOf [(63, 32), (7, 0)], maskOf [(32, 0)], maskOf [(32, 0)]]) ++
    ((List.range 16).map fun g => if g = 0 || th.isStageGuard g then 0 else maskOf [(11, 0)]) ++
    List.replicate 16 allOnes ++ padTo 16 (List.replicate 12 allOnes) ++
    padTo 64 (List.replicate np (maskOf [(63, 63), (47, 0)])) ++ List.replicate 160 0

/-- The fields of a buffer record (R199), of a tile's two words, of a ring's word, of a command body (R315). -/
def recMask : List Word := [allOnes, maskOf [(61, 0)], allOnes, maskOf [(63, 48)]]

def tileMask : List Word := [maskOf [(36, 0)], maskOf [(16, 16), (8, 0)]]

def ringMask : List Word := [maskOf [(63, 63), (19, 0)]]

def bodyMask : List Word :=
  [allOnes, allOnes, allOnes, allOnes, allOnes, maskOf [(47, 0)] &&& beltMask, maskOf [(47, 0)], 0] ++ List.replicate 4 allOnes ++
    (List.replicate 6 [maskOf [(31, 0)], allOnes]).flatten ++ List.replicate 8 0

/-- Whether words keep within a list of masks. -/
def within (ws ms : List Word) : Bool := (ws.zip ms).all fun x => x.1 &&& ~~~x.2 == 0

/-- Whether every entry of a table of words, each as long as its masks, keeps within them. -/
def tableWithin (b : List (BitVec 8)) (ms : List Word) : Bool :=
  (pieces (8 * ms.length) (b.length / (8 * ms.length)) b).all fun e => within (wordsOf e) ms

/-- Whether the reserved bits of marks are 0. -/
def marksClean (b : List (BitVec 8)) : Bool := (pieces 2 (b.length / 2) b).all fun m => leNat m / 2 ^ 13 % 4 == 0

/-- Whether the marks and the padding of each tile's data are as they should be. -/
def tileDataClean (tiles : Sparse (Option Tile)) (n : Nat) (b : List (BitVec 8)) : Bool :=
  ((List.range n).foldl (init := (true, b)) fun acc t =>
    match sget none tiles t with
    | some x =>
      let g := descGrans x.desc
      let m := (acc.2.take (tileBytes g)).drop (64 * g)
      (acc.1 && marksClean (m.take (2 * g)) && (m.drop (2 * g)).all (· == 0), acc.2.drop (tileBytes g))
    | none => acc).1

/-- Whether the bytes between the sections are 0. -/
def paddingClean (b : List (BitVec 8)) : Nat → List (Nat × Nat) → Bool
  | _, [] => true
  | n, d :: r => ((b.drop n).take (d.1 - n)).all (· == 0) && paddingClean b (d.1 + d.2) r

/-- Whether every reserved field of the sections is 0 (R315, R316). -/
def sectionsClean (tiles : Sparse (Option Tile)) (n : Nat) (b : List (BitVec 8)) (dir : List (Nat × Nat)) : Bool :=
  let sec := sectionAt b dir
  let tail := fun (i k m : Nat) => (sec i).drop ((sec i).length / (k + m) * k)
  tableWithin (sec 0) recMask && tableWithin (sec 1) tileMask && tableWithin (sec 2) ringMask && tileDataClean tiles n (sec 3) &&
    tableWithin (sec 4) [maskOf [(63, 51), (35, 0)]] && marksClean (tail 5 8 1) && marksClean (tail 6 2 1) && marksClean (tail 7 2 1) &&
    marksClean (tail 9 4 1) && tableWithin (sec 10) bodyMask && paddingClean b 4096 dir

/-- Whether a stream's program counter lies in its fetch window: that of a STOPPED stream, the word after its `stop`, may be the one after
the window, and a stream with no words has no window (log 27). -/
def Strm.pcOk (st : Strm) : Bool :=
  match st.run with
  | .notStarted => st.words == 0 || st.inWindow st.pc.toNat
  | .running => st.inWindow st.pc.toNat
  | .stopped _ => st.inWindow st.pc.toNat || st.pc.toNat == st.base + st.words

/-- The thread of a CSA's bytes over a thread whose life and windows stand; none when the microcode refuses it: the magic number, version or
CRC is wrong, the shape differs, a directory entry disagrees, a reserved field is not 0, or a count exceeds its limit (R316). -/
def Thread.ofCsa (th : Thread) (b : List (BitVec 8)) (side : Option Side) : Option Thread :=
  let h := (List.range 512).map (word8 b)
  let w := fun k => h.getD k 0
  let len := fieldNat (w 1) 63 32
  let t1 := th.ofHeader h
  let n := trTiles t1.life.record
  let np := fieldNat (w 282) 63 32 / 256
  let nh := fieldNat (w 283) 63 32 / 8
  let depth := fieldNat (w 216) 4 0
  let descs := (b.drop 12288).take (16 * n)
  let tiles : Sparse (Option Tile) :=
    sparseOf none 0 ((List.range n).map fun t => tileOf (word8 descs (2 * t)) (word8 descs (2 * t + 1)))
  let lens := sectionLens th.panes n (tiledataLen tiles n) (trHwmu t1.life.record) depth np nh
  let (os, total) := sectionOffs 4096 lens
  let dir := os.zip lens
  let ringB := sectionAt b dir 2
  let rings : Sparse (Option Ring) := sparseOf none 0 ((List.range 32).map fun k => ringOf tiles (word8 ringB k))
  let bodies := pieces 256 64 (sectionAt b dir 10)
  let sides := match side with
    | some x => x.cmds
    | none => []
  let cmds := bodies.zipIdx.map fun x => cmdOfBody x.1 sides[x.2]?
  let l := th.lanes
  let t2 := { t1 with
    tiles := tiles, rings := rings,
    a := { t1.a with
      recs := sparseOf [0, 0, 0, 0] 0 ((List.range 256).map fun r => (List.range 4).map fun j => word8 (sectionAt b dir 0) (4 * r + j)),
      cmds := takeAll tiles rings [] (cmds.filterMap id) },
    v := { t1.v with
      belt := vecsOf 16 l (sectionAt b dir 6), file := vecsOf 32 l (sectionAt b dir 7), masks := masksOf depth l (sectionAt b dir 8) },
    life := { t1.life with handles := wordsOf (sectionAt b dir 11) } }
  let streams := [33, 97, 193, 225]
  if b.length != len || len != total || fieldNat (w 1) 31 28 != th.life.rect.shape || w 0 != 0x5448435341310001 ||
      (crc32 (blank b 32 4)).toNat != (w 4).toNat then none
  else if !within h (headerMask t1 np) || (h.drop 272).take 12 != dir.map (fun d => wordFields [(d.2, 32), (d.1, 0)]) then none
  else if cmds.any Option.isNone || decide (64 < np) || decide (16 < depth) || decide (16 < fieldNat (w 80) 4 0) ||
      streams.any (fun x => decide (4096 < fieldNat (w x) 12 0) || fieldNat (w (x - 1)) 17 16 == 3 || decide (7 < fieldNat (w (x + 1)) 3 0)) ||
      (List.range 16).any (fun g => decide (8 < fieldNat (w (240 + g)) 11 8)) ||
      !(t2.sc.pcOk && t2.sa.pcOk && t2.sv.pcOk && t2.sm.pcOk) then none
  else if !sectionsClean tiles n b dir then none
  else some t2

end Sys2Proof.Machine
end

