-- ==== Sys2Proof/Machine/Life.lean ====
section
/-! DEFINITION. The life of a thread: queues and their slots, where a fragment may be placed, dispatch, the end of a thread, a context's
store and its resumption (spec/12_tasks.md R243 to R247, R254, R255; spec/15_traps.md R301, R303, R311, R316; 09 R181, R183, R187). -/

namespace Sys2Proof.Machine

/-! ### Queues (R243) -/

def Queue.en (q : Queue) : Bool := bitOf q.cfg 63
def Queue.prio (q : Queue) : Nat := fieldNat q.cfg 62 60
def Queue.size (q : Queue) : Nat := 2 ^ (fieldNat q.cfg 59 56 + 4)
def Queue.base (q : Queue) : Nat := 64 * fieldNat q.cfg 55 6
def Queue.host (q : Queue) : Bool := bitOf q.cfg 5
def Queue.depth (q : Queue) : Nat := (q.tail - q.head).toNat

/-- The intermediate address of the slot of record i. -/
def Queue.slot (q : Queue) (i : BitVec 32) : Nat := q.base + 64 * (i.toNat % q.size)

def State.queue (s : State) (p q : Nat) : Queue := (s.part p).queues.getD q {}

def State.modQueue (s : State) (p q : Nat) (f : Queue → Queue) : State := s.modPart p fun x => { x with queues := modAt x.queues q f }

/-- Record i of a queue; none when the partition stage cannot read it. -/
def State.queued (s : State) (p q : Nat) (i : BitVec 32) : Option Record :=
  (s.readPool p ((s.queue p q).slot i) 64).map fun x => wordsOf x.1

/-- A thread that runs or is being brought to its boundaries. -/
def Thread.isRunning (th : Thread) : Bool := th.life.phase.active

/-- The class of the queue a thread belongs to. -/
def State.classOf (s : State) (th : Thread) : Nat := (s.queue th.life.part th.life.queue).prio

/-- The triggers that a record makes as it becomes QUEUED (R253, R259). -/
def State.noteQueued (s : State) (p q : Nat) : State :=
  let s1 := s.trigger p { hook := .dispatch, cause := 1, queue := q }
  if s.threads.any (fun th => th.life.part == p && th.isRunning && decide (s.classOf th < (s.queue p q).prio)) then
    s1.trigger p { hook := .preempt, cause := 0, queue := q }
  else s1

/-- Enqueues a record at the tail of a queue that has room; none when the partition stage cannot write the slot. -/
def State.enqueueRecord (s : State) (p q : Nat) (r : Record) : Option State :=
  let x := s.queue p q
  (s.writePool p (x.slot x.tail) (Record.bytes r)).map fun t => (t.modQueue p q fun y => { y with tail := y.tail + 1 }).noteQueued p q

/-- Takes the head of a queue off it: the next record starts at age 0, and a reservation for the head ends (R247). -/
def State.popHead (s : State) (p q : Nat) : State :=
  (s.modQueue p q fun x => { x with head := x.head + 1, age := 0 }).modPart p fun x =>
    { x with reserve := x.reserve.filter fun r => r.queue != q }

/-! ### Panes and rectangles (R175, R176, R245) -/

/-- A rectangle of a shape code at a place. -/
def rectOf (shape d r c : Nat) : Rect := { die := d, crow := r, ccol := c, lrows := shape / 4, lcols := shape % 4 }

/-- Every rectangle of a shape, by die, then core row, then core column. -/
def rectsOf (shape : Nat) : List Rect :=
  (List.range 8).flatMap fun d => (List.range 4).flatMap fun r => (List.range 4).filterMap fun c =>
    if r % 2 ^ (shape / 4) = 0 && c % 2 ^ (shape % 4) = 0 then some (rectOf shape d r c) else none

/-- An enabled pane of a partition. -/
def State.ownPane (s : State) (p k : Nat) : Bool := s.partOf k == some p && !(s.core k).disabled

/-- A pane at the allocator's disposal: unleased, of a cluster with no change waiting (R176, R331). -/
def State.freePane (s : State) (p k : Nat) : Bool :=
  s.ownPane p k && (s.core k).lease == .unleased && (s.cluster (clusterOf k)).pendW.isNone

/-- Whether a pane lies in the reservation for an old head (R247). -/
def State.inReserve (s : State) (p k : Nat) : Bool :=
  match (s.part p).reserve with
  | some r => r.rect.cores.contains k
  | none => false

/-- Whether a pane lies in a fuse request's reservation (R183). A reservation for an old head is made around the requests that stand, so a
pane that both want was reserved for the head first, and the request's is made around it (R247). -/
def State.inFuse (s : State) (p k : Nat) : Bool :=
  (s.part p).fuses.any (fun f => f.target.cores.contains k) && !s.inReserve p k

/-- Whether a rectangle is free for a task: for the QUEUED head of the queue given, the reservation of R247 made for it counts as free. -/
def State.rectFree (s : State) (p : Nat) (forHead : Option Nat) (r : Rect) : Bool :=
  let mine : Bool := match (s.part p).reserve, forHead with
    | some x, some q => x.queue == q
    | _, _ => false
  r.cores.all fun k => s.freePane p k && !s.inFuse p k && (mine || !s.inReserve p k)

/-- The lowest free rectangle of a shape. -/
def State.placeShape (s : State) (p : Nat) (forHead : Option Nat) (shape : Nat) : Option Rect :=
  (rectsOf shape).find? (s.rectFree p forHead)

/-- Whether a shape lies between two, row by row and column by column. -/
def shapeWithin (smin spref x : Nat) : Bool :=
  decide (smin / 4 ≤ x / 4) && decide (x / 4 ≤ spref / 4) && decide (smin % 4 ≤ x % 4) && decide (x % 4 ≤ spref % 4)

/-- The shapes in the order in which the fallback tries them: more panes first, then more rows of panes. -/
def shapeOrder : List Nat := [10, 9, 6, 8, 5, 2, 4, 1, 0]

/-- The fallback's shape rule (R245): SPREF when a rectangle of it is free, else the largest free shape within SMIN..SPREF. -/
def State.placeAuto (s : State) (p : Nat) (forHead : Option Nat) (smin spref : Nat) : Option Rect :=
  (spref :: shapeOrder.filter (shapeWithin smin spref)).findSome? (s.placeShape p forHead)

/-- Panes become unleased; one that was to be retired is disabled then (R342). -/
def State.freeCores (s : State) (ks : List Nat) : State :=
  s.modCores ks fun c => { c with lease := .unleased, disabled := c.disabled || c.retiring, retiring := false }

/-- The trigger that a pane makes as it becomes unleased (R259), or held at a child's `done` (log 28). -/
def State.paneFreed (s : State) (p : Nat) : State := s.trigger p { hook := .dispatch, cause := 0 }

/-- The panes held for a thread (R181). -/
def State.heldFor (s : State) (tid : Nat) : List Nat := (List.range 128).filter fun k => (s.core k).lease == .held tid

/-- Ends a thread's holds; its children return their panes at their own ends (R181). -/
def State.endHolds (s : State) (th : Thread) : State :=
  let ks := s.heldFor th.tid
  let s1 := { s with threads := s.threads.map fun c =>
    if c.life.parent = some th.tid then c.modLife fun l => { l with parent := none, holdAtDone := false } else c }
  if ks.isEmpty then s1 else (s1.freeCores ks).paneFreed th.life.part

/-- A thread's chain links are dissolved and its offers withdrawn (R187). -/
def State.unchain (s : State) (tid : Nat) : State :=
  { s with threads := s.threads.map fun c =>
    if c.tid = tid then c.modLife fun l => { l with chainE := none, chainW := none, offerE := false, offerW := false }
    else c.modLife fun l =>
      { l with chainE := l.chainE.filter (· != tid), chainW := l.chainW.filter (· != tid) } }

/-- A thread's fuse request is withdrawn (R183). -/
def State.unfuse (s : State) (th : Thread) : State :=
  s.modPart th.life.part fun q => { q with fuses := q.fuses.filter fun f => f.tid != th.tid }

/-- A thread's fragment returns to the allocator: a child's panes may be held for its parent (R181). -/
def State.returnPanes (s : State) (th : Thread) : State :=
  let ks := th.life.rect.cores
  match th.life.holdAtDone, th.life.parent with
  | true, some q => (s.modCores ks fun c => { c with lease := .held q }).paneFreed th.life.part
  | _, _ => (s.freeCores ks).paneFreed th.life.part

/-- A thread leaves its fragment: panes, holds, links, requests. -/
def State.leaveFragment (s : State) (th : Thread) : State :=
  ((s.unfuse th).unchain th.tid).endHolds th

/-- A thread is ENDED or KILLED: it leaves its groups and its queue, its save slot is free, and its undo log is gone (R233, R244, R311). -/
def State.removeThread (s : State) (th : Thread) : State :=
  let s1 := s.leaveGroups th
  let s2 := s1.modPart th.life.part fun q =>
    { q with slots := q.slots.filter (· != th.life.slot),
             queues := q.queues.map fun x => { x with resumes := x.resumes.filter fun e => e.tid != th.tid } }
  { s2 with threads := s2.threads.filter fun t => t.tid != th.tid }

/-- KILLED (R244): nothing is saved, no join counter moves. -/
def State.killThread (s : State) (tid : Nat) : State :=
  match s.thread? tid with
  | none => s
  | some th =>
    let s1 := s.leaveFragment th
    let s2 := if th.isRunning then (s1.freeCores th.life.rect.cores).paneFreed th.life.part else s1
    match s2.thread? tid with
    | some t => s2.removeThread t
    | none => s2

/-- The free save slot of lowest index (R311). -/
def State.freeSlot (s : State) (p : Nat) : Option Nat :=
  (List.range (s.part p).set.nslot).find? fun j => !(s.part p).slots.contains j

/-- The address of half h of a save slot. -/
def State.slotBase (s : State) (p slot : Nat) (half : Bool) : Nat :=
  (s.part p).set.spbase.toNat + 2 * s.slotSize p * slot + b2n half * s.slotSize p

/-! ### Dispatch (R246) -/

/-- A pane leased to a thread: one whose last lessee had another CTX is cleared, and the L1 is empty. -/
def Core.leaseTo (c : Core) (tid : Nat) (ctx : BitVec 24) : Core :=
  let c1 := if c.lastCtx = some ctx then c else { c with sp := {}, spBad := [], trf := {} }
  { c1 with lease := .leased tid, lastCtx := some ctx, l1 := [] }

/-- The loop unit of a task record (R80). -/
def loopOf (r : Record) : LoopUnit :=
  { s := trStages r, n := trN r, t := if trN r = 0 then 0 else trN r + trStages r - 1 }

/-- A thread at its start: FRAME in s1 and q1, everything else empty or 0 (R43, R246). -/
def newThread (tid p now queue slot : Nat) (set : Settings) (rc : Rect) (r : Record) : Thread :=
  let regs : Scalar := { named := setAt (List.replicate 16 (Val.ofWord 0)) 1 (Val.ofWord (trFrame r)) }
  { tid := tid,
    life := { part := p, ctx := trCtx r, rect := rc, record := r, queue := queue, slot := slot, start := now, sliceAt := now,
              sliceLen := set.slice.toNat, ckLen := set.ckint.toNat, ckpt := { last := now } },
    c := { regs := regs }, a := { regs := regs }, loop := loopOf r }

/-- A trap at the C entry of a thread (R39, R242, R311). -/
def Thread.entryTrap (th : Thread) (now code : Nat) : Thread :=
  th.takeTrap now ((illegal (BitVec.ofNat 64 code)).record .c th.sc.pc)

/-- Starts a thread on a rectangle: the panes are leased and cleared, the image loaded, and the C stream started; a refused image starts no
stream. A child of a split keeps its accumulators (R180, R246). -/
def State.startThread (s : State) (p : Nat) (r : Record) (rc : Rect) (queue slot : Nat) (keepAcc : Bool) : State × Nat :=
  let (s0, tid) := s.newId
  let th := newThread tid p s.now queue slot (s.part p).set rc r
  let s1 := s0.modCores rc.cores fun c =>
    { c.leaseTo tid (trCtx r) with acc := if keepAcc then c.acc else [[], [], [], []], bp := [[], []] }
  let s2 := s1.modPart p fun q => { q with slots := slot :: q.slots }
  let (s3, b) := s2.takeImage rc.die p (trCtx r) (trImage r) (rc.rows * rc.cols)
  match b with
  | .error c => ({ s3 with threads := s3.threads ++ [th.entryTrap s.now c] }, tid)
  | .ok b =>
    let s4 := (s3.loadCode rc.lead b).loadData rc b
    let th1 := th.load b
    let th2 := { th1 with sc := th1.sc.start s.now }
    let th3 := match recordFits r b with
      | some c => th2.entryTrap s.now c
      | none => if s4.slotSize p < th2.saveLen then th2.entryTrap s.now 11 else th2
    ({ s4 with threads := s4.threads ++ [th3] }, tid)

/-- Dispatches the head record of a queue onto a rectangle (R246). -/
def State.dispatchRecord (s : State) (p q slot : Nat) (r : Record) (rc : Rect) : State :=
  ((s.popHead p q).startThread p r rc q slot false).1

/-! ### Storing a context (R254, R303, R316, R318) -/

/-- The streams of a loop task that stand at an end of their kernel have arrived there (R80): what the stored loop state says of them (log 72). -/
def Thread.settleLoop (th : Thread) : Thread :=
  [StreamId.c, .a, .v, .m].foldl (init := th) fun t x =>
    let st := t.strm x
    let kb := st.kernel.1
    if t.takesPart x && st.run == .running && !t.loop.finished && !t.loop.arrived.getD (streamNum x) false &&
        (if t.loop.inStep then decide (kb + st.kernel.2 ≤ st.pc.toNat) else st.pc.toNat == kb) then t.arriveAt x kb
    else t

/-- A thread as its context holds it: its commands parked, its arrivals in the loop unit and its latched wait recorded (R83, R216, R256). What a
decision has said to a `yield` is latched as well (log 78); in a checkpoint the `yield` stands before its decision (R318). -/
def Thread.atRest (th : Thread) (reason : Nat) : Thread :=
  let t1 := th.parkAll.settleLoop
  let latch := fun (w : Word) => { t1 with sc := { t1.sc with latched := true, latch := w } }
  match th.c.pending with
  | .barDone w => latch w
  | .yieldSwapped => if reason = 2 then t1 else latch 1
  | .yieldDenied => if reason = 2 then t1 else latch 0
  | _ => t1

/-- What the C stream's head keeps once its context is stored: only a barrier's arrival (R233). -/
def Pending.kept : Pending → Pending
  | .barArrived k => .barArrived k
  | .barNext k => .barNext k
  | _ => .none

/-- Whether a chain delivery into a thread is in progress, or the next one of a chained drain finds its tile, be it one that this cycle frees
(R187; log 17). -/
def State.deliveryInto (s : State) (th : Thread) : Bool :=
  match th.life.chainW.bind s.thread? with
  | some w => w.m.chains.any fun c => c.going.isSome || (!c.blocks.isEmpty && match th.writer (s.now + 1) (.ring (BitVec.ofNat 5 c.ring)) with
    | .ok .. => true
    | _ => false)
  | none => false

/-- Whether a thread that is being saved has reached every boundary: its queues are empty, its operations complete, their results ready and
their flags raised, every A-stream load and store performed, every element before a resume index written, no packet of its commands under way
and none of its writes late (R88, R99, R119, R151, R171, R187, R214, R216, R226; log 74, log 77). -/
def State.atBoundary (s : State) (th : Thread) (reason d : Nat) : Bool :=
  decide (d < s.now) && th.c.queue.isEmpty && th.v.queue.isEmpty && th.v.allReady s.now && th.m.ops.isEmpty && th.dues.isEmpty &&
    !s.deliveryInto th &&
    th.a.cmds.all (fun c => c.got.isNone && !c.toPerform && c.packets.isEmpty && !c.flagLost && !s.cmdComplete th.tid c) && !(s.hasLate th.tid fun _ => true) &&
    (match th.life.faultCmd with
      | some f => (th.cmdsBefore f).isEmpty
      | none => true) &&
    (reason == 1 || !th.loop.inStep)

/-- Writes the context of a thread into a half of its slot: none when the partition stage faults. A context longer than a half is not
written (log 21). -/
def State.writeCsa (s : State) (th : Thread) (b : List (BitVec 8)) (half : Bool) : Option State :=
  if s.slotSize th.life.part < b.length then some s
  else s.writePool th.life.part (s.slotBase th.life.part th.life.slot half) b

/-- Settles the latent errors of the scratchpad words that a save reads. -/
def State.probeSaved (s : State) (th : Thread) : State :=
  th.life.rect.cores.foldl (fun t k => t.spProbe k (List.range (8 * trHwmu th.life.record))) s

/-- The thread becomes a resume entry of its queue, the youngest (R244). -/
def State.addResume (s : State) (th : Thread) : State :=
  (s.modQueue th.life.part th.life.queue fun q => { q with resumes := q.resumes ++ [{ tid := th.tid }] }).trigger th.life.part
    { hook := .dispatch, cause := 1, queue := th.life.queue }

/-- A store with REASON 0, 1 or 3 completes: the fragment returns to the allocator, and the thread is SAVED or TRAPPED. -/
def State.finishSave (s : State) (th : Thread) (reason : Nat) (half : Bool) : State :=
  let s1 := s.modThread th.tid fun t =>
    { t with
      c := { t.c with pending := t.c.pending.kept }, a := { t.a with fence := {} },
      life := { t.life with
        phase := if reason = 1 then .trapped else .saved, reason := reason, csaHalf := half, asked := none, mate := false,
        fault := if reason = 1 then t.life.fault else {}, sides := setAt t.life.sides (b2n half) (th.side s.now),
        ckpt := { t.life.ckpt with last := s.now - t.life.ckpt.last } } }
  let s2 := ((s1.leaveFragment th).freeCores th.life.rect.cores).paneFreed th.life.part
  if reason = 1 then s2.triggerFor th .fault 0
  else s2.addResume th

/-- The count of checkpoints and the open interval after one more (R318). -/
def Ckpt.next (c : Ckpt) (now : Nat) : Ckpt := { seq := c.seq + 1, unlog := false, isOpen := true, half := !c.half, last := now }

/-- What `ckpt` pushes: SEQ, and 1 in the stored context. -/
def ckptWord (c : Ckpt) (again : Bool) : Word := wordFields [(c.seq.toNat % 2 ^ 32, 32), (b2n again, 0)]

/-- The registers after a checkpoint's push. -/
def Thread.ckptPush (th : Thread) (w : Word) : Thread :=
  match th.c.pending with
  | .ckptTaken id => { th with c := { th.c with regs := th.c.regs.settle id (Val.ofWord w), pending := .none } }
  | _ => th

/-- Streams restart in place after a checkpoint: their counted cycles move by the cycles that it took (R318). -/
def State.shiftIdle (s : State) (th : Thread) (d : Nat) : Thread :=
  let f := fun (st : Strm) => { st with hold := some (s.countedAt th st + (s.now - d)) }
  { th with sc := f th.sc, sa := f th.sa, sv := f th.sv, sm := f th.sm }

/-- Begins to bring a thread to its boundaries: its fuse request and its offers are withdrawn (R183, R185, R254). A `yield` that a checkpoint meets
waits on for its decision (R252, R318). -/
def State.beginSave (s : State) (th : Thread) (r : Nat) : State :=
  (s.unfuse th).modThread th.tid fun t =>
    { t with
      c := { t.c with pending := match t.c.pending with
        | .fuseAsked | .fuseAnswered _ | .ckptAsked => .none
        | .yieldAsked => if r = 2 then .yieldAsked else .none
        | x => x },
      life := { t.life with phase := .saving r s.now, asked := none, mate := false, offerE := false, offerW := false } }

/-- A thread that runs can be taken now: a loop task only at a step boundary (R83). -/
def Thread.canBeTaken (th : Thread) : Bool := th.life.phase == .running && !th.loop.inStep

/-- Takes the partners of a thread's links with it (R187, R275): one inside a kernel step or a checkpoint is taken when that is over. Only those
of the thread that the pre-emption has selected are taken, not theirs in turn (DEDUCED from R187, log 79). -/
def State.takeMates (s : State) (th : Thread) (r : Nat) : State :=
  ([th.life.chainE, th.life.chainW].filterMap id).foldl (init := s) fun t m =>
    match t.thread? m with
    | some x =>
      if x.canBeTaken then t.beginSave x r
      else
        match x.life.phase with
        | .running | .saving 2 _ => t.modThread m fun y => y.modLife fun l => { l with asked := some r, mate := l.asked.isNone || l.mate }
        | _ => t
    | none => t

/-- A checkpoint's store completes: the thread resumes in place with its L1 as it stands (log 71), unless a trap or a pre-emption waits,
which takes the partners of its links too where it has selected the thread (R187, R303, R318). -/
def State.finishCkpt (s : State) (th csa : Thread) (d : Nat) : State :=
  let ck := th.life.ckpt.next s.now
  let t1 := s.shiftIdle (th.ckptPush (ckptWord ck false)) d
  let s1 := s.modThread th.tid fun _ =>
    t1.modLife fun l =>
      { l with
        ckpt := ck, undo := [], ckLen := (s.part l.part).set.ckint.toNat, sides := setAt l.sides (b2n ck.half) (csa.side s.now), asked := none, mate := false,
        phase := if l.trapping then .saving 1 s.now else match l.asked with
          | some r => if r = 2 then .running else .saving r s.now
          | none => .running }
  match th.life.trapping, th.life.asked with
  | false, some r => if r = 2 || th.life.mate then s1 else s1.takeMates th r
  | _, _ => s1

/-- The context that is to be stored of a thread at its boundaries: the thread as its context holds it, the machine once its scratchpad has
been read, and the bytes. A checkpoint's stands after its `ckpt` (R318). -/
def State.toStore (s : State) (th : Thread) (r d : Nat) : Thread × State × List (BitVec 8) :=
  let s0 := s.probeSaved th
  let ck := th.life.ckpt.next s.now
  let t := if r = 2 then ((th.atRest r).ckptPush (ckptWord ck true)).modLife fun l => { l with ckpt := ck } else th.atRest r
  (t, s0, s0.csa t r d)

/-- A fault of the partition stage on a save or a restore: the thread is killed, and its slot is reported to the host (R311; log 50). -/
def State.lostSlot (s : State) (th : Thread) : State :=
  (s.modPart th.life.part fun q => { q with reports := q.reports ++ [th.life.slot] }).killThread th.tid

/-- CONTEXT_STORE_COMPLETE (R254, R303, R318): once every boundary is reached. -/
def execContextStoreComplete (tid : Nat) (s : State) : Answer :=
  match s.thread? tid with
  | none => .next s
  | some th =>
    match th.life.phase with
    | .saving r d =>
      if !s.atBoundary th r d then .next s
      else
        let (t, s0, b) := s.toStore th r d
        let half := !th.life.ckpt.half
        match s0.writeCsa t b half with
        | none => .next (s0.lostSlot th)
        | some s1 => .next (if r = 2 then s1.finishCkpt th t d else (s1.modThread tid fun _ => t).finishSave t r half)
    | _ => .next s

/-- The first steps of a context's store are done (R316): what the half of the slot holds while the store goes on. -/
def State.storeSome (s : State) (tid n : Nat) : State :=
  match s.thread? tid with
  | none => s
  | some th =>
    match th.life.phase with
    | .saving r d =>
      if !s.atBoundary th r d then s
      else
        let (_, s0, b) := s.toStore th r d
        if s0.slotSize th.life.part < b.length then s
        else
          (storeSteps n b).foldl (init := s0) fun u x =>
            (u.writePool th.life.part (u.slotBase th.life.part th.life.slot (!th.life.ckpt.half) + x.1) x.2).getD u
    | _ => s

/-- The stored context of a thread; none when it cannot be read. -/
def State.storedCsa (s : State) (th : Thread) : Option (List (BitVec 8)) :=
  let p := th.life.part
  let base := s.slotBase p th.life.slot th.life.csaHalf
  (s.readPool p base 16).bind fun h => (s.readPool p base (fieldNat (word8 h.1 1) 63 32)).map (·.1)

/-- A stored context whose C stream's wait is recorded as satisfied, with its CRC (R256, R312, R314): LATCHED and LATCH of its C block. -/
def latchCsa (b : List (BitVec 8)) (w : Word) : List (BitVec 8) :=
  let b1 := blank (b.take 272 ++ wordBytes (word8 b 34 ||| 16) ++ wordBytes w ++ b.drop 288) 32 4
  b1.take 32 ++ leBytes 4 (crc32 b1).toNat ++ b1.drop 36

/-- An event that a thread at rest awaits acts on its stored context (R256); where the partition stage faults, the context stays as it is. -/
def State.latchStored (s : State) (tid : Nat) (w : Word) : State :=
  match s.thread? tid with
  | some th =>
    if th.isRunning || th.sc.wait != .gbar then s
    else
      match s.storedCsa th with
      | some b => (s.writePool th.life.part (s.slotBase th.life.part th.life.slot th.life.csaHalf) (latchCsa b w)).getD s
      | none => s
  | none => s

/-- BARRIER_EPISODE_COMPLETE (R233): every arrival gets its status, one of a thread at rest in its stored context too, and those that wait for the
next episode arrive in it. -/
def execBarrierEpisodeComplete (p g : Nat) (s : State) : Answer :=
  match (s.part p).group? g with
  | none => .next s
  | some x =>
    if !x.complete then .next s
    else
      let n := (x.awaited.filter fun t => x.arrived.contains t).length
      let s1 := x.arrived.foldl (fun t a => (t.latchStored a (groupStatus n g 0)).setPending a (.barDone (groupStatus n g 0))) s
      let x1 : Group :=
        if x.waitNext.isEmpty then { key := x.key, members := x.members }
        else { key := x.key, members := x.members, isOpen := true, awaited := x.members, arrived := x.waitNext }
      let s2 := x.waitNext.foldl (fun t a => t.setPending a (.barArrived x.key)) s1
      .next (s2.modPart p fun q => q.setGroup g (some x1))

/-! ### Resumption (R255, R301) -/

/-- Skip (R301): the instruction at the head of the stream completes as a guarded-off one. -/
def State.skipHead (s : State) (th : Thread) (sid : StreamId) : Thread :=
  let st := th.strm sid
  if st.run != .running then th
  else
    let t1 := th.advance (s.headIssue th sid) s.now
    match s.headInstr th sid with
    | some i => t1.pushVoid sid i
    | none => t1

/-- What `.resume` does at the place of the trap (R301): a translation fault restarts; a poisoned element of a parked command is skipped;
after WATCHDOG the streams go on; every other instruction is skipped. -/
def State.resumePoint (s : State) (th : Thread) (f : FaultRec) (parkedCmd : Bool) : Thread :=
  if f.code = trapTranslation || f.code = trapPermission || f.code = trapWatchdog || f.code = 0 then th
  else if parkedCmd then
    { th with a := { th.a with cmds := match th.a.cmds with
        | c :: r => { c with elem := c.elem + 1 } :: r
        | [] => [] } }
  else s.skipHead th f.strm

/-- What a stored register waits for, put back from what was kept beside it where it still stands as it was stored: a belt entry void, a
named register a clean 0 (log 20). -/
def relink (vs : List Val) (ws : List (Option Nat)) (asStored : Val → Bool) : List Val :=
  vs.zipIdx.map fun x => match ws.getD x.2 none with
    | some id => if asStored x.1 then { x.1 with void := false, wait := some id } else x.1
    | none => x.1

/-- Where a stored loop task stands, by its context alone: inside a step, when a stream that takes part and has not arrived is in its kernel;
past the last step, when the steps are over and a stream has gone on to its epilogue (R80, R83; log 72). -/
def Thread.loopPlace (t : Thread) : Bool × Bool :=
  let on := fun (f : Strm → Bool) => [StreamId.c, .a, .v, .m].any fun x =>
    t.takesPart x && !t.loop.arrived.getD (streamNum x) false && f (t.strm x)
  let inside := fun (st : Strm) (k : Nat) =>
    let q := st.subs.getD k (0, 0)
    decide (st.base + q.1 ≤ st.pc.toNat) && decide (st.pc.toNat < st.base + q.1 + q.2)
  let inStep := decide (t.loop.step < t.loop.t) && on fun st => st.run == .running && inside st 1
  (inStep, decide (t.loop.t ≤ t.loop.step) && on fun st => st.run != .notStarted && (t.loop.t != 0 || st.run != .running || inside st 2))

/-- The thread of a CSA with what its record kept: its groups, the results it waits for, its place in the loop. -/
def Thread.rejoin (t old : Thread) (side : Option Side) (isOpen : Bool) : Thread :=
  let x := side.getD {}
  { t with
    c := { t.c with pending := if t.sc.wait == .gbar then old.c.pending else .none },
    a := { t.a with
      regs := { belt := relink t.a.regs.belt x.belt (·.void),
                named := relink t.a.regs.named x.named fun v => v.bits == 0 && v.mark.isNone } },
    loop := { t.loop with inStep := (x.place.getD t.loopPlace).1, finished := (x.place.getD t.loopPlace).2 },
    life := { t.life with
      keys := old.life.keys, fault := old.life.fault, ckpt := { t.life.ckpt with isOpen := t.life.ckpt.isOpen && isOpen } } }

/-- The commands that read a tile: those that named it by its number, or those that took it from its ring. -/
def readersOf (cmds : List Cmd) (t : Nat) (inRing : Bool) : Nat :=
  (cmds.filter fun c => (readsTile c.instr).isSome && match c.taken with
    | some k => k.tile == t && k.ring.isSome == inRing
    | none => false).length

/-- Tiles with their reads, once the commands stand (R254: a tile that a removed command held FILLING is made FREE, and counts in its ring no
more). -/
def Thread.settleTiles (th : Thread) (removed : Bool) : Thread :=
  let ts := th.tiles.map fun e =>
    (e.1, e.2.map fun x =>
      let y := { x with reads := readersOf th.a.cmds e.1 false, isOver := x.st == .draining && readersOf th.a.cmds e.1 true == 0 }
      if removed && x.st == .filling && !x.vwriter &&
          !(th.a.cmds.any fun c => (writesTile c.instr).isSome && (c.taken.map (·.tile)) == some e.1) then
        { y with st := .free, prev := .free }
      else y)
  { th with tiles := ts, rings := if removed then th.rings.map fun e => (e.1, e.2.map (ringTakes ts)) else th.rings }

/-- The bytes of the commands' scale and index tiles as they were read at their issue (R215); of a context with nothing kept beside it, read
again (log 43). -/
def State.auxAgain (s : State) (th : Thread) (kept : List SideCmd) (c : Cmd) : Cmd :=
  if hasAux c.instr then
    match (kept.find? fun x => x.id == c.id).bind (·.aux), th.tile? c.b.bits.toNat with
    | some bs, _ => { c with auxBytes := bs }
    | none, some x => { c with auxBytes := (s.leadBytes th x.desc (leadSize th.life.rect x.desc)).1 }
    | none, none => c
  else c

/-- Every translation of a context is walked afresh: what the lead core's access TLB and its die's hold of it goes (R214). -/
def State.tlbForget (s : State) (rc : Rect) (p : Nat) (ctx : BitVec 24) : State :=
  let keep := fun (l : List TlbEntry) => l.filter fun e => !(e.part == p && e.ctx == some ctx)
  (s.modCore rc.lead fun c => { c with tlb := keep c.tlb }).modDie rc.die fun d => { d with tlb := keep d.tlb }

/-- The resume is refused: the thread becomes TRAPPED at once, its context as it was stored (R316). -/
def State.refuseResume (s : State) (tid code : Nat) : State :=
  match s.thread? tid with
  | none => s
  | some th =>
    let f : FaultRec := { code := trapIllegal, pc := th.sc.pc, detail := BitVec.ofNat 64 code }
    let s1 := s.modThread tid fun t => t.modLife fun l => { l with phase := .trapped, fault := f, faultCmd := none, reason := 1, act := .plain }
    ((s1.freeCores th.life.rect.cores).paneFreed th.life.part).triggerFor th .fault 0

/-- A stream restarts in the common cycle after this one: its head counts on from its remaining idle (R58, R255). -/
def Strm.restart (st : Strm) (now ridle : Nat) : Strm :=
  if st.run == .running then { st with idleRef := now, hold := some (now + 1 + ridle), trap2 := 0 } else { st with trap2 := 0 }

/-- Puts the contents of a CSA's sections in the panes. -/
def State.putSections (s : State) (th : Thread) (b : List (BitVec 8)) : State :=
  let h := (List.range 512).map (word8 b)
  let sec := fun i => sectionAt b ((List.range 12).map fun k => (fieldNat (h.getD (272 + k) 0) 31 0, fieldNat (h.getD (272 + k) 0) 63 32)) i
  let s1 := (s.putAcc th.life.rect (sec 4)).putBp th.life.rect (sec 5)
  let s2 := s1.putScratch th.life.rect (trHwmu th.life.record) (sec 9)
  ((List.range (trTiles th.life.record)).foldl (init := (s2, sec 3)) fun acc t =>
    match th.tile? t with
    | some x =>
      let g := descGrans x.desc
      (acc.1.putTile th x.desc (gransOf g (acc.2.take (tileBytes g))), acc.2.drop (tileBytes g))
    | none => acc).1

/-- A thread restored inside a kernel step, where WATCHDOG stopped it, goes on with that step: its KMAX counts from the common cycle
(R83, R301; log 72). -/
def LoopUnit.restart (l : LoopUnit) (now kmax : Nat) : LoopUnit := if l.inStep then { l with ks := now + 1, kmax := kmax } else l

/-- The restored thread restarts: parked commands from their resume indices, or, where some name a tile that was not saved, not before the
trap of R254 has been answered. -/
def State.restart (s : State) (old t : Thread) (side : Option Side) (ridle : List Nat) (isOpen : Bool) : State :=
  let t1 := t.rejoin old side isOpen
  let kept := (side.getD {}).cmds
  let lost := fun (c : Cmd) => c.lost (trTiles t.life.record) t.rings || kept.any fun x => x.id == c.id && x.lost
  let f := old.life.fault
  let answered := old.life.act != .plain && f.code == trapIllegal && f.detail == 13
  let t2 := if answered then { t1 with a := { t1.a with cmds := t1.a.cmds.filter fun c => !lost c } } else t1
  let t3 := t2.settleTiles answered
  let t4 := { t3 with a := { t3.a with cmds := t3.a.cmds.map fun c => { s.auxAgain t3 kept c with parked := false } } }
  let i := fun k => ridle.getD k 0
  let t5 := { t4 with
    loop := t4.loop.restart s.now (s.part t4.life.part).set.kmax.toNat,
    sc := t4.sc.restart s.now (i 0), sa := t4.sa.restart s.now (i 1), sv := t4.sv.restart s.now (i 2), sm := t4.sm.restart s.now (i 3),
    life := { t4.life with
      phase := .running, trapping := false, trapAt := none, waitingTrap := none, faultCmd := none, fault := {}, act := .plain,
      start := s.now, sliceAt := s.now,
      sliceLen := (s.part t4.life.part).set.slice.toNat, asked := none,
      ckpt := { t4.life.ckpt with last := s.now - old.life.ckpt.last } } }
  let t6 := if old.life.act == .resume && !answered then s.resumePoint t5 f old.life.faultCmd.isSome else t5
  let put := fun (x : Thread) => (s.modThread old.tid fun _ => x).tlbForget x.life.rect x.life.part x.life.ctx
  if !answered && t6.a.cmds.any lost then
    put ((t6.parkAll).takeTrap s.now
      { (illegal 13).record .a t6.sa.pc with elem := t6.a.cmds.findIdx lost })
  else put t6

/-- What is kept beside a context, with an identity for every body it may hold (log 20). -/
def State.padSide (s : State) (x : Side) : State × Side :=
  let more := (List.range (64 - x.cmds.length)).map fun k =>
    ({ id := s.nextId + k, pc := Config.freePc (s.nextId + k), taken := none } : SideCmd)
  ({ s with nextId := s.nextId + 64 }, { x with cmds := x.cmds ++ more })

/-- The first part of a resumption: the thread leaves its queue, the rectangle is leased to it, and its image is read and checked (R246, R255). -/
def State.resumeImage (s : State) (old : Thread) (rc : Rect) : State × Except Nat Img :=
  let p := old.life.part
  let s1 := (s.modQueue p old.life.queue fun q => { q with resumes := q.resumes.filter fun e => e.tid != old.tid }).modCores rc.cores fun c =>
    c.leaseTo old.tid old.life.ctx
  let s2 := s1.modThread old.tid fun t => t.modLife fun l => { l with rect := rc }
  s2.takeImage rc.die p old.life.ctx (trImage old.life.record) (rc.rows * rc.cols)

/-- Resumes a SAVED thread on a rectangle of its shape (R255). -/
def State.resumeThread (s : State) (tid : Nat) (rc : Rect) : State :=
  match s.thread? tid with
  | none => s
  | some old =>
    let p := old.life.part
    let (s3, b) := s.resumeImage old rc
    match b with
    | .error c => s3.refuseResume tid c
    | .ok img =>
      let s4 := s3.loadCode rc.lead img
      let base := s4.slotBase p old.life.slot old.life.csaHalf
      let th := ({ old with life := { old.life with rect := rc } } : Thread).load img
      let kill := fun (u : State) => (u.modThread tid fun t => t.modLife fun l => { l with phase := .running }).lostSlot th
      match s4.readPool p base 16 with
      | none => kill s4
      | some (h, _) =>
        let len := fieldNat (word8 h 1) 63 32
        if s4.slotSize p < len then s4.refuseResume tid 12
        else
          match s4.readPool p base len with
          | none => kill s4
          | some (bytes, _) =>
            let (s4, x) := s4.padSide (old.life.sides.getD (b2n old.life.csaHalf) {})
            let side := some x
            match th.ofCsa bytes side with
            | none => s4.refuseResume tid 12
            | some t =>
              let ridle := [32, 96, 192, 224].map fun k => fieldNat (word8 bytes k) 41 32
              (s4.putSections t bytes).restart old t side ridle old.life.ckpt.isOpen

/-- A thread's undo log is undone, newest line first (R320); the thread then restores the context its interval began with. -/
def State.rollBack (s : State) (th : Thread) : State :=
  let s1 := th.life.undo.foldl (init := s) fun t u =>
    let t1 := t.dropProxy u.line
    { t1 with mem := (t1.mem.write (64 * u.line) u.bytes).setMark u.line u.mark }
  s1.modThread th.tid fun t =>
    { t with
      c := { t.c with pending := .none }, a := { t.a with fence := {}, cmds := [] },
      life := { t.life with
        undo := [], csaHalf := t.life.ckpt.half, act := .plain, faultCmd := none, trapping := false, trapAt := none, waitingTrap := none,
        fault := {} } }

end Sys2Proof.Machine
end

