-- ==== Sys2Proof/Machine/Task.lean ====
section
/-! DEFINITION. Task instructions and the events of a thread's life: spawn, done, grab, rngset, yield, ckpt; pre-emption, slices, watchdogs,
kernel steps, automatic checkpoints (spec/12_tasks.md R248 to R258; spec/15_traps.md R301, R318, R319; spec/04_control.md R80, R83). -/

namespace Sys2Proof.Machine

/-- Acts as a mark: waits until every older access of the C stream has been performed (R88). -/
def asMark (th : Thread) (h : Head) : Head := if th.c.queue.isEmpty then h else .wait .none

/-- Goes on with n words read around the L1 at a legal address, which must be a multiple of 8n (R248, R179): a poisoned word traps POISON.
Of no words nothing is read. -/
def withWords (s : State) (th : Thread) (ea n : Nat) (h : State → List Word → Head) : Head :=
  if n = 0 then h s [] else
  let s1 := s.spTouch th ea (8 * n)
  let ws := s1.spWords th ea n
  match meetAll (ws.map (·.2)) with
  | some t => .trapIn s1 (poison t)
  | none => h s1 (ws.map (·.1))

/-! ### spawn (R248) -/

/-- A fault of the partition stage on a queue's slot, as the C stream's trap. -/
def XlFault.atHead (f : XlFault) (va : Nat) : TrapInfo :=
  { code := f.code, stage := f.stage, level := f.level, va := BitVec.ofNat 56 va }

/-- The status word of spawn. -/
def spawnStatus (slot : BitVec 32) (code : Nat) : Word := wordFields [(slot.toNat, 32), (code, 0)]

/-- The code with which a spawn of a record into a queue ends. -/
def State.spawnCode (s : State) (th : Thread) (r : Record) (q : Word) : Nat :=
  let x := s.queue th.life.part q.toNat
  if !recordOk r then 3
  else if trCtx r != 0 && trCtx r != th.life.ctx then 4
  else if decide (31 < q.toNat) || !x.en || x.host then 2
  else if decide (x.size ≤ x.depth) then 1
  else 0

/-- spawn. A fault of the partition stage on the queue's slot is recorded with VA 0: the slot has no virtual address, and R313 names no other
(DESIGN CHOICE, log 73). -/
def execSpawn (r q : Src) (d : Dst) (s : State) : Answer :=
  issue s fun k th s1 =>
    let a := (th.regs .c).read r
    let b := (th.regs .c).read q
    consume [a, b] <|
      if !legalAddr th.panes a.bits.toNat 64 then .trap bounds
      else
        asMark th <| withWords s th a.bits.toNat 8 fun s0 r =>
          let code := s.spawnCode th r b.bits
          let touched := fun (t : State) => t.spTouch th a.bits.toNat 64
          if code != 0 then .done ((touched s1).pushWord k (spawnStatus 0 code) d)
          else
            let p := th.life.part
            let x := s.queue p b.bits.toNat
            match (touched s1).enqueueRecord p b.bits.toNat (Record.withCtx r th.life.ctx) with
            | some s2 => .done (s2.pushWord k (spawnStatus x.tail 0) d)
            | none =>
              match s.partXl p (x.slot x.tail) .wr with
              | .error f => .trapIn s0 (f.atHead 0)
              | .ok _ => .trapIn s0 (illegal)

/-! ### The drain (R177) -/

/-- Whether the drain point's conditions hold: A, V and M not running, no access waiting in a queue, no command or operation in flight, no tile
FILLING or DRAINING, no chain delivery. -/
def State.drained177 (s : State) (th : Thread) : Bool :=
  let into := match th.life.chainW.bind s.thread? with
    | some w => w.m.ops.any fun o => match o with
      | .chain c => c.going.isSome
      | _ => false
    | none => false
  th.joined s.now && th.c.queue.isEmpty && th.v.queue.isEmpty && th.m.ops.isEmpty && th.a.cmds.isEmpty && !into &&
    th.tiles.all fun e => match e.2 with
      | some x => !x.busy s.now
      | none => true

/-! ### done (R249) -/

/-- A continuation to be enqueued: its record and its queue. -/
structure Cont where
  record : Record
  queue : Nat
  deriving DecidableEq, Repr

/-- Reads and checks the continuation record, and waits for room in its queue; a fault of the partition stage on the slot is recorded with
VA 0 (DESIGN CHOICE, log 73). -/
def withCont (s : State) (th : Thread) (h : State → Option Cont → Head) : Head :=
  let p := th.life.part
  let va := trCont th.life.record
  let q := trCq th.life.record
  if va = 0 then h s none
  else
    match s.readVirt th.life.rect.die p th.life.ctx va 64 with
    | (s1, .error (f, a)) => .trapIn s1 (f.atHead a)
    | (s1, .ok (_, some t)) => .trapIn s1 (poison t)
    | (s1, .ok (bs, none)) =>
      let r := wordsOf bs
      let x := s.queue p q
      if !recordOk r || !x.en || x.host then .trapIn s1 (illegal)
      else if x.size ≤ x.depth then .hold s1 .done
      else
        match s1.partXl p (x.slot x.tail) .wr with
        | .error f => .trapIn s1 (f.atHead 0)
        | .ok _ => h s1 (some { record := r, queue := q })

/-- Reads the join counter and decides whether the continuation is due. -/
def withJoin (s : State) (th : Thread) (h : State → Bool → Head) : Head :=
  let va := trJoin th.life.record
  if va = 0 then h s true
  else
    match s.xlate th.life.rect.die th.life.part th.life.ctx va .atomic with
    | (s1, .error f) => .trapIn s1 (f.atHead va)
    | (s1, .ok pa) =>
      match (s1.mem.line (pa / 64)).2 with
      | some t => .trapIn s1 (poison t)
      | none =>
        let old := s1.physWord pa
        if old = 0 then
          h (s1.modPol th.life.part fun q => { q with usage := { q.usage with joinerr := q.usage.joinerr + 1 } }) false
        else h (s1.writeRaw pa (wordBytes (old - 1))) (old == 1)

/-- The thread is ENDED: its panes return, or are held for its parent; holds end; groups are left (R249 step 5). -/
def State.endThread (s : State) (th : Thread) : State :=
  let s1 := (s.leaveFragment th).returnPanes th
  match s1.thread? th.tid with
  | some t => s1.removeThread t
  | none => s1

/-- done: it waits as fence.dev would. The instruction of a thread that has ended advances nothing. -/
def execDone (s : State) : Answer :=
  issue s fun k th _ =>
    notInKernel k th <|
      if !s.drained177 th || s.fenceWaits th .dev then .wait .done
      else
        withCont s th fun s1 c =>
          withJoin s1 th fun s2 due =>
            let s3 := match c with
              | some x => if due then (s2.enqueueRecord th.life.part x.queue (Record.withCtx x.record th.life.ctx)).getD s2 else s2
              | none => s2
            .done (s3.endThread th)

/-! ### Ferry ranges (R250, R251) -/

def State.ferry (s : State) (p r : Nat) : Range := (s.part p).ferry.getD r {}

def State.setFerry (s : State) (p r : Nat) (x : Range) : State := s.modPart p fun q => { q with ferry := setAt q.ferry r x }

/-- Elements that a grab takes. -/
def Range.count (x : Range) : Nat :=
  let rem := x.last.toNat - x.next.toNat
  if rem = 0 then 0
  else min rem (min (max x.m.toNat ((rem + 2 * x.p.toNat - 1) / (2 * x.p.toNat))) (2 ^ 24 - 1))

/-- grab: served as it issues. -/
def execGrab (r : Src) (d : Dst) (s : State) : Answer :=
  issue s fun k th s1 =>
    let a := (th.regs .c).read r
    consume [a] <|
      if 64 ≤ a.bits.toNat then .trap (illegal)
      else
        let x := s.ferry th.life.part a.bits.toNat
        let start := if x.next.toNat < x.last.toNat then x.next else x.last
        .done ((s1.setFerry th.life.part a.bits.toNat { x with next := x.next + BitVec.ofNat 40 x.count }).pushWord k
          (wordFields [(start.toNat, 24), (x.count, 0)]) d)

/-- rngset: acts as a mark. -/
def execRngset (ctl start stop : Src) (s : State) : Answer :=
  issue s fun _ th s1 =>
    let c := (th.regs .c).read ctl
    let a := (th.regs .c).read start
    let b := (th.regs .c).read stop
    consume [c, a, b] <|
      let p := fieldNat c.bits 23 8
      let m := fieldNat c.bits 47 24
      if p = 0 || m = 0 || fieldNat c.bits 7 6 != 0 || fieldNat c.bits 63 48 != 0 || decide (2 ^ 40 ≤ a.bits.toNat) ||
          decide (2 ^ 40 ≤ b.bits.toNat) then .trap (illegal)
      else
        asMark th <| .done (s1.setFerry th.life.part (fieldNat c.bits 5 0)
          { next := a.bits.extractLsb' 0 40, last := b.bits.extractLsb' 0 40, p := BitVec.ofNat 16 p, m := BitVec.ofNat 24 m })

/-! ### yield and ckpt -/

/-- yield: waits for both queues, then for its PREEMPT decision; a context stored at the yield pushes 1 on resume (R252). -/
def execYield (d : Dst) (s : State) : Answer :=
  issue s fun k th s1 =>
    notInKernel k th <|
      if th.sc.latched then .done (s1.pushWord k th.sc.latch d)
      else
        match th.c.pending with
        | .yieldDenied => .done ((s1.setPending th.tid .none).pushWord k 0 d)
        | .yieldAsked | .yieldSwapped => .wait .none
        | _ =>
          asMark th <| .hold ((s.triggerFor th .preempt 2).setPending th.tid .yieldAsked) .none

/-- ckpt: the thread is taken at its boundaries with this cycle as d; the push waits for the store (R318). In a loop task's step, which
pre-emption does not enter, it waits at the head for the step's end (R83; log 72). -/
def execCkpt (d : Dst) (s : State) : Answer :=
  issue s fun k th s1 =>
    notInKernel k th <|
      if th.loop.inStep then .hold (s.setPending th.tid .ckptAsked) .none else
      let (s2, id) := s1.newId
      let s3 := (s2.push k { wait := some id } d).setPending th.tid (.ckptTaken id)
      .done (s3.modThread th.tid fun t => t.modLife fun l => { l with phase := .saving 2 s.now })

/-! ### Events -/

/-- PREEMPTION (R187, R254): the decision reaches the lead pane; both members of a link are taken. -/
def execPreemption (tid : Nat) (s : State) : Answer :=
  match s.thread? tid with
  | none => .next s
  | some th =>
    match th.life.asked with
    | none => .next s
    | some r =>
      if !th.canBeTaken then .next s
      else if r = 2 || th.life.mate then .next (s.beginSave th r)
      else .next ((s.beginSave th r).takeMates th r)

/-- SLICE_EXPIRY (R253): the counter is reloaded at the end of the decision that it asks for. -/
def execSliceExpiry (tid : Nat) (s : State) : Answer :=
  match s.thread? tid with
  | none => .next s
  | some th =>
    if th.life.phase == .running && th.life.sliceLen != 0 && decide (th.life.sliceAt + th.life.sliceLen ≤ s.now) then
      .next ((s.modThread tid fun t => t.modLife fun l => { l with sliceLen := 0 }).triggerFor th .preempt 1)
    else .next s

def watchdog (d : Word) : TrapInfo := { code := trapWatchdog, detail := d }

/-- WATCHDOG_WAIT (R301): a head instruction has waited WDOG cycles beyond its counted cycle. -/
def execWatchdogWait (tid : Nat) (st : StreamId) (s : State) : Answer :=
  match s.thread? tid with
  | none => .next s
  | some th =>
    let x := th.strm st
    match x.wdog with
    | some w =>
      if th.life.phase == .running && x.run == .running && w != 0 && decide (s.countedAt th x + w ≤ s.now) then
        .next (s.takeTrap tid ((watchdog 2).record st x.pc))
      else .next s
    | none => .next s

/-- The stream, lowest in the order C, A, V, M, that has not yet arrived (R83). -/
def Thread.laggard (th : Thread) : Option StreamId :=
  [StreamId.c, .a, .v, .m].find? fun x => th.takesPart x && !th.loop.arrived.getD (streamNum x) false

/-- KMAX_OVERRUN (R83): at the start of cycle ks + KMAX, before a stream that would arrive in that cycle does (DESIGN CHOICE, log 72). -/
def execKmaxOverrun (tid : Nat) (s : State) : Answer :=
  match s.thread? tid with
  | none => .next s
  | some th =>
    match th.laggard with
    | some x =>
      if th.life.phase == .running && th.loop.inStep && decide (th.loop.ks + th.loop.kmax ≤ s.now) then
        .next (s.takeTrap tid ((watchdog 1).record x (th.strm x).pc))
      else .next s
    | none => .next s

/-- A stream that takes part begins its kernel in cycle ks, or goes on to its epilogue (R80). -/
def Thread.stepStrm (th : Thread) (sid : StreamId) (ks : Nat) (go : Bool) : Thread :=
  if th.takesPart sid then
    th.modStrm sid fun st =>
      { st with
        idleRef := ks - 1, hold := none,
        pc := if go then st.pc else BitVec.ofNat 16 (st.base + (st.subs.getD 2 (0, 0)).1) }
  else th

/-- LOOP_KERNEL_STEP (R80): once every stream that takes part has arrived, the next step begins, or after the last one the epilogues. With no
stream that takes part the steps are empty, and the unit is done (log 72). A `ckpt` that waits for the step's end comes first (R83, R318). -/
def execLoopKernelStep (tid : Nat) (s : State) : Answer :=
  match s.thread? tid with
  | none => .next s
  | some th =>
    let l := th.loop
    if !th.isLoop || l.finished || l.inStep || !th.allArrived || th.life.phase != .running || th.c.pending == .ckptAsked then .next s
    else
      let ks := max l.ks s.now
      let go := decide (l.step < l.t) && [StreamId.c, .a, .v, .m].any th.takesPart
      .next (s.modThread tid fun t =>
        let t1 := [StreamId.c, .a, .v, .m].foldl (fun u x => u.stepStrm x ks go) t
        { t1 with loop := { l with
            inStep := go, finished := !go, ks := ks, kmax := (s.part th.life.part).set.kmax.toNat,
            arrived := [false, false, false, false] } })

/-- Whether a checkpoint of a thread comes by itself: CKINT has passed since the last one, or its undo log is full (R319; log 33). -/
def State.autoDue (s : State) (th : Thread) : Bool :=
  (th.life.ckLen != 0 && decide (th.life.ckpt.last + th.life.ckLen * 2 ^ 20 ≤ s.now)) || s.logFull th

/-- AUTO_CHECKPOINT (R319). -/
def execAutoCheckpoint (tid : Nat) (s : State) : Answer :=
  match s.thread? tid with
  | none => .next s
  | some th =>
    let l := th.life
    if l.phase == .running && l.asked.isNone && s.autoDue th then
      .next (s.modThread tid fun t => t.modLife fun l => { l with asked := some 2 })
    else .next s

end Sys2Proof.Machine
end

