-- ==== Sys2Proof/Machine/Fragment.lean ====
section
/-! DEFINITION. Fragment instructions: fsplit, ffuse, fchain, funchain, fquery, and the drain point (spec/09_fragments.md R175 to R190). -/

namespace Sys2Proof.Machine

/-- The status word of the fragment instructions (R189). -/
def fragStatus (rc : Rect) (code : Nat) : Word := wordFields [(rc.code, 8), (code, 0)]

/-- Either block-partial register is HELD. -/
def Thread.bpHeld (th : Thread) : Bool := th.m.held.any id

/-- Whether the fragment has a chain link. -/
def Thread.linked (th : Thread) : Bool := th.life.chainE.isSome || th.life.chainW.isSome

/-! ### What a change of shape does to a thread (R178) -/

/-- The lanes of a fragment's panes under another shape: panes that it did not have take the default. -/
def reLanes {α : Type} (d : α) (old new : Rect) (xs : List α) : List α :=
  new.cores.flatMap fun k =>
    match old.cores.findIdx? (· == k) with
    | some p => ((xs.drop (64 * p)).take 64 ++ List.replicate 64 d).take 64
    | none => List.replicate 64 d

def Vec.reshape (old new : Rect) (v : Vec) : Vec :=
  if v.lanes.isEmpty then v else { v with lanes := reLanes {} old new v.lanes }

/-- The thread with its new rectangle: tiles and rings unconfigured, vectors and masks under the new lane numbers. -/
def Thread.reshape (th : Thread) (new : Rect) : Thread :=
  let old := th.life.rect
  { th with
    tiles := [], rings := [], life := { th.life with rect := new },
    v := { th.v with
      belt := th.v.belt.map (Vec.reshape old new), file := th.v.file.map (Vec.reshape old new),
      masks := th.v.masks.map (reLanes false old new) } }

/-- The lead core of the new rectangle holds the thread's instructions, and no L1 holds a line. -/
def State.moveLead (s : State) (old new : Rect) : State :=
  let m := (s.core old.lead).imem
  ((s.modCore old.lead fun c => { c with l1 := [] }).modCore new.lead fun c => { c with l1 := [] }).modCore new.lead fun c =>
    { c with imem := m }

/-! ### fsplit (R179 to R181) -/

/-- A split-list entry. -/
def entryKind (w : Word) : Nat := fieldNat w 63 62
def entryAddr (w : Word) : Nat := fieldNat w 27 0
def entryStarts (w : Word) : Bool := decide (2 ≤ entryKind w)

def entryOk (panes : Nat) (w : Word) : Bool :=
  fieldNat w 61 28 == 0 && (if entryStarts w then legalAddr panes (entryAddr w) 64 else entryAddr w == 0)

/-- The sub-fragments of a rectangle besides the lead one, in row-major order. -/
def subRects (rc : Rect) (shape : Nat) : List Rect :=
  let pr := 2 ^ (shape / 4)
  let pc := 2 ^ (shape % 4)
  ((List.range (rc.rows / pr)).flatMap fun i => (List.range (rc.cols / pc)).map fun j =>
    rectOf shape rc.die (rc.crow + pr * i) (rc.ccol + pc * j)).drop 1

/-- Reads the records of the entries that start tasks, in list order: a poisoned word traps POISON. -/
def withRecords (s : State) (th : Thread) : List Word → (State → List (Option Record) → Head) → Head
  | [], h => h s []
  | e :: r, h =>
    if entryStarts e then
      withWords s th (entryAddr e) 8 fun s1 ws => withRecords s1 th r fun s2 rs => h s2 (some ws :: rs)
    else withRecords s th r fun s1 rs => h s1 (none :: rs)

/-- The lowest free save slots of a partition, n of them. -/
def State.freeSlots (s : State) (p n : Nat) : List Nat :=
  ((List.range (s.part p).set.nslot).filter fun j => !(s.part p).slots.contains j).take n

/-- What becomes of one sub-fragment: returned, held, or a child started on it. -/
def State.giveSub (s : State) (th : Thread) (e : Word) (r : Option Record) (rc : Rect) : State :=
  match r with
  | some rec_ =>
    let p := th.life.part
    let rec1 := Record.withCtx rec_ th.life.ctx
    let (s1, tid) := s.startThread p rec1 rc (trCq rec_) ((s.freeSlot p).getD 0) true
    s1.modThread tid fun t => t.modLife fun l =>
      if entryKind e = 2 then { l with parent := some th.tid, holdAtDone := true } else l
  | none =>
    if entryKind e = 1 then s.modCores rc.cores fun c => { c with lease := .held th.tid, bp := [[], []] }
    else (s.freeCores rc.cores).paneFreed th.life.part

/-- The split once every check has passed. -/
def State.split (s : State) (th : Thread) (shape : Nat) (es : List Word) (rs : List (Option Record)) : State :=
  let old := th.life.rect
  let new := rectOf shape old.die old.crow old.ccol
  let s1 := (s.modThread th.tid fun t => t.reshape new).moveLead old new
  ((es.zip rs).zip (subRects old shape)).foldl (fun t x => t.giveSub th x.1.1 x.1.2 x.2) s1

/-- fsplit. -/
def execFsplit (shape : BitVec 4) (list : Src) (d : Dst) (s : State) : Answer :=
  issue s fun k th s1 =>
    if th.isLoop then .trap (illegal)
    else if !s.drained177 th then .wait .none
    else
      let a := (th.regs .c).read list
      let old := th.life.rect
      let sh := shape.toNat
      if old.lrows < sh / 4 || old.lcols < sh % 4 || th.linked || th.bpHeld then .trap (illegal)
      else
        let n := (subRects old sh).length
        consume [a] <|
          if (List.range n).any (fun i => !legalAddr th.panes (a.bits.toNat + 8 * i) 8) then .trap bounds
          else
            withWords s th a.bits.toNat n fun s0 es =>
              if es.any (fun e => !entryOk th.panes e) then .trapIn s0 (illegal)
              else
                withRecords s0 th es fun s0 rs =>
                  if rs.any (fun r => match r with
                      | some x => !recordOk x || (trCtx x != 0 && trCtx x != th.life.ctx)
                      | none => false) then .trapIn s0 (illegal)
                  else
                    let m := (es.filter entryStarts).length
                    let s2 := { s1 with cores := s0.cores, dies := s0.dies, dev := s0.dev, fresh := s0.fresh }
                    if (s.freeSlots th.life.part m).length < m then .done (s2.pushWord k (fragStatus old 7) d)
                    else
                      let new := rectOf sh old.die old.crow old.ccol
                      .done ((s2.split th sh es rs).pushWord k (fragStatus new 0) d)

/-! ### ffuse (R182, R183) -/

/-- The aligned rectangle of a shape that contains a rectangle. -/
def fuseTarget (rc : Rect) (shape : Nat) : Rect :=
  let pr := 2 ^ (shape / 4)
  let pc := 2 ^ (shape % 4)
  rectOf shape rc.die (rc.crow / pr * pr) (rc.ccol / pc * pc)

/-- Whether a fuse request has been granted, its `ffuse` not having taken the panes yet. -/
def State.fuseGranted (s : State) (f : FuseReq) : Bool :=
  match s.thread? f.tid with
  | some t => t.c.pending == .fuseAnswered 0
  | none => false

/-- READY (R183, R270): every target pane is unleased or held for the requester, or its own already. -/
def State.fuseFree (s : State) (th : Thread) (target : Rect) : Bool :=
  target.cores.all fun k => (s.core k).lease == .leased th.tid || (s.core k).lease == .held th.tid || (s.core k).lease == .unleased

/-- Whether a pane of a fuse's target is the thread's own, held for it, or at the allocator's disposal for it: it lies in no reservation made
before this request's (R247), in the target of no older request and of none already granted (R183). -/
def State.fusePane (s : State) (th : Thread) (k : Nat) : Bool :=
  let fs := (s.part th.life.part).fuses
  (s.core k).lease == .leased th.tid || (s.core k).lease == .held th.tid ||
    (s.freePane th.life.part k && !s.inReserve th.life.part k &&
      !((fs.takeWhile fun f => f.tid != th.tid) ++ fs.filter fun f => f.tid != th.tid && s.fuseGranted f).any fun f => f.target.cores.contains k)

/-- The allocator can lease every target pane to the requester. A request may be READY, its panes being unleased, and still be kept from one by
a reservation that was made before its own (log 81). -/
def State.fuseReady (s : State) (th : Thread) (target : Rect) : Bool := target.cores.all (s.fusePane th)

/-- A pane that joins a fragment: a held one keeps everything but its block partials; one from the allocator is cleared by R246's rule, and
its accumulators hold 0. -/
def Core.joinFragment (c : Core) (tid : Nat) (ctx : BitVec 24) : Core :=
  match c.lease with
  | .unleased => { c.leaseTo tid ctx with acc := [[], [], [], []], bp := [[], []] }
  | _ => { c with lease := .leased tid, lastCtx := some ctx, bp := [[], []], l1 := [] }

/-- The fuse granted (R178, R182). -/
def State.fuse (s : State) (th : Thread) (target : Rect) : State :=
  let s1 := s.modCores target.cores fun c => c.joinFragment th.tid th.life.ctx
  (((s1.unfuse th).modThread th.tid fun t => t.reshape target).moveLead th.life.rect target).setPending th.tid .none

/-- ffuse: the checks of R182 are taken at the drain point; a request that waits is answered by the policy alone (R177, R183). -/
def execFfuse (tryOnly : Bool) (shape : BitVec 4) (d : Dst) (s : State) : Answer :=
  issue s fun k th s1 =>
    if th.isLoop then .trap (illegal)
    else if !s.drained177 th then .wait .none
    else
      let old := th.life.rect
      let sh := shape.toNat
      let target := fuseTarget old sh
      let p := th.life.part
      let status := fun (t : State) (c : Nat) => Head.done ((t.setPending th.tid .none).pushWord k (fragStatus old c) d)
      let refused := target.cores.any (fun c => !s.ownPane p c) ||
        decide (s.slotSize p < saveLen (target.rows * target.cols) th.life.record [] th.life.handles.length)
      if sh / 4 < old.lrows || sh % 4 < old.lcols || sh == old.shape || th.linked || th.bpHeld then .trap (illegal)
      else
        match th.c.pending with
        | .fuseAnswered 1 => status (s1.unfuse th) 1
        | .fuseAsked => .wait .none
        | .fuseAnswered _ =>
          if s.fuseReady th target then .done ((s1.fuse th target).pushWord k (fragStatus target 0) d)
          else .hold (s.setPending th.tid .fuseAsked) .none
        | _ =>
          if refused then status s1 2
          else if s.fuseReady th target then .done ((s1.fuse th target).pushWord k (fragStatus target 0) d)
          else if tryOnly then status s1 3
          else
            .hold (((s.modPart p fun q => { q with fuses := q.fuses ++ [{ tid := th.tid, target := target }] }).trigger p
              { hook := .dispatch, cause := 3, tid := th.tid }).setPending th.tid .fuseAsked) .none

/-! ### fchain and funchain (R184 to R187) -/

/-- Whether a west rectangle's east edge touches an east rectangle's west edge. -/
def abuts (w e : Rect) : Bool :=
  w.die == e.die && w.ccol + w.cols == e.ccol && decide (w.crow < e.crow + e.rows) && decide (e.crow < w.crow + w.rows)

/-- The thread that abuts an edge and offers a link on its facing edge: of several, the first in the thread list (DESIGN CHOICE, log 80). -/
def State.partner (s : State) (th : Thread) (west : Bool) : Option Thread :=
  s.threads.find? fun o =>
    o.tid != th.tid && o.life.phase == .running &&
      (if west then o.life.offerE && abuts o.life.rect th.life.rect else o.life.offerW && abuts th.life.rect o.life.rect)

/-- Whether two members suit each other. -/
def linkable (a b : Thread) : Bool :=
  a.life.rect.crow == b.life.rect.crow && a.life.rect.lrows == b.life.rect.lrows && a.life.part == b.life.part

/-- A thread's edge after a match: its offer is spent, and it carries a link to the partner if the link has formed. -/
def Life.chained (l : Life) (west : Bool) (to_ : Option Nat) : Life :=
  if west then { l with offerW := false, chainW := to_ } else { l with offerE := false, chainE := to_ }

/-- A match completes the `fchain` at a partner's head: it pushes its status (R185). -/
def State.answerChain (s : State) (o : Thread) (c : Nat) : State :=
  match s.headInstr o .c with
  | some (.fchain _ d) =>
    let k := s.headIssue o .c
    (s.advance k).pushWord k (fragStatus o.life.rect c) d
  | _ => s

/-- fchain: two offers on facing edges match; both members push the same status. -/
def execFchain (west : Bool) (d : Dst) (s : State) : Answer :=
  issue s fun k th s1 =>
    let rc := th.life.rect
    let push := fun (t : State) (c : Nat) => Head.done (t.pushWord k (fragStatus rc c) d)
    if th.isLoop then .trap (illegal)
    else
      if (if west then th.life.chainW else th.life.chainE).isSome then .trap (illegal)
      else if (if west then rc.ccol == 0 else rc.ccol + rc.cols == 4) then push s1 4
      else
        match s.partner th west with
        | none =>
          .hold (s.modThread th.tid fun t => t.modLife fun l => if west then { l with offerW := true } else { l with offerE := true }) .none
        | some o =>
          let ok := linkable th o
          let s2 := s1.modThread th.tid fun t => t.modLife fun l => l.chained west (if ok then some o.tid else none)
          let s3 := s2.modThread o.tid fun t => t.modLife fun l => l.chained (!west) (if ok then some th.tid else none)
          push (s3.answerChain o (if ok then 0 else 5)) (if ok then 0 else 5)

/-- funchain: waits until the west member's M stream is not running and no delivery is in progress. -/
def execFunchain (west : Bool) (d : Dst) (s : State) : Answer :=
  issue s fun k th s1 =>
    if th.isLoop then .trap (illegal)
    else
      let push := fun (t : State) (c : Nat) => Head.done (t.pushWord k (fragStatus th.life.rect c) d)
      match (if west then th.life.chainW else th.life.chainE).bind s.thread? with
      | none => push s1 6
      | some o =>
        let w := if west then o else th
        let going := w.m.ops.any fun x => match x with
          | .chain _ => true
          | _ => false
        if !w.sm.idleAt s.now || going then .wait .none
        else
          push ((s1.modThread th.tid fun t => t.modLife fun l => l.chained west none).modThread o.tid fun t =>
            t.modLife fun l => l.chained (!west) none) 0

/-! ### fquery (R188) -/

/-- A bitmap of the cores of a die. -/
def dieMap (d : Nat) (f : Nat → Bool) : Nat := (List.range 16).foldl (fun a k => a + b2n (f (16 * d + k)) * 2 ^ k) 0

/-- The word `fquery` pushes. -/
def State.fqueryWord (s : State) (th : Thread) : Word :=
  let rc := th.life.rect
  let p := th.life.part
  wordFields [(dieMap rc.die fun k => (s.core k).lease == .held th.tid, 48),
    (dieMap rc.die fun k => s.ownPane p k && (s.core k).lease == .unleased && !s.inFuse p k && !s.inReserve p k, 32),
    (dieMap rc.die fun k => (s.core k).disabled, 16), (b2n th.life.chainW.isSome, 9), (b2n th.life.chainE.isSome, 8), (rc.code, 0)]

/-- What `fquery` would push, taken as a cycle begins. -/
def State.takeQuery (s : State) (th : Thread) : Thread := { th with c := { th.c with query := some (s.now, s.fqueryWord th) } }

/-- The snapshot of the start of this cycle. -/
def State.queried (s : State) (th : Thread) : Word :=
  match th.c.query with
  | some (t, w) => if t = s.now then w else s.fqueryWord th
  | none => s.fqueryWord th

/-- fquery: the snapshot taken as its issue cycle began. -/
def execFquery (d : Dst) (s : State) : Answer := issue s fun k th s1 => .done (s1.pushWord k (s.queried th) d)

/-! ### The drain point (R177) -/

/-- DRAIN_POINT: an fsplit or ffuse that waits at the head of a thread's C stream takes its checks and its effect. -/
def execDrainPoint (tid : Nat) (s : State) : Answer :=
  let go := fun (x : Answer) => match x with
    | .next t => Host.Outcome.next { t with cur := .none }
    | y => y
  match s.thread? tid with
  | none => .next s
  | some th =>
    if !s.drained177 th then .next s
    else
      match s.beginStream tid .c with
      | .run (.fsplit shape list d) t => go (execFsplit shape list d t)
      | .run (.ffuse tryOnly shape d) t => go (execFfuse tryOnly shape d t)
      | _ => .next s

end Sys2Proof.Machine
end

