-- ==== Sys2Proof/Machine/System.lean ====
section
/-! DEFINITION. trap, brk, ptst, the system registers, and FAULTREQ (spec/15_traps.md R307 to R310, with R64, R103, R118, R119, R133, R153,
R210, R224). -/

namespace Sys2Proof

/-- The number a sysr or sysw names (R307). -/
def RegNum.num : RegNum → Nat
  | .short v => v.toNat
  | .lit v => v.toNat

/-- The DETAIL of trap and brk: IMM zero-extended, or the literal (R309). -/
def Imm.detail : Imm → Word
  | .short v => v.zeroExtend 64
  | .lit v => v

end Sys2Proof

namespace Sys2Proof.Machine

/-! ### trap, brk, ptst -/

/-- trap (R309). -/
def execTrap (c : Imm) (s : State) : Answer :=
  issue s fun k th _ => notInKernel k th <| .trap { code := trapSoftware, detail := c.detail }

/-- brk (R309). -/
def execBrk (c : Imm) (s : State) : Answer :=
  issue s fun k th _ => notInKernel k th <| .trap { code := trapBreak, detail := c.detail }

/-- The word of the plain ptst: whether the operand is void, its poison bit, its tag (R310). -/
def ptstWord (isVoid : Bool) (m : Mark) : Word := wordFields [(b2n isVoid, 13), (b2n m.isSome, 12), ((m.getD 0).toNat, 0)]

/-- Whether a specifier names a void belt entry (R41). -/
def Scalar.isVoid (r : Scalar) : Src → Bool
  | .belt k => (r.belt.getD k.toNat Val.empty).void
  | .named _ => false

/-- ptst: consumes nothing; a literal must be 0 (R310). -/
def execPtst (strip : Bool) (x : Src) (l : Option Word) (d : Dst) (s : State) : Answer :=
  issue s fun k th s1 =>
    let a := (th.regs .c).read x
    if l.getD 0 != 0 then .trap (illegal)
    else ready [a] <| .done (s1.pushWord k (if strip then a.bits else ptstWord ((th.regs .c).isVoid x) a.mark) d)

/-! ### System registers (R307) -/

/-- The registers of the table. -/
inductive SysReg where
  | ckst
  | counter (st : StreamId) (k : Nat)
  | spV | spC | spA | spX
  | fstat | dph | vstall | cadr | pfdrop
  | window (pane w : Nat)
  deriving DecidableEq, Repr

/-- The register a number names; FAULTREQ, which cannot be read, has an instruction of its own. -/
def sysReg (n : Nat) : Option SysReg :=
  if n = 0x010 then some .ckst
  else if decide (0x040 ≤ n) && decide (n < 0x050) then some (.counter (streamOf ((n - 0x040) / 4)) (n % 4))
  else if n = 0x080 then some .spV
  else if n = 0x081 then some .spC
  else if n = 0x082 then some .spA
  else if n = 0x083 then some .spX
  else if n = 0x084 then some .fstat
  else if n = 0x085 then some .dph
  else if n = 0x086 then some .vstall
  else if n = 0x087 then some .cadr
  else if n = 0x088 then some .pfdrop
  else if decide (0x100 ≤ n) && decide (n < 0x180) then some (.window ((n - 0x100) / 8) (n % 8))
  else none

/-- Whether the register is there for the thread: an inbox window of a pane that its fragment has (R224). -/
def SysReg.present (th : Thread) : SysReg → Bool
  | .window p _ => decide (p < th.panes)
  | _ => true

/-- The register at the start of a cycle. -/
def State.readReg (s : State) (th : Thread) : SysReg → Word
  | .ckst => th.life.ckst
  | .counter st k => (th.strm st).lc.getD k 0
  | .spV => wordFields [(th.cnt.spV, 0)]
  | .spC => wordFields [(th.cnt.spC, 0)]
  | .spA => wordFields [(th.cnt.spA, 0)]
  | .spX => wordFields [(th.cnt.spX, 0)]
  | .fstat => th.cnt.fstat.zeroExtend 64
  | .dph => th.cnt.dph.zeroExtend 64
  | .vstall => wordFields [(th.cnt.vstall, 0)]
  | .cadr => wordFields [(s.effCad th, 8), ((s.core th.life.rect.lead).cad, 0)]
  | .pfdrop => wordFields [(th.cnt.pfdrop, 0)]
  | .window p w => (s.core (th.coreOf p)).wins.getD w 0

/-- Whether a value has a reserved field of the register that is not 0. -/
def SysReg.reserved (v : Word) : SysReg → Bool
  | .spV | .spC | .spA | .spX | .vstall | .pfdrop => fieldNat v 63 48 != 0
  | .fstat => fieldNat v 63 8 != 0
  | .dph => fieldNat v 63 5 != 0
  | .window .. => fieldNat v 44 36 != 0
  | .ckst | .cadr | .counter .. => false

/-- Whether the register can be written now: read-only registers never, a counter of A, V or M or DPH not while its stream runs (R64, R118). -/
def SysReg.writable (th : Thread) (now : Nat) : SysReg → Bool
  | .ckst | .cadr => false
  | .counter st _ => st == .c || (th.strm st).idleAt now
  | .dph => th.sv.idleAt now && th.sm.idleAt now
  | _ => true

/-- Writes the register of a thread; an inbox window is core state. -/
def State.writeReg (s : State) (th : Thread) (v : Word) (r : SysReg) : State :=
  let cnt := fun (f : Counters → Counters) => s.modThread th.tid fun t => { t with cnt := f t.cnt }
  match r with
  | .counter st k => s.modThread th.tid fun t => t.modStrm st fun x => { x with lc := setAt x.lc k v }
  | .spV => cnt fun c => { c with spV := v.toNat }
  | .spC => cnt fun c => { c with spC := v.toNat }
  | .spA => cnt fun c => { c with spA := v.toNat }
  | .spX => cnt fun c => { c with spX := v.toNat }
  | .fstat => cnt fun c => { c with fstat := v.extractLsb' 0 8 }
  | .dph => cnt fun c => { c with dph := v.extractLsb' 0 5 }
  | .vstall => cnt fun c => { c with vstall := v.toNat }
  | .pfdrop => cnt fun c => { c with pfdrop := v.toNat }
  | .window p w => s.modCore (th.coreOf p) fun c => { c with wins := setAt c.wins w v }
  | .ckst | .cadr => s

/-- sysr: the register as it stands at the start of the cycle, clean (R307). -/
def execSysr (r : RegNum) (d : Dst) (s : State) : Answer :=
  issue s fun k th s1 =>
    match sysReg r.num with
    | some x => if x.present th then .done (s1.pushWord k (s.readReg th x) d) else .trap (illegal)
    | none => .trap (illegal)

/-- sysw (R307). -/
def execSysw (v : Src) (r : RegNum) (s : State) : Answer :=
  issue s fun _ th s1 =>
    let a := (th.regs .c).read v
    match sysReg r.num with
    | some x =>
      if !x.present th || !x.writable th s.now then .trap (illegal)
      else consume [a] (if x.reserved a.bits then .trap (illegal) else .done (s1.writeReg th a.bits x))
    | none => .trap (illegal)

/-- A command that writes global memory or other cores' windows (R227, R249). -/
def writesAfar : Instr → Bool
  | .tst .. | .tsca .. | .gamo .. | .send .. | .sendf .. | .flag .. | .fltclose .. => true
  | .ncopy dir .. => dir == .lg
  | _ => false

/-- FAULTREQ, register 0x020 of sysw: waits for the thread's earlier writes, as `done` does, then asks for a further decision on a PARKED thread of the
same partition and CTX (R308). -/
def execFaultreq (v : Src) (_viaLit : Bool) (s : State) : Answer :=
  issue s fun _ th s1 =>
    let a := (th.regs .c).read v
    consume [a] <|
      if fieldNat a.bits 63 16 != 0 then .trap (illegal)
      else if (th.a.cmds.any fun c => writesAfar c.instr) || s.fenceWaits th .dev then .wait .none
      else
        match s.threads.find? fun t =>
          t.life.phase == .parked && t.life.part == th.life.part && t.life.ctx == th.life.ctx && t.life.slot == a.bits.toNat with
        | some t => .done (s1.triggerFor t .fault 1)
        | none => .done s1

end Sys2Proof.Machine
end

