-- ==== Sys2Proof/Machine/Decide.lean ====
section
/-! DEFINITION. Decisions: the snapshot, the start of a decision, its outputs at pend, the fallback, overruns, POLICY_SEL between decisions
(spec/13_policy.md R259 to R265, R269 to R277; spec/12_tasks.md R243, R245, R247). -/

namespace Sys2Proof.Machine

/-! ### Entries (R271) -/

/-- An entry of a queue: the thread of a resume entry, the record (none for one that is malformed or cannot be read), and its count. -/
structure QEntry where
  tid : Option Nat
  task : Option Record
  shape : Nat := 0
  byp : Nat := 0
  deriving DecidableEq, Repr

/-- A QUEUED record as an entry. -/
def State.wellFormedAt (s : State) (p q : Nat) (i : BitVec 32) : Option Record := (s.queued p q i).filter recordOk

/-- How many malformed records stand at the head of a queue, of at most n. -/
def State.malformed (s : State) (p q : Nat) (i : BitVec 32) : Nat → Nat
  | 0 => 0
  | n + 1 => if (s.wellFormedAt p q i).isSome then 0 else 1 + s.malformed p q (i + 1) n

/-- The first four entries of a queue: resume entries, oldest first, then the QUEUED records from HEAD + `skip` on. -/
def State.entriesFrom (s : State) (p q skip : Nat) : List QEntry :=
  let x := s.queue p q
  let rs : List QEntry := x.resumes.filterMap fun e => (s.thread? e.tid).map fun th =>
    { tid := some e.tid, task := some th.life.record, shape := th.life.rect.shape, byp := e.byp }
  let qs : List QEntry := (List.range (min (x.depth - skip) 4)).map fun i =>
    { tid := none, task := s.wellFormedAt p q (x.head + BitVec.ofNat 32 (skip + i)), byp := if skip + i = 0 then x.age else 0 }
  (rs ++ qs).take 4

/-- The entries as the queue holds them, which a .disp names. -/
def State.entries (s : State) (p q : Nat) : List QEntry := s.entriesFrom p q 0

/-- The entries as a decision sees them: never a malformed record first among the QUEUED ones, whether or not this decision has discarded
it (R243, R271; log 57). -/
def State.seenEntries (s : State) (p q : Nat) : List QEntry :=
  s.entriesFrom p q (s.malformed p q (s.queue p q).head (s.queue p q).depth)

def QEntry.smin (e : QEntry) : Nat :=
  match e.tid, e.task with
  | some _, _ => e.shape
  | none, some r => trSmin r
  | none, none => 15

def QEntry.spref (e : QEntry) : Nat :=
  match e.tid, e.task with
  | some _, _ => e.shape
  | none, some r => trSpref r
  | none, none => 15

/-- A 32-bit word made of fields, each a value and the place of its lowest bit. -/
def word32 (fs : List (Nat × Nat)) : BitVec 32 := BitVec.ofNat 32 (fs.foldl (fun a f => a + f.1 * 2 ^ f.2) 0)

/-- The descriptor of an entry, apart from PRB and HIT; BYP is that of entry 0 only. -/
def QEntry.word (e : QEntry) (first : Bool) : BitVec 32 :=
  match e.task with
  | none => word32 [(1, 31), (15, 24), (15, 20)]
  | some _ =>
    word32 [(1, 31), (b2n e.tid.isSome, 30), (e.smin, 24), (e.spref, 20), (if first then min e.byp 0xFFFFF else 0, 0)]

/-- The queue whose reservation of R247 counts as free for the entry. -/
def QEntry.forHead (e : QEntry) (q : Nat) : Option Nat := if e.tid.isSome then none else some q

/-- Where placement AUTO would put the entry. -/
def State.placeEntry (s : State) (p q : Nat) (e : QEntry) : Option Rect :=
  match e.tid, e.task with
  | some _, _ => s.placeShape p none e.shape
  | none, some _ => s.placeAuto p (some q) e.smin e.spref
  | none, none => none

/-! ### The snapshot (R260, R270) -/

def State.viewQueue (s : State) (p q : Nat) : QView :=
  let x := s.queue p q
  let es := s.seenEntries p q
  { cfg := word32 [(b2n x.en, 31), (x.prio, 28), (b2n x.host, 27)], depth := x.depth, resumes := x.resumes.length,
    entries := es.zipIdx.map fun e => e.1.word (e.2 == 0),
    hints := es.map fun e => match e.task with
      | some r => (trCtx r, trHint r)
      | none => (0, 0),
    fit := match es with
      | e :: _ => x.en && (s.placeEntry p q e).isSome
      | [] => false,
    byp := match es with
      | e :: _ => e.byp
      | [] => 0,
    prio := x.prio }

/-- The running thread of a partition whose lead pane a handle names. -/
def State.atHandle (s : State) (p h : Nat) : Option Thread :=
  s.threads.find? fun th => th.life.part == p && th.isRunning && th.life.rect.lead == h

/-- A fragment's descriptor. -/
def State.viewFrag (s : State) (p h : Nat) : BitVec 32 :=
  match s.atHandle p h with
  | none => 0
  | some th =>
    word32 [(1, 31), (s.classOf th, 28), (th.life.queue, 23), (th.life.rect.code, 8), (min ((s.now - th.life.start) / 2 ^ 20) 255, 0)]

/-- Whether a fuse request waits for a verdict. -/
def State.unanswered (s : State) (f : FuseReq) : Bool :=
  match s.thread? f.tid with
  | some th => th.c.pending == .fuseAsked && th.life.phase == .running
  | none => false

def State.waitingFuses (s : State) (p : Nat) : List FuseReq := (s.part p).fuses.filter s.unanswered

/-- A fuse request's word. -/
def State.viewFuse (s : State) (f : FuseReq) : BitVec 32 :=
  match s.thread? f.tid with
  | none => 0
  | some th => word32 [(1, 31), (b2n (s.fuseFree th f.target), 30), (th.life.rect.lead, 23), (f.target.code, 12)]

/-- A pane in a reservation of R183 or R247; a requester's own panes are not reserved. -/
def State.reserved (s : State) (p k : Nat) : Bool :=
  s.inReserve p k || (s.part p).fuses.any fun f => f.target.cores.contains k && (s.core k).lease != .leased f.tid

def Hook.code : Hook → Nat
  | .dispatch => 0
  | .preempt => 1
  | .fault => 2

def Usage.words (u : Usage) : List (BitVec 32) :=
  [u.decisions, u.dispatched, u.overrun, u.malrec, u.badpick, u.joinerr, u.fallback]

/-- The snapshot a decision on a trigger takes. -/
def State.snapshot (s : State) (p : Nat) (t : Trigger) : Snapshot :=
  let pq := s.part p
  let f : FaultRec := match t.hook, s.thread? t.tid with
    | .fault, some th => th.life.fault
    | _, _ => {}
  let xl := f.code == trapTranslation || f.code == trapPermission
  let die := fun (f : Nat → Bool) (d : Nat) => dieMap d f
  let mine := fun (d : Nat) => (List.range 16).any fun k => s.partOf (16 * d + k) == some p
  let dies := fun (g : Nat → Nat) => (List.range 8).map fun d => BitVec.ofNat 32 (if mine d then g d else 0)
  { hook := BitVec.ofNat 32 t.hook.code, cause := BitVec.ofNat 32 t.cause,
    subject := BitVec.ofNat 32 (match t.hook, t.cause with
      | .dispatch, _ => 0
      | .preempt, 0 => t.queue
      | _, _ => t.handle),
    shape := BitVec.ofNat 32 (match t.hook, t.cause with
      | .dispatch, _ => 0
      | .preempt, 0 => 0
      | _, _ => t.shape),
    fcode := BitVec.ofNat 32 f.code,
    fvalo := if xl then f.va.extractLsb' 0 32 else 0,
    fvahi := if xl then word32 [((f.va.extractLsb' 32 24).toNat, 0), (f.stage - 1, 24), (f.level, 25)] else 0,
    fq := BitVec.ofNat 32 (match t.hook, s.thread? t.tid with
      | .fault, some th => th.life.queue
      | _, _ => 0),
    queues := (List.range 32).map (s.viewQueue p),
    free := dies (die fun k => s.ownPane p k && (s.core k).lease == .unleased && !s.reserved p k),
    own := dies fun d => dieMap d (fun k => s.partOf k == some p) + 2 ^ 16 * dieMap d (fun k => s.partOf k == some p && (s.core k).disabled),
    rsv := dies (die fun k => s.reserved p k),
    frag := (List.range 128).map (s.viewFrag p),
    freq := (s.waitingFuses p).map s.viewFuse,
    usage := pq.pol.usage.words }

/-- Whether a queue had EN = 1 in the snapshot. -/
def QView.en (q : QView) : Bool := q.cfg.getLsbD 31

/-! ### Outputs at pend (R273 to R277) -/

def State.count (s : State) (p : Nat) (f : Usage → Usage) : State := s.modPol p fun q => { q with usage := f q.usage }

def State.badpick (s : State) (p : Nat) : State := s.count p fun u => { u with badpick := u.badpick + 1 }

/-- A verdict on one request: none where the output names no request, a request, whether it grants, and whether it was named by itself. -/
structure Ruling where
  req : Option FuseReq
  grant : Bool
  named : Bool
  deriving DecidableEq, Repr

/-- The verdicts of a decision in program order, a later one on the same request in place of an earlier one; .grantall is one on every request
that is READY (R273). -/
def rulings (s : State) (p : Nat) (reqs : List FuseReq) (vs : List Verdict) : List Ruling :=
  let put := fun (l : List Ruling) (r : Ruling) => (if r.req.isSome then l.filter fun x => x.req != r.req else l) ++ [r]
  vs.foldl (init := []) fun l v => match v with
    | .grant k => put l { req := reqs[k.toNat]?, grant := true, named := true }
    | .fail k => put l { req := reqs[k.toNat]?, grant := false, named := true }
    | .grantall =>
      ((s.waitingFuses p).filter fun f => match s.thread? f.tid with
        | some th => s.fuseFree th f.target
        | none => false).foldl (fun l f => put l { req := some f, grant := true, named := false }) l
    | .disp .. => l

/-- Applies one verdict; answers whether it granted. A failed request waits no more, and its reservation is gone. A grant of a READY request that
the allocator cannot lease a pane to, for a reservation that stands, is void (log 81). -/
def State.rule (s : State) (p : Nat) (r : Ruling) : State × Bool :=
  let void := (if r.named then s.badpick p else s, false)
  match r.req with
  | none => void
  | some f =>
    match s.thread? f.tid with
    | none => void
    | some th =>
      if !(s.waitingFuses p).contains f then void
      else if !r.grant then ((s.unfuse th).setPending f.tid (.fuseAnswered 1), false)
      else if s.fuseReady th f.target then (s.setPending f.tid (.fuseAnswered 0), true)
      else void

/-- What a placement word comes to for an entry (R274): void, no rectangle free, or a rectangle. -/
inductive Placing where
  | void
  | none
  | at_ (rc : Rect)

/-- Whether the shape is one the entry takes. -/
def QEntry.takes (e : QEntry) (sh : Nat) : Bool := shapeWithin e.smin e.spref sh && decide (sh / 4 < 3) && decide (sh % 4 < 3)

def State.placing (s : State) (p q : Nat) (e : QEntry) (w : BitVec 32) : Placing :=
  let n := w.toNat
  let mode := n / 2 ^ 12 % 4
  let die := n / 2 ^ 8 % 8
  let rect := n % 256
  if n / 2 ^ 14 != 0 || n / 2 ^ 11 % 2 != 0 || mode == 3 || e.task.isNone then .void
  else if mode == 0 then
    if die != 0 || rect != 0 then .void
    else match s.placeEntry p q e with
      | some rc => .at_ rc
      | none => .none
  else
    let sh := rect / 16
    if !e.takes sh then .void
    else if mode == 1 then
      if die != 0 || rect % 16 != 0 then .void
      else match s.placeShape p (e.forHead q) sh with
        | some rc => .at_ rc
        | none => .none
    else
      let rc := rectOf sh die (rect / 4 % 4) (rect % 4)
      if rc.crow % rc.rows == 0 && rc.ccol % rc.cols == 0 && s.rectFree p (e.forHead q) rc then .at_ rc else .void

/-- One more decision has passed over the heads and first resume entries of a partition (R247, R271). -/
def Queue.passedOver (q : Queue) : Queue :=
  { q with
    age := if q.depth = 0 then q.age else q.age + 1,
    resumes := match q.resumes with
      | e :: r => { e with byp := e.byp + 1 } :: r
      | [] => [] }

/-- Dispatches entry 0 of a queue (R273): answers whether it did. What is dispatched leaves its queue with its own count. A record that
finds no free save slot is void whatever its placement (R311). -/
def State.dispatch (s : State) (p : Nat) (queue place : BitVec 32) : State × Bool :=
  let q := queue.toNat
  let bad := (s.badpick p, false)
  if 32 ≤ q || !(s.queue p q).en then bad
  else
    match s.entries p q with
    | [] => bad
    | e :: _ =>
      if e.tid.isNone && (s.freeSlot p).isNone then bad
      else match s.placing p q e place with
      | .void => bad
      | .none => (s, false)
      | .at_ rc =>
        let s1 := (s.modPart p fun x => { x with queues := x.queues.map Queue.passedOver }).count p fun u =>
          { u with dispatched := u.dispatched + 1 }
        match e.tid, e.task with
        | some t, _ => (s1.resumeThread t rc, true)
        | none, some r =>
          match s.freeSlot p with
          | some slot => (s1.dispatchRecord p q slot r rc, true)
          | none => bad
        | none, none => bad

/-- Whether a queue has a first entry. -/
def Queue.hasEntry (q : Queue) : Bool := !q.resumes.isEmpty || decide (0 < q.depth)

/-- The oldest QUEUED head of a partition's enabled queues: the greatest age, and of those the lowest queue. -/
def State.oldestHead (s : State) (p : Nat) : Option (Nat × Nat) :=
  (List.range 32).foldl (init := none) fun b q =>
    let x := s.queue p q
    if x.en && decide (0 < x.depth) then
      match b with
      | some (a, _) => if a < x.age then some (x.age, q) else b
      | none => some (x.age, q)
    else b

/-- The number of unleased panes of a rectangle. -/
def State.unleasedIn (s : State) (r : Rect) : Nat := (r.cores.filter fun k => (s.core k).lease == .unleased).length

/-- The reservation of R247, made when the oldest head has reached BYPASS_MAX and none stands. -/
def State.reserveOld (s : State) (p bypassMax : Nat) : State :=
  if (s.part p).reserve.isSome then s
  else
    match s.oldestHead p with
    | none => s
    | some (age, q) =>
      if age < bypassMax then s
      else
        match s.wellFormedAt p q (s.queue p q).head with
        | none => s
        | some r =>
          let ok := (rectsOf (trSmin r)).filter fun rc => rc.cores.all fun k => s.ownPane p k && !s.inFuse p k
          let best := ok.foldl (init := none) fun (b : Option Rect) rc =>
            match b with
            | some x => if s.unleasedIn x < s.unleasedIn rc then some rc else b
            | none => some rc
          match best with
          | some rc => s.modPart p fun x => { x with reserve := some { queue := q, rect := rc } }
          | none => s

/-- The last .disp of a decision. -/
def lastDisp (vs : List Verdict) : Option (BitVec 32 × BitVec 32) :=
  vs.foldl (init := none) fun b v => match v with
    | .disp q p => some (q, p)
    | _ => b

/-- Applies the outputs of a DISPATCH decision (R273): verdicts first, then the last .disp; a follow-on trigger (R259). -/
def State.applyDispatch (s : State) (p : Nat) (d : Decision) : State :=
  let (s1, granted) := (rulings s p d.reqs d.picks).foldl (init := (s, false)) fun a r =>
    let (t, g) := a.1.rule p r
    (t, a.2 || g)
  let (s2, did) := match lastDisp d.picks with
    | some (q, pl) => s1.dispatch p q pl
    | none => (s1, false)
  let more := ((s2.part p).queues.any fun q => q.en && q.hasEntry) || !(s2.waitingFuses p).isEmpty
  let s3 := if (granted || did) && more then s2.trigger p { hook := .dispatch, cause := 2 } else s2
  s3.reserveOld p d.bypassMax

/-- Applies the output of a PREEMPT decision (R252, R253, R275). -/
def State.applyPreempt (s : State) (p : Nat) (t : Trigger) (victim : Option (BitVec 32)) : State :=
  let (s1, v) : State × Option Nat := match victim with
    | none => (s, none)
    | some h =>
      match s.atHandle p h.toNat with
      | some th => if t.cause = 2 && th.tid != t.tid then (s.badpick p, none) else (s, some th.tid)
      | none => (s.badpick p, none)
  let s2 := match v with
    | some x => s1.modThread x fun th => th.modLife fun l =>
      { l with asked := some (if l.asked = some 3 then 3 else 0), mate := false }
    | none => s1
  match s2.thread? t.tid with
  | none => s2
  | some th =>
    if t.cause = 2 then
      if th.c.pending == .yieldAsked then s2.setPending t.tid (if v == some t.tid then .yieldSwapped else .yieldDenied) else s2
    else if t.cause = 1 && v != some t.tid && th.isRunning then
      s2.modThread t.tid fun x => x.modLife fun l => { l with sliceAt := s.now, sliceLen := (s.part p).set.slice.toNat }
    else s2

/-- A thread becomes PARKED. -/
def State.park (s : State) (th : Thread) : State :=
  (s.modThread th.tid fun t => t.modLife fun l => { l with phase := .parked }).raise th.life.part causePark

/-- A thread becomes SAVED, the youngest resume entry of its queue, to resume as chosen. -/
def State.saveAs (s : State) (th : Thread) (a : ResumeAct) : State :=
  (s.modThread th.tid fun t => t.modLife fun l => { l with phase := .saved, act := a }).addResume th

/-- A thread at rest is rolled back (R320): its logged lines are undone, and it is SAVED, with the context that its interval began with, the
youngest resume entry of its queue. -/
def State.rollHome (s : State) (th : Thread) : State :=
  let s1 := (s.rollBack th).modQueue th.life.part th.life.queue fun q => { q with resumes := q.resumes.filter fun e => e.tid != th.tid }
  s1.saveAs th .plain

/-- The record that a handler task starts from: a handler slot with FRAME the address of the thread's context and CTX the thread's. -/
def State.handlerRecord (s : State) (th : Thread) (slot : Nat) : Record :=
  let r := (s.part th.life.part).pol.handlers.getD slot []
  Record.withCtx (setAt r 1 (BitVec.ofNat 64 (s.slotBase th.life.part th.life.slot th.life.csaHalf))) th.life.ctx

/-- Enqueues a handler: none when the queue or the slot does not allow it. A fault of the partition stage on the write of the record has
no outcome of its own in R276: the model takes it as a queue that cannot be used, so that the thread is parked and BADPICK counts (DESIGN
CHOICE, log 73). -/
def State.startHandler (s : State) (th : Thread) (q slot : Nat) : Option State :=
  let p := th.life.part
  let x := s.queue p q
  if 32 ≤ q || !x.en || x.size ≤ x.depth || !recordOk ((s.part p).pol.handlers.getD slot []) then none
  else s.enqueueRecord p q (s.handlerRecord th slot)

/-- Applies the output of a FAULT decision to its subject, which must still be TRAPPED or PARKED (R276). -/
def State.applyFault (s : State) (p : Nat) (t : Trigger) (a : Option FaultAct) : State :=
  match s.thread? t.tid with
  | none => s
  | some th =>
    if th.life.phase != .trapped && th.life.phase != .parked then s
    else
      match a.getD .park with
      | .resume => s.saveAs th .resume
      | .retry => s.saveAs th .retry
      | .park => s.park th
      | .kill => s.killThread th.tid
      | .rollback => if th.life.ckpt.isOpen then s.rollHome th else (s.badpick p).park th
      | .handler q k =>
        match s.startHandler th q.toNat k.toNat with
        | some s1 => s1.park th
        | none => (s.badpick p).park th

/-- Applies a POLICY_SEL write between decisions (R265): DIS and STREAK are cleared where DIS is set and an image has been accepted into the
slot since. -/
def Policy.select (q : Policy) (v : Word) : Policy :=
  let slot := b2n (bitOf v 0)
  let clear := q.dis && q.sinceDis.getD slot false
  { q with
    slot := slot, pwords := if bitOf v 1 then q.pwords else List.replicate 8 0,
    dis := q.dis && !clear, streak := if clear then 0 else q.streak }

/-- A write of the host takes effect. -/
def Policy.take (q : Policy) : PolWrite → Policy
  | .sel v => q.select v
  | .word k v => { q with pwords := setAt q.pwords k v }

/-- What was written while a decision ran takes effect, in the order of the writes (R261, R265). -/
def Policy.between (q : Policy) : Policy := { q.writes.foldl Policy.take q with running := none, writes := [] }

/-- A write takes effect at once between decisions, and waits while one runs. -/
def Policy.put (q : Policy) (w : PolWrite) : Policy := if q.running.isSome then { q with writes := q.writes ++ [w] } else q.take w

/-- Ends a decision: its persistent words are committed and its outputs applied (R260, R273, R277). -/
def State.endDecision (s : State) (p : Nat) (d : Decision) : State :=
  let s1 := s.modPol p fun q =>
    { q with
      pwords := d.keeps.foldl (fun ws x => setAt ws x.1 x.2) q.pwords, streak := if d.image.isEmpty then q.streak else 0,
      usage := { q.usage with badpick := q.usage.badpick + BitVec.ofNat 32 d.voids } }
  let s2 := match d.trigger.hook with
    | .dispatch => s1.applyDispatch p d
    | .preempt => s1.applyPreempt p d.trigger d.victim
    | .fault => s1.applyFault p d.trigger d.action
  s2.modPol p Policy.between

/-! ### The fallback (R263) -/

/-- The queue the fallback dispatches from: the highest PRIO, then the greatest BYP, then the lowest number. -/
def fallbackQueue (qs : List QView) : Option Nat :=
  (qs.zipIdx.foldl (init := none) fun (b : Option (Nat × Nat × Nat)) x =>
    if x.1.en && x.1.fit then
      match b with
      | some (pr, by_, _) => if pr < x.1.prio || (pr == x.1.prio && decide (by_ < x.1.byp)) then some (x.1.prio, x.1.byp, x.2) else b
      | none => some (x.1.prio, x.1.byp, x.2)
    else b).map fun b => b.2.2

/-- Whether some first entry of a class at or above the yielder's could take its fragment. -/
def fallbackYields (n : Snapshot) : Bool :=
  let me := n.frag.getD n.subject.toNat 0
  me.getLsbD 31 && n.queues.any fun q =>
    match q.entries with
    | e :: _ =>
      q.en && decide ((me.extractLsb' 28 3).toNat ≤ q.prio) &&
        shapeWithin (e.extractLsb' 24 4).toNat (e.extractLsb' 20 4).toNat n.shape.toNat
    | [] => false

/-- The fallback's outputs. -/
def Decision.fallback (d : Decision) : Decision :=
  match d.trigger.hook with
  | .dispatch => { d with picks := .grantall :: match fallbackQueue d.snap.queues with
      | some q => [.disp (BitVec.ofNat 32 q) 0]
      | none => [] }
  | .preempt => if d.trigger.cause = 2 && fallbackYields d.snap then { d with victim := some d.snap.subject } else d
  | .fault => { d with action := some .park }

/-- One Puppeteer cycle of a decision of the fallback, which takes 32. -/
def State.fallbackCycle (s : State) (p : Nat) (d : Decision) : State :=
  if d.cycles + 1 < 32 then s.modPol p fun q => { q with running := some { d with cycles := d.cycles + 1 } }
  else s.endDecision p d.fallback

/-! ### Starting and overrunning (R259, R260, R262) -/

/-- Discards the malformed records at the head of a queue (R243). -/
def State.discard (s : State) (p q : Nat) : Nat → State
  | 0 => s
  | n + 1 =>
    let x := s.queue p q
    if x.depth = 0 || (s.wellFormedAt p q x.head).isSome then s
    else ((s.popHead p q).count p fun u => { u with malrec := u.malrec + 1 }).discard p q n

def State.discardAll (s : State) (p : Nat) : State :=
  (List.range 32).foldl (fun t q => if (t.queue p q).en then t.discard p q (t.queue p q).depth else t) s

/-- The trigger that the next decision takes: the oldest FAULT, then the oldest PREEMPT, then the DISPATCH trigger. -/
def nextTrigger (ts : List Trigger) : Option Trigger :=
  (ts.find? fun t => t.hook == .fault).orElse fun _ =>
    (ts.find? fun t => t.hook == .preempt).orElse fun _ => ts.find? fun t => t.hook == .dispatch

/-- Starts the decision on a trigger. -/
def State.startDecision (s : State) (p : Nat) (t : Trigger) : State :=
  let s1 := if t.hook = .dispatch then s.discardAll p else s
  let q := (s1.part p).pol
  let image := if q.dis then [] else q.slots.getD q.slot []
  let s2 := s1.modPol p fun q =>
    { q with
      triggers := q.triggers.erase t,
      usage := { q.usage with
        decisions := q.usage.decisions + 1, fallback := if image.isEmpty then q.usage.fallback + 1 else q.usage.fallback } }
  let d : Decision :=
    { trigger := t, snap := s2.snapshot p t, reqs := s2.waitingFuses p, bypassMax := (s2.part p).set.bypassMax.toNat, image := image }
  s2.modPol p fun q => { q with running := some d }

/-- A decision of the hook given starts, when its trigger is the next one, none runs and the partition is not quiesced (R260, R321). -/
def State.decision (s : State) (p : Nat) (h : Hook) : State :=
  let x := s.part p
  if x.quiesced || x.pol.running.isSome then s
  else
    match nextTrigger x.pol.triggers with
    | some t => if t.hook = h then s.startDecision p t else s
    | none => s

/-- DISPATCH_DECISION. -/
def execDispatchDecision (p : Nat) (s : State) : Answer := .next (s.decision p .dispatch)

/-- PREEMPT_DECISION. -/
def execPreemptDecision (p : Nat) (s : State) : Answer := .next (s.decision p .preempt)

/-- FAULT_DECISION. -/
def execFaultDecision (p : Nat) (s : State) : Answer := .next (s.decision p .fault)

/-- DECISION_OVERRUN (R262): outputs and kept words are gone, and the fallback decides the same trigger; the sixteenth overrun in a row
disables the policy. -/
def execDecisionOverrun (p : Nat) (s : State) : Answer :=
  match (s.part p).pol.running with
  | none => .next s
  | some d =>
    if d.image.isEmpty || decide (d.cycles < 256) then .next s
    else
      let n := (s.part p).pol.streak + 1
      let off := decide (16 ≤ n) && !(s.part p).pol.dis
      let d1 : Decision := { trigger := d.trigger, snap := d.snap, reqs := d.reqs, bypassMax := d.bypassMax }
      let s1 := s.modPol p fun q =>
        { q with
          running := some d1, streak := min n 16, dis := q.dis || off, sinceDis := if off then [false, false] else q.sinceDis,
          usage := { q.usage with overrun := q.usage.overrun + 1, fallback := q.usage.fallback + 1 } }
      .next (if off then s1.raise p causeDis else s1)

/-- PROBE_ANSWER (R272): the answer to the decision's k-th probe: whether its line was present as it issued and is now; where the two differ,
either answer may come. -/
def execProbeAnswer (p k : Nat) (present : Bool) (s : State) : Answer :=
  match (s.part p).pol.running with
  | none => .next s
  | some d =>
    let d1 := { d with probes := modAt d.probes k fun x =>
      if x.answered then x
      else { x with answered := true, hit := if x.was == s.present x.line then x.was else present } }
    .next (s.modPol p fun q => { q with running := some d1 })

end Sys2Proof.Machine
end

