-- ==== Sys2Proof/Machine/Policy.lean ====
section
/-! DEFINITION. The policy instructions (spec/13_policy.md R261, R262, R266 to R277). -/

namespace Sys2Proof.Machine

/-! ### The policy machine -/

/-- The decision that is issuing. -/
def deciding (s : State) (f : Nat → Decision → Answer) : Answer :=
  match s.cur with
  | .policy p =>
    match (s.part p).pol.running with
    | some d => f p d
    | none => .fault .noIssuer
  | _ => .fault .noIssuer

/-- The machine with the decision changed; the instruction has taken its cycle. -/
def State.cycleTo (s : State) (p : Nat) (d : Decision) : State :=
  s.modPol p fun q => { q with running := some { d with cycles := d.cycles + 1 } }

/-- A policy instruction that changes the decision alone. -/
def policyOp (s : State) (f : Decision → Decision) : Answer := deciding s fun p d => .next (s.cycleTo p (f d))

def Decision.reg (d : Decision) (k : BitVec 4) : BitVec 32 := d.regs.getD k.toNat 0

def Decision.on (d : Decision) : Decision := { d with pc := d.pc + 1 }

/-- Writes a register and goes on at the next word. -/
def Decision.put (d : Decision) (k : BitVec 4) (v : BitVec 32) : Decision := { d.on with regs := setAt d.regs k.toNat v }

/-- An instruction that writes one register. -/
def policyPut (s : State) (k : BitVec 4) (f : Decision → BitVec 32) : Answer := policyOp s fun d => d.put k (f d)

/-! ### Register instructions (R267) -/

/-- pli. -/
def execPli (d : BitVec 4) (imm : BitVec 14) (s : State) : Answer := policyPut s d fun _ => imm.signExtend 32

/-- padd. -/
def execPadd (d a b : BitVec 4) (s : State) : Answer := policyPut s d fun x => x.reg a + x.reg b

/-- psub. -/
def execPsub (d a b : BitVec 4) (s : State) : Answer := policyPut s d fun x => x.reg a - x.reg b

/-- pand. -/
def execPand (d a b : BitVec 4) (s : State) : Answer := policyPut s d fun x => x.reg a &&& x.reg b

/-- por. -/
def execPor (d a b : BitVec 4) (s : State) : Answer := policyPut s d fun x => x.reg a ||| x.reg b

/-- pshl. -/
def execPshl (d a : BitVec 4) (n : BitVec 5) (s : State) : Answer := policyPut s d fun x => x.reg a <<< n.toNat

/-- pshr. -/
def execPshr (d a : BitVec 4) (n : BitVec 5) (s : State) : Answer := policyPut s d fun x => x.reg a >>> n.toNat

/-- pmin. -/
def execPmin (d a b : BitVec 4) (s : State) : Answer := policyPut s d fun x => if x.reg a < x.reg b then x.reg a else x.reg b

/-- pmax. -/
def execPmax (d a b : BitVec 4) (s : State) : Answer := policyPut s d fun x => if x.reg a < x.reg b then x.reg b else x.reg a

/-- pcmp: unsigned. -/
def execPcmp (c : Cond) (d a b : BitVec 4) (s : State) : Answer :=
  policyPut s d fun x => if condHolds c (x.reg a).toNat (x.reg b).toNat then 1 else 0

/-- psel: by the old p[d]. -/
def execPsel (d a b : BitVec 4) (s : State) : Answer := policyPut s d fun x => if x.reg d != 0 then x.reg a else x.reg b

/-! ### Branches and loops (R268) -/

/-- The decision at another word: a loop whose body the word is outside of closes. -/
def Decision.goTo (d : Decision) (pc : Nat) : Decision :=
  { d with
    pc := pc,
    loops := d.loops.filter fun l => decide (l.1 < pc) && decide (pc < l.1 + ((d.image.getD l.1 0).extractLsb' 0 14).toNat) }

/-- pbf. -/
def execPbf (a : BitVec 4) (off : BitVec 14) (s : State) : Answer :=
  policyOp s fun d => if d.reg a = 0 then d.goTo (d.pc + off.toNat) else d.on

/-- pjf. -/
def execPjf (off : BitVec 14) (s : State) : Answer := policyOp s fun d => d.goTo (d.pc + off.toNat)

/-- The lowest queue from n on that had EN = 1 in the snapshot. -/
def Snapshot.nextQueue (n : Snapshot) (from_ : Nat) : Option Nat :=
  (List.range 32).find? fun q => decide (from_ ≤ q) && (n.queues.getD q {}).en

/-- qloop. -/
def execQloop (k : BitVec 4) (off : BitVec 14) (s : State) : Answer :=
  policyOp s fun d =>
    match d.snap.nextQueue 0 with
    | none => d.goTo (d.pc + off.toNat)
    | some q => { d.put k (BitVec.ofNat 32 q) with loops := (d.pc, q) :: d.loops.filter fun l => l.1 != d.pc }

/-- qnext: the cursor is the loop's own. -/
def execQnext (k : BitVec 4) (off : BitVec 14) (s : State) : Answer :=
  policyOp s fun d =>
    let l := d.pc - off.toNat - 1
    match (d.loops.find? fun x => x.1 == l).bind fun x => d.snap.nextQueue (x.2 + 1) with
    | some q =>
      { d.put k (BitVec.ofNat 32 q) with
        pc := d.pc - off.toNat, loops := (l, q) :: d.loops.filter fun x => x.1 != l }
    | none => { d.on with loops := d.loops.filter fun x => x.1 != l }

/-! ### pview (R269 to R271) -/

/-- The probe of an entry that this decision has issued. -/
def Decision.probeOf (d : Decision) (q k : Nat) : Option Probe := d.probes.find? fun x => x.queue == q && x.entry == k

/-- Whether an entry's probe found its line. -/
def Decision.hitOf (d : Decision) (q k : Nat) : Bool :=
  match d.probeOf q k with
  | some x => x.hit
  | none => false

/-- Whether the view of an entry waits for its probe's answer. -/
def Decision.entryWaits (d : Decision) (q k : Nat) : Bool :=
  match d.probeOf q k with
  | some x => !x.answered
  | none => false

/-- A descriptor with its PRB and HIT bits; one of a malformed record has none. -/
def Decision.viewEntry (d : Decision) (q k : Nat) : BitVec 32 :=
  let w := ((d.snap.queues.getD q {}).entries)[k]?.getD 0
  if w.getLsbD 31 && w.extractLsb' 24 4 != 15 then
    w ||| word32 [(b2n (d.probeOf q k).isSome, 29), (b2n (d.hitOf q k), 28)]
  else w

/-- The composite key of a queue's entry 0 (R271). -/
def Decision.viewKey (d : Decision) (q : Nat) (lim : BitVec 32) : BitVec 32 :=
  let x := d.snap.queues.getD q {}
  if x.fit then
    word32 [(1, 31), (x.prio, 28), (b2n (decide (lim.toNat ≤ x.byp)), 27), (b2n (d.hitOf q 0), 26), (min x.byp (2 ^ 21 - 1), 5), (31 - q, 0)]
  else 0

/-- The value of a view item; none while it waits for a probe's answer. An index outside the item's range gives 0. -/
def Decision.view (d : Decision) (it : ViewItem) (ix lim : BitVec 32) : Option (BitVec 32) :=
  let n := d.snap
  let i := ix.toNat
  let q := n.queues.getD i {}
  let entry := fun (k : Nat) => if 32 ≤ i then some 0 else if d.entryWaits i k then none else some (d.viewEntry i k)
  match it with
  | .hook => some n.hook
  | .cause => some n.cause
  | .subject => some n.subject
  | .shape => some n.shape
  | .fcode => some n.fcode
  | .fvalo => some n.fvalo
  | .fvahi => some n.fvahi
  | .fq => some n.fq
  | .qcfg => some q.cfg
  | .qdepth => some (BitVec.ofNat 32 q.depth)
  | .qresume => some (BitVec.ofNat 32 q.resumes)
  | .entry0 => entry 0
  | .entry1 => entry 1
  | .entry2 => entry 2
  | .entry3 => entry 3
  | .qkey => if 32 ≤ i then some 0 else if d.entryWaits i 0 then none else some (d.viewKey i lim)
  | .free => some (n.free.getD i 0)
  | .own => some (n.own.getD i 0)
  | .rsv => some (n.rsv.getD i 0)
  | .frag => some (n.frag.getD i 0)
  | .freq => some (n.freq.getD i 0)
  | .decisions => some (n.usage.getD 0 0)
  | .dispatched => some (n.usage.getD 1 0)
  | .overrun => some (n.usage.getD 2 0)
  | .malrec => some (n.usage.getD 3 0)
  | .badpick => some (n.usage.getD 4 0)
  | .joinerr => some (n.usage.getD 5 0)
  | .fallback => some (n.usage.getD 6 0)

/-- pview. -/
def execPview (item : ViewItem) (k a b : BitVec 4) (s : State) : Answer :=
  policyOp s fun d =>
    match d.view item (d.reg a) (d.reg b) with
    | some v => d.put k v
    | none => d

/-! ### probe (R272) -/

/-- The physical line of a hint, by a TLB that holds its translation (log 8). -/
def State.hintLine (s : State) (p : Nat) (ctx : BitVec 24) (va : Nat) : Option Nat :=
  (tlbFind (s.cores.flatMap (·.tlb) ++ s.dies.flatMap (·.tlb)) p ctx va .rd).map (· / 64)

/-- Which probe's answer a further probe waits for: the oldest unanswered one, once 32 are unanswered (R272). -/
def Decision.holdProbe (d : Decision) : Option Nat :=
  match d.probeWait with
  | some i => if (d.probes[i]?.map (·.answered)).getD true then none else some i
  | none => if 32 ≤ (d.probes.filter fun x => !x.answered).length then some (d.probes.findIdx fun x => !x.answered) else none

/-- probe: 32 may be unanswered, and the next one waits for the oldest answer. -/
def execProbe (a : BitVec 4) (k : BitVec 2) (s : State) : Answer :=
  deciding s fun p d =>
    let q := (d.reg a).toNat
    let e := k.toNat
    if (d.probeOf q e).isSome then .next (s.cycleTo p d.on)
    else
      match d.holdProbe with
      | some i => .next (s.cycleTo p { d with probeWait := some i })
      | none =>
        let x := d.snap.queues.getD q {}
        let line : Option Nat := match x.entries[e]?, x.hints[e]? with
          | some w, some (ctx, va) => if w.getLsbD 31 && w.extractLsb' 24 4 != 15 then s.hintLine p ctx va else none
          | _, _ => none
        let pr : Probe := match line with
          | some l => { queue := q, entry := e, line := l, was := s.present l, answered := false, hit := false }
          | none => { queue := q, entry := e, answered := true, hit := false }
        .next (s.cycleTo p { d.on with probes := d.probes ++ [pr], probeWait := none })

/-! ### Outputs (R273 to R277) -/

/-- Records an output of a hook; in a decision of another hook it is void. -/
def Decision.output (d : Decision) (h : Hook) (f : Decision → Decision) : Decision :=
  if d.trigger.hook = h then f d.on else { d.on with voids := d.voids + 1 }

/-- pick.disp. -/
def execPickDisp (a b : BitVec 4) (s : State) : Answer :=
  policyOp s fun d => d.output .dispatch fun x => { x with picks := x.picks ++ [.disp (d.reg a) (d.reg b)] }

/-- pick.grant. -/
def execPickGrant (a : BitVec 4) (s : State) : Answer :=
  policyOp s fun d => d.output .dispatch fun x => { x with picks := x.picks ++ [.grant (d.reg a)] }

/-- pick.fail. -/
def execPickFail (a : BitVec 4) (s : State) : Answer :=
  policyOp s fun d => d.output .dispatch fun x => { x with picks := x.picks ++ [.fail (d.reg a)] }

/-- pick.grantall. -/
def execPickGrantall (s : State) : Answer :=
  policyOp s fun d => d.output .dispatch fun x => { x with picks := x.picks ++ [.grantall] }

/-- ppre. -/
def execPpre (a : BitVec 4) (s : State) : Answer := policyOp s fun d => d.output .preempt fun x => { x with victim := some (d.reg a) }

/-- A pfault. -/
def faultOut (s : State) (a : Decision → FaultAct) : Answer := policyOp s fun d => d.output .fault fun x => { x with action := some (a d) }

/-- pfault.resume. -/
def execPfaultResume (s : State) : Answer := faultOut s fun _ => .resume

/-- pfault.retry. -/
def execPfaultRetry (s : State) : Answer := faultOut s fun _ => .retry

/-- pfault.park. -/
def execPfaultPark (s : State) : Answer := faultOut s fun _ => .park

/-- pfault.kill. -/
def execPfaultKill (s : State) : Answer := faultOut s fun _ => .kill

/-- pfault.rollback. -/
def execPfaultRollback (s : State) : Answer := faultOut s fun _ => .rollback

/-- pfault.handler. -/
def execPfaultHandler (a : BitVec 4) (k : BitVec 2) (s : State) : Answer := faultOut s fun d => .handler (d.reg a) k

/-- pget: the committed value. -/
def execPget (k : BitVec 4) (w : BitVec 3) (s : State) : Answer :=
  deciding s fun p d => .next (s.cycleTo p (d.put k ((s.part p).pol.pwords.getD w.toNat 0)))

/-- pkeep. -/
def execPkeep (a : BitVec 4) (w : BitVec 3) (s : State) : Answer :=
  policyOp s fun d => { d.on with keeps := d.keeps ++ [(w.toNat, d.reg a)] }

/-- pend: the decision ends, and its outputs are checked and applied (R260). -/
def execPend (s : State) : Answer := deciding s fun p d => .next (s.endDecision p d)

/-! ### Loading an image (R31, R264) -/

/-- Where a path through a region of an image leaves it. -/
inductive Exit where
  | pend
  | past
  | next
  | at_ (pc : Nat)
  deriving DecidableEq, Repr

/-- The exits reached from a place, each once, with the most cycles that any path to it takes. -/
abbrev Exits := List (Exit × Nat)

def Exits.add (x : Exits) (e : Exit) (c : Nat) : Exits :=
  match x with
  | [] => [(e, c)]
  | (f, d) :: r => if f = e then (f, max c d) :: r else (f, d) :: Exits.add r e c

def Exits.join (x y : Exits) : Exits := y.foldl (fun a e => a.add e.1 e.2) x

def Exits.plus (x : Exits) (c : Nat) : Exits := x.map fun e => (e.1, e.2 + c)

/-- Where paths lead from a word of a region that ends at `en`, the rest of the region being known. -/
def exitsAt (n en : Nat) (tab : List (Nat × Exits)) (pc : Nat) : Exits :=
  if n ≤ pc then [(.past, 0)]
  else if pc = en then [(.next, 0)]
  else if en < pc then [(.at_ pc, 0)]
  else ((tab.find? fun t => t.1 == pc).map (·.2)).getD []

/-- The exits of a qloop: no queue, or up to 32 passes through the body, the last of which may leave it. -/
def loopExits (inner after : Exits) (rest : Nat → Exits) : Exits :=
  let pass := (inner.find? fun e => e.1 == .next).map fun e => e.2 + 1
  let whole := match pass with
    | some c => (after.plus 1).join (after.plus (1 + 32 * c))
    | none => after.plus 1
  inner.foldl (init := whole) fun a e =>
    let c := e.2 + 1 + 31 * pass.getD 0
    match e.1 with
    | .next => a
    | .at_ pc => a.join ((rest pc).plus c)
    | x => a.add x c

/-- The exits from every word of a region, from its last word back: the first argument bounds the nesting. -/
def region (ds : List Instr) (n : Nat) : Nat → Nat → Nat → List (Nat × Exits)
  | 0, _, _ => []
  | f + 1, lo, en =>
    (List.range (en - lo)).foldl (init := []) fun tab k =>
      let pc := en - 1 - k
      let on := exitsAt n en tab
      let x : Exits := match ds[pc]? with
        | some .pend => [(.pend, 1)]
        | some (.pjf off) => (on (pc + off.toNat)).plus 1
        | some (.pbf _ off) => ((on (pc + 1)).join (on (pc + off.toNat))).plus 1
        | some (.qloop _ off) =>
          let j := pc + off.toNat - 1
          loopExits (exitsAt n j (region ds n f (pc + 1) j) (pc + 1)) (on (j + 1)) on
        | _ => (on (pc + 1)).plus 1
      (pc, x) :: tab

/-- The loops of an image: each qloop with the place of its qnext. -/
def loopsOf (ds : List Instr) : List (Nat × Nat) :=
  ds.zipIdx.filterMap fun x => match x.1 with
    | .qloop _ off => some (x.2, x.2 + off.toNat - 1)
    | _ => none

/-- Whether every branch and loop offset keeps R268. -/
def offsetsOk (ds : List Instr) : Bool :=
  let n := ds.length
  let ls := loopsOf ds
  ds.zipIdx.all fun x =>
    let i := x.2
    let branch := fun (off : BitVec 14) =>
      decide (1 ≤ off.toNat) && decide (off.toNat ≤ 511) && decide (i + off.toNat < n) &&
        ls.all fun l => !(decide (l.1 < i + off.toNat) && decide (i + off.toNat ≤ l.2)) || (decide (l.1 < i) && decide (i < l.2))
    match x.1 with
    | .pbf _ off => branch off
    | .pjf off => branch off
    | .qloop d off =>
      let j := i + off.toNat - 1
      decide (i + 2 ≤ j) &&
        (match ds[j]? with
          | some (.qnext e back) => e == d && back.toNat == j - (i + 1)
          | _ => false) &&
        ls.all (fun l => l.1 == i || (l.2 != j && (decide (l.2 < i) || decide (j < l.1) || decide (l.1 < i ∧ j < l.2) ||
          decide (i < l.1 ∧ l.2 < j)))) &&
        decide ((ls.filter fun l => decide (l.1 < i) && decide (j < l.2)).length < 2)
    | .qnext .. => ls.any fun l => l.2 == i
    | _ => true

/-- The refusal code of an image for a slot, when the selected slot is the one given; 0 accepts it. -/
def policyCode (ws : List (BitVec 32)) (slot selected : Nat) : Nat :=
  let rs := ws.map decodePolicy
  let err := fun (e : Illegal) => rs.any fun r => match r with
    | .error x => x == e
    | .ok _ => false
  let ds := rs.filterMap Except.toOption
  let n := ws.length
  if n = 0 || decide (512 < n) then 1
  else if err .opcode then 2
  else if err .reserved then 3
  else if ds.length != n then 4
  else if !offsetsOk ds then 5
  else
    let out := exitsAt n n (region ds n 3 0 n) 0
    if out.any fun e => e.1 == .past then 6
    else if out.any fun e => e.1 == .pend && decide (256 < e.2) then 7
    else if slot = selected then 8
    else 0

end Sys2Proof.Machine
end

