-- ==== Sys2Proof/Machine/Host.lean ====
section
/-! DEFINITION. What the host writes, apart from commands: NOTIFY and QCFG, policy images, clusters, interrupts, boot mailboxes, and every
register with no row of its own; and what it reads (spec/16_device.md R326, R327, R329 to R332, R335, R342; spec/12_tasks.md R243;
spec/13_policy.md R264, R265). -/

namespace Sys2Proof.Machine

/-! ### Queues (R243) -/

/-- NOTIFY: the records up to the new tail become QUEUED, each a trigger (R259), or nothing changes. -/
def execNotify (p q : Nat) (t : BitVec 32) (s : State) : Answer :=
  let x := s.queue p q
  let more := (t - x.tail).toNat
  if s.resetting p || more = 0 || decide (x.size < more) || decide (x.size < (t - x.head).toNat) || decide (32 ≤ q) then .next s
  else .next ((List.range more).foldl (fun u _ => u.noteQueued p q) (s.modQueue p q fun y => { y with tail := t }))

/-- A QCFG value as the register holds it: a reserved SZ leaves the field as it was (R5). -/
def qcfgWord (old v : Word) : Word :=
  if fieldNat v 59 56 < 12 then v &&& 0xFFFFFFFFFFFFFFE0 else (v &&& 0xF0FFFFFFFFFFFFE0) ||| (old &&& 0x0F00000000000000)

/-- QCFG: takes effect at once, and keeps HEAD, TAIL and the resume entries. -/
def execQcfgWrite (p q : Nat) (v : Word) (s : State) : Answer := .next (s.modQueue p q fun x => { x with cfg := qcfgWord x.cfg v })

/-! ### Policy images (R264, R265) -/

/-- PLOAD: submits the first words of a slot's window. -/
def execPload (p : Nat) (v : Word) (s : State) : Answer :=
  let slot := b2n (bitOf v 16)
  let q := (s.part p).pol
  let n := fieldNat v 9 0
  let ws := ((q.window.getD slot []) ++ List.replicate 512 0).take n
  let c := if n = 0 || decide (512 < n) then 1 else policyCode ws slot q.slot
  .next (s.modPol p fun q =>
    if c = 0 then { q with slots := setAt q.slots slot ws, sinceDis := setAt q.sinceDis slot true, loadCode := 0 }
    else { q with loadCode := c })

/-- POLICY_SEL: a slot with no accepted image changes nothing; else it takes effect between decisions. -/
def execPolicySel (p : Nat) (v : Word) (s : State) : Answer :=
  .next (s.modPol p fun q =>
    if (q.slots.getD (b2n (bitOf v 0)) []).isEmpty then q else q.put (.sel v))

/-! ### Clusters (R331) -/

/-- The cores of a cluster (R6). -/
def coresIn (c : Nat) : List Nat :=
  [0, 1, 4, 5].map fun k => 16 * (c / 4) + 8 * (c % 4 / 2) + 2 * (c % 2) + k

/-- Whether a written CLCFG value asks for a change. -/
def Cluster.differs (x : Cluster) (v : Word) : Bool :=
  bitOf v 63 != x.asn || fieldNat v 61 60 != x.rail || fieldNat v 3 0 != x.part

/-- CLCFG: a change waits for the cluster's idleness. -/
def execClcfgWrite (c : Nat) (v : Word) (s : State) : Answer :=
  .next { s with clusters := modAt s.clusters c fun x => { x with pendW := if x.differs v then some v else none } }

/-- Whether every pane of a cluster is unleased, held by no thread and in no reservation. -/
def State.clusterIdle (s : State) (c : Nat) : Bool :=
  (coresIn c).all fun k =>
    (s.core k).lease == .unleased && (List.range 16).all fun p => !s.inFuse p k && !s.inReserve p k

/-- CLCFG_APPLY: partition and rail change together, and every CAD follows its rail (R336); the panes are then at their partition's disposal. -/
def execClcfgApply (c : Nat) (s : State) : Answer :=
  match (s.cluster c).pendW with
  | none => .next s
  | some v =>
    if !s.clusterIdle c then .next s
    else
      let s1 := { s with clusters := modAt s.clusters c fun x =>
        { x with asn := bitOf v 63, rail := fieldNat v 61 60, part := fieldNat v 3 0, pendW := none } }
      .next (if bitOf v 63 then s1.setCads.paneFreed (fieldNat v 3 0) else s1.setCads)

/-! ### Interrupts (R332, R342) -/

/-- Cause bits written as 1 are cleared. -/
def Ints.clear (i : Ints) (v : BitVec 6) : Ints := { i with cause := i.cause &&& ~~~v }

/-- The vector word as the register holds it: [8c+5:8c] and [8c+7] for each cause. -/
def vecWord (v : Word) : Word := v &&& 0x0000BFBFBFBFBFBF

/-- Sets vectors and enables: a message goes for each cause already set that EN is set for now. -/
def Ints.setVec (i : Ints) (v : Word) : Ints :=
  let w := vecWord v
  { i with
    vec := w,
    sent := i.sent ++ ((List.range 6).filter fun c => bitOf i.cause c && bitOf w (8 * c + 7) && !bitOf i.vec (8 * c + 7)).map fun c =>
      (c, fieldNat w (8 * c + 5) (8 * c)) }

/-- INTCAUSE. -/
def execIntcauseWrite (p : Nat) (v : Word) (s : State) : Answer :=
  .next (s.modPart p fun q => { q with ints := q.ints.clear (v.extractLsb' 0 6) })

/-- INTVEC. -/
def execIntvecWrite (p : Nat) (v : Word) (s : State) : Answer := .next (s.modPart p fun q => { q with ints := q.ints.setVec v })

/-- DEVSTAT: its cause bits stand at [45:40]; every other bit of the write is ignored. -/
def execDevstatWrite (v : Word) (s : State) : Answer :=
  .next { s with dev := { s.dev with ints := s.dev.ints.clear (v.extractLsb' 40 6) } }

/-! ### Boot (R329, R330) -/

/-- The task record a mailbox forms over its image. -/
def bootRecord (b : Boot) (img : Img) : Record :=
  [wordFields [(b.img.toNat, 0)], b.arg, 0, wordFields [(b.bq.toNat, 56)], 0,
   wordFields [(Img.tiles img, 48), (Img.hwm img / 64, 24), (b.ctx.toNat, 0)], wordFields [(Img.stages img, 60)], 0xFFFFFFFFFFFFFFFF]

/-- A refused boot leases nothing. -/
def State.bootRefused (s : State) (core code : Nat) : State :=
  s.modCore core fun c => { c with boot := { c.boot with state := 3, code := BitVec.ofNat 8 code } }

/-- What a GO takes: the partition of the core, which is unleased, enabled and in no reservation, and a free save slot; or the CODE of the refusal
(R311, R329, R330). -/
def State.bootTake (s : State) (core : Nat) : Except Nat (Nat × Nat) :=
  match s.partOf core with
  | none => .error 0x10
  | some p =>
    if (s.core core).disabled || (s.core core).lease != .unleased || s.inFuse p core || s.inReserve p core then .error 0x10
    else
      match s.freeSlot p with
      | none => .error 0x12
      | some slot => .ok (p, slot)

/-- The load itself: the image is read and checked, and the thread is started on the core, or the boot refused. -/
def State.bootRun (s : State) (core p slot : Nat) (b : Boot) : State :=
  let (s1, i) := s.takeImage (core / 16) p b.ctx b.img.toNat 1
  match i with
  | .error c => s1.bootRefused core c
  | .ok img =>
    let s2 := s1.modCore core fun c => { c with boot := { c.boot with state := 2, code := 0 } }
    (s2.startThread p (bootRecord b img) (rectOf 0 (core / 16) (core % 16 / 4) (core % 4)) b.bq.toNat slot false).1

/-- The boot load of a core in one step (R330). -/
def State.bootLoad (s : State) (core : Nat) : State :=
  match s.bootTake core with
  | .error c => s.bootRefused core c
  | .ok (p, slot) => s.bootRun core p slot (s.core core).boot

/-- The mailbox after a write of the word that holds GO. -/
def State.putBoot (s : State) (core : Nat) (v : Word) : State :=
  s.modCore core fun c => { c with boot := { c.boot with bq := v.extractLsb' 40 5, ctx := v.extractLsb' 0 24 } }

/-- A write of the mailbox word that holds GO: while a load runs, one with GO = 1 is ignored. Its load is one step with it, or takes some time
(`Agent.loading`, log 60). -/
def execBootGo (core : Nat) (v : Word) (s : State) : Answer :=
  if (s.core core).boot.state == 1 && bitOf v 63 then .next s
  else
    let s1 := s.putBoot core v
    .next (if bitOf v 63 && decide (core < 128) then s1.bootLoad core else s1)

/-- A write with GO = 1 begins a load that takes some time: the checks are made, the core leased and the slot taken now, with the mailbox as it
stands, and STATE is 1 (R329, R330). -/
def State.beginLoad (s : State) (core : Nat) (v : Word) : State :=
  if (s.core core).boot.state == 1 || !bitOf v 63 || decide (128 ≤ core) then s
  else
    let s1 := s.putBoot core v
    match s1.bootTake core with
    | .error c => s1.bootRefused core c
    | .ok (p, slot) =>
      let (s2, tid) := s1.newId
      (s2.modPart p fun q => { q with slots := slot :: q.slots }).modCore core fun c =>
        let g : BootLoad := { img := c.boot.img, arg := c.boot.arg, bq := c.boot.bq, ctx := c.boot.ctx, part := p, slot := slot, tid := tid }
        { c with lease := .leased tid, boot := { c.boot with state := 1, going := some g } }

/-- The load that STATE 1 shows is done: its thread starts with what the GO took. Where a reset has taken the core from it meanwhile it is refused
(log 60). -/
def State.endLoad (s : State) (core : Nat) : State :=
  if (s.core core).boot.state != 1 then s
  else
    let s1 := s.modCore core fun c => { c with boot := { c.boot with going := none } }
    match (s.core core).boot.going with
    | none => s1.bootRefused core 0x10
    | some g =>
      if (s.core core).lease != .leased g.tid then s1.bootRefused core 0x10
      else
        let s2 := (s1.modPart g.part fun q => { q with slots := q.slots.filter (· != g.slot) }).modCore core fun c => { c with lease := .unleased }
        s2.bootRun core g.part g.slot { img := g.img, arg := g.arg, bq := g.bq, ctx := g.ctx }

/-! ### Registers with no row of their own (R326, R327) -/

/-- The limit in force on a rail (R335). -/
def limitOf (inom phok : Nat) : Nat := inom * phok / 36 - (if phok < 36 then inom / 50 else 0)

def Rail.limit (r : Rail) : Rail := { r with ilim := limitOf r.inom r.phok }

/-- INOM: values above 1,100 are taken as 1,100. -/
def Rail.writeInom (r : Rail) (v : Word) : Rail := ({ r with inom := min (fieldNat v 10 0) 1100 } : Rail).limit

/-- Whether a partition has a thread, of whatever state (R327). -/
def State.hasThread (s : State) (p : Nat) : Bool := s.threads.any fun th => th.life.part == p

/-- The settings after a write to one of their registers, by its offset in the partition page (R323, R327); a SLOTLOG outside 16 to 34 leaves
the field as it was (R5, R311). -/
def Settings.write (x : Settings) (off : Nat) (v : Word) (idle : Bool) : Settings :=
  if off = 0x18 then
    let log := fieldNat v 5 0
    if idle then
      { x with
        spbase := (v.extractLsb' 0 56) &&& 0xFFFFFFFFFF0000,
        slotlog := if decide (16 ≤ log) && decide (log ≤ 34) then log else x.slotlog }
    else x
  else if off = 0x20 then if idle then { x with nslot := fieldNat v 15 0 } else x
  else if off = 0x28 then { x with bypassMax := v.extractLsb' 0 32 }
  else if off = 0x30 then { x with kmax := v.extractLsb' 0 32, wdog := v.extractLsb' 32 32 }
  else if off = 0x38 then { x with slice := v.extractLsb' 0 32, ckint := v.extractLsb' 32 32 }
  else if off = 0x40 then { x with qos := v.extractLsb' 0 32 }
  else if decide (0x48 ≤ off) && decide (off < 0x88) then { x with smmq := setAt x.smmq ((off - 0x48) / 8) (v &&& 0x00003FFFFF001FFF) }
  else if off = 0x88 then if idle then { x with proot := (v.extractLsb' 0 56) &&& 0xFFFFFFFFFF0000 } else x
  else if decide (0x2000 ≤ off) && decide (off < 0x6000) then
    let k := (off - 0x2000) / 16
    let e := sget (0, 0) x.ctxtab k
    let e1 := if off % 16 = 0 then (v &&& 0x8000000000FFFFFF, e.2) else (e.1, v &&& 0x00FFFFFFFFFF0000)
    { x with ctxtab := sset (0, 0) x.ctxtab k e1 }
  else x

/-- The policy side of a partition after a write to a handler slot, a persistent word or a policy window. A handler slot keeps the record as it
is written and reads it back so, a reserved bit or value that is not 0 included: by R3 and R5 such bits would be ignored, by R242 and R276 the slot
can hold a malformed record, whose pfault then finds it so (DESIGN CHOICE, log 85). -/
def Policy.write (q : Policy) (off : Nat) (v : Word) : Policy :=
  if decide (0x300 ≤ off) && decide (off < 0x400) then
    { q with handlers := modAt q.handlers ((off - 0x300) / 64) fun r => setAt r (off % 64 / 8) v }
  else if decide (0x408 ≤ off) && decide (off < 0x428) then
    let k := (off - 0x408) / 4
    (q.put (.word k (v.extractLsb' 0 32))).put (.word (k + 1) (v.extractLsb' 32 32))
  else if decide (0x1000 ≤ off) && decide (off < 0x2000) then
    let slot := (off - 0x1000) / 2048
    let k := off % 2048 / 4
    if slot = q.slot then q
    else
      let put := fun (ws : List (BitVec 32)) =>
        setAt (setAt (ws ++ List.replicate (512 - ws.length) 0) k (v.extractLsb' 0 32)) (k + 1) (v.extractLsb' 32 32)
      { q with window := modAt q.window slot put }
  else q

/-- A write of a command register with an OP that R328 does not list: while a command runs it sets REJ, as every write does; otherwise it does
nothing (log 58). The listed ones are rows of their own. -/
def CmdPageSt.other (c : CmdPageSt) (v : Word) (listed : Nat) : CmdPageSt :=
  let op := fieldNat v 7 0
  if c.busy && (op == 0 || decide (listed < op)) then { c with rej := true } else c

/-- A partition page. -/
def State.writePage (s : State) (p off : Nat) (v : Word) : State :=
  let idle := !s.hasThread p
  s.modPart p fun q =>
    { q with
      set := q.set.write off v idle, pol := q.pol.write off v,
      cmd := if off = 0 then q.cmd.other v 9 else if off = 0xC0 then { q.cmd with arg0 := v } else if off = 0xC8 then { q.cmd with arg1 := v } else q.cmd }

/-- An inbox window as the register holds it (R224). -/
def winWord (v : Word) : Word := v &&& 0xFFFFE00FFFFFFFFF

/-- A core page. -/
def State.writeCorePage (s : State) (k off : Nat) (v : Word) : State :=
  s.modCore k fun c =>
    if off = 0 then { c with boot := { c.boot with img := v.extractLsb' 0 56 } }
    else if off = 8 then { c with boot := { c.boot with arg := v } }
    else if decide (0x40 ≤ off) && decide (off < 0x80) then { c with wins := setAt c.wins ((off - 0x40) / 8) (winWord v) }
    else c

/-- REGISTER_WRITE: a register that has a row of its own, a read-only one, and an address of none are left as they are. -/
def execRegisterWrite (addr : Nat) (v : Word) (s : State) : Answer :=
  let dev := fun (f : Dev → Dev) => { s with dev := f s.dev }
  if addr % 8 != 0 then .next s
  else if addr = 0x08 then .next (dev fun d => { d with cmd := d.cmd.other v 7 })
  else if addr = 0x10 then .next (dev fun d => { d with cmd := { d.cmd with arg0 := v } })
  else if addr = 0x18 then .next (dev fun d => { d with cmd := { d.cmd with arg1 := v } })
  else if addr = 0x20 then .next (dev fun d => { d with embase := v })
  else if addr = 0x28 then .next (dev fun d => { d with emlen := v })
  else if addr = 0x30 then .next (dev fun d => { d with ints := d.ints.setVec v })
  else if decide (0x100 ≤ addr) && decide (addr < 0x120) then
    .next { s with rails := modAt s.rails ((addr - 0x100) / 8) fun r => r.writeInom v }
  else if decide (0x100000 ≤ addr) && decide (addr < 0x200000) then .next (s.writePage ((addr - 0x100000) / 0x10000) (addr % 0x10000) v)
  else if decide (0x400000 ≤ addr) && decide (addr < 0x480000) then .next (s.writeCorePage ((addr - 0x400000) / 0x1000) (addr % 0x1000) v)
  else .next s

/-! ### What the host reads (R326 to R335, R341, R342) -/

/-- A command's status: BUSY, REJ, OP and RESULT. -/
def CmdPageSt.word (c : CmdPageSt) : Word := wordFields [(b2n c.busy, 63), (b2n c.rej, 62), (c.op.toNat, 8), (c.result.toNat, 0)]

def Dev.stat (d : Dev) : Word :=
  d.cmd.word ||| wordFields [(d.ints.cause.toNat, 40), (d.lasting, 24), (b2n d.flashBusy, 16)]

def Rail.word (r : Rail) : Word :=
  wordFields [(b2n r.derate, 63), (r.phok, 56), (r.imeas, 40), (r.ilim, 16), (r.rcad, 11), (r.inom, 0)]

def Cluster.word (c : Cluster) : Word :=
  wordFields [(b2n c.asn, 63), (b2n c.pendW.isSome, 62), (c.rail, 60), (c.thcad, 8), (c.part, 0)]

def Boot.word (b : Boot) : Word := wordFields [(b.state.toNat, 60), (b.code.toNat, 48), (b.bq.toNat, 40), (b.ctx.toNat, 0)]

def Policy.selWord (q : Policy) : Word := wordFields [(q.streak, 8), (b2n q.dis, 7), (q.slot, 0)]

/-- The partition's clusters as a bitmap. -/
def State.clustersOf (s : State) (p : Nat) : Nat :=
  (List.range 32).foldl (fun a c => a + b2n ((s.cluster c).asn && (s.cluster c).part == p) * 2 ^ c) 0

/-- A word of two 32-bit halves. -/
def pair32 (lo hi : BitVec 32) : Word := hi ++ lo

/-- A register of a partition page. -/
def State.readPage (s : State) (p off : Nat) : Word :=
  let q := s.part p
  let x := q.set
  let k := (off - 0x2000) / 16
  if off = 0x08 then q.cmd.word
  else if off = 0x10 then wordFields [(s.clustersOf p, 0)]
  else if off = 0x18 then wordFields [(x.spbase.toNat, 0), (x.slotlog, 0)]
  else if off = 0x20 then wordFields [(x.nslot, 0)]
  else if off = 0x28 then pair32 x.bypassMax 0
  else if off = 0x30 then pair32 x.kmax x.wdog
  else if off = 0x38 then pair32 x.slice x.ckint
  else if off = 0x40 then pair32 x.qos 0
  else if decide (0x48 ≤ off) && decide (off < 0x88) then x.smmq.getD ((off - 0x48) / 8) 0
  else if off = 0x88 then wordFields [(x.proot.toNat, 0)]
  else if off = 0xC0 then q.cmd.arg0
  else if off = 0xC8 then q.cmd.arg1
  else if off = 0xD0 then wordFields [(q.pol.loadCode, 0)]
  else if off = 0xE0 then q.ints.cause.zeroExtend 64
  else if off = 0xE8 then q.ints.vec
  else if decide (0x100 ≤ off) && decide (off < 0x300) then
    let y := q.queues.getD ((off - 0x100) / 16) {}
    if off % 16 = 0 then y.cfg else pair32 y.tail y.head
  else if decide (0x300 ≤ off) && decide (off < 0x400) then (q.pol.handlers.getD ((off - 0x300) / 64) []).getD (off % 64 / 8) 0
  else if off = 0x400 then q.pol.selWord
  else if decide (0x408 ≤ off) && decide (off < 0x428) then
    pair32 (q.pol.pwords.getD ((off - 0x408) / 4) 0) (q.pol.pwords.getD ((off - 0x408) / 4 + 1) 0)
  else if decide (0x1000 ≤ off) && decide (off < 0x2000) then
    let w := q.pol.window.getD ((off - 0x1000) / 2048) []
    pair32 (w.getD (off % 2048 / 4) 0) (w.getD (off % 2048 / 4 + 1) 0)
  else if decide (0x2000 ≤ off) && decide (off < 0x6000) then
    if off % 16 = 0 then (sget (0, 0) x.ctxtab k).1 else (sget (0, 0) x.ctxtab k).2
  else 0

/-- A register of a core page. -/
def Core.readPage (c : Core) (off : Nat) : Word :=
  if off = 0 then wordFields [(c.boot.img.toNat, 0)]
  else if off = 8 then c.boot.arg
  else if off = 0x10 then c.boot.word
  else if decide (0x40 ≤ off) && decide (off < 0x80) then c.wins.getD ((off - 0x40) / 8) 0
  else if off = 0x80 then wordFields [(c.cad, 0)]
  else 0

def LogRec.word (r : LogRec) (k : Nat) : Word := if k = 0 then r.w0 else if k = 1 then r.wher else if k = 2 then r.detail else r.w3

/-- What the host reads at an address of the register space; 0 where none is listed. -/
def State.hostRead (s : State) (addr : Nat) : Word :=
  if addr % 8 != 0 then 0
  else if addr = 0 then s.dev.stat
  else if addr = 0x10 then s.dev.cmd.arg0
  else if addr = 0x18 then s.dev.cmd.arg1
  else if addr = 0x20 then s.dev.embase
  else if addr = 0x28 then s.dev.emlen
  else if addr = 0x30 then s.dev.ints.vec
  else if decide (0x100 ≤ addr) && decide (addr < 0x120) then (s.rails.getD ((addr - 0x100) / 8) {}).word
  else if decide (0x200 ≤ addr) && decide (addr < 0x300) then (s.cluster ((addr - 0x200) / 8)).word
  else if decide (0x80000 ≤ addr) && decide (addr < 0xA0000) then
    (sget ({} : LogRec) (s.die ((addr - 0x80000) / 0x4000)).log (addr % 0x4000 / 32)).word (addr % 32 / 8)
  else if decide (0x100000 ≤ addr) && decide (addr < 0x200000) then s.readPage ((addr - 0x100000) / 0x10000) (addr % 0x10000)
  else if decide (0x400000 ≤ addr) && decide (addr < 0x480000) then (s.core ((addr - 0x400000) / 0x1000)).readPage (addr % 0x1000)
  else 0

end Sys2Proof.Machine
end

