-- ==== Sys2Proof/Machine/Filter.lean ====
section
/-! DEFINITION. The logit filter: fltopen, fltclose, and the lines that reach a base die (spec/14_token.md R290 to R294); then the one
operation that performs an element of any command of an A stream. -/

namespace Sys2Proof.Machine

/-- Goes on with the die that DSEL selects: 0 to 7, or 8 for the lead pane's (R284, R291). -/
def withDie (th : Thread) (dsel : Nat) (k : Nat → Head) : Head :=
  if dsel < 8 then k dsel else if dsel = 8 then k th.life.rect.die else .trap (illegal)

/-- A binary32 pattern that is finite. -/
def finite32 (c : BitVec 32) : Bool := fieldNat c 30 23 != 255

def isNan32 (c : BitVec 32) : Bool := fieldNat c 30 23 == 255 && fieldNat c 22 0 != 0

/-- fltopen (R291). -/
def execFltopen (x : BitVec 3) (dsel : BitVec 4) (mode : Src) (cf : Opnd) (s : State) : Answer :=
  issue s fun k th s1 =>
    let m := (th.regs .a).read mode
    let c := (th.regs .a).readOpnd cf
    consume [m, c] <|
      let kk := fieldNat m.bits 62 56
      withDie th dsel.toNat fun _ =>
        if bitOf m.bits 63 || fieldNat m.bits 54 48 != 0 || fieldNat m.bits 23 0 != 0 || kk = 0 || 64 < kk ||
            !finite32 (c.bits.extractLsb' 0 32) then .trap (illegal)
        else withSlot th (issueCmd s1 k (cmdOf k (.fltopen x dsel mode cf) m c {}) fun u _ => u)

/-- fltclose (R291). -/
def execFltclose (x : BitVec 3) (dsel : BitVec 4) (dst : Src) (s : State) : Answer :=
  issue s fun k th s1 =>
    let a := (th.regs .a).read dst
    consume [a] <|
      withDie th dsel.toNat fun _ =>
        if dstFlagw a.bits != 0 then .trap (illegal)
        else if dstOff a.bits % 64 != 0 || decide (spBytes < dstOff a.bits + 544) then .trap bounds
        else withSlot th (issueCmd s1 k (cmdOf k (.fltclose x dsel dst) a {} {}) fun u _ => u)

def Die.filter (d : Die) (k : Nat) : Filter := d.filters.getD k {}

/-- Whether a session is open for an owner (R290). -/
def Filter.openFor (f : Filter) (part : Nat) (ctx : BitVec 24) : Bool := f.isOpen && f.part == part && f.ctx == ctx

/-- The die a filter command names. -/
def dselDie (th : Thread) (dsel : BitVec 4) : Nat := if dsel.toNat < 8 then dsel.toNat else th.life.rect.die

def State.setFilter (s : State) (d k : Nat) (f : Filter) : State := s.modDie d fun x => { x with filters := setAt x.filters k f }

/-- Performs an open: another owner's open session refuses it; otherwise the session starts empty (R290, R291). -/
def State.openElem (s : State) (th : Thread) (c : Cmd) (k d : Nat) : State :=
  let f := (s.die d).filter k
  let s1 :=
    if f.isOpen && !f.openFor th.life.part th.life.ctx then s.countFence th.tid fun x => x.addRefused 1
    else
      s.setFilter d k
        { isOpen := true, part := th.life.part, ctx := th.life.ctx, k := fieldNat c.a.bits 62 56, full := bitOf c.a.bits 55,
          vbase := fieldNat c.a.bits 47 24, floor := c.b.bits.extractLsb' 32 32, c := c.b.bits.extractLsb' 0 32, max := 0xFF800000 }
  s1.cmdDone1 th.tid c.id

/-! ### Values (R292) -/

/-- exp2_term (R292): 2^(y − c) rounded once to binary32; the difference is exact, and one beyond ±1000 rounds as ±1000 does. -/
def exp2Term (y c : BitVec 32) : Num :=
  match (Num.add .rne (decodeNum .f32 y.toNat) (decodeNum .f32 c.toNat).neg).1 with
  | .nan => .nan
  | .inf n => if n then .fin false 0 0 else .inf false
  | .fin neg m e =>
    let k := (-e).toNat
    let v := signedOf neg (m * 2 ^ e.toNat)
    let n := v / (2 ^ k : Nat)
    let r := (v % (2 ^ k : Nat)).toNat
    decodeNum .f32 (roundFp (exp2Num (clampInt n (-1000) 1000) r k) .f32 .rne .dflt 0 0).1

/-- A non-negative binary32 value in units of 2^-149; none for an infinity. -/
def units149 : Num → Option Nat
  | .fin _ m e => some (m * 2 ^ (e + 149).toNat / 2 ^ (-(e + 149)).toNat)
  | _ => none

/-- The binary32 of a sum in units of 2^-149, rounded once. -/
def round149 (n : Nat) : BitVec 32 := BitVec.ofNat 32 (roundFp (.fin false n (-149)) .f32 .rne .dflt 0 0).1

/-- A comparison of two binary32 values that are not NaN. -/
def less32 (x y : BitVec 32) : Bool := Num.cmp (decodeNum .f32 x.toNat) (decodeNum .f32 y.toNat) == some .lt

/-- Whether a shortlist entry stands before another: greater value first, then lower identifier (R292). -/
def Pick.before (a b : Pick) : Bool :=
  less32 b.bits a.bits || (!less32 a.bits b.bits && decide (a.id < b.id))

/-- Puts an entry into a shortlist in key order; identical pairs take separate places. -/
def insertPick (p : Pick) : List Pick → List Pick
  | [] => [p]
  | q :: r => if p.before q then p :: q :: r else q :: insertPick p r

/-- Counts one value (R292). -/
def Filter.count1 (f : Filter) (k : Mark) (o : Nat) (y : BitVec 32) : Filter :=
  if isNan32 y then { f with nanf := true }
  else if k.isSome then { f with psn := meet f.psn k }
  else
    let f1 := { f with count := f.count + 1, max := if less32 f.max y then y else f.max }
    let f2 := match units149 (exp2Term y f.c) with
      | some n => { f1 with sum := f1.sum + n }
      | none => { f1 with sumInf := true }
    if !f.full || (!isNan32 f.floor && !less32 y f.floor) then
      { f2 with list := (insertPick { id := (f.vbase + o) % 2 ^ 24, bits := y } f2.list).take f.k }
    else f2

/-- Removes element k of a list. -/
def Die.dropLine (d : Die) (k : Nat) : Die := { d with lines := dropAt d.lines k }

/-- FILTER_LINE_ARRIVAL (R290, R292, R294): the k-th line on its way to a die's base dies arrives, and is counted when its session is open
for its owner. -/
def execFilterLineArrival (die k : Nat) (s : State) : Answer :=
  match (s.die die).lines[k]? with
  | none => .next s
  | some l =>
    let f := (s.die die).filter l.session
    let s1 := s.modDie die fun d => d.dropLine k
    if f.openFor l.part l.ctx then .next (s1.setFilter die l.session (l.vals.foldl (fun g v => g.count1 l.mark v.1 v.2) f)) else .next s1

/-! ### Result blocks (R293) -/

/-- The pattern of a maximum: a zero is reported as +0. -/
def maxWord (x : BitVec 32) : Nat := if fieldNat x 30 0 = 0 then 0 else x.toNat

/-- The exact mass of a shortlist, rounded once; +Inf when a term is. -/
def shortMass (f : Filter) : Nat :=
  let ts := f.list.map fun p => units149 (exp2Term p.bits f.c)
  if ts.any Option.isNone then 0x7F800000 else (round149 ((ts.filterMap id).foldl (· + ·) 0)).toNat

/-- Word 0 and the words after it. -/
def resultBlock (f : Filter) : Word × List Word :=
  let w0 := wordFields [(1, 63), (b2n f.nanf, 61), (b2n f.psn.isSome, 60), (f.count % 2 ^ 32, 8), (f.list.length, 0)]
  let w1 := wordFields [(f.c.toNat, 32), (maxWord f.max, 0)]
  let w2 := wordFields [(shortMass f, 32), (if f.sumInf then 0x7F800000 else (round149 f.sum).toNat, 0)]
  let w3 := wordFields [(f.floor.toNat, 32), (b2n f.full, 31), (f.k, 24), (f.vbase, 0)]
  (w0, [w1, w2, w3] ++ f.list.map fun p => wordFields [(p.bits.toNat, 32), (p.id, 0)])

/-- The block of a session that was not open for the closer. -/
def errorBlock : Word × List Word := (wordFields [(1, 63), (1, 62)], [wordFields [(0xFF800000, 0)], 0, 0])

/-- Performs a close: the session is freed and the die sends its block, word 0 after the payload (R293). -/
def State.closeElem (s : State) (th : Thread) (c : Cmd) (k d : Nat) : State :=
  let f := (s.die d).filter k
  let mine := f.openFor th.life.part th.life.ctx
  let b := if mine then resultBlock f else errorBlock
  let s1 := if mine then s.setFilter d k {} else s
  let p := packetOf th c (dstOff c.a.bits + 8) (b.2.map fun w => (w, none))
  (s1.launch { p with srcDie := d, after := some (dstOff c.a.bits, b.1) } .short).cmdDone1 th.tid c.id

/-! ### One element of any command -/

/-- Performs the next element of a command whose addresses all translate. -/
def State.anyElem (s : State) (th : Thread) (c : Cmd) (late : Bool := false) : State :=
  match c.instr with
  | .send .. | .sendf .. | .flag .. => s.sendElem th c
  | .gamo .. => s.gamoElem th c
  | .fltopen k dsel .. => s.openElem th c k.toNat (dselDie th dsel)
  | .fltclose k dsel .. => s.closeElem th c k.toNat (dselDie th dsel)
  | .fence .. => s
  | _ => s.accessElem th c late

/-- A turn of a command: performs its next element if the orders allow it, after which the access TLB holds its translations (R213); waits for
a walk when the TLBs lack a translation, and for a checkpoint when the undo log is full (R319). -/
def State.performCmd (s : State) (tid id : Nat) (late : Bool := false) : State :=
  match s.thread? tid with
  | none => s
  | some th =>
    match th.cmd? id with
    | none => s
    | some c =>
      if !th.engineOn c then s
      else if !s.cmdFree th c then s
      else
        match s.missing th c c.elem with
        | some va => s.waitWalk th id va
        | none => if s.logWaits th c then s else (s.anyElem th c late).fillFor th c

/-- A turn of a command that stores to global memory, whose element is seen only later (R230). -/
def State.performLate (s : State) (tid id : Nat) : State :=
  match (s.thread? tid).bind fun th => th.cmd? id with
  | some c => match c.instr with
    | .tst .. | .tsca .. | .ncopy .lg .. => s.performCmd tid id true
    | _ => s
  | none => s

end Sys2Proof.Machine
end

