-- ==== Sys2Proof/Machine/Token.lean ====
section
/-! DEFINITION. The suffix-match memory, draws, and sampling (spec/14_token.md R278 to R289, R295 to R300). -/

namespace Sys2Proof.Machine

/-! ### Hashes and draws (R281, R295) -/

def mix64 (x : Word) : Word :=
  let a := (x ^^^ (x >>> 31)) * 0x9E6C63D0676A9A99
  let b := (a ^^^ (a >>> 29)) * 0xD6E8FEB86659FD93
  b ^^^ (b >>> 32)

/-- sm_hash of tokens, oldest first. -/
def smHash (ts : List (BitVec 24)) : Word :=
  ts.foldl (fun h t => mix64 (h ^^^ t.setWidth 64)) (0x5A17000000000000 + BitVec.ofNat 64 ts.length)

/-- draw_word. -/
def drawWord (key ctr : Word) : BitVec 32 :=
  let x := (List.range 4).foldl (fun x i => mix64 (x ^^^ (key + BitVec.ofNat 64 i * 0xB4A16C3D5E27F08B))) ctr
  x.extractLsb' 32 32

/-! ### The index (R281, R282) -/

def SmmEntry.set (e : SmmEntry) : Nat := e.hash.toNat % 2 ^ 17

def SmmEntry.names (e : SmmEntry) (slot lc : Nat) (h : Word) : Bool := e.slot == slot && e.lc == lc && e.hash == h

/-- Whether an entry goes before another: lowest end position, then lowest LC, then lowest slot. -/
def SmmEntry.older (a b : SmmEntry) : Bool :=
  decide (a.pos < b.pos) || (a.pos == b.pos && (decide (a.lc < b.lc) || (a.lc == b.lc && decide (a.slot < b.slot))))

/-- The entry that goes first. -/
def oldestEntry : List SmmEntry → Option SmmEntry
  | [] => none
  | e :: r => match oldestEntry r with
    | some x => some (if x.older e then x else e)
    | none => some e

def Die.slot (d : Die) (k : Nat) : SmmSlot := sget {} d.smm k

def Die.setSlot (d : Die) (k : Nat) (x : SmmSlot) : Die := { d with smm := sset {} d.smm k x }

/-- Evicts an entry: its slot counts one. -/
def Die.evict (d : Die) (o : Option SmmEntry) : Die :=
  match o with
  | none => d
  | some e =>
    let x := d.slot e.slot
    { d.setSlot e.slot { x with evc := min (x.evc + 1) (2 ^ 32 - 1) } with index := d.index.filter (· != e) }

/-- Inserts (slot, L, h) → q (R282). -/
def Die.insert (d : Die) (slot lc : Nat) (h : Word) (q : Nat) : Die :=
  if d.index.any fun e => e.names slot lc h then
    { d with index := d.index.map fun e => if e.names slot lc h then { e with pos := q } else e }
  else
    let own := d.index.filter fun e => e.slot == slot
    let d1 := if (d.slot slot).quota ≤ own.length then d.evict (oldestEntry own) else d
    let new : SmmEntry := { slot := slot, lc := lc, hash := h, pos := q }
    let same := d1.index.filter fun e => e.set == new.set
    let d2 := if 16 ≤ same.length then d1.evict (oldestEntry same) else d1
    { d2 with index := d2.index ++ [new] }

/-! ### Handles and slots (R278, R279, R284) -/

def handleWord (gen : BitVec 16) (die slot : Nat) : Word := wordFields [(gen.toNat, 32), (die, 12), (slot, 0)]

def errHandle (code : Nat) : Word := wordFields [(1, 63), (code, 48)]

def handleDie (h : Word) : Nat := fieldNat h 14 12
def handleSlot (h : Word) : Nat := fieldNat h 11 0

/-- Whether a handle is current for a thread. -/
def State.current (s : State) (th : Thread) (h : Word) : Bool :=
  let x := (s.die (handleDie h)).slot (handleSlot h)
  !bitOf h 63 && x.isOpen && x.gen.toNat == fieldNat h 47 32 && x.part == th.life.part && x.ctx == th.life.ctx

/-- Frees a slot: its entries go uncounted, and its handle leaves the thread that opened it (R279, R289, R315). -/
def State.closeSlot (s : State) (d k : Nat) : State :=
  let x := (s.die d).slot k
  let h := handleWord x.gen d k
  let s1 := s.modDie d fun y => { y.setSlot k { gen := x.gen + 1 } with index := y.index.filter fun e => e.slot != k }
  { s1 with threads := s1.threads.map fun t => t.modLife fun l => { l with handles := l.handles.filter (· != h) } }

/-- What opening a slot comes to. -/
inductive Open where
  | bad
  | refused (code : Nat)
  | ok (die slot : Nat) (x : SmmSlot)
  deriving DecidableEq, Repr

/-- smopen's checks on its config word and HBASE (R284, R311). -/
def State.openSlot (s : State) (th : Thread) (cfg hbase : Word) : Open :=
  let dsel := fieldNat cfg 59 56
  let hlog := fieldNat cfg 51 48
  let quota := fieldNat cfg 23 0
  if fieldNat cfg 63 60 != 0 || decide (8 < dsel) || fieldNat cfg 55 52 != 0 || decide (12 < hlog) || fieldNat cfg 47 24 != 0 ||
      quota == 0 || decide (0x200000 < quota) || hbase.toNat % 64 != 0 then .bad
  else
    let p := th.life.part
    let d := if dsel = 8 then th.life.rect.die else dsel
    let open_ := (s.die d).smm.filter fun e => e.2.isOpen && e.2.part == p
    let q := (s.part p).set.smmq.getD d 0
    match (List.range 4096).find? fun k => !((s.die d).slot k).isOpen with
    | none => .refused 1
    | some k =>
      if decide (fieldNat q 12 0 < open_.length + 1) ||
          decide (s.slotSize p < saveLen th.panes th.life.record th.tiles (th.life.handles.length + 1)) then .refused 2
      else if fieldNat q 45 24 < (open_.foldl (fun a e => a + e.2.quota) 0) + quota then .refused 3
      else
        .ok d k { isOpen := true, gen := ((s.die d).slot k).gen, part := p, ctx := th.life.ctx, hlog := hlog, quota := quota,
                  hbase := BitVec.ofNat 56 hbase.toNat }

/-- The slot opened: its handle is the thread's. -/
def State.takeSlot (s : State) (tid d k : Nat) (x : SmmSlot) : State :=
  (s.modDie d fun y => y.setSlot k x).modThread tid fun t => t.modLife fun l => { l with handles := l.handles ++ [handleWord x.gen d k] }

/-- smopen. -/
def execSmopen (cfg hbase : Src) (d : Dst) (s : State) : Answer :=
  issue s fun k th s1 =>
    let a := (th.regs .c).read cfg
    let b := (th.regs .c).read hbase
    consume [a, b] <|
      match s.openSlot th a.bits b.bits with
      | .bad => .trap (illegal)
      | .refused c => asMark th <| .done (s1.pushWord k (errHandle c) d)
      | .ok die n x => asMark th <| .done ((s1.takeSlot th.tid die n x).pushWord k (handleWord x.gen die n) d)

/-! ### The history ring (R280) -/

def SmmSlot.hcap (x : SmmSlot) : Nat := 2 ^ (x.hlog + 8)

/-- The virtual address of position p. -/
def SmmSlot.ringVa (x : SmmSlot) (p : Nat) : Nat := (x.hbase.toNat + 4 * (p % x.hcap)) % 2 ^ 56

/-- The shadow's key of position p: what the unit last wrote there, by which a program's write into the ring is known (log 9). -/
def SmmSlot.shadowKey (x : SmmSlot) (d k p : Nat) : Nat := (4096 * d + k) * 2 ^ 20 + p % x.hcap

/-- Whether the ring's pages that these positions lie in are readable and writable; the first fault if not. -/
def State.ringFault (s : State) (d : Nat) (x : SmmSlot) (ps : List Nat) : State × Option (XlFault × Nat) :=
  let pages := (ps.map fun p => x.ringVa p / 65536).eraseDups
  pages.foldl (init := (s, none)) fun acc pg =>
    match acc.2 with
    | some _ => acc
    | none =>
      match acc.1.xlate d x.part x.ctx (65536 * pg) .rd with
      | (t, .error f) => (t, some (f, 65536 * pg))
      | (t, .ok _) => match t.xlate d x.part x.ctx (65536 * pg) .wr with
        | (u, .error f) => (u, some (f, 65536 * pg))
        | (u, .ok _) => (u, none)

/-- The physical address of position p by the TLB of a die, or by a walk; none where its page grants no write. -/
def State.ringPa (s : State) (dd : Nat) (x : SmmSlot) (p : Nat) : Option Nat :=
  match (s.xlate dd x.part x.ctx (x.ringVa p) .wr).2 with
  | .ok pa => some pa
  | .error _ => none

/-- The token at position p, translated by the TLB of die dd: what the unit wrote, unless the ring holds something else now, or is unmapped,
when it is a free value. -/
def State.ringTok (s : State) (dd d k : Nat) (x : SmmSlot) (p : Nat) : BitVec 24 :=
  let old := sget 0 s.shadow (x.shadowKey d k p)
  match s.ringPa dd x p with
  | some pa => if leNat (s.mem.read pa 4) = old.toNat then old else Config.freeToken (2 ^ 20 * s.fresh + p % x.hcap)
  | none => Config.freeToken (2 ^ 20 * s.fresh + p % x.hcap)

/-- Writes a token at position p. -/
def State.putTok (s : State) (dd d k : Nat) (x : SmmSlot) (p : Nat) (t : BitVec 24) : State :=
  match s.ringPa dd x p with
  | some pa =>
    let s1 := s.writeRaw pa (leBytes 4 t.toNat)
    { s1 with shadow := sset 0 s1.shadow (x.shadowKey d k p) t }
  | none => s

/-- A state that a trap leaves as it was, with what the reads before it have changed: the TLBs and error logs, the free values drawn, the
proxies (R212, R213, R229). -/
def State.keepReads (s t : State) : State :=
  { s with cores := t.cores, dies := t.dies, dev := t.dev, fresh := t.fresh, proxies := t.proxies }

/-- n positions that end before position e. -/
def lastPos (e n : Nat) : List Nat := (List.range n).map (e - n + ·)

/-- Goes on with a current handle. -/
def withHandle (s : State) (th : Thread) (h : Val) (k : Nat → Nat → SmmSlot → Head) : Head :=
  consume [h] <|
    if !s.current th h.bits then .trap (illegal)
    else
      let d := handleDie h.bits
      let n := handleSlot h.bits
      asMark th (k d n ((s.die d).slot n))

/-! ### smapp (R285) -/

/-- Appends tokens through the TLB of die dd; NPOS has 40 bits (R280). -/
def State.append (s : State) (dd d k : Nat) : List (BitVec 24) → State
  | [] => s
  | t :: r =>
    let x := (s.die d).slot k
    let p := x.npos
    let s1 := (s.putTok dd d k x p t).modDie d fun y => y.setSlot k { x with npos := (p + 1) % 2 ^ 40 }
    let s2 :=
      if p = 0 then s1
      else
        [0, 1, 2, 3, 4, 5].foldl (init := s1) fun u lc =>
          if 2 ^ lc ≤ p then
            let h := smHash ((lastPos p (2 ^ lc)).map fun j => s1.ringTok dd d k x j)
            u.modDie d fun y => y.insert k lc h (p - 1)
          else u
    State.append { s2 with fresh := s2.fresh + 1 } dd d k r

/-- How many 8-byte words n 32-bit words at an address lie in. -/
def span32 (ea n : Nat) : Nat := (ea + 4 * n + 7) / 8 - ea / 8

/-- n 32-bit words at an address, from the 8-byte words they lie in, and the mark of these. -/
def split32 (ea n : Nat) (ws : List (Word × Mark)) : List Nat × Mark :=
  ((pieces 4 n ((ws.flatMap fun w => wordBytes w.1).drop (ea % 8))).map leNat, meetAll (ws.map (·.2)))

/-- The 32-bit words at a local address, with the mark of the words they lie in. -/
def State.words32 (s : State) (th : Thread) (ea n : Nat) : List Nat × Mark :=
  split32 ea n (s.spWords th (ea / 8 * 8) (span32 ea n))

/-- Whether n 32-bit words lie at a local address in one pane. -/
def legal32 (panes ea n : Nat) : Bool :=
  decide (ea < 2 ^ 28) && decide (ea / 2 ^ 24 < panes) && ea % 4 == 0 && decide (ea % 2 ^ 24 + 4 * n ≤ spBytes)

/-- The word that smapp pushes. -/
def appWord (x : SmmSlot) : Word := wordFields [(x.evc % 2 ^ 24, 40), (x.npos, 0)]

/-- smapp. -/
def execSmapp (h list : Src) (d : Dst) (s : State) : Answer :=
  issue s fun k th s1 =>
    let l := (th.regs .c).read list
    consume [l] <|
      withHandle s th ((th.regs .c).read h) fun die n x =>
        let c := fieldNat l.bits 63 32
        let ea := fieldNat l.bits 27 0
        if 256 < c || fieldNat l.bits 31 28 != 0 then .trap (illegal)
        else if !legal32 th.panes ea c then .trap bounds
        else
          let s0 := s.spTouch th ea (4 * c)
          let ts := s0.words32 th ea c
          match (if c = 0 then none else ts.2) with
          | some t => .trapIn s0 (poison t)
          | none =>
            if ts.1.any (fun t => decide (2 ^ 24 ≤ t)) || decide (2 ^ 40 < x.npos + c) then .trapIn s0 (illegal)
            else
              let reads := if c = 0 then [] else lastPos (x.npos + c) (min (x.npos + c) (32 + c))
              match (s1.spTouch th ea (4 * c)).ringFault th.life.rect.die x reads with
              | (t, some (f, va)) => .trapIn (s0.keepReads t) (f.atHead va)
              | (t, none) =>
                let t1 := t.append th.life.rect.die die n (ts.1.map (BitVec.ofNat 24))
                .done (t1.pushWord k (appWord ((t1.die die).slot n)) d)

/-! ### smprop (R286) -/

/-- How many tokens before q and before the end agree, at most f of them. -/
def agreeLen (tok : Nat → BitVec 24) (low q e : Nat) : Nat → Nat
  | 0 => 0
  | f + 1 =>
    let m := agreeLen tok low q e f
    if m = f && decide (low + f ≤ q) && decide (f ≤ e) && tok (q - f) == tok (e - f) then m + 1 else m

/-- The candidate of a length class, verified: its end position, if its tokens agree. -/
def tryLength (x : SmmSlot) (find : Nat → Word → Option Nat) (tok : Nat → BitVec 24) (lmin lc : Nat) : Option Nat :=
  let low := x.npos - x.hcap
  let l := 2 ^ lc
  if lmin ≤ l && decide (l + 1 ≤ x.npos) then
    (find lc (smHash ((lastPos x.npos l).map tok))).bind fun q =>
      if decide (low + l ≤ q + 1) && decide (l ≤ agreeLen tok low q (x.npos - 1) 63) then some q else none
  else none

/-- The match that smprop finds: MLEN, MPOS and the count. -/
def findMatch (x : SmmSlot) (find : Nat → Word → Option Nat) (tok : Nat → BitVec 24) (lmin dd : Nat) : Nat × Nat × Nat :=
  match [5, 4, 3, 2, 1, 0].findSome? (tryLength x find tok lmin) with
  | some q => (agreeLen tok (x.npos - x.hcap) q (x.npos - 1) 63, q, min dd (x.npos - 1 - q))
  | none => (0, 0, 0)

/-- The positions that a length class reads: those it hashes, and those compared with its candidate up to the first that differs. -/
def lengthReads (x : SmmSlot) (find : Nat → Word → Option Nat) (tok : Nat → BitVec 24) (lmin lc : Nat) : List Nat :=
  let low := x.npos - x.hcap
  let e := x.npos - 1
  let l := 2 ^ lc
  if lmin ≤ l && decide (l + 1 ≤ x.npos) then
    lastPos x.npos l ++ match find lc (smHash ((lastPos x.npos l).map tok)) with
      | some q =>
        if low + l ≤ q + 1 then
          ((List.range (min 63 (agreeLen tok low q e 63 + 1))).filter fun i => decide (low + i ≤ q) && decide (i ≤ e)).flatMap fun i =>
            [q - i, e - i]
        else []
      | none => []
  else []

/-- The length classes that smprop tries, in order, up to the one that matches. -/
def tried (x : SmmSlot) (find : Nat → Word → Option Nat) (tok : Nat → BitVec 24) (lmin : Nat) : List Nat → List Nat
  | [] => []
  | lc :: r => lc :: if (tryLength x find tok lmin lc).isSome then [] else tried x find tok lmin r

/-- The positions that smprop reads, in order: for hashes and comparisons, then for the draft. -/
def propReads (x : SmmSlot) (find : Nat → Word → Option Nat) (tok : Nat → BitVec 24) (lmin dd : Nat) : List Nat :=
  let r := findMatch x find tok lmin dd
  (tried x find tok lmin [5, 4, 3, 2, 1, 0]).flatMap (lengthReads x find tok lmin) ++ (List.range r.2.2).map (r.2.1 + 1 + ·)

/-- The word that smprop pushes. -/
def propWord (r : Nat × Nat × Nat) : Word := wordFields [(r.2.1, 16), (r.1, 5), (r.2.2, 0)]

/-- smprop: checked before it waits for its tile. -/
def execSmprop (h : Src) (t : TileRef) (d1 : BitVec 4) (lmin : BitVec 3) (d : Dst) (s : State) : Answer :=
  issue s fun k th s1 =>
    withHandle s th ((th.regs .c).read h) fun die n x =>
      let go := fun (put : State → List (BitVec 8) → State) =>
        let find := fun (lc : Nat) (hh : Word) => ((s.die die).index.find? fun e => e.names n lc hh).map (·.pos)
        let reads := propReads x find (fun p => s1.ringTok th.life.rect.die die n x p) (2 ^ lmin.toNat) (d1.toNat + 1)
        match s1.ringFault th.life.rect.die x reads with
        | (t, some (f, va)) => Head.trapIn (s.keepReads t) (f.atHead va)
        | (t, none) =>
          let tok := fun p => t.ringTok th.life.rect.die die n x p
          let r := findMatch x find tok (2 ^ lmin.toNat) (d1.toNat + 1)
          let draft := ((List.range r.2.2).flatMap fun i => leBytes 4 (tok (r.2.1 + 1 + i)).toNat)
          let t1 := t.modDie die fun y => y.setSlot n { x with mlen := r.1, mpos := r.2.1 }
          .done ((put { t1 with fresh := t1.fresh + 1 } (padBytes 64 draft)).pushWord k (propWord r) d)
      withWriter th s.now t (go fun u _ => u) fun tk desc =>
        go fun u bs =>
          (u.setGran th 0 (descBase desc) bs none).modThread k.tid fun v =>
            (v.startWrite s.now tk).modTile tk.tile fun y => { y with prev := .filling, st := .full, since := s.now + 2 }

/-! ### Dumps (R287, R288) -/

def entryWords (e : SmmEntry) : List Word := [e.hash, wordFields [(e.lc, 40), (e.pos, 0)]]

/-- Puts an entry into a list in increasing POS, then increasing LC. -/
def insertEntry (e : SmmEntry) : List SmmEntry → List SmmEntry
  | [] => [e]
  | x :: r => if decide (e.pos < x.pos) || (e.pos == x.pos && decide (e.lc < x.lc)) then e :: x :: r else x :: insertEntry e r

/-- The dump of a slot, its ring translated by the TLB of die dd. -/
def State.dump (s : State) (dd d k : Nat) : List (BitVec 8) :=
  let x := (s.die d).slot k
  let es := ((s.die d).index.filter fun e => e.slot == k).foldl (fun l e => insertEntry e l) []
  let h := min x.npos x.hcap
  let hist := (lastPos x.npos h).flatMap fun p => leBytes 4 (s.ringTok dd d k x p).toNat
  let head : List Word :=
    [wordFields [(0x534D44554D50, 16), (1, 0)], wordFields [(x.npos, 0)], wordFields [(x.mlen, 40), (x.mpos, 0)], wordFields [(x.evc, 0)],
      wordFields [(x.hlog, 32), (x.quota, 0)], wordFields [(es.length, 32), (h, 0)], 0, 0]
  let b := head.flatMap wordBytes ++ padBytes (pad64 hist.length) hist ++ (es.flatMap entryWords).flatMap wordBytes
  b.take 48 ++ leBytes 4 (crc32 b).toNat ++ b.drop 52

/-- A dump address is a multiple of 64. -/
def dvaOk (v : Val) : Bool := v.bits.toNat % 64 == 0

/-- smsave. -/
def execSmsave (h dva : Src) (d : Dst) (s : State) : Answer :=
  issue s fun k th s1 =>
    let a := (th.regs .c).read dva
    consume [a] <|
      withHandle s th ((th.regs .c).read h) fun die n x =>
        if !dvaOk a then .trap (illegal)
        else
          let dd := th.life.rect.die
          match s1.ringFault dd x (lastPos x.npos (min x.npos x.hcap)) with
          | (t, some (f, va)) => .trapIn (s.keepReads t) (f.atHead va)
          | (t, none) =>
            let b := t.dump dd die n
            match t.probeVirt dd th.life.part th.life.ctx a.bits.toNat b.length .wr with
            | (u, some (f, va)) => .trapIn (s.keepReads u) (f.atHead va)
            | (u, none) =>
              .done (({ u with fresh := u.fresh + 1 }.writeVirt dd th.life.part th.life.ctx a.bits.toNat b).pushWord k
                (BitVec.ofNat 64 b.length) d)

/-- An entry of a dump, by its place. -/
def dumpEntry (b : List (BitVec 8)) (base k i : Nat) : SmmEntry × Bool :=
  let w := word8 (b.drop (base + 16 * i)) 1
  ({ slot := k, lc := fieldNat w 42 40, hash := word8 (b.drop (base + 16 * i)) 0, pos := fieldNat w 39 0 },
    fieldNat w 63 43 == 0 && decide (fieldNat w 42 40 ≤ 5))

/-- Strictly increasing in POS, then LC. -/
def entriesRise : List SmmEntry → Bool
  | a :: b :: r => (decide (a.pos < b.pos) || (a.pos == b.pos && decide (a.lc < b.lc))) && entriesRise (b :: r)
  | _ => true

/-- Bytes of a dump by its header. -/
def dumpLen (h : List (BitVec 8)) : Nat := 64 + pad64 (4 * fieldNat (word8 h 5) 31 0) + 16 * fieldNat (word8 h 5) 63 32

/-- Whether a dump is accepted into a slot. -/
def dumpOk (b : List (BitVec 8)) (x : SmmSlot) (es : List (SmmEntry × Bool)) : Bool :=
  let npos := fieldNat (word8 b 1) 39 0
  let h := fieldNat (word8 b 5) 31 0
  word8 b 0 == 0x534D44554D500001 && (crc32 (blank b 48 4)).toNat == fieldNat (word8 b 6) 31 0 &&
    h == min npos (2 ^ (fieldNat (word8 b 4) 35 32 + 8)) && decide (h ≤ x.hcap) && decide (es.length ≤ x.quota) &&
    es.all (fun e => e.2 && decide (e.1.pos + 2 ≤ npos)) && entriesRise (es.map (·.1))

/-- The slot filled from an accepted dump. -/
def State.loadDump (s : State) (dd d k : Nat) (b : List (BitVec 8)) (es : List SmmEntry) : State :=
  let x := (s.die d).slot k
  let npos := fieldNat (word8 b 1) 39 0
  let h := fieldNat (word8 b 5) 31 0
  let x1 : SmmSlot :=
    { x with npos := npos, mlen := fieldNat (word8 b 2) 45 40, mpos := fieldNat (word8 b 2) 39 0, evc := fieldNat (word8 b 3) 31 0 }
  let s1 := s.modDie d fun y => y.setSlot k x1
  let s2 := (List.range h).foldl (init := s1) fun t i =>
    t.putTok dd d k x1 (npos - h + i) (BitVec.ofNat 24 (leNat ((b.drop (64 + 4 * i)).take 4)))
  es.foldl (fun t e => t.modDie d fun y => y.insert k e.lc e.hash e.pos) s2

/-- smload: a refused dump frees the slot again (R279, R288). -/
def execSmload (cfg hbase dva : Src) (d : Dst) (s : State) : Answer :=
  issue s fun k th s1 =>
    let a := (th.regs .c).read cfg
    let b := (th.regs .c).read hbase
    let v := (th.regs .c).read dva
    consume [a, b, v] <|
      match s.openSlot th a.bits b.bits with
      | .bad => .trap (illegal)
      | .refused c => asMark th <| .done (s1.pushWord k (errHandle c) d)
      | .ok die n x =>
        if !dvaOk v then .trap (illegal)
        else
          asMark th <|
            let dd := th.life.rect.die
            let refuse := fun (t : State) => Head.done (((t.takeSlot th.tid die n x).closeSlot die n).pushWord k (errHandle 4) d)
            match s1.readVirt dd th.life.part th.life.ctx v.bits.toNat 64 with
            | (t, .error (f, va)) => .trapIn (s.keepReads t) (f.atHead va)
            | (t, .ok (h, _)) =>
              if word8 h 0 != 0x534D44554D500001 then refuse t
              else
                match t.readVirt dd th.life.part th.life.ctx v.bits.toNat (dumpLen h) with
                | (u, .error (f, va)) => .trapIn (s.keepReads u) (f.atHead va)
                | (u, .ok (bs, _)) =>
                  let base := 64 + pad64 (4 * fieldNat (word8 bs 5) 31 0)
                  let es := (List.range (fieldNat (word8 bs 5) 63 32)).map (dumpEntry bs base n)
                  if !dumpOk bs x es then refuse u
                  else
                    let npos := fieldNat (word8 bs 1) 39 0
                    match u.ringFault dd x (lastPos npos (fieldNat (word8 bs 5) 31 0)) with
                    | (w, some (f, va)) => .trapIn (s.keepReads w) (f.atHead va)
                    | (w, none) =>
                      .done (((w.takeSlot th.tid die n x).loadDump dd die n bs (es.map (·.1))).pushWord k (handleWord x.gen die n) d)

/-- smclose (R289). -/
def execSmclose (h : Src) (d : Dst) (s : State) : Answer :=
  issue s fun k th s1 =>
    withHandle s th ((th.regs .c).read h) fun die n x =>
      .done ((s1.closeSlot die n).pushWord k (wordFields [(x.evc, 0)]) d)

/-! ### Draws and sampling (R295 to R298) -/

/-- draw: a pure function of its operands. -/
def execDraw (key ctr : Src) (d : Dst) (s : State) : Answer :=
  scalar2 s key ctr d fun a b => (drawWord a b).setWidth 64

/-- A counter word of a position and a stream. -/
def ctrOf (pos stream : Nat) : Word := wordFields [(pos, 24), (stream, 16)]

/-- A shortlist entry: its VALUE, its token, its shard and its weight in units of 2^-149. -/
structure Cand where
  val : BitVec 32
  id : Nat
  shard : Nat
  w : Option Nat
  deriving DecidableEq, Repr

/-- The weights once an infinite one has been dealt with (R297). -/
def settleWeights (es : List Cand) : List (Cand × Nat) :=
  if es.any fun e => e.w.isNone then es.map fun e => (e, if e.w.isNone then 1 else 0)
  else es.map fun e => (e, e.w.getD 0)

def massOf {α : Type} (l : List (α × Nat)) : Nat := l.foldl (fun a x => a + x.2) 0

/-- The first entry whose running sum passes u × W / 2^32. -/
def pickFrom {α : Type} (target : Nat) : Nat → List (α × Nat) → Option α
  | _, [] => none
  | acc, x :: r => if target < 2 ^ 32 * (acc + x.2) then some x.1 else pickFrom target (acc + x.2) r

/-- pick_weighted (R297). -/
def pickWeighted {α : Type} (l : List (α × Nat)) (u : BitVec 32) : Option α :=
  if massOf l = 0 then none else pickFrom (u.toNat * massOf l) 0 l

/-- The entry of greatest VALUE, with the lowest id among equals. -/
def argmaxCand : List Cand → Option Cand
  | [] => none
  | e :: r => match argmaxCand r with
    | some x => some (if less32 e.val x.val || (!less32 x.val e.val && decide (x.id < e.id)) then x else e)
    | none => some e

/-- What sampling comes to: OUT, the token and its shard. -/
structure Sample where
  out : Nat
  id : Nat := 0
  shard : Nat := 0
  deriving DecidableEq, Repr

def Sample.ofCand (out : Nat) (o : Option Cand) : Sample :=
  match o with
  | some e => { out := out, id := e.id, shard := e.shard }
  | none => { out := 2 }

/-- tsamp (R298). -/
def tsampOf (greedy : Bool) (key : Word) (pos nsh : Nat) (es : List Cand) : Sample :=
  if greedy then Sample.ofCand 0 (argmaxCand es)
  else
    let ws := settleWeights es
    let part := fun (k : Nat) => ws.filter fun e => e.1.shard == k
    let shards := (List.range nsh).map fun k => (k, massOf (part k))
    Sample.ofCand 0 ((pickWeighted shards (drawWord key (ctrOf pos 3))).bind fun k => pickWeighted (part k) (drawWord key (ctrOf pos 4)))

/-- tacc (R298). -/
def taccOf (greedy : Bool) (key : Word) (pos draft : Nat) (es : List Cand) : Sample :=
  if greedy then
    match argmaxCand es with
    | none => { out := 2 }
    | some e => if e.id = draft then { out := 0, id := draft } else { out := 1, id := e.id, shard := e.shard }
  else
    let ws := settleWeights es
    let mass := massOf ws
    let wd := massOf (ws.filter fun e => e.1.id == draft)
    if mass = 0 then { out := 2 }
    else if (drawWord key (ctrOf pos 1)).toNat * mass < 2 ^ 32 * wd then { out := 0, id := draft }
    else Sample.ofCand 1 (pickWeighted (ws.filter fun e => e.1.id != draft) (drawWord key (ctrOf pos 2)))

/-- The word that both push. -/
def sampleWord (x : Sample) (stops : List Nat) : Word :=
  if 2 ≤ x.out then wordFields [(x.out, 30)]
  else wordFields [(x.out, 30), (b2n (stops.contains x.id), 29), (x.shard, 24), (x.id, 0)]

/-- The word at an address that the sampling instruction at the C stream's head has read ahead of its issue (R353). -/
def Thread.early? (th : Thread) (a : Nat) : Option (Word × Mark) := (th.sc.early.find? fun e => e.1 == a).map (·.2)

/-- n words that a sampling instruction reads at a multiple of 8: those read ahead of its issue as they then stood, for no word is read twice, the
others now (R353). -/
def State.sampleWords (s : State) (th : Thread) (ea n : Nat) : State × List (Word × Mark) :=
  if th.sc.early.isEmpty then (s.spTouch th ea (8 * n), (s.spTouch th ea (8 * n)).spWords th ea n)
  else
    (List.range n).foldl (init := (s, [])) fun x i =>
      match th.early? (ea + 8 * i) with
      | some w => (x.1, x.2 ++ [w])
      | none =>
        let t := x.1.spTouch th (ea + 8 * i) 8
        (t, x.2 ++ t.spWords th (ea + 8 * i) 1)

/-- Reads of the window that sampling makes: the machine after them, and the words, or the trap. -/
def State.readFor (s : State) (th : Thread) (ea n : Nat) : State × Except TrapInfo (List Nat) :=
  if !legal32 th.panes ea n then (s, .error bounds)
  else
    let x := s.sampleWords th (ea / 8 * 8) (if n = 0 then 0 else span32 ea n)
    let ws := split32 ea n x.2
    match ws.2 with
    | some t => (x.1, .error (poison t))
    | none => (x.1, .ok ws.1)

/-- Reads one after the other; the first trap stands. -/
def State.readAll (s : State) (th : Thread) : List (Nat × Nat) → State × Except TrapInfo (List (List Nat))
  | [] => (s, .ok [])
  | (ea, n) :: r =>
    match s.readFor th ea n with
    | (s1, .error t) => (s1, .error t)
    | (s1, .ok x) =>
      match State.readAll s1 th r with
      | (s2, .error t) => (s2, .error t)
      | (s2, .ok xs) => (s2, .ok (x :: xs))

/-- The address of shard k's block in a sampling descriptor. -/
def shardWord (ds : List Word) (k : Nat) : Nat :=
  let w := ds.getD (2 + k / 2) 0
  if k % 2 = 0 then fieldNat w 31 0 else fieldNat w 63 32

/-- A sampling descriptor without a reserved value (R296). -/
def descOk296 (ds : List Word) : Bool :=
  let w := fun k => ds.getD k 0
  let nsh := fieldNat (w 1) 35 32
  fieldNat (w 1) 63 48 == 0 && fieldNat (w 1) 39 36 == 0 && fieldNat (w 6) 63 28 == 0 && w 7 == 0 && nsh != 0 && decide (nsh ≤ 8) &&
    decide (fieldNat (w 1) 47 40 ≤ 64) && finite32 ((w 1).extractLsb' 0 32) &&
    (List.range nsh).all fun k => decide (shardWord ds k < 2 ^ 28)

/-- The entries of a block, from its words. -/
def candsOf (c : BitVec 32) (shard : Nat) (ws : List Nat) : List Cand :=
  (pieces 2 ws.length ws).map fun e =>
    let v := BitVec.ofNat 32 (e.getD 1 0)
    { val := v, id := e.getD 0 0 % 2 ^ 24, shard := shard, w := units149 (exp2Term v c) }

/-- Goes on with the words of a sampling descriptor; a poisoned one traps POISON. -/
def withSampleDesc (s : State) (th : Thread) (ea : Nat) (h : State → List Word → Head) : Head :=
  let x := s.sampleWords th ea 8
  match meetAll (x.2.map (·.2)) with
  | some t => .trapIn x.1 (poison t)
  | none => h x.1 (x.2.map (·.1))

/-- tsamp and tacc: the descriptor, then every block's first word, then the stop set and the blocks' other words (R296). In its issue cycle the
instruction reads every word that it has not read ahead (R353, `State.sampleAhead`). -/
def sample (desc other : Src) (d : Dst) (f : Word → Nat → Word → List Cand → Sample) (s : State) : Answer :=
  issue s fun k th s1 =>
    let a := (th.regs .c).read desc
    let o := (th.regs .c).read other
    ready [o] <|
      consume [a] <|
        if !legalAddr th.panes a.bits.toNat 64 then .trap bounds
        else
          asMark th <| withSampleDesc s th a.bits.toNat fun s0 ds =>
            let w := fun k => ds.getD k 0
            let nsh := fieldNat (w 1) 35 32
            let nstop := fieldNat (w 1) 47 40
            let stopa := fieldNat (w 6) 27 0
            let push := fun (t : State) (x : Word) =>
              let s2 := { s1 with cores := t.cores, dies := t.dies, dev := t.dev, fresh := t.fresh }
              Head.done (s2.push k { bits := x, mark := o.mark } d)
            let shards := (List.range nsh).map (shardWord ds)
            if !descOk296 ds then .trapIn s0 (illegal)
            else if shards.any (fun x => x % 64 != 0) || !legal32 th.panes stopa nstop then .trapIn s0 bounds
            else
              match s0.readAll th (shards.map fun x => (x, 2)) with
              | (t, .error e) => .trapIn t e
              | (t, .ok heads) =>
                if heads.any (fun h => decide (h.getD 1 0 < 2 ^ 31)) then push t (sampleWord { out := 3 } [])
                else
                  let counts := heads.map fun h => if Nat.testBit (h.getD 1 0) 30 then 0 else h.getD 0 0 % 256
                  match t.readAll th ((stopa, nstop) :: (shards.zip counts).map fun x => (x.1 + 8, 6 + 2 * x.2)) with
                  | (u, .error e) => .trapIn u e
                  | (u, .ok []) => push u 0
                  | (u, .ok (stops :: blocks)) =>
                    let c := (w 1).extractLsb' 0 32
                    let es := blocks.zipIdx.flatMap fun b => candsOf c b.2 (b.1.drop 6)
                    if es.any (fun e => isNan32 e.val) then push { u with fresh := u.fresh + 1 } (Config.freeSample u.fresh)
                    else push u (sampleWord (f (w 0) nsh o.bits es) stops)

/-- tacc. -/
def execTacc (greedy : Bool) (desc dw : Src) (d : Dst) (s : State) : Answer :=
  sample desc dw d (fun key _ x es => taccOf greedy key (fieldNat x 63 24) (fieldNat x 23 0) es) s

/-- tsamp. -/
def execTsamp (greedy : Bool) (desc pos : Src) (d : Dst) (s : State) : Answer :=
  sample desc pos d (fun key nsh x es => tsampOf greedy key (fieldNat x 63 24) nsh es) s

/-! ### Words read ahead (R353) -/

/-- How many 8-byte words a sampling instruction reads of a block, by its word 0 where that has been read: word 0 alone until it is, and where it
is not done; else the four words before the entries and the entries, of which a block with an error has none (R292, R296). -/
def blockWords (w0 : Option (Word × Mark)) : Nat :=
  match w0 with
  | none => 1
  | some (w, _) => if bitOf w 63 then 4 + (if bitOf w 62 then 0 else fieldNat w 7 0) else 1

/-- The descriptor's words and then the next word of block k not yet read are read, each as it stands at this moment. -/
def State.readAhead (s : State) (th : Thread) (ea k : Nat) : State :=
  let x := s.sampleWords th ea 8
  let ds := x.2.map (·.1)
  let base := shardWord ds k
  let desc := (List.range 8).zip x.2 |>.map fun w => (ea + 8 * w.1, w.2)
  let had := if th.sc.early.isEmpty then desc else th.sc.early
  let n := blockWords (th.early? base)
  let next := (List.range n).find? fun j => (th.early? (base + 8 * j)).isNone
  let ok := (meetAll (x.2.map (·.2))).isNone && descOk296 ds && decide (k < fieldNat (ds.getD 1 0) 35 32) && base % 64 == 0
  match ok, next with
  | true, some j =>
    if legal32 th.panes (base + 8 * j) 2 then
      let t := x.1.spTouch th (base + 8 * j) 8
      t.modThread th.tid fun u =>
        { u with sc := { u.sc with early := had ++ (t.spWords th (base + 8 * j) 1).map fun w => (base + 8 * j, w) } }
    else s
  | _, _ => s

end Sys2Proof.Machine
end

