-- ==== Sys2Proof/Machine/DevImage.lean ====
section
/-! DEFINITION. The device image: its bytes, and their restoration (spec/15_traps.md R322 to R325). -/

namespace Sys2Proof.Machine

/-- Bytes with zeros up to the next multiple of 16. -/
def pad16 (b : List (BitVec 8)) : List (BitVec 8) := padBytes ((b.length + 15) / 16 * 16) b

/-! ### What an image holds of a partition -/

/-- Whether a thread is at rest in its save slot. -/
def Thread.atSlot (th : Thread) : Bool :=
  match th.life.phase with
  | .saved | .trapped | .parked => true
  | _ => false

/-- The threads of a partition in the order of the image: SAVED threads by queue, oldest resume entry first, then the others. -/
def State.imageThreads (s : State) (p : Nat) : List Thread :=
  ((s.part p).queues.flatMap fun q => q.resumes.filterMap fun e => s.thread? e.tid) ++
    s.threads.filter fun th => th.life.part == p && (th.life.phase == .trapped || th.life.phase == .parked)

def State.slotOf (s : State) (tid : Nat) : Nat :=
  match s.thread? tid with
  | some th => th.life.slot
  | none => 0

/-- A group's entry (R323). -/
def State.groupBytes (s : State) (g : Group) : List (BitVec 8) :=
  wordBytes g.key ++ wordBytes (wordFields [(g.arrived.length, 32), (b2n g.isOpen, 16), (g.members.length, 0)]) ++
    g.members.flatMap fun t =>
      leBytes 4 (b2n (g.waitNext.contains t) * 2 ^ 18 + b2n (g.arrived.contains t) * 2 ^ 17 + b2n (g.awaited.contains t) * 2 ^ 16 +
        s.slotOf t)

/-- The open suffix-match slots of a partition: die and index. -/
def State.smmOf (s : State) (p : Nat) : List (Nat × Nat × SmmSlot) :=
  s.dies.zipIdx.flatMap fun d => (d.1.smm.filter fun e => e.2.isOpen && e.2.part == p).map fun e => (d.2, e.1, e.2)

/-- A slot's entry: its place, and its dump padded to a multiple of 64. -/
def State.smmBytes (s : State) (x : Nat × Nat × SmmSlot) : List (BitVec 8) :=
  let b := s.dump x.1 x.1 x.2.1
  wordBytes (wordFields [(x.2.2.gen.toNat, 32), (x.1, 12), (x.2.1, 0)]) ++ wordBytes (wordFields [(b.length, 32), (x.2.2.ctx.toNat, 0)]) ++
    padBytes ((b.length + 63) / 64 * 64) b

/-- The pending triggers that an image carries: those of a thread only while it is there. -/
def State.imageTriggers (s : State) (p : Nat) : List Trigger :=
  (s.part p).pol.triggers.filter fun t =>
    t.hook == .dispatch || (t.hook == .preempt && t.cause == 0) || (s.thread? t.tid).isSome

def State.triggerWord (s : State) (t : Trigger) : Word :=
  let who := match t.hook, t.cause with
    | .dispatch, _ => 0
    | .preempt, 0 => t.queue
    | _, _ => s.slotOf t.tid
  wordFields [(who, 16), (t.cause, 4), (t.hook.code, 0)]

/-- The valid contexts of a partition, lowest index first. -/
def Settings.contexts (x : Settings) : List (Word × Word) := (x.ctxtab.filter fun e => bitOf e.2.1 63).map (·.2)

def Phase.imageCode : Phase → Nat
  | .trapped => 2
  | .parked => 3
  | _ => 1

/-- A thread's entry, with the offset of its CSA. -/
def threadBytes (th : Thread) (off : Nat) : List (BitVec 8) :=
  wordBytes (wordFields [(th.life.queue, 24), (th.life.phase.imageCode, 16), (th.life.slot, 0)]) ++ wordBytes (BitVec.ofNat 64 off)

/-- A Ferry range's two words. -/
def Range.words (r : Range) : List Word := [wordFields [(r.m.toNat, 40), (r.next.toNat, 0)], wordFields [(r.p.toNat, 40), (r.last.toNat, 0)]]

/-- A word of the fixed part of a partition block, but for its LENGTH. -/
def State.blockWord (s : State) (p len : Nat) (counts : List Nat) (off : Nat) : Word :=
  let q := s.part p
  let n := fun (k : Nat) => (q.pol.slots.getD k []).length
  if off = 0 then wordFields [(0x50415254424B, 16), (1, 0)]
  else if off = 8 then wordFields [(len, 32), (p, 0)]
  else if decide (0x90 ≤ off) && decide (off < 0xB8) then wordFields [(counts.getD ((off - 0x90) / 8) 0, 0)]
  else if off = 0xB8 then wordFields [(n 1, 16), (n 0, 0)]
  else if decide (0xC0 ≤ off) && decide (off < 0x100) then 0
  else if decide (0x440 ≤ off) && decide (off < 0x840) then ((q.ferry.getD ((off - 0x440) / 16) {}).words).getD (off % 16 / 8) 0
  else if decide (0x1000 ≤ off) && decide (off < 0x2000) then
    let w := q.pol.slots.getD ((off - 0x1000) / 2048) []
    pair32 (w.getD (off % 2048 / 4) 0) (w.getD (off % 2048 / 4 + 1) 0)
  else s.readPage p off

/-- A partition's block; csaOffs are the places of its threads' CSAs. -/
def State.partBlock (s : State) (p : Nat) (csaOffs : List Nat) : List (BitVec 8) :=
  let q := s.part p
  let gs := q.groups.filterMap (·.2)
  let cs := q.set.contexts
  let ms := s.smmOf p
  let ts := s.imageTriggers p
  let ths := s.imageThreads p
  let tables := pad16 (gs.flatMap s.groupBytes) ++
    pad16 (cs.flatMap fun c => wordBytes (c.1 &&& 0xFFFFFF) ++ wordBytes c.2) ++ pad16 (ms.flatMap s.smmBytes) ++
    pad16 (ts.flatMap fun t => wordBytes (s.triggerWord t) ++ wordBytes 0) ++
    (ths.zip csaOffs).flatMap fun x => threadBytes x.1 x.2
  let len := 8192 + tables.length
  let counts := [cs.length, gs.length, ms.length, ts.length, ths.length]
  (List.range 1024).flatMap (fun k => wordBytes (s.blockWord p len counts (8 * k))) ++ tables

/-- Running sums from a start. -/
def offsFrom (o : Nat) : List Nat → List Nat
  | [] => []
  | n :: r => o :: offsFrom (o + n) r

/-- The image of partitions, given in increasing order; none when a CSA cannot be read (R322). -/
def State.devImage (s : State) (ps : List Nat) (whole emerg : Bool) (stamp : Word) : Option (List (BitVec 8)) :=
  let ths := ps.map s.imageThreads
  let csas := ths.map fun l => l.map s.storedCsa
  if csas.any fun l => l.any Option.isNone then none
  else
    let bytes := csas.map fun l => l.map fun c => c.getD []
    let sizes := (ps.zip ths).map fun x => (s.partBlock x.1 (x.2.map fun _ => 0)).length
    let first := 256 + sizes.sum
    let offs := offsFrom first (bytes.map fun l => (l.map List.length).sum)
    let blocks := (ps.zip (offs.zip bytes)).map fun x => s.partBlock x.1 (offsFrom x.2.1 (x.2.2.map List.length))
    let pb := ps.zip (offsFrom 256 sizes)
    let body := blocks.flatten ++ (bytes.flatten).flatten
    let trail := 256 + body.length
    let n := 1 + blocks.length + (bytes.flatten).length
    let w : Nat → Word := fun k =>
      if k = 0 then wordFields [(0x4445_5649_4D47, 16), (1, 0)]
      else if k = 1 then BitVec.ofNat 64 (trail + 8 * n)
      else if k = 2 then wordFields [(b2n emerg, 49), (b2n whole, 48), (s.dev.pkg.toNat, 32), (ps.length, 0)]
      else if k = 3 then stamp
      else if k = 4 then BitVec.ofNat 64 trail
      else if decide (8 ≤ k) && decide (k < 24) then
        match pb.find? fun x => x.1 == k - 8 with
        | some x => BitVec.ofNat 64 x.2
        | none => 0
      else 0
    let head := (List.range 32).flatMap fun k => wordBytes (w k)
    let trailer := ((head :: blocks) ++ bytes.flatten).flatMap fun b => leBytes 8 (crc32 b).toNat
    some (head.take 248 ++ leBytes 4 (crc32 trailer).toNat ++ leBytes 4 0x444F4E45 ++ body ++ trailer)

/-! ### Restoration (R324) -/

/-- Whether an image is whole: its marks, and the CRC of its trailer (R322, R325). -/
def imageWhole (b : List (BitVec 8)) : Bool :=
  let w := word8 b
  let len := (w 1).toNat
  w 0 == wordFields [(0x4445_5649_4D47, 16), (1, 0)] && decide (len ≤ b.length) && fieldNat (w 31) 63 32 == 0x444F4E45 &&
    decide ((w 4).toNat ≤ len) && (crc32 ((b.take len).drop (w 4).toNat)).toNat == fieldNat (w 31) 31 0

/-- A queue as recorded, over its QCFG as it stands. -/
def queueOf (old cfg ptr : Word) : Queue := { cfg := qcfgWord old cfg, head := ptr.extractLsb' 32 32, tail := ptr.extractLsb' 0 32 }

def rangeOf (a b : Word) : Range :=
  { next := a.extractLsb' 0 40, last := b.extractLsb' 0 40, p := b.extractLsb' 40 16, m := a.extractLsb' 40 24 }

/-- The policy words of a slot as recorded. -/
def policyOf (k : List (BitVec 8)) (slot n : Nat) : List (BitVec 32) :=
  (pieces 4 n (k.drop (0x1000 + 2048 * slot))).map fun x => BitVec.ofNat 32 (leNat x)

/-- A partition's settings, queues, policy and Ferry ranges as recorded; PROOT stays. -/
def Part.restoreFixed (q : Part) (k : List (BitVec 8)) (ctxs : List (Word × Word)) : Part :=
  let at_ := fun (o : Nat) => wordOf ((k.drop o).take 8)
  let sel := at_ 0x400
  let x0 := [0x18, 0x20, 0x28, 0x30, 0x38, 0x40].foldl (fun (x : Settings) o => x.write o (at_ o) true) q.set
  let x1 := (List.range 8).foldl (fun (x : Settings) d => x.write (0x48 + 8 * d) (at_ (0x48 + 8 * d)) true) x0
  { q with
    set := { x1 with ctxtab := sparseOf (0, 0) 0 (ctxs.map fun c => (c.1 ||| 0x8000000000000000, c.2)) },
    queues := (List.range 32).map fun i => queueOf (q.queues.getD i {}).cfg (at_ (0x100 + 16 * i)) (at_ (0x108 + 16 * i)),
    ferry := (List.range 64).map fun i => rangeOf (at_ (0x440 + 16 * i)) (at_ (0x448 + 16 * i)),
    pol := { q.pol with
      handlers := (List.range 4).map fun i => (List.range 8).map fun j => at_ (0x300 + 64 * i + 8 * j),
      slots := [policyOf k 0 (fieldNat (at_ 0xB8) 9 0), policyOf k 1 (fieldNat (at_ 0xB8) 25 16)],
      slot := b2n (bitOf sel 0), dis := bitOf sel 7, streak := fieldNat sel 15 8,
      pwords := (List.range 8).map fun i => BitVec.ofNat 32 (leNat ((k.drop (0x408 + 4 * i)).take 4)) } }

/-- The bytes of a group's entry: 16 and 4 for each member. -/
def groupsFrom (slotTid : Nat → Nat) : Nat → List (BitVec 8) → List Group × List (BitVec 8)
  | 0, b => ([], b)
  | n + 1, b =>
    let w := word8 b 1
    let m := fieldNat w 15 0
    let ms := (pieces 4 m (b.drop 16)).map leNat
    let pick := fun (bit : Nat) => (ms.filter fun x => x.testBit bit).map fun x => slotTid (x % 2 ^ 16)
    let g : Group :=
      { key := word8 b 0, members := ms.map fun x => slotTid (x % 2 ^ 16), isOpen := bitOf w 16, awaited := pick 16, arrived := pick 17,
        waitNext := pick 18 }
    let (gs, r) := groupsFrom slotTid n (b.drop (16 + 4 * m))
    (g :: gs, r)

/-- What an image records of a suffix-match slot. -/
structure SmmRec where
  die : Nat
  slot : Nat
  gen : BitVec 16
  ctx : BitVec 24
  dump : List (BitVec 8)

def smmFrom : Nat → List (BitVec 8) → List SmmRec × List (BitVec 8)
  | 0, b => ([], b)
  | n + 1, b =>
    let w := word8 b 0
    let len := fieldNat (word8 b 1) 63 32
    let (xs, r) := smmFrom n (b.drop (16 + (len + 63) / 64 * 64))
    ({ die := fieldNat w 14 12, slot := fieldNat w 11 0, gen := w.extractLsb' 32 16, ctx := (word8 b 1).extractLsb' 0 24,
       dump := (b.drop 16).take len } :: xs, r)

/-- A slot opened and filled from its dump; the ring of tokens is global memory, which the host moves. -/
def State.restoreSmm (s : State) (p : Nat) (x : SmmRec) : State :=
  let b := x.dump
  let base := 64 + pad64 (4 * fieldNat (word8 b 5) 31 0)
  let es := (List.range (fieldNat (word8 b 5) 63 32)).map fun i => (dumpEntry b base x.slot i).1
  let slot : SmmSlot :=
    { isOpen := true, gen := x.gen, part := p, ctx := x.ctx, npos := fieldNat (word8 b 1) 39 0, mlen := fieldNat (word8 b 2) 45 40,
      mpos := fieldNat (word8 b 2) 39 0, evc := fieldNat (word8 b 3) 31 0, hlog := fieldNat (word8 b 4) 35 32,
      quota := fieldNat (word8 b 4) 23 0, hbase := Config.freeHbase s.fresh }
  let s1 := { s.modDie x.die fun y => y.setSlot x.slot slot with fresh := s.fresh + 1 }
  es.foldl (fun t e => t.modDie x.die fun y => y.insert x.slot e.lc e.hash e.pos) s1

/-- What an image records of a thread. -/
structure ThreadRec where
  tid : Nat
  queue : Nat
  state : Nat
  slot : Nat
  csa : List (BitVec 8)

def threadsFrom (img : List (BitVec 8)) (tid0 : Nat) (b : List (BitVec 8)) (n : Nat) : List ThreadRec :=
  (List.range n).map fun i =>
    let w := word8 b (2 * i)
    let c := img.drop (word8 b (2 * i + 1)).toNat
    { tid := tid0 + i, queue := fieldNat w 28 24, state := fieldNat w 19 16, slot := fieldNat w 15 0,
      csa := c.take (fieldNat (word8 c 1) 63 32) }

/-- Whether the trap that a fault record names was that of a parked command, which its context's A stream has gone past (R306, R313; log 23). -/
def FaultRec.ofParked (f : FaultRec) (pc : BitVec 16) (bodies : Nat) : Bool :=
  f.strm == .a && f.code == trapPoison && bodies != 0 && (f.pc != pc || f.elem != 0)

/-- A thread at rest in its slot, by its CSA: no interval is open, since undo logs do not travel; CKINT counts from its resume (R319), and its
fence counts come from the CSA then. -/
def ThreadRec.thread (x : ThreadRec) (p ckint : Nat) : Thread :=
  let h := (List.range 512).map (word8 x.csa)
  let rc := rectOf (fieldNat (h.getD 1 0) 31 28) 0 0 0
  let t := ({ tid := x.tid, life := { part := p, rect := rc, queue := x.queue, slot := x.slot } } : Thread).ofHeader h
  { t with
    a := { t.a with fence := {} },
    life := { t.life with
      ckLen := ckint,
      faultCmd := if t.life.fault.ofParked t.sa.pc (fieldNat (h.getD 282 0) 63 32 / 256) then some 0 else none,
      ctx := trCtx t.life.record, reason := fieldNat (h.getD 1 0) 27 24, csaHalf := !t.life.ckpt.half,
      ckpt := { t.life.ckpt with isOpen := false },
      phase := if x.state = 2 then .trapped else if x.state = 3 then .parked else .saved } }

/-- A recorded trigger. -/
def triggerOf (ths : List Thread) (w : Word) : Trigger :=
  let who := fieldNat w 31 16
  let cause := fieldNat w 7 4
  let ofThread := fun (h : Hook) => match ths.find? fun t => t.life.slot == who with
    | some t => ({ hook := h, cause := cause, tid := t.tid, handle := t.life.rect.lead, shape := t.life.rect.shape } : Trigger)
    | none => { hook := h, cause := cause }
  match fieldNat w 1 0 with
  | 0 => { hook := .dispatch, cause := cause }
  | 1 => if cause = 0 then { hook := .preempt, cause := 0, queue := who } else ofThread .preempt
  | _ => ofThread .fault

/-- What the bytes of a table take with their padding. -/
def tail16 (b r : List (BitVec 8)) : List (BitVec 8) := r.drop ((16 - (b.length - r.length) % 16) % 16)

/-- Copies every CSA into its slot; none when the partition stage faults. -/
def State.putCsas (s : State) (p : Nat) (xs : List (ThreadRec × Thread)) : Option State :=
  xs.foldl (init := some s) fun o x => o.bind fun t =>
    t.writePool p (t.slotBase p x.1.slot x.2.life.csaHalf) x.1.csa

/-- The logit-filter sessions of a partition are FREE (R290, R324, R333). -/
def State.freeFilters (s : State) (p : Nat) : State :=
  { s with dies := s.dies.map fun d => { d with filters := d.filters.map fun f => if f.isOpen && f.part == p then {} else f } }

/-- Restores a partition's block: the result code of the command, and the machine. -/
def State.restoreBlock (s : State) (p : Nat) (img : List (BitVec 8)) : Nat × State :=
  let off := (word8 img (8 + p)).toNat
  let k := img.drop off
  let at_ := fun (o : Nat) => wordOf ((k.drop o).take 8)
  if !imageWhole img || off = 0 || at_ 0 != wordFields [(0x50415254424B, 16), (1, 0)] || fieldNat (at_ 8) 3 0 != p then (2, s)
  else
    let n := fun (i : Nat) => (at_ (0x90 + 8 * i)).toNat
    let g0 := k.drop 8192
    let after := fun (m : Nat) => (groupsFrom (fun x => x) m g0).2
    let c0 := tail16 g0 (after (n 1))
    let ctxs := (List.range (n 0)).map fun i => (word8 c0 (2 * i), word8 c0 (2 * i + 1))
    let m0 := c0.drop (16 * n 0)
    let (smms, m1) := smmFrom (n 2) m0
    let t0 := tail16 m0 m1
    let h0 := t0.drop (16 * n 3)
    let recs := threadsFrom img s.nextId h0 (n 4)
    let ths := recs.map fun x => x.thread p (fieldNat (at_ 0x38) 63 32)
    let tidOf := fun (slot : Nat) => match ths.find? fun t => t.life.slot == slot with
      | some t => t.tid
      | none => 0
    let gs := (groupsFrom tidOf (n 1) g0).1
    if smms.any (fun x => ((s.die x.die).slot x.slot).isOpen) || s.hasThread p then (3, s)
    else
      let s1 := { s with nextId := s.nextId + recs.length }.modPart p fun q => q.restoreFixed k ctxs
      match (s1.freeFilters p).putCsas p (recs.zip ths) with
      | none => (2, s)
      | some s2 =>
        let s3 := smms.foldl (fun t x => t.restoreSmm p x) s2
        let s4 := s3.modPart p fun q =>
          { q with
            groups := sparseOf none 0 (gs.map some), slots := ths.map fun t => t.life.slot,
            queues := q.queues.zipIdx.map fun x =>
              { x.1 with resumes := (ths.filter fun t => t.life.queue == x.2 && t.life.phase == .saved).map fun t => { tid := t.tid } },
            pol := { q.pol with triggers := (List.range (n 3)).map fun i => triggerOf ths (word8 t0 (2 * i)) } }
        (0, { s4 with threads := s4.threads ++ ths })

end Sys2Proof.Machine
end

