-- ==== Sys2Proof/Machine/Command.lean ====
section
/-! DEFINITION. Host commands and the four resets (spec/16_device.md R328, R333, R342; spec/15_traps.md R320, R321, R324). -/

namespace Sys2Proof.Machine

/-! ### Command pages (R328) -/

/-- A page whose command begins; until it is done RESULT is 0, or 4 where it has aborted another. -/
def CmdPageSt.begin_ (c : CmdPageSt) (op : Nat) (result : BitVec 8) : CmdPageSt :=
  { c with busy := true, rej := false, op := BitVec.ofNat 8 op, result := result, next := 0, inv := none }

/-- A command of a partition's page: while one runs, REJ is set and nothing else happens. -/
def partCommand (s : State) (p op : Nat) (f : State → Nat × State) (result : BitVec 8 := 0) : Answer :=
  let c := (s.part p).cmd
  if c.busy then .next (s.modPart p fun q => { q with cmd := { q.cmd with rej := true } })
  else
    let (r, s2) := f (s.modPart p fun q => { q with cmd := q.cmd.begin_ op result })
    .next (s2.modPart p fun q => { q with cmd := { q.cmd with next := BitVec.ofNat 8 r } })

/-- A command of the device's page. -/
def devCommand (s : State) (op : Nat) (f : State → Nat × State) (result : BitVec 8 := 0) : Answer :=
  let put := fun (t : State) (g : CmdPageSt → CmdPageSt) => { t with dev := { t.dev with cmd := g t.dev.cmd } }
  if s.dev.cmd.busy then .next (put s fun c => { c with rej := true })
  else
    let (r, s2) := f (put s fun c => c.begin_ op result)
    .next (put s2 fun c => { c with next := BitVec.ofNat 8 r })

/-- The save slot that PARG0 names: bad argument at or above NSLOT, wrong state where no thread is in a state that the command takes. -/
def slotCommand (s : State) (p : Nat) (ok : Thread → Bool) (f : Thread → State) : Nat × State :=
  let k := (s.part p).cmd.arg0.toNat
  if (s.part p).set.nslot ≤ k then (2, s)
  else
    match s.threads.find? fun th => th.life.part == p && th.life.slot == k with
    | some th => if ok th then (0, f th) else (3, s)
    | none => (3, s)

/-! ### Quiesce and release (R321) -/

/-- Every running thread of a partition is asked to be saved with REASON 3, unless a save for good is under way. -/
def State.cutThreads (s : State) (p : Nat) : State :=
  { s with threads := s.threads.map fun th =>
    if th.life.part = p then
      match th.life.phase with
      | .running | .saving 2 _ => th.modLife fun l => { l with asked := some 3, mate := false }
      | _ => th
    else th }

/-- Dispatch and admission stop, and the threads are to be saved. -/
def State.quiescePart (s : State) (p : Nat) : State := (s.modPart p fun q => { q with quiesced := true }).cutThreads p

/-- Whether a partition is at its cut: no decision, no running thread, no packet under way, no late write. -/
def State.atCut (s : State) (p : Nat) : Bool :=
  (s.part p).quiesced && (s.part p).pol.running.isNone && !(s.threads.any fun th => th.life.part == p && th.isRunning) &&
    !(s.packets.any fun k => k.part == p && k.src == s.dev.pkg.toNat) && !(s.late.any fun w => w.part == p)

/-- QUIESCE. -/
def execQuiesce (p : Nat) (s : State) : Answer := partCommand s p 1 fun t => (0, t.quiescePart p)

/-- RELEASE. -/
def execRelease (p : Nat) (s : State) : Answer := partCommand s p 2 fun t => (0, t.modPart p fun q => { q with quiesced := false })

/-! ### Images -/

/-- The partitions that hold a cluster. -/
def State.liveParts (s : State) : List Nat := (List.range 16).filter fun p => s.clustersOf p != 0

/-- IMAGE: into the buffer of PARG0 and PARG1. -/
def execImage (p : Nat) (stamp : Word) (s : State) : Answer :=
  partCommand s p 3 fun t =>
    let c := (t.part p).cmd
    if !t.atCut p then (3, t)
    else
      match t.devImage [p] false false stamp with
      | none => (2, t)
      | some b =>
        if c.arg1.toNat < b.length then (5, t)
        else
          match t.writePool p (c.arg0.toNat % 2 ^ 56) b with
          | some u => (0, { u with fresh := u.fresh + 1 })
          | none => (2, t)

/-- RESTORE: from the image at PARG0, of PARG1 bytes. -/
def execRestore (p : Nat) (s : State) : Answer :=
  partCommand s p 9 fun t =>
    let c := (t.part p).cmd
    if !t.atCut p then (3, t)
    else
      match t.readPool p (c.arg0.toNat % 2 ^ 56) c.arg1.toNat with
      | none => (2, t)
      | some (b, _) => t.restoreBlock p b

/-! ### Commands on one thread -/

/-- ROLLBACK: of a thread at rest whose checkpoint interval is open (R320). -/
def execRollback (p : Nat) (s : State) : Answer :=
  partCommand s p 5 fun t =>
    slotCommand t p (fun th => th.atSlot && th.life.ckpt.isOpen) fun th => t.rollHome th

/-- DECIDE: a FAULT trigger of CAUSE 1 for a PARKED thread. -/
def execDecide (p : Nat) (s : State) : Answer :=
  partCommand s p 6 fun t => slotCommand t p (fun th => th.life.phase == .parked) fun th => t.triggerFor th .fault 1

/-- KILL of a SAVED, TRAPPED or PARKED thread. -/
def execKill (p : Nat) (s : State) : Answer :=
  partCommand s p 7 fun t => slotCommand t p Thread.atSlot fun th => t.killThread th.tid

/-- TLBINV: with the arguments as they stand now; cached translations stay in use until it completes (R327). -/
def execTlbinv (p : Nat) (s : State) : Answer :=
  partCommand s p 8 fun t => (0, t.modPart p fun q => { q with cmd := { q.cmd with inv := some (q.cmd.arg0, q.cmd.arg1) } })

/-- The cached translations of one context, or of all, over a range (R328). -/
def tlbInvalid (p : Nat) (a0 a1 : Word) (e : TlbEntry) : Bool :=
  let base := fieldNat a1 55 0
  let stop := base + 2 ^ fieldNat a1 63 56
  e.part == p && (bitOf a0 24 || e.ctx == some (a0.extractLsb' 0 24)) && decide (65536 * e.page < stop) && decide (base < 65536 * (e.page + 1))

/-- What a completed TLBINV drops, from every TLB. -/
def State.finishInv (s : State) (p : Nat) : State :=
  match (s.part p).cmd.inv with
  | some (a0, a1) => s.tlbDrop (tlbInvalid p a0 a1)
  | none => s

/-! ### Resets (R333) -/

/-- A core's own reset: its scratchpad, tile register file, L1, boot mailbox and windows are zero. -/
def Core.reset (c : Core) : Core :=
  { c with sp := {}, spBad := [], trf := {}, l1 := [], boot := {}, wins := List.replicate 8 0 }

/-- A partition's state after its reset: settings, handlers and images stay. -/
def Part.reset (q : Part) : Part :=
  { q with
    queues := q.queues.map fun x => { x with head := x.tail, age := 0, resumes := [] },
    pol := { q.pol.between with pwords := List.replicate 8 0, triggers := [], running := none, usage := {} },
    fuses := [], reserve := none, ferry := List.replicate 64 {}, groups := [], ints := { q.ints with cause := 0 }, quiesced := false,
    slots := [] }

/-- Every thread of a partition is killed, with the lines of its stores and its walks. -/
def State.killAll (s : State) (p : Nat) : State :=
  let s1 := (s.threads.filter fun th => th.life.part == p).foldl (fun t th => t.killThread th.tid) s
  { s1.freeFilters p with
    dies := (s1.freeFilters p).dies.map fun d => { d with lines := d.lines.filter fun l => l.part != p, walks := d.walks.filter fun w => w.part != p } }

/-- The open suffix-match slots of a partition are closed (R279). -/
def State.closeSmm (s : State) (p : Nat) : State := (s.smmOf p).foldl (fun t x => t.closeSlot x.1 x.2.1) s

/-- A running command is aborted (R328). -/
def CmdPageSt.abort (c : CmdPageSt) : CmdPageSt := if c.busy then { c with busy := false, result := 4, next := 0, inv := none } else c

/-- The reset of a partition: its panes have had no lessee since, and its windows are zero; a quiesce that is under way, the device's own too,
is aborted (log 60). -/
def State.resetPart (s : State) (p : Nat) : State :=
  let s0 := if s.dev.cmd.op == 1 then { s with dev := { s.dev with cmd := s.dev.cmd.abort } } else s
  let s1 := ((s0.killAll p).closeSmm p).modCores (s.coresOf p) fun c =>
    { c with
      wins := List.replicate 8 0, lastCtx := none, lease := .unleased, disabled := c.disabled || c.retiring, retiring := false }
  s1.modPart p Part.reset

/-- RESULT while a reset runs: 4 where it has aborted a command of its page (R328). -/
def CmdPageSt.abortCode (c : CmdPageSt) : BitVec 8 := if c.busy then 4 else 0

/-- PARTITION_RESET: aborts the running command, then runs. -/
def execPartitionReset (p : Nat) (s : State) : Answer :=
  partCommand (s.modPart p fun q => { q with cmd := q.cmd.abort }) p 4 (fun t => (0, t.resetPart p)) (s.part p).cmd.abortCode

/-- CORE_RESET: of an unleased core. -/
def execCoreReset (s : State) : Answer :=
  devCommand s 4 fun t =>
    let k := t.dev.cmd.arg0.toNat
    if 128 ≤ k then (2, t)
    else if (t.core k).lease != .unleased then (3, t)
    else (0, t.modCore k Core.reset)

/-- A reset of the device's page that covers a partition aborts the partition's running command, and a running one of its own page. -/
def State.abortFor (s : State) (ps : List Nat) : State :=
  ps.foldl (fun t p => t.modPart p fun q => { q with cmd := q.cmd.abort }) { s with dev := { s.dev with cmd := s.dev.cmd.abort } }

/-- The disabled panes and mapped rows of a core as the flash has them. -/
def Flash.toCore (f : Flash) (k : Nat) (c : Core) : Core :=
  { c with
    disabled := f.disabled.contains k, retiring := false,
    mapped := (f.mapped.find? fun x => x.1 == k).map (·.2) }

/-- A sensor's marks as the flash has them. -/
def marksKept (l : List (Nat × Nat)) (k n : Nat) : List Bool := (List.range n).map fun i => l.contains (k, i)

/-- A cluster's sensors as the flash has them: with all three failed THCAD is 16 (R337). -/
def Flash.toCluster (f : Flash) (c : Nat) (x : Cluster) : Cluster :=
  let m := marksKept f.temps c 3
  { x with failed := m, outs := marksKept f.tempsOut c 3, thcad := if m.all id then 16 else x.thcad }

def Flash.toRail (f : Flash) (r : Nat) (x : Rail) : Rail := { x with failed := marksKept f.currents r 6, outs := marksKept f.currentsOut r 6 }

def Flash.toPort (f : Flash) (k : Nat) (x : Port) : Port := { x with dead := f.ports.contains k }

/-- A die's HBM as the flash has it. -/
def Flash.toDie (f : Flash) (d : Nat) (x : Die) : Die :=
  { x with rows := (f.rows.filter (·.1 == d)).map (·.2), retired := (f.retired.filter (·.1 == d)).map (·.2) }

/-- The link of a fabric port, among all links by number: the Carousel's sixteen input ports come first. -/
def fabLink (e : Nat) : Nat := 16 + e

/-- The stop at which a link of that number stands. -/
def stopOf (l : Nat) : Nat := if l < 16 then l / 2 else portStop (l - 16)

/-- The defect map of a die is read again: links at its stop, sensors of its clusters and of the rails that serve them, its HBM (R333). -/
def State.reread (s : State) (d : Nat) : State :=
  let f := s.flash
  let mine := fun (r : Nat) => (List.range 4).any fun k => (s.cluster (4 * d + k)).rail == r
  ({ s.modDie d (f.toDie d) with
    ports := s.ports.zipIdx.map fun x => if x.2 / 2 = d then f.toPort x.2 x.1 else x.1,
    fabDead := s.fabDead.zipIdx.map fun x => if portStop x.2 = d then f.fab.contains x.2 else x.1,
    lanes := (s.lanes.filter fun l => stopOf l != d) ++ f.lanes.filter fun l => stopOf l == d,
    clusters := s.clusters.zipIdx.map fun x => if x.2 / 4 = d then f.toCluster x.2 x.1 else x.1,
    rails := s.rails.zipIdx.map fun x => if mine x.2 then f.toRail x.2 x.1 else x.1 } : State).setCads

/-- The reset of a die: its partitions, its cores, its LCYC, suffix-match memory and TLB; the defect map is read again, and the log kept. -/
def State.resetDie (s : State) (d : Nat) : State :=
  let s1 := (s.partsOn d).foldl (fun t p => t.resetPart p) s
  let s2 := (List.range 16).foldl (init := s1) fun t k =>
    t.modCore (16 * d + k) fun c => s1.flash.toCore (16 * d + k) { c.reset with lcyc := 0, tlb := [] }
  (s2.modDie d fun x => { x with smm := [], index := [], tlb := [], walks := [] }).reread d

/-- DIE_RESET. -/
def execDieReset (s : State) : Answer :=
  let d := s.dev.cmd.arg0.toNat
  let s0 := if d < 8 then s.abortFor (s.partsOn d) else s
  let begun := fun (t : State) => { t with dev := { t.dev with cmd := { t.dev.cmd with inv := some (t.dev.cmd.arg0, t.dev.cmd.arg1) } } }
  devCommand s0 5 (fun t => if d < 8 then (0, begun (t.resetDie d)) else (2, t)) (if d < 8 then s.dev.cmd.abortCode else 0)

/-- The device after its reset, with the memory given: everything is as after a device reset, but for what the flash holds (R8, R333, R342). -/
def State.comeUp (s : State) (mem : Mem) : State :=
  let r := State.reset
  let f := s.flash
  let t : State :=
  { r with
    now := s.now, fresh := s.fresh, nextId := s.nextId, mem := mem, homes := s.homes, hostBad := s.hostBad, flash := f, shadow := s.shadow,
    peers := s.peers, lanes := f.lanes,
    dev := { r.dev with pkg := s.dev.pkg, unknown := s.dev.unknown },
    dies := r.dies.zipIdx.map fun x => f.toDie x.2 x.1,
    cores := r.cores.zipIdx.map fun x => f.toCore x.2 x.1,
    ports := r.ports.zipIdx.map fun x => f.toPort x.2 x.1,
    fabDead := (List.range 36).map fun k => f.fab.contains k,
    clusters := r.clusters.zipIdx.map fun x => f.toCluster x.2 x.1,
    rails := r.rails.zipIdx.map fun x => f.toRail x.2 x.1 }
  t.setCads

/-- DEVICE_RESET: global memory keeps its bytes (log 24). -/
def execDeviceReset (s : State) : Answer :=
  devCommand ((s.abortFor (List.range 16)).comeUp s.mem) 6 (fun t => (0, t)) s.dev.cmd.abortCode

/-- POWER_UP: what the package's own memory held is gone; flash and what is homed elsewhere are not (log 24). Nothing while there is power. -/
def execPowerUp (s : State) : Answer :=
  if s.dev.power then .next s
  else
    let kept := fun (l : Nat) => match s.homeOf l with
      | .die _ => false
      | _ => true
    .next (s.comeUp { cells := s.mem.cells.filter fun e => kept (e.1 / 64), marks := s.mem.marks.filter fun e => kept e.1 })

/-! ### Device commands -/

/-- DEVICE_QUIESCE. -/
def execDeviceQuiesce (s : State) : Answer :=
  devCommand s 1 fun t => (0, (List.range 16).foldl (fun u p => u.quiescePart p) t)

/-- DEVICE_RELEASE. -/
def execDeviceRelease (s : State) : Answer :=
  devCommand s 2 fun t => (0, { t with parts := t.parts.map fun q => { q with quiesced := false } })

/-- DEVICE_IMAGE: the buffer is a physical address (log 25). -/
def execDeviceImage (stamp : Word) (s : State) : Answer :=
  devCommand s 3 fun t =>
    if !(List.range 16).all t.atCut then (3, t)
    else
      match t.devImage t.liveParts true false stamp with
      | none => (2, t)
      | some b =>
        if t.dev.cmd.arg1.toNat < b.length then (5, t)
        else (0, { t.writeRaw (t.dev.cmd.arg0.toNat % 2 ^ 56) b with fresh := t.fresh + 1 })

/-- RETIRE: the core's pane is disabled once it is unleased (R342). -/
def execRetire (s : State) : Answer :=
  devCommand s 7 fun t =>
    let k := t.dev.cmd.arg0.toNat
    if 128 ≤ k then (2, t)
    else
      let t1 := t.modCore k fun c => if c.lease == .unleased then { c with disabled := true } else { c with retiring := true }
      let t2 := t1.replace (k / 16)
      (0, { t2 with dev := { t2.dev with flashBusy := true } })

/-! ### Completion -/

/-- A finished command's status. -/
def CmdPageSt.done (c : CmdPageSt) : CmdPageSt := { c with busy := false, result := c.next, next := 0, inv := none }

/-- COMMAND_COMPLETE: a quiesce only at its cut; a TLBINV drops its translations now; a partition's command raises CMD. -/
def execCommandComplete (page : CmdPage) (s : State) : Answer :=
  match page with
  | .part p =>
    let c := (s.part p).cmd
    if !c.busy then .next s
    else if c.op == 1 && !s.atCut p then .next (s.cutThreads p)
    else .next (((s.finishInv p).modPart p fun q => { q with cmd := q.cmd.done }).raise p causeCmd)
  | .dev =>
    let c := s.dev.cmd
    if !c.busy then .next s
    else if c.op == 1 && !(List.range 16).all s.atCut then .next ((List.range 16).foldl (fun t p => t.cutThreads p) s)
    else .next { s with dev := { s.dev with cmd := c.done } }

end Sys2Proof.Machine
end

