-- ==== Sys2Proof/Machine/Power.lean ====
section
/-! DEFINITION. Power, sensors, links and memory: regulator phases, the power controller, thermal cadence, sensor tests, the thermal warning
and the hard trip, permit audits, link and memory errors, other packages' accesses, the flash (spec/16_device.md R335 to R342;
spec/15_traps.md R325; spec/11_ordering.md R226, R229, R236, R238, R240). -/

namespace Sys2Proof.Machine

/-! ### Raising causes -/

/-- The partitions that a rail serves. -/
def State.partsOfRail (s : State) (r : Nat) : List Nat :=
  (List.range 16).filter fun p => s.clusters.any fun c => c.asn && c.rail == r && c.part == p

/-- Raises a cause in DEVSTAT and in partitions. -/
def State.raiseIn (s : State) (ps : List Nat) (c : Nat) : State := ps.foldl (fun t p => t.raise p c) (s.raiseDev c)

/-- The dies that have a cluster on a rail. -/
def State.diesOfRail (s : State) (r : Nat) : List Nat :=
  (List.range 8).filter fun d => (List.range 4).any fun k => (s.cluster (4 * d + k)).rail == r

/-- Raises REPLACE for an event of a rail: in DEVSTAT, and in every partition with a cluster on a die that the rail serves (R342). -/
def State.replaceRail (s : State) (r : Nat) : State :=
  s.raiseIn ((List.range 16).filter fun p => (s.diesOfRail r).any fun d => (s.partsOn d).contains p) causeReplace

/-- The defect map is to be rewritten in the background (R342). -/
def State.rewriteFlash (s : State) : State := { s with dev := { s.dev with flashBusy := true } }

/-- A record of an event of a die that concerns no core of a known partition: PART, which the manual does not lay down for it, is a free
value (log 12); LCYC is that of the die's core 0; WHERE holds an HBM address as it is (R341). -/
def State.recordOn (s : State) (d kind cls : Nat) (repl : Bool) (wher : Option Word := none) : State × Tag :=
  s.record d kind cls repl ((Config.freeWhere (s.fresh + 1)).toNat % 16) (s.core (16 * d)).lcyc.toNat wher

/-! ### Rails (R335, R336) -/

/-- PHASE_FAILURE: phases that fail are gone until a device reset. -/
def execPhaseFailure (rail phases : Nat) (s : State) : Answer :=
  if phases = 0 || decide (4 ≤ rail) then .next s
  else
    let s1 := s.modRail rail fun r => ({ r with phok := r.phok - phases, derate := true } : Rail).limit
    .next ((s1.raiseIn (s1.partsOfRail rail) causeDerate).replaceRail rail)

/-- A rail after a check: RCAD follows IMEAS, and after 1 µs of too much current at RCAD 16 its clusters stop injecting. -/
def Rail.check (r : Rail) (imeas : Nat) (low10us : Bool) : Rail :=
  let high := decide (r.ilim < imeas)
  let n := if high && r.rcad == 16 then r.overs + 1 else 0
  let rcad := if high then min (r.rcad + 1) 16
    else if low10us && decide (8 * imeas < 7 * r.ilim) then max (r.rcad - 1) 1
    else r.rcad
  { r with imeas := imeas, rcad := rcad, overs := n, stopped := high && (r.stopped || decide (10 ≤ n)) }

/-- A plausible current of a group, in amperes (R337). -/
def currentOk (x : Int) : Bool := decide (0 ≤ x) && decide (x ≤ 250)

def maxInt : List Int → Option Int
  | [] => none
  | x :: r => some (r.foldl max x)

/-- What stands in for group k of a rail, whose sensor has failed: the highest plausible reading among the other groups and 10% (R337). -/
def Rail.standIn (r : Rail) (k : Nat) : Nat :=
  match maxInt ((r.groups.zipIdx.filter fun y => y.2 != k && !r.failed.getD y.2 false && currentOk y.1).map (·.1)) with
  | some m => (m * 11 / 10).toNat
  | none => 0

/-- The current that stand-ins add for the groups whose sensors failed out of range. -/
def Rail.standIns (r : Rail) : Nat :=
  (((List.range 6).filter fun k => r.failed.getD k false && r.outs.getD k false).map r.standIn).sum

/-- POWER_CONTROLLER_CHECK: every 100 ns; imeas is what the current sensors in use measure, to which the stand-ins are added (R337; log 61);
low10us says that IMEAS has been below 7/8 of ILIM for 10 µs. -/
def execPowerControllerCheck (rail imeas : Nat) (low10us : Bool) (s : State) : Answer :=
  .next (s.modRail rail fun r => r.check (imeas + r.standIns) low10us).setCads

/-! ### Sensors (R336 to R338) -/

/-- A plausible temperature, in degrees Celsius. -/
def tempOk (x : Int) : Bool := decide (-40 ≤ x) && decide (x ≤ 150)

/-- The readings of a cluster's sensors that are not marked failed and plausible, leaving one out. -/
def Cluster.good (c : Cluster) (but : Option Nat) : List Int :=
  (c.temps.zipIdx.filter fun x => some x.2 != but && !c.failed.getD x.2 false && tempOk x.1).map (·.1)

/-- The clusters of the same die that share an edge. -/
def adjacent (c : Nat) : List Nat := [4 * (c / 4) + (c % 4).xor 1, 4 * (c / 4) + (c % 4).xor 2]

/-- The plausible readings of a temperature sensor's neighbours. -/
def State.nearTemps (s : State) (c k : Nat) : List Int :=
  (s.cluster c).good (some k) ++ (adjacent c).flatMap fun d => (s.cluster d).good none

/-- Whether a reading differs by more than 15 °C from the mean of others. -/
def disagrees (x : Int) (l : List Int) : Bool :=
  let n : Int := l.length
  !l.isEmpty && decide (15 * n < (n * x - l.sum).natAbs)

/-- What sensor k of a cluster counts for: its reading; where that disagrees with the neighbours' mean, the hotter of the two, the mean rounded down
to a degree (R337; log 61); of one whose reading was out of range, its hottest neighbour and 5 °C; a stuck one counts for nothing. -/
def State.tempOf (s : State) (c k : Nat) : Option Int :=
  let x := s.cluster c
  let t := x.temps.getD k 0
  let near := s.nearTemps c k
  if x.failed.getD k false then if x.outs.getD k false then (maxInt near).map (· + 5) else none
  else if !tempOk t then none
  else some (if disagrees t near then max t (near.sum / near.length) else t)

/-- The hottest value that counts for a cluster. -/
def State.hottest (s : State) (c : Nat) : Option Int := maxInt ((List.range 3).filterMap (s.tempOf c))

/-- A cluster whose three sensors have all failed runs at THCAD 16. -/
def Cluster.allFailed (c : Cluster) : Bool := c.failed.all id

def nextThcad (n : Nat) : Option Int → Nat
  | none => n
  | some t => if 105 ≤ t then min (n + 1) 16 else if t < 100 then max (n - 1) 1 else n

/-- THERMAL_CADENCE_UPDATE: the cluster's timer has run, with new readings of the sensors that have not failed. -/
def execThermalCadenceUpdate (cluster : Nat) (temps : List Int) (s : State) : Answer :=
  let s1 := s.modCluster cluster fun c =>
    { c with temps := c.temps.zipIdx.map fun x => if c.failed.getD x.2 false then x.1 else temps.getD x.2 x.1 }
  let hot := s1.hottest cluster
  .next (s1.modCluster cluster fun c => { c with thcad := if c.allFailed then 16 else nextThcad c.thcad hot }).setCads

/-- A temperature sensor is marked failed, stuck or out of range. -/
def State.failTemp (s : State) (c k : Nat) (out : Bool) : State :=
  let s1 := s.modCluster c fun x => { x with failed := setAt x.failed k true, outs := setAt x.outs k out }
  let s2 := s1.modCluster c fun x => { x with thcad := if x.allFailed then 16 else x.thcad }
  ((s2.setCads).replace (c / 4)).rewriteFlash

/-- A temperature sensor's test step: a reading that disagrees with the neighbours' mean writes a record. -/
def State.testTemp (s : State) (c k : Nat) (reading : Int) (stuck : Bool) : State :=
  let x := s.cluster c
  if x.failed.getD k true then s
  else if stuck then s.failTemp c k false
  else if !tempOk reading then s.failTemp c k true
  else
    let s1 := s.modCluster c fun y => { y with temps := setAt y.temps k reading }
    if disagrees reading (s.nearTemps c k) then (s1.recordOn (c / 4) 4 0 false).1 else s1

/-- A current sensor's test step: one that is stuck or out of range has failed, and of the latter its group has a stand-in from now on. -/
def State.testCurrent (s : State) (r k : Nat) (reading : Int) (stuck : Bool) : State :=
  let x := s.rail r
  let fail := fun (out : Bool) =>
    ((s.modRail r fun y => { y with failed := setAt y.failed k true, outs := setAt y.outs k out }).replaceRail r).rewriteFlash
  if x.failed.getD k true then s
  else if stuck then fail false
  else if !currentOk reading then fail true
  else s.modRail r fun y => { y with groups := setAt y.groups k reading }

/-- SENSOR_TEST_STEP: every 10 ms, for each sensor: the reading, and whether it did not change through the step (R337). -/
def execSensorTestStep (x : Sensor) (reading : Int) (stuck : Bool) (s : State) : Answer :=
  match x with
  | .temp c k => .next (s.testTemp c k reading stuck)
  | .current r k => .next (s.testCurrent r k reading stuck)

/-- THERMAL_WARNING: a plausible temperature sensor reads 115 °C or more: THWARN is raised, and the emergency save begins (R325, R338). -/
def execThermalWarning (x : Sensor) (reading : Int) (s : State) : Answer :=
  match x with
  | .current .. => .next s
  | .temp c k =>
    if (s.cluster c).failed.getD k true || !tempOk reading || decide (reading < 115) then .next s
    else
      let s1 := s.raiseIn (List.range 16) causeThwarn
      .next ((List.range 16).foldl (fun t p => t.quiescePart p) { s1 with dev := { s1.dev with emerg := true } })

/-- HARD_TRIP: power is cut, whether or not an image is complete. -/
def execHardTrip (s : State) : Answer := .next { s with dev := { s.dev with power := false }, turns := [] }

/-- The emergency image as it stands at the cut: one that would exceed the registered length stops where it would overflow, without w31
(R325). -/
def State.emergencyBytes (s : State) : Option (List (BitVec 8)) :=
  (s.devImage s.liveParts true true (Config.freeStamp s.fresh)).map fun b =>
    let n := s.dev.emlen.toNat
    if n < b.length then (blank b 248 8).take n else b

/-- The emergency image, written once every partition is at its cut; until then whatever still runs is cut (R325, log 22). -/
def State.emergencyImage (s : State) : State :=
  if !s.dev.emerg then s
  else if !(List.range 16).all s.atCut then (List.range 16).foldl (fun t p => t.quiescePart p) s
  else
    let s1 := { s with dev := { s.dev with emerg := false }, fresh := s.fresh + 1 }
    match s.emergencyBytes with
    | none => s1
    | some b => s1.writeRaw (s1.dev.embase.toNat % 2 ^ 56) b

/-- The first bytes of the emergency image are written, in the order of the partitions and without w31, which comes last (R325). -/
def State.imageSome (s : State) (n : Nat) : State :=
  if !s.dev.emerg || !(List.range 16).all s.atCut then s
  else
    match s.emergencyBytes with
    | none => s
    | some b => s.writeRaw (s.dev.embase.toNat % 2 ^ 56) ((blank b 248 8).take n)

/-! ### Links (R339, R340) -/

/-- The die at whose stop a link stands. -/
def linkDie : LinkId → Nat
  | .carousel k => k / 2 % 8
  | .ralesk e => portStop e

/-- A link's number. -/
def linkNum : LinkId → Nat
  | .carousel k => k
  | .ralesk e => fabLink e

/-- A link is dead. -/
def State.killLink (s : State) (l : LinkId) : State :=
  (match l with
    | .carousel k => s.modPort k fun p => { p with dead := true }
    | .ralesk e => { s with fabDead := setAt s.fabDead e true }).rewriteFlash

/-- A link of which a lane fails with no spare lane left is dead, and REPLACE is raised (R339). -/
def State.loseLink (s : State) (l : LinkId) : State := (s.killLink l).replace (linkDie l)

/-- The spare lanes of a link that are in use. -/
def State.lanesUsed (s : State) (l : LinkId) : Nat := (s.lanes.filter (· == linkNum l)).length

/-- Places of a port that packets hold. -/
def State.heldIn (s : State) (k : Nat) : Slots :=
  (s.packets.filter fun p => match p.wher with
    | .port stop cw => portIx stop cw == k
    | _ => false).foldl (fun a p => a.add p.held) {}

def fullPort : Slots := { sh := 16, ma := 4, mb := 4, fb := 4 }

/-- PERMIT_AUDIT: upstream permits, those on their way included, against the free places downstream. A discrepancy restores the counts to
their reset values and audits again; a second one makes the link dead, for which no rule names REPLACE (R340, R342). -/
def execPermitAudit (port : Nat) (s : State) : Answer :=
  let p := s.port port
  if p.dead || decide (16 ≤ port) then .next s
  else
    let held := s.heldIn port
    let owed := p.owed.foldl (fun a o => a.add (Slots.one o.cls)) {}
    if (p.have_.add owed).add held = fullPort then .next s
    else
      let s1 := (s.recordOn (port / 2) 5 5 false).1.modPort port fun x => { x with have_ := fullPort, owed := [], back := {} }
      if held = {} then .next s1 else .next (s1.killLink (.carousel port))

/-- LINK_CRC_ERROR (R339): after a bad resend the link is retrained; a failing lane takes one of its two spare ones, and with none left, or with
more lanes failing than are left (`dead`), the link is dead. -/
def execLinkCrcError (l : LinkId) (r : LinkRetry) (s : State) : Answer :=
  match r with
  | .good => .next (s.recordOn (linkDie l) 1 5 false).1
  | .retrained => .next s.countLasting
  | .spareLane =>
    .next (if s.lanesUsed l < 2 then { s.countLasting.rewriteFlash with lanes := s.lanes ++ [linkNum l] } else s.countLasting.loseLink l)
  | .dead => .next (s.countLasting.loseLink l)

/-! ### Memory, proxies, other packages -/

/-- HBM_UNCORRECTABLE_READ: a good retry is transient; else the line is poisoned, and its row replaced while its base die has a spare one, of
which there are as many as the free value of the die says (R339; log 69). `row` is the number of the row that holds the line: no rule lays rows
out. -/
def execHbmUncorrectableRead (pa : Nat) (retryGood : Bool) (row : Nat) (s : State) : Answer :=
  let w := some (BitVec.ofNat 64 pa)
  match s.homeOf (pa / 64) with
  | .die d =>
    if retryGood then .next (s.recordOn d 1 0 false w).1
    else
      let left := decide ((s.die d).rows.length < Config.spareRows d)
      let (s1, tag) := s.recordOn d 3 0 (!left) w
      let s2 := { s1 with mem := s1.mem.linePoison (pa / 64) tag s1.fresh, fresh := s1.fresh + 1 }.countLasting
      let s3 := (s2.modDie d fun x =>
        if left then { x with rows := x.rows ++ [row] } else { x with retired := (x.retired.filter (· != pa / 64)) ++ [pa / 64] }).rewriteFlash
      .next (if left then s3 else s3.replace d)
  | _ => .next s

/-- PROXY_INVALIDATION (R229). -/
def execProxyInvalidation (line : Nat) (s : State) : Answer := .next (s.dropProxy line)

/-- A line's bytes to write, from an offset in it. -/
def lineBytes (off : Nat) (bs : List (BitVec 8)) : List (Option (BitVec 8)) :=
  (List.range 64).map fun i => if i < off then none else bs[i - off]?

/-- Another package writes part of a line at its home: its own copy goes at once, this package's only when it is invalidated (R229). A line of
this package's host memory is not another package's to write. -/
def State.peerWrite (s : State) (pkg pa : Nat) (bytes : List (BitVec 8)) (k : Mark) : State :=
  let l := pa / 64
  let t := { s with peers := s.peers.filter fun x => !(x.pkg == pkg && x.line == l) }
  match s.homeOf l with
  | .die _ => t.writeLine l (lineBytes (pa % 64) bytes) k
  | .package _ => { t with mem := t.mem.lineWrite l (lineBytes (pa % 64) bytes) k t.fresh, fresh := t.fresh + 1 }
  | .host => t

/-- Another package reads a line: at its home through a record of SCOPE sys or when the line is its own, else by its copy, which it fills. -/
def State.peerGet (s : State) (pkg : Nat) (sys : Bool) (l : Nat) : State :=
  let g := s.mem.line l
  let x : PeerProxy := { pkg := pkg, line := l, bytes := g.1, mark := g.2 }
  if sys || s.homeOf l == .package pkg then { s with peerRead := some x }
  else
    match s.peers.find? fun y => y.pkg == pkg && y.line == l with
    | some y => { s with peerRead := some y }
    | none => { s with peers := x :: s.peers, peerRead := some x }

/-- Another package's copy of a line is invalidated. -/
def State.peerForget (s : State) (pkg l : Nat) : State := { s with peers := s.peers.filter fun x => !(x.pkg == pkg && x.line == l) }

/-- PEER_PACKAGE_ACCESS: one indivisible read, write or atomic of another package, at a line homed in this package or elsewhere (R226, R229). -/
def execPeerPackageAccess (acc : PeerAccess) (s : State) : Answer :=
  match acc with
  | .read pkg sys pa => .next (s.peerGet pkg sys (pa / 64))
  | .write pkg pa bytes k => .next (s.peerWrite pkg pa bytes k)
  | .gamo op w sgn pkg pa v c =>
    if pa % w.size != 0 then .next s
    else
      let g := s.mem.line (pa / 64)
      let (_, bs, k) := gamoLine op w sgn ((g.1.drop (pa % 64)).take w.size, g.2) (Val.ofWord v) (Val.ofWord c)
      .next (s.peerWrite pkg pa bs k)

/-! ### The flash (R342) -/

/-- The places of the marks in a list of lists. -/
def marked (l : List (List Bool)) : List (Nat × Nat) :=
  l.zipIdx.flatMap fun x => (x.1.zipIdx.filter (·.1)).map fun y => (x.2, y.2)

/-- The defect map as it stands. -/
def State.defectMap (s : State) : Flash :=
  { disabled := (s.cores.zipIdx.filter fun x => x.1.disabled || x.1.retiring).map (·.2),
    mapped := s.cores.zipIdx.filterMap fun x => x.1.mapped.map fun m => (x.2, m),
    ports := (s.ports.zipIdx.filter (·.1.dead)).map (·.2), fab := (s.fabDead.zipIdx.filter (·.1)).map (·.2),
    temps := marked (s.clusters.map (·.failed)), currents := marked (s.rails.map (·.failed)),
    tempsOut := marked (s.clusters.map (·.outs)), currentsOut := marked (s.rails.map (·.outs)),
    rows := s.dies.zipIdx.flatMap fun x => x.1.rows.map fun r => (x.2, r),
    retired := s.dies.zipIdx.flatMap fun x => x.1.retired.map fun l => (x.2, l), lanes := s.lanes }

/-- FLASH_REWRITE_DONE. -/
def execFlashRewriteDone (s : State) : Answer :=
  if s.dev.flashBusy then .next { s with flash := s.defectMap, dev := { s.dev with flashBusy := false } } else .next s

end Sys2Proof.Machine
end

