-- ==== Sys2Proof/Machine/Errors.lean ====
section
/-! DEFINITION. Errors that strike the memories: what each class of spec/15_traps.md R304 records and poisons, the parity of the L1 (R87),
latent scratchpad errors (R100), and the counts of refused banks (R103). -/

namespace Sys2Proof.Machine

/-- Writes a class 6 record for a lane of a thread and answers its tag. -/
def State.laneRecord (s : State) (th : Thread) (lane : Nat) : State × Tag :=
  let core := th.coreOf (lane / 64)
  s.record (core / 16) 3 6 false th.life.part (s.core core).lcyc.toNat none

/-- A vector with a lane lost. -/
def Vec.strike (x : Vec) (l lane n : Nat) (tag : Tag) : Vec :=
  { x with lanes := setAt (x.get l) lane { bits := Config.freeLane n, mark := some tag } }

/-- A mask with a lane lost: a mask holds no poison, so the lane's bit is a free value (log 36). -/
def strikeMask (m : List Bool) (lane n : Nat) : List Bool := setAt m lane (bitOf (Config.freeLane n) 0)

/-- An error strikes (R87, R100, R304). Of a scratchpad word it shows when the word is read; of an L1 line it makes a hit a miss; a line of
host memory arrives poisoned from then on; anything else is recorded and poisoned at once (log 36). -/
def State.upset (s : State) : Upset → State
  | .l1 core line => s.modCore core fun c => { c with l1 := c.l1.map fun x => if x.line == line then { x with bad := true } else x }
  | .scratch core word => s.modCore core fun c => if c.spBad.contains word then c else { c with spBad := word :: c.spBad }
  | .l2 line =>
    match s.homeOf line with
    | .die d =>
      if (s.die d).l2.contains line then
        let (s1, tag) := s.record d 3 1 false (Config.freePart s.fresh).toNat (s.core (16 * d)).lcyc.toNat none
        { s1 with mem := s1.mem.linePoison line tag s.fresh }
      else s
    | _ => s
  | .farCache line =>
    if s.proxies.any (fun x => x.line == line) then
      let d := (Config.freeHome line).toNat
      let (s1, tag) := s.record d 3 1 false (Config.freePart s.fresh).toNat (s.core (16 * d)).lcyc.toNat none
      { s1 with proxies := s1.proxies.map fun x =>
          if x.line == line then { x with bytes := lostBytes s.fresh, mark := some tag } else x }
    else s
  | .tile core g =>
    let (s1, tag) := s.record (core / 16) 3 3 false ((s.partOf core).getD 0) (s.core core).lcyc.toNat none
    s1.modCore core fun c => { c with trf := c.trf.setGran g (lostBytes s.fresh) (some tag) }
  | .vreg tid n lane =>
    match s.thread? tid with
    | some th =>
      let (s1, tag) := s.laneRecord th lane
      s1.modThread tid fun t => { t with v := { t.v with file := modAt t.v.file n fun x => x.strike t.lanes lane s.fresh tag } }
    | none => s
  | .vbelt tid n lane =>
    match s.thread? tid with
    | some th =>
      let (s1, tag) := s.laneRecord th lane
      s1.modThread tid fun t => { t with v := { t.v with belt := modAt t.v.belt n fun x => x.strike t.lanes lane s.fresh tag } }
    | none => s
  | .vmask tid n lane =>
    match s.thread? tid with
    | some th =>
      let (s1, _) := s.laneRecord th lane
      s1.modThread tid fun t => { t with v := { t.v with masks := modAt t.v.masks n fun m => strikeMask m lane s.fresh } }
    | none => s
  | .host line => if (s.homeOf line).isHost && !s.hostBad.contains line then { s with hostBad := line :: s.hostBad } else s

/-- A count of refused cycles with one more, holding at 2^48 − 1 (R103). -/
def oneMore48 (n : Nat) : Nat := min (n + 1) (2 ^ 48 - 1)

/-- The place of a requester among the counters. -/
def Requester.index : Requester → Nat
  | .v => 0
  | .c => 1
  | .a => 2
  | .x => 3

/-- Whether a requester's refusal in a cycle has been counted already. -/
def Counters.counted (n : Counters) (r : Requester) (now : Nat) : Bool :=
  match n.refusedAt.getD r.index none with
  | some t => decide (now ≤ t)
  | none => false

/-- The counters after a refusal of a requester: each cycle counts once (R103). -/
def Counters.refuse (n : Counters) (r : Requester) (now : Nat) : Counters :=
  if n.counted r now then n
  else
    let c := { n with refusedAt := setAt n.refusedAt r.index (some now) }
    match r with
    | .v => { c with spV := oneMore48 c.spV }
    | .c => { c with spC := oneMore48 c.spC }
    | .a => { c with spA := oneMore48 c.spA }
    | .x => { c with spX := oneMore48 c.spX }

/-- The V stream's counter after a vldx that takes c cycles of its own conflicts (R103, R148): c − 1 cycles more, from the first that has not
been counted. -/
def Counters.vldxStall (n : Counters) (now c : Nat) : Counters :=
  if c ≤ 1 then n
  else
    let at_ := match n.refusedAt.getD 0 none with
      | some t => max now (t + 1)
      | none => now
    { n with spV := min (n.spV + (c - 1)) (2 ^ 48 - 1), refusedAt := setAt n.refusedAt 0 (some (at_ + c - 2)) }

end Sys2Proof.Machine
end

