-- ==== Sys2Proof/Machine/VMem.lean ====
section
/-! DEFINITION. Index registers, the mask stack, mask branches, mirroring, and vector memory access (spec/07_vector.md R134 to R138,
R147 to R150). -/

namespace Sys2Proof.Machine

/-- Changes the V state of a thread. -/
def State.modV (s : State) (tid : Nat) (f : VState → VState) : State := s.modThread tid fun th => { th with v := f th.v }

/-! ### Index registers (R135, R136) -/

/-- idx_advance (R135). -/
def IndexReg.advance (r : IndexReg) (d : Int) : IndexReg :=
  let v : Int := r.val.toNat + d
  let m : Nat := if r.lim = 0 then 2 ^ 32 else r.lim.toNat
  { r with val := BitVec.ofNat 32 (v % (m : Int)).toNat }

/-- Advances an index register by its step, where INC = 1 (R135). -/
def VState.bump (v : VState) (a : VAddr) : VState :=
  if a.inc then { v with idx := modAt v.idx a.ix.toNat fun r => r.advance r.step.toInt } else v

/-- iset (R136). -/
def execIset (n : BitVec 3) (arg : IsetArg) (s : State) : Answer :=
  let put := fun (i : Imm) (f : BitVec 32 → IndexReg → IndexReg) =>
    vecImm i s fun v => issue s fun k _ s1 => .done (s1.modV k.tid fun st => { st with idx := modAt st.idx n.toNat (f v) })
  match arg with
  | .val i => put i fun v r => { r with val := v }
  | .step i => put i fun v r => { r with step := v }
  | .lim i => put i fun v r => { r with lim := v }
  | .vec a i =>
    vecImm i s fun _ => issue s fun k th s1 =>
      if th.v.pending s.now a then .wait .result
      else
        let x := (th.v.read th.lanes a).getD 0 {}
        match x.mark with
        | some t => .trap (poison t)
        | none => .done (s1.modV k.tid fun st => { st with idx := modAt st.idx n.toNat fun r => { r with val := x.bits } })

/-- iadd (R136). -/
def execIadd (n : BitVec 3) (i : Imm) (s : State) : Answer :=
  vecImm i s fun v =>
    issue s fun k _ s1 => .done (s1.modV k.tid fun st => { st with idx := modAt st.idx n.toNat fun r => r.advance v.toInt })

/-! ### The mask stack (R137, R138) -/

/-- MASKOVF. -/
def maskovf : TrapInfo := { code := trapMaskovf }

/-- vmpush (R137): a sixteenth mask held traps MASKOVF, whatever the poison of its operand (DEDUCED, log 75). -/
def execVmpush (x : VSrc) (s : State) : Answer :=
  issue s fun k th s1 =>
    let top := th.v.top th.lanes
    vready s k th [x] top none fun n =>
      if 16 ≤ th.v.masks.length then .trap maskovf
      else
        let a := th.v.read th.lanes x
        match meetAll ((activeOf top a).map (·.mark)) with
        | some t => .trap (poison t)
        | none =>
          .done ((s1.modV k.tid fun v =>
            { v with masks := List.zipWith (fun m l => m && l.bits != 0) top a :: v.masks }).addVstall k.tid n)

/-- vminv (R137). -/
def execVminv (s : State) : Answer :=
  issue s fun k th s1 =>
    match th.v.masks with
    | [] => .trap maskovf
    | t :: r =>
      let u := match r with
        | [] => List.replicate th.lanes true
        | m :: _ => m
      .done (s1.modV k.tid fun v => { v with masks := List.zipWith (fun a b => a && !b) u t :: r })

/-- vmpop (R137). -/
def execVmpop (s : State) : Answer :=
  issue s fun k th s1 =>
    match th.v.masks with
    | [] => .trap maskovf
    | _ :: r => .done (s1.modV k.tid fun v => { v with masks := r })

/-- vmget (R137). -/
def execVmget (d : VDst) (s : State) : Answer :=
  vecOp (1, 0) [] false d s id fun th _ =>
    ((th.v.top th.lanes).map fun m => { bits := if m then 0xFFFFFFFF else 0 }, 0)

/-- A mask branch (R138); under rep it does not branch while it repeats (log 16). -/
def maskBranch (off : BitVec 24) (s : State) (taken : List Bool → Bool) : Answer :=
  issue s fun k th s1 =>
    if taken (th.v.top th.lanes) && th.sv.repCount == 0 then s.branchOff k th s1 off else .done s1

/-- vbnone (R138). -/
def execVbnone (off : BitVec 24) (s : State) : Answer := maskBranch off s fun m => !m.any id

/-- vbany (R138). -/
def execVbany (off : BitVec 24) (s : State) : Answer := maskBranch off s fun m => m.any id

/-- vmirror (R134). -/
def execVmirror (n : BitVec 5) (on : Bool) (s : State) : Answer :=
  issue s fun k _ s1 => .done (s1.modV k.tid fun v => { v with mirror := setAt v.mirror n.toNat on })

/-! ### Scratchpad access (R147, R148) -/

/-- The per-pane base offset (R147). -/
def VState.offset (v : VState) (a : VAddr) : Int := ((v.idx.getD a.ix.toNat {}).val.toNat : Int) + 4 * a.off.toInt

/-- Bounds of vld and vst (R148). -/
def vldOk (o : Int) : Bool := decide (0 ≤ o) && decide (o ≤ 0xBFFF00) && o % 4 == 0

/-- The lanes of one pane. -/
def paneLanes {α : Type} (ls : List α) (p : Nat) : List α := (ls.drop (64 * p)).take 64

/-- Adds an access to the V queue. -/
def VState.enqueue (v : VState) (x : VAccess) : VState := { v with queue := v.queue ++ [x] }

/-- vld (R148). -/
def execVld (a : VAddr) (d : VDst) (s : State) : Answer :=
  issue s fun k th s1 =>
    let act := th.v.active th.lanes a.masked
    vready s k th [] act d fun _ =>
      let o := th.v.offset a
      if vldOk o then
        let addrs := (List.range th.lanes).map fun i => if act.getD i false then some (o.toNat + 4 * (i % 64)) else none
        let (s2, id) := s1.newId
        .done (s2.modV k.tid fun v => ((v.pushWait th.lanes id d).enqueue (.load addrs id)).bump a)
      else .trap bounds

/-- vst (R148). -/
def execVst (x : VSrc) (a : VAddr) (s : State) : Answer :=
  issue s fun k th s1 =>
    let act := th.v.active th.lanes a.masked
    vready s k th [x] act none fun n =>
      let o := th.v.offset a
      if vldOk o then
        .done ((s1.modV k.tid fun v => (v.enqueue (.store o.toNat act (th.v.read th.lanes x))).bump a).addVstall k.tid n)
      else .trap bounds

/-- The cycles of a vldx: the most distinct 64-byte chunks that a bank of a pane must serve (R148). -/
def vldxCycles (panes : Nat) (addrs : List (Option Nat)) : Nat :=
  ((List.range panes).flatMap fun p =>
    let chunks := ((paneLanes addrs p).filterMap fun x => x.map (· / 64)).eraseDups
    (List.range 16).map fun b => (chunks.filter fun c => c % 16 == b).length).foldl max 0

/-- vldx (R148). Where an active index lane is poisoned and the access is also out of bounds, POISON is the trap: the index is consumed before an
address is formed from it. R148 gives no order (DESIGN CHOICE, log 88). -/
def execVldx (x : VSrc) (a : VAddr) (d : VDst) (s : State) : Answer :=
  issue s fun k th s1 =>
    let act := th.v.active th.lanes a.masked
    vready s k th [x] act d fun n =>
      let o := th.v.offset a
      let ls := th.v.read th.lanes x
      match meetAll ((activeOf act ls).map (·.mark)) with
      | some t => .trap (poison t)
      | none =>
        let ads := List.zipWith (fun m (l : Lane) => if m then some (o + 4 * l.bits.toInt) else none) act ls
        if o % 4 == 0 && ads.all (fun y => match y with | some v => decide (0 ≤ v) && decide (v ≤ 0xBFFFFC) | none => true) then
          let addrs := ads.map fun y => y.map Int.toNat
          let (s2, id) := s1.newId
          let s3 := s2.modV k.tid fun v => ((v.pushWait th.lanes id d).enqueue (.load addrs id)).bump a
          .done ((s3.modThread k.tid fun t =>
            { t with cnt := t.cnt.vldxStall s.now (vldxCycles th.panes addrs) }).addVstall k.tid n)
        else .trap bounds

/-- The lanes a load reads, with the machine after (R100, R147). -/
def State.vGather (s : State) (th : Thread) : Nat → List (Option Nat) → State × List Lane
  | _, [] => (s, [])
  | i, none :: r =>
    let x := s.vGather th (i + 1) r
    (x.1, {} :: x.2)
  | i, some o :: r =>
    let ea := i / 64 * 2 ^ 24 + o
    let s1 := s.spTouch th ea 4
    let v := s1.spLoad th ea 4
    let x := s1.vGather th (i + 1) r
    (x.1, { bits := BitVec.ofNat 32 (leNat v.1), mark := v.2 } :: x.2)

/-- The bytes that a pane's active lanes write into word u of its scratchpad, from base offset o, with their mark. -/
def vstWord (o : Nat) (act : List Bool) (ls : List Lane) (u : Nat) : List (Option (BitVec 8)) × Mark :=
  let at_ := fun (j : Nat) =>
    let b := 8 * u + j
    if b < o then none
    else
      let i := (b - o) / 4
      if act.getD i false then some (i, (b - o) % 4) else none
  let js := (List.range 8).map at_
  (js.map fun x => x.map fun p => BitVec.ofNat 8 ((ls.getD p.1 {}).bits.toNat / 2 ^ (8 * p.2)),
    meetAll (js.map fun x => match x with | some p => (ls.getD p.1 {}).mark | none => none))

/-- Writes one pane's lanes: words written in part are merged (R86, R101, R148). -/
def State.vScatter (s : State) (core o : Nat) (act : List Bool) (ls : List Lane) : State :=
  (wordsFrom o 256).foldl (init := s) fun t u =>
    let (bs, k) := vstWord o act ls u
    if bs.all Option.isNone then t
    else
      let t1 := if bs.all Option.isSome then t else t.spProbe core [u]
      t1.modCore core fun c => { c.spFresh [u] with sp := c.sp.spWord u bs k }

/-- The fills at the head of a queue, before its first store, and the rest of it. -/
def readyFulls : List VAccess → List Taken × List VAccess
  | [] => ([], [])
  | .store o a l :: r => ([], .store o a l :: r)
  | .load a i :: r => let x := readyFulls r; (x.1, .load a i :: x.2)
  | .full t :: r => let x := readyFulls r; (t :: x.1, x.2)

/-- A vstt that fills its tile retires: the tile is FULL, and its V-stream writer is over (R149). -/
def Thread.endFull (th : Thread) (now : Nat) (t : Taken) : Thread :=
  match th.tile? t.tile with
  | some x => if x.vwriter && x.st == .filling then (th.endWrite now t).modTile t.tile fun y => { y with vwriter := false } else th
  | none => th

/-- The held vstt that no store precedes any more retire: their tiles go FULL. Until then they are FILLING under the V stream's writer; one that
a writer's first such vstt has filled is filled once (R149, R150). -/
def Thread.retireFulls (th : Thread) (now : Nat) : Thread :=
  let x := readyFulls th.v.queue
  let left := x.2.filter fun y => match y with | .full t => !x.1.contains t | _ => true
  x.1.foldl (fun t tk => t.endFull now tk) { th with v := { th.v with queue := left } }

/-- Performs the oldest V-stream access; the vstt that waited for it retire with it (R150). -/
def State.performV (s : State) (tid : Nat) : State :=
  match s.thread? tid with
  | none => s
  | some th =>
    match th.v.queue with
    | [] => s
    | .full _ :: _ => s.modThread tid fun u => u.retireFulls s.now
    | .load addrs id :: r =>
      let x := s.vGather th 0 addrs
      x.1.modV tid fun v => { v with queue := r }.settle id (addrs.map Option.isSome) x.2
    | .store o act ls :: r =>
      (((List.range th.panes).foldl (fun t p => t.vScatter (th.coreOf p) o (paneLanes act p) (paneLanes ls p)) s).modV tid
        fun v => { v with queue := r }).modThread tid fun u => u.retireFulls s.now

/-! ### Tile access (R149) -/

/-- Whether an offset lies in a part of P bytes and is a multiple of 4. A negative one, of which R149 does not speak, lies in none (DESIGN CHOICE,
log 88). -/
def partOk (o : Int) (p : Nat) : Bool := decide (0 ≤ o) && decide (o < p) && o % 4 == 0

/-- The lanes that vldt reads from the parts of a tile: what lies beyond a part, and a pane that has none, read 0. -/
def State.vldtLanes (s : State) (th : Thread) (d : Word) (o : Nat) : List Lane :=
  let panes := partPanes th.life.rect d
  let bytes := 64 * partUnits th.life.rect d
  (List.range th.lanes).map fun i =>
    let a := o + 4 * (i % 64)
    if panes.contains (i / 64) && decide (a < bytes) then
      let g := s.gran th (i / 64) (descBase d + a / 64)
      { bits := BitVec.ofNat 32 (leNat ((g.1.drop (a % 64)).take 4)), mark := g.2 }
    else {}

/-- vldt (R149): a plain tile stays FULL; a ring's head is taken, and goes FREE at the end of the cycle in which the result is ready. -/
def execVldt (t : TileRef) (a : VAddr) (d : VDst) (s : State) : Answer :=
  issue s fun k th s1 =>
    let act := th.v.active th.lanes a.masked
    vready s k th [] act d fun _ =>
      let o := th.v.offset a
      match t, th.descOf s.now t with
      | _, none => .trap (illegal)
      | .tile 255, _ => .trap (illegal)
      | _, some desc =>
        if partOk o (64 * partUnits th.life.rect desc) then
          withConsumer th s.now t fun tk dd =>
            let ls := s.vldtLanes th dd o.toNat
            let s2 := s1.modThread k.tid fun u =>
              match tk.ring with
              | some _ => (u.startRead s.now tk).addDue { at_ := s.now + 6, sid := .v, read := some tk }
              | none => u
            .done ((s2.pushVec k th.lanes act ls d 6).modV k.tid fun v => v.bump a)
        else .trap bounds

/-- What a vstt finds at the tile or ring it names (R149): it continues the writer it has, starts one, or waits. -/
def Thread.vsttTake (th : Thread) (now : Nat) (t : TileRef) : Take :=
  let mine := fun (n : Nat) => match th.tile? n with
    | some x => if x.vwriter && x.st == .filling then some x.desc else none
    | none => none
  match t with
  | .tile n =>
    match th.writer now t with
    | .wait => match mine n.toNat with
      | some d => .ok ⟨n.toNat, none⟩ d
      | none => .wait
    | r => r
  | .ring k =>
    match th.ring? now k.toNat with
    | none => .bad
    | some r =>
      match (List.range r.wtake).filterMap (fun i => let n := r.first + (r.tail + i) % r.n; (mine n).map fun d => (n, d)) with
      | (n, d) :: _ => .ok ⟨n, some k.toNat⟩ d
      | [] => th.writer now t

/-- The thread once a vstt holds its tile. -/
def Thread.vsttStart (th : Thread) (now : Nat) (tk : Taken) : Thread :=
  let going : Bool := match th.tile? tk.tile with
    | some x => x.vwriter && x.st == .filling
    | none => false
  if going then th else (th.startWrite now tk).modTile tk.tile fun x => { x with vwriter := true }

/-- Writes one pane's lanes into a granule of its part: every byte written gives it the lanes' tag; a granule written in part keeps its own
poison too (R149). -/
def vsttGran (o : Nat) (act : List Bool) (ls : List Lane) (u : Nat) (g : List (BitVec 8) × Mark) : List (BitVec 8) × Mark :=
  let at_ := fun (j : Nat) =>
    let b := 64 * u + j
    if b < o then none
    else
      let i := (b - o) / 4
      if act.getD i false then some (i, (b - o) % 4) else none
  let js := (List.range 64).map at_
  let bs := List.zipWith (fun x (old : BitVec 8) =>
    match x with
    | some (p : Nat × Nat) => BitVec.ofNat 8 ((ls.getD p.1 {}).bits.toNat / 2 ^ (8 * p.2))
    | none => old) js g.1
  let k := meetAll (js.map fun x => match x with | some p => (ls.getD p.1 {}).mark | none => none)
  (bs, if js.all Option.isSome then k else if js.all Option.isNone then g.2 else meet g.2 k)

/-- vstt (R149, R150): it waits until the flags of the instructions before it are raised (R119); the tile goes FULL when its range reaches
the last byte of the parts and every earlier vst is performed, and that fill ends the writer; until then a later vstt goes on with it. -/
def execVstt (x : VSrc) (t : TileRef) (a : VAddr) (s : State) : Answer :=
  issue s fun k th s1 =>
    let act := th.v.active th.lanes a.masked
    vready s k th [x] act none fun n =>
      let fin := fun (u : State) => Head.done ((u.modV k.tid fun v => v.bump a).addVstall k.tid n)
      let o := th.v.offset a
      match t, th.descOf s.now t with
      | .tile 255, _ => fin s1
      | _, none => .trap (illegal)
      | _, some desc =>
        let bytes := 64 * partUnits th.life.rect desc
        if partOk o bytes then
          match th.vsttTake s.now t with
          | .null => fin s1
          | .bad => .trap (illegal)
          | .wait => .wait .tile
          | .ok tk dd =>
            let full := decide (bytes ≤ o.toNat + 256)
            let held := th.v.queue.any fun y => match y with | .store .. => true | _ => false
            if th.flagsOwed s.now .v then .wait .none
            else
              let ls := th.v.read th.lanes x
              let units := (List.range 5).filter fun i => decide (64 * (o.toNat / 64 + i) < min (o.toNat + 256) bytes)
              let s2 := (partPanes th.life.rect dd).foldl (init := s1) fun u p =>
                units.foldl (init := u) fun v i =>
                  let w := o.toNat / 64 + i
                  let g := vsttGran o.toNat (paneLanes act p) (paneLanes ls p) w (v.gran th p (descBase dd + w))
                  v.setGran th p (descBase dd + w) g.1 g.2
              fin (s2.modThread k.tid fun u =>
                let u1 := u.vsttStart s.now tk
                if full then (if held then { u1 with v := u1.v.enqueue (.full tk) } else u1.endFull s.now tk) else u1)
        else .trap bounds

end Sys2Proof.Machine
end

