-- ==== Sys2Proof/Machine/Dispatch.lean ====
section
/-! DEFINITION. One arm per instruction. -/

namespace Sys2Proof.Machine

def exec (i : Instr) (s : State) : Host.Outcome State Fault Refusal :=
  match i with
  | .nop => Sys2Proof.Machine.execNop s
  | .add ws x y d => Sys2Proof.Machine.execAdd ws x y d s
  | .sub ws x y d => Sys2Proof.Machine.execSub ws x y d s
  | .mul ws x y d => Sys2Proof.Machine.execMul ws x y d s
  | .mulh ws x y d => Sys2Proof.Machine.execMulh ws x y d s
  | .div ws x y d => Sys2Proof.Machine.execDiv ws x y d s
  | .rem ws x y d => Sys2Proof.Machine.execRem ws x y d s
  | .and ws x y d => Sys2Proof.Machine.execAnd ws x y d s
  | .or ws x y d => Sys2Proof.Machine.execOr ws x y d s
  | .xor ws x y d => Sys2Proof.Machine.execXor ws x y d s
  | .andn ws x y d => Sys2Proof.Machine.execAndn ws x y d s
  | .shl ws x y d => Sys2Proof.Machine.execShl ws x y d s
  | .shr ws x y d => Sys2Proof.Machine.execShr ws x y d s
  | .sar ws x y d => Sys2Proof.Machine.execSar ws x y d s
  | .rot ws x y d => Sys2Proof.Machine.execRot ws x y d s
  | .min ws x y d => Sys2Proof.Machine.execMin ws x y d s
  | .max ws x y d => Sys2Proof.Machine.execMax ws x y d s
  | .cmp c ws x y d => Sys2Proof.Machine.execCmp c ws x y d s
  | .sel c x y d => Sys2Proof.Machine.execSel c x y d s
  | .clz ws x d => Sys2Proof.Machine.execClz ws x d s
  | .popc ws x d => Sys2Proof.Machine.execPopc ws x d s
  | .bext sg x pos len1 d => Sys2Proof.Machine.execBext sg x pos len1 d s
  | .bins x v sh pos len1 d => Sys2Proof.Machine.execBins x v sh pos len1 d s
  | .ext ws x d => Sys2Proof.Machine.execExt ws x d s
  | .lea x y z k d => Sys2Proof.Machine.execLea x y z k d s
  | .mov x d => Sys2Proof.Machine.execMov x d s
  | .addi ws x im d => Sys2Proof.Machine.execAddi ws x im d s
  | .andi ws x im d => Sys2Proof.Machine.execAndi ws x im d s
  | .ori ws x im d => Sys2Proof.Machine.execOri ws x im d s
  | .xori ws x im d => Sys2Proof.Machine.execXori ws x im d s
  | .shi k ws x im d => Sys2Proof.Machine.execShi k ws x im d s
  | .cmpi c ws x im d => Sys2Proof.Machine.execCmpi c ws x im d s
  | .lit ws im d => Sys2Proof.Machine.execLit ws im d s
  | .b off => Sys2Proof.Machine.execB off s
  | .bc c x off => Sys2Proof.Machine.execBc c x off s
  | .jmp x => Sys2Proof.Machine.execJmp x s
  | .call off => Sys2Proof.Machine.execCall off s
  | .ret => Sys2Proof.Machine.execRet s
  | .loop k off => Sys2Proof.Machine.execLoop k off s
  | .repImm n => Sys2Proof.Machine.execRepImm n s
  | .repOperand x => Sys2Proof.Machine.execRepOperand x s
  | .go ga gv gm => Sys2Proof.Machine.execGo ga gv gm s
  | .stop => Sys2Proof.Machine.execStop s
  | .gpush x n => Sys2Proof.Machine.execGpush x n s
  | .gflush n => Sys2Proof.Machine.execGflush n s
  | .wtw x t => Sys2Proof.Machine.execWtw x t s
  | .rtw keep t d => Sys2Proof.Machine.execRtw keep t d s
  | .tstate t d => Sys2Proof.Machine.execTstate t d s
  | .lcyc d => Sys2Proof.Machine.execLcyc d s
  | .self d => Sys2Proof.Machine.execSelf d s
  | .ld ws base idx disp d => Sys2Proof.Machine.execLd ws base idx disp d s
  | .st w base val disp => Sys2Proof.Machine.execSt w base val disp s
  | .ldx ws base idx disp d => Sys2Proof.Machine.execLdx ws base idx disp d s
  | .stx w base val disp => Sys2Proof.Machine.execStx w base val disp s
  | .mark => Sys2Proof.Machine.execMark s
  | .linv base len disp => Sys2Proof.Machine.execLinv base len disp s
  | .aop op ws base val disp d => Sys2Proof.Machine.execAop op ws base val disp d s
  | .wadr c ws base val disp d => Sys2Proof.Machine.execWadr c ws base val disp d s
  | .ldA ws base idx disp d => Sys2Proof.Machine.execLdA ws base idx disp d s
  | .stA w base val disp => Sys2Proof.Machine.execStA w base val disp s
  | .gjoin key d => Sys2Proof.Machine.execGjoin key d s
  | .gleave key d => Sys2Proof.Machine.execGleave key d s
  | .gbar key d => Sys2Proof.Machine.execGbar key d s
  | .spawn r q d => Sys2Proof.Machine.execSpawn r q d s
  | .done => Sys2Proof.Machine.execDone s
  | .grab r d => Sys2Proof.Machine.execGrab r d s
  | .rngset ctl start stop => Sys2Proof.Machine.execRngset ctl start stop s
  | .yield d => Sys2Proof.Machine.execYield d s
  | .ckpt d => Sys2Proof.Machine.execCkpt d s
  | .fsplit shape list d => Sys2Proof.Machine.execFsplit shape list d s
  | .ffuse try_ shape d => Sys2Proof.Machine.execFfuse try_ shape d s
  | .fchain west d => Sys2Proof.Machine.execFchain west d s
  | .funchain west d => Sys2Proof.Machine.execFunchain west d s
  | .fquery d => Sys2Proof.Machine.execFquery d s
  | .smopen cfg hbase d => Sys2Proof.Machine.execSmopen cfg hbase d s
  | .smapp h list d => Sys2Proof.Machine.execSmapp h list d s
  | .smprop h t d1 lmin d => Sys2Proof.Machine.execSmprop h t d1 lmin d s
  | .smsave h dva d => Sys2Proof.Machine.execSmsave h dva d s
  | .smload cfg hbase dva d => Sys2Proof.Machine.execSmload cfg hbase dva d s
  | .smclose h d => Sys2Proof.Machine.execSmclose h d s
  | .draw key ctr d => Sys2Proof.Machine.execDraw key ctr d s
  | .tacc greedy desc dw d => Sys2Proof.Machine.execTacc greedy desc dw d s
  | .tsamp greedy desc pos d => Sys2Proof.Machine.execTsamp greedy desc pos d s
  | .trap im => Sys2Proof.Machine.execTrap im s
  | .brk im => Sys2Proof.Machine.execBrk im s
  | .sysr r d => Sys2Proof.Machine.execSysr r d s
  | .sysw v r => Sys2Proof.Machine.execSysw v r s
  | .faultreq v viaLit => Sys2Proof.Machine.execFaultreq v viaLit s
  | .ptst strip x l d => Sys2Proof.Machine.execPtst strip x l d s
  | .brec r addr => Sys2Proof.Machine.execBrec r addr s
  | .tld g sc r t off sg => Sys2Proof.Machine.execTld g sc r t off sg s
  | .tst g r t off => Sys2Proof.Machine.execTst g r t off s
  | .tgat r t off x => Sys2Proof.Machine.execTgat r t off x s
  | .tsca r t off x => Sys2Proof.Machine.execTsca r t off x s
  | .tcfg clr n desc => Sys2Proof.Machine.execTcfg clr n desc s
  | .rcfg clr n first n1 => Sys2Proof.Machine.execRcfg clr n first n1 s
  | .tfree t => Sys2Proof.Machine.execTfree t s
  | .nset hi nest level count strides => Sys2Proof.Machine.execNset hi nest level count strides s
  | .ncopy dir k nest r lbase gop => Sys2Proof.Machine.execNcopy dir k nest r lbase gop s
  | .tlsp t addr stride => Sys2Proof.Machine.execTlsp t addr stride s
  | .tssp t addr stride => Sys2Proof.Machine.execTssp t addr stride s
  | .send route dst src => Sys2Proof.Machine.execSend route dst src s
  | .sendf route dst src val => Sys2Proof.Machine.execSendf route dst src val s
  | .flag route dst val => Sys2Proof.Machine.execFlag route dst val s
  | .gamo op ws r off val c d => Sys2Proof.Machine.execGamo op ws r off val c d s
  | .fence sc d => Sys2Proof.Machine.execFence sc d s
  | .pfch r off len => Sys2Proof.Machine.execPfch r off len s
  | .fltopen sg dsel mode cf => Sys2Proof.Machine.execFltopen sg dsel mode cf s
  | .fltclose sg dsel dst => Sys2Proof.Machine.execFltclose sg dsel dst s
  | .vadd t rnd mk x y d => Sys2Proof.Machine.execVadd t rnd mk x y d s
  | .vsub t rnd mk x y d => Sys2Proof.Machine.execVsub t rnd mk x y d s
  | .vmul t rnd mk x y d => Sys2Proof.Machine.execVmul t rnd mk x y d s
  | .vfma t rnd mk x y z d => Sys2Proof.Machine.execVfma t rnd mk x y z d s
  | .vfms t rnd mk x y z d => Sys2Proof.Machine.execVfms t rnd mk x y z d s
  | .vmin t mk x y d => Sys2Proof.Machine.execVmin t mk x y d s
  | .vmax t mk x y d => Sys2Proof.Machine.execVmax t mk x y d s
  | .vabs t mk x d => Sys2Proof.Machine.execVabs t mk x d s
  | .vneg t mk x d => Sys2Proof.Machine.execVneg t mk x d s
  | .vand t mk x y d => Sys2Proof.Machine.execVand t mk x y d s
  | .vor t mk x y d => Sys2Proof.Machine.execVor t mk x y d s
  | .vxor t mk x y d => Sys2Proof.Machine.execVxor t mk x y d s
  | .vshl t mk x y d => Sys2Proof.Machine.execVshl t mk x y d s
  | .vshr t mk x y d => Sys2Proof.Machine.execVshr t mk x y d s
  | .vsar t mk x y d => Sys2Proof.Machine.execVsar t mk x y d s
  | .vcmp c t mk x y d => Sys2Proof.Machine.execVcmp c t mk x y d s
  | .vsel t mk x y z d => Sys2Proof.Machine.execVsel t mk x y z d s
  | .vrcp t rnd mk x d => Sys2Proof.Machine.execVrcp t rnd mk x d s
  | .vrsq t rnd mk x d => Sys2Proof.Machine.execVrsq t rnd mk x d s
  | .vexp2 t rnd mk x d => Sys2Proof.Machine.execVexp2 t rnd mk x d s
  | .vlog2 t rnd mk x d => Sys2Proof.Machine.execVlog2 t rnd mk x d s
  | .vclamp t mk x y z d => Sys2Proof.Machine.execVclamp t mk x y z d s
  | .vmov mk x d => Sys2Proof.Machine.execVmov mk x d s
  | .vlit mk im d => Sys2Proof.Machine.execVlit mk im d s
  | .vaddi t mk x im d => Sys2Proof.Machine.execVaddi t mk x im d s
  | .vdot4 t mk x y z d => Sys2Proof.Machine.execVdot4 t mk x y z d s
  | .vrsh t mk x y d => Sys2Proof.Machine.execVrsh t mk x y d s
  | .vmulq mk x y d => Sys2Proof.Machine.execVmulq mk x y d s
  | .vredadd t rnd mk x d => Sys2Proof.Machine.execVredadd t rnd mk x d s
  | .vredmax t mk x d => Sys2Proof.Machine.execVredmax t mk x d s
  | .vredmin t mk x d => Sys2Proof.Machine.execVredmin t mk x d s
  | .vscan t rnd mk x d => Sys2Proof.Machine.execVscan t rnd mk x d s
  | .vperm mk x y d => Sys2Proof.Machine.execVperm mk x y d s
  | .vrot mk x y d => Sys2Proof.Machine.execVrot mk x y d s
  | .vbcast mk x y d => Sys2Proof.Machine.execVbcast mk x y d s
  | .vargmax t mk x d => Sys2Proof.Machine.execVargmax t mk x d s
  | .iset n arg => Sys2Proof.Machine.execIset n arg s
  | .iadd n im => Sys2Proof.Machine.execIadd n im s
  | .vmpush x => Sys2Proof.Machine.execVmpush x s
  | .vminv => Sys2Proof.Machine.execVminv s
  | .vmpop => Sys2Proof.Machine.execVmpop s
  | .vmget d => Sys2Proof.Machine.execVmget d s
  | .vbnone off => Sys2Proof.Machine.execVbnone off s
  | .vbany off => Sys2Proof.Machine.execVbany off s
  | .vld a d => Sys2Proof.Machine.execVld a d s
  | .vst x a => Sys2Proof.Machine.execVst x a s
  | .vldx x a d => Sys2Proof.Machine.execVldx x a d s
  | .vldt t a d => Sys2Proof.Machine.execVldt t a d s
  | .vstt x t a => Sys2Proof.Machine.execVstt x t a s
  | .vcvt dt st rnd mk h x y d => Sys2Proof.Machine.execVcvt dt st rnd mk h x y d s
  | .vqnt fmt t rnd ov mk x y d => Sys2Proof.Machine.execVqnt fmt t rnd ov mk x y d s
  | .vdeq fmt t rnd mk x y d => Sys2Proof.Machine.execVdeq fmt t rnd mk x y d s
  | .vbsc fmt t x d => Sys2Proof.Machine.execVbsc fmt t x d s
  | .vsce toE8 mk x d => Sys2Proof.Machine.execVsce toE8 mk x d s
  | .vpak fmt half g x y d => Sys2Proof.Machine.execVpak fmt half g x y d s
  | .vupk fmt half g x d => Sys2Proof.Machine.execVupk fmt half g x d s
  | .vdph n => Sys2Proof.Machine.execVdph n s
  | .vmirror n on => Sys2Proof.Machine.execVmirror n on s
  | .mma p fa fb ra rb => Sys2Proof.Machine.execMma p fa fb ra rb s
  | .sacc p acc rsa rsb => Sys2Proof.Machine.execSacc p acc rsa rsb s
  | .saccI p acc rsa rsb => Sys2Proof.Machine.execSaccI p acc rsa rsb s
  | .macz acc => Sys2Proof.Machine.execMacz acc s
  | .mdrain acc t ch fmt rnd ov int clr dsh => Sys2Proof.Machine.execMdrain acc t ch fmt rnd ov int clr dsh s
  | .mload acc t fmt => Sys2Proof.Machine.execMload acc t fmt s
  | .mchk t => Sys2Proof.Machine.execMchk t s
  | .pview item d a b => Sys2Proof.Machine.execPview item d a b s
  | .pli d imm => Sys2Proof.Machine.execPli d imm s
  | .padd d a b => Sys2Proof.Machine.execPadd d a b s
  | .psub d a b => Sys2Proof.Machine.execPsub d a b s
  | .pand d a b => Sys2Proof.Machine.execPand d a b s
  | .por d a b => Sys2Proof.Machine.execPor d a b s
  | .pshl d a n => Sys2Proof.Machine.execPshl d a n s
  | .pshr d a n => Sys2Proof.Machine.execPshr d a n s
  | .pmin d a b => Sys2Proof.Machine.execPmin d a b s
  | .pmax d a b => Sys2Proof.Machine.execPmax d a b s
  | .pcmp c d a b => Sys2Proof.Machine.execPcmp c d a b s
  | .psel d a b => Sys2Proof.Machine.execPsel d a b s
  | .pbf a off => Sys2Proof.Machine.execPbf a off s
  | .pjf off => Sys2Proof.Machine.execPjf off s
  | .qloop d off => Sys2Proof.Machine.execQloop d off s
  | .qnext d off => Sys2Proof.Machine.execQnext d off s
  | .probe a k => Sys2Proof.Machine.execProbe a k s
  | .pickDisp a b => Sys2Proof.Machine.execPickDisp a b s
  | .pickGrant a => Sys2Proof.Machine.execPickGrant a s
  | .pickFail a => Sys2Proof.Machine.execPickFail a s
  | .pickGrantall => Sys2Proof.Machine.execPickGrantall s
  | .ppre a => Sys2Proof.Machine.execPpre a s
  | .pfaultResume => Sys2Proof.Machine.execPfaultResume s
  | .pfaultRetry => Sys2Proof.Machine.execPfaultRetry s
  | .pfaultPark => Sys2Proof.Machine.execPfaultPark s
  | .pfaultKill => Sys2Proof.Machine.execPfaultKill s
  | .pfaultRollback => Sys2Proof.Machine.execPfaultRollback s
  | .pfaultHandler a sg => Sys2Proof.Machine.execPfaultHandler a sg s
  | .pget d k => Sys2Proof.Machine.execPget d k s
  | .pkeep a k => Sys2Proof.Machine.execPkeep a k s
  | .pend => Sys2Proof.Machine.execPend s
  | .dispatchDecision p => Sys2Proof.Machine.execDispatchDecision p s
  | .preemptDecision p => Sys2Proof.Machine.execPreemptDecision p s
  | .faultDecision p => Sys2Proof.Machine.execFaultDecision p s
  | .decisionOverrun p => Sys2Proof.Machine.execDecisionOverrun p s
  | .probeAnswer p k present => Sys2Proof.Machine.execProbeAnswer p k present s
  | .preemption tid => Sys2Proof.Machine.execPreemption tid s
  | .contextStoreComplete tid => Sys2Proof.Machine.execContextStoreComplete tid s
  | .sliceExpiry tid => Sys2Proof.Machine.execSliceExpiry tid s
  | .watchdogWait tid st => Sys2Proof.Machine.execWatchdogWait tid st s
  | .kmaxOverrun tid => Sys2Proof.Machine.execKmaxOverrun tid s
  | .loopKernelStep tid => Sys2Proof.Machine.execLoopKernelStep tid s
  | .autoCheckpoint tid => Sys2Proof.Machine.execAutoCheckpoint tid s
  | .barrierEpisodeComplete p g => Sys2Proof.Machine.execBarrierEpisodeComplete p g s
  | .drainPoint tid => Sys2Proof.Machine.execDrainPoint tid s
  | .mmaPassRetire tid => Sys2Proof.Machine.execMmaPassRetire tid s
  | .standInCheck tid panes => Sys2Proof.Machine.execStandInCheck tid panes s
  | .saccFoldComplete tid => Sys2Proof.Machine.execSaccFoldComplete tid s
  | .mdrainComplete tid => Sys2Proof.Machine.execMdrainComplete tid s
  | .chainDelivery tid => Sys2Proof.Machine.execChainDelivery tid s
  | .mloadComplete tid => Sys2Proof.Machine.execMloadComplete tid s
  | .accessCommandComplete tid id => Sys2Proof.Machine.execAccessCommandComplete tid id s
  | .pageWalkComplete walker ctx page => Sys2Proof.Machine.execPageWalkComplete walker ctx page s
  | .fenceComplete tid id => Sys2Proof.Machine.execFenceComplete tid id s
  | .gamoReturn tid id => Sys2Proof.Machine.execGamoReturn tid id s
  | .writeTimeout tid what => Sys2Proof.Machine.execWriteTimeout tid what s
  | .packetPlace pkt => Sys2Proof.Machine.execPacketPlace pkt s
  | .permitReturn port cls => Sys2Proof.Machine.execPermitReturn port cls s
  | .packetDelivery pkt peerAdmits => Sys2Proof.Machine.execPacketDelivery pkt peerAdmits s
  | .filterLineArrival die k => Sys2Proof.Machine.execFilterLineArrival die k s
  | .commandComplete page => Sys2Proof.Machine.execCommandComplete page s
  | .notify p q t => Sys2Proof.Machine.execNotify p q t s
  | .qcfgWrite p q v => Sys2Proof.Machine.execQcfgWrite p q v s
  | .pload p v => Sys2Proof.Machine.execPload p v s
  | .policySel p v => Sys2Proof.Machine.execPolicySel p v s
  | .clcfgWrite c v => Sys2Proof.Machine.execClcfgWrite c v s
  | .clcfgApply c => Sys2Proof.Machine.execClcfgApply c s
  | .intcauseWrite p v => Sys2Proof.Machine.execIntcauseWrite p v s
  | .intvecWrite p v => Sys2Proof.Machine.execIntvecWrite p v s
  | .devstatWrite v => Sys2Proof.Machine.execDevstatWrite v s
  | .bootGo core v => Sys2Proof.Machine.execBootGo core v s
  | .registerWrite addr v => Sys2Proof.Machine.execRegisterWrite addr v s
  | .quiesce p => Sys2Proof.Machine.execQuiesce p s
  | .release p => Sys2Proof.Machine.execRelease p s
  | .image p stamp => Sys2Proof.Machine.execImage p stamp s
  | .partitionReset p => Sys2Proof.Machine.execPartitionReset p s
  | .rollback p => Sys2Proof.Machine.execRollback p s
  | .decide p => Sys2Proof.Machine.execDecide p s
  | .kill p => Sys2Proof.Machine.execKill p s
  | .tlbinv p => Sys2Proof.Machine.execTlbinv p s
  | .restore p => Sys2Proof.Machine.execRestore p s
  | .deviceQuiesce => Sys2Proof.Machine.execDeviceQuiesce s
  | .deviceRelease => Sys2Proof.Machine.execDeviceRelease s
  | .deviceImage stamp => Sys2Proof.Machine.execDeviceImage stamp s
  | .coreReset => Sys2Proof.Machine.execCoreReset s
  | .dieReset => Sys2Proof.Machine.execDieReset s
  | .deviceReset => Sys2Proof.Machine.execDeviceReset s
  | .retire => Sys2Proof.Machine.execRetire s
  | .phaseFailure rail phases => Sys2Proof.Machine.execPhaseFailure rail phases s
  | .powerControllerCheck rail imeas low10us => Sys2Proof.Machine.execPowerControllerCheck rail imeas low10us s
  | .thermalCadenceUpdate cluster temps => Sys2Proof.Machine.execThermalCadenceUpdate cluster temps s
  | .sensorTestStep sg reading stuck => Sys2Proof.Machine.execSensorTestStep sg reading stuck s
  | .thermalWarning sg reading => Sys2Proof.Machine.execThermalWarning sg reading s
  | .hardTrip => Sys2Proof.Machine.execHardTrip s
  | .permitAudit port => Sys2Proof.Machine.execPermitAudit port s
  | .linkCrcError l r => Sys2Proof.Machine.execLinkCrcError l r s
  | .hbmUncorrectableRead pa retryGood row => Sys2Proof.Machine.execHbmUncorrectableRead pa retryGood row s
  | .proxyInvalidation line => Sys2Proof.Machine.execProxyInvalidation line s
  | .peerPackageAccess acc => Sys2Proof.Machine.execPeerPackageAccess acc s
  | .flashRewriteDone => Sys2Proof.Machine.execFlashRewriteDone s
  | .powerUp => Sys2Proof.Machine.execPowerUp s

end Sys2Proof.Machine
end

