-- ==== Sys2Proof/Machine/Banks.lean ====
section
/-! DEFINITION. Which requests for a scratchpad bank a thread has in a cycle, and a refusal of one (spec/05_scratchpad.md R85, R103). -/

namespace Sys2Proof.Machine

/-- An instruction that reads words of the scratchpad at its issue. -/
def readsWords : Instr → Bool
  | .spawn .. | .fsplit .. | .smapp .. | .tacc .. | .tsamp .. | .brec .. => true
  | _ => false

/-- Whether a stream's head has come to its reads of the scratchpad. -/
def State.headReads (s : State) (th : Thread) (sid : StreamId) : Bool :=
  th.life.phase == .running && (th.strm sid).run == .running && decide (s.countedAt th (th.strm sid) ≤ s.now) &&
    ((s.headInstr th sid).map readsWords).getD false

/-- The wadr at the head of a thread's C stream that reads in this cycle (R95). -/
def State.wadrReads (s : State) (th : Thread) : Bool :=
  th.life.phase == .running && th.sc.run == .running && th.c.queue.isEmpty && !th.sc.latched &&
    decide (s.countedAt th th.sc ≤ s.now) && match s.headInstr th .c with
      | some (.wadr _ _ base _ disp _) => s.pollDue th (spSum ((th.regs .c).read base).bits 0 disp).toNat
      | _ => false

/-- Whether an access of the C stream uses a bank: not a load that its L1 answers, nor one that moves no bytes (R87). -/
def State.usesBank (s : State) (th : Thread) : CAccess → Bool
  | .load true _ ea _ => !(s.core th.life.rect.lead).l1.any fun x => x.line == ea / 64 && !x.bad
  | .load false .. | .store .. | .aop .. => true
  | .mark | .linv .. => false

/-- Whether a command's elements use scratchpads (R205, R207, R220). -/
def Cmd.usesPad (c : Cmd) : Bool :=
  match c.instr with
  | .ldA .. | .stA .. | .tlsp .. | .tssp .. | .ncopy .. => true
  | .send .. | .sendf .. => decide (c.elem < packetCount (sendLen c.b.bits))
  | _ => false

/-- Whether a requester of a thread has a request that a bank can refuse in this cycle (R85, R103): an access of its queues that R88 or R150
lets go, what a head instruction reads, the next element of a command, a packet at a core of the fragment whose window admits it. A thread
that is neither running nor being saved has none. -/
def State.requests (s : State) (th : Thread) (r : Requester) : Bool :=
  (match th.life.phase with
    | .running | .saving .. => true
    | _ => false) &&
  match r with
  | .v => th.v.queue.any fun x => match x with | .full _ => false | _ => true
  | .c =>
    (th.c.queue.zipIdx.any fun x => s.usesBank th x.1 && x.1.permitted (th.c.queue.take x.2)) || s.wadrReads th || s.headReads th .c
  | .a => (th.a.cmds.any fun c => c.usesPad && th.engineOn c && s.cmdFree th c) || s.headReads th .a
  | .x => s.packets.any fun p =>
    p.there && p.pkg == s.dev.pkg.toNat && th.life.rect.cores.contains (16 * p.die + p.core) &&
      s.takesPacket p

/-- A request of a thread is refused a bank: the cycle counts, and the request stands (R85, R103). -/
def State.refuse (s : State) (tid : Nat) (r : Requester) : State :=
  match s.thread? tid with
  | some th => if s.requests th r then s.modThread tid fun t => { t with cnt := t.cnt.refuse r s.now } else s
  | none => s

end Sys2Proof.Machine
end

