-- ==== Sys2Proof/Machine/Sched.lean ====
section
/-! DEFINITION. The end of a cycle and the turns of the next one: what moves by default, each agent in one order (log 1). Whatever order the
hardware's parts take is some content of `turns`; nothing here narrows what a statement about every state covers. -/

namespace Sys2Proof.Machine

/-! ### The end of a cycle -/

/-- The wadr that waits at the head of a thread's C stream: condition, width, address operands and value (R95). One that its mark still holds
back, accesses before it not being performed, has made no read: it is saved unlatched (DESIGN CHOICE, log 76). -/
def State.waitingWadr (s : State) (th : Thread) : Option (Cond × WS × Nat × Word) :=
  if th.sc.run != .running || th.sc.wait != .wadr || th.sc.latched || !th.c.queue.isEmpty then none
  else
    match s.headInstr th .c with
    | some (.wadr c ws base val disp _) =>
      some (c, ws, (spSum ((th.regs .c).read base).bits 0 disp).toNat, ((th.regs .c).read val).bits)
    | _ => none

/-- A thread at the end of its decision cycle: a waiting wadr reads its word once more, as every read of the scratchpad does (R100), and a
satisfied one is latched (R96, R256). LATCH holds the value as the wadr would push it, extended to 64 bits: R96 does not say whether it holds
that or the bytes alone. A word that this read finds poisoned latches nothing and traps nothing: the read that the resumed wadr makes traps
POISON. R96 does not say (both DESIGN CHOICE, log 76). -/
def State.latchWadr (s : State) (th : Thread) : State :=
  match th.life.phase, s.waitingWadr th with
  | .saving _ d, some (c, ws, ea, v) =>
    if d != s.now || !legalAddr th.panes ea ws.w.size then s
    else
      let s1 := s.spTouch th ea ws.w.size
      let x := s1.spLoad th ea ws.w.size
      let r := loadValue ws x
      if x.2.isNone && condHolds c (extW r.bits ws.w.bits ws.s) (extW v ws.w.bits ws.s) then
        s1.modThread th.tid fun t => { t with sc := { t.sc with latched := true, latch := r.bits } }
      else s1
  | _, _ => s

/-- What a due does at the end of its cycle: flags are raised, DPH advances, a read of a ring's head ends (R115, R119, R149). -/
def Thread.settleDue (th : Thread) (now : Nat) (d : Due) : Thread :=
  let t := th.raiseFlags d.flags
  let u := if d.phase then { t with cnt := { t.cnt with dph := t.cnt.dph + 1 } } else t
  match d.read with
  | some x => u.endRead now x
  | none => u

/-- The dues of this cycle are settled. -/
def Thread.settleDues (th : Thread) (now : Nat) : Thread :=
  (th.dues.filter fun d => decide (d.at_ ≤ now)).foldl (fun t d => t.settleDue now d)
    { th with dues := th.dues.filter fun d => !decide (d.at_ ≤ now) }

/-- A thread at the end of a cycle: its dues, and the trap of a parked command that every other stream waits for (R214). -/
def State.settleThread (s : State) (th : Thread) : Thread :=
  let t := th.settleDues s.now
  t.releaseTrap s.now ((s.waitingWadr t).map fun x => x.2.2.1)

/-- The cycle ends: dues are settled, the trap of a parked command is taken where the other streams wait for it, waits that a save catches are
latched; the clock and every LCYC advance, passes make the injections that are due, and the new cycle's `fquery` values are taken. -/
def State.endCycle (s : State) : State :=
  let s0 := { s with threads := s.threads.map s.settleThread }
  let s1 := s0.threads.foldl State.latchWadr s0
  let s2 := { s1 with now := s1.now + 1, cores := s1.cores.map fun (c : Core) => { c with lcyc := c.lcyc + 1 } }
  let s3 := ({ s2 with threads := s2.threads.map fun th => if s2.railStopped th then th else s2.injectAll th } : State).emergencyImage
  { s3 with threads := s3.threads.map s3.takeQuery }

/-! ### What is due -/

/-- The events of a partition. -/
def State.partTurns (s : State) (p : Nat) : List Agent :=
  let q := s.part p
  let start : List Instr := match q.quiesced || q.pol.running.isSome, nextTrigger q.pol.triggers with
    | false, some t => match t.hook with
      | .dispatch => [.dispatchDecision p]
      | .preempt => [.preemptDecision p]
      | .fault => [.faultDecision p]
    | _, _ => []
  let go : List Agent := match q.pol.running with
    | some d =>
      ((d.probes.zipIdx.filter fun x => !x.1.answered).map fun x => .event (.probeAnswer p x.2 (Config.freeHit (s.now + x.2)))) ++
        (if !d.image.isEmpty && decide (256 ≤ d.cycles) then [.event (.decisionOverrun p)]
          else if s.now % 2 = 0 then [.policy p] else [])
    | none => []
  let bars := (q.groups.filter fun g => match g.2 with
    | some x => x.complete
    | none => false).map fun g => Agent.event (.barrierEpisodeComplete p g.1)
  let done : List Agent := if q.cmd.busy then [.event (.commandComplete (.part p))] else []
  start.map .event ++ go ++ bars ++ done

/-- The operations of an M stream that may move on. -/
def State.matrixTurns (s : State) (th : Thread) : List Agent :=
  let t := th.tid
  let on := fun (f : MOp → Bool) (i : Instr) => List.replicate (th.m.ops.filter f).length (Agent.event i)
  let due := fun (o : MOp) => match o with | .pass p => p.checkDue th.life.rect s.now | _ => false
  on due (.standInCheck t []) ++
    on (fun o => due o || match o with | .pass p => p.concluded | _ => false) (.mmaPassRetire t) ++
    on (fun o => match o with | .fold f => (f.due.map fun d => decide (d ≤ s.now)).getD false | _ => false) (.saccFoldComplete t) ++
    on (fun o => match o with | .drain d => decide (d.due ≤ s.now) | _ => false) (.mdrainComplete t) ++
    on (fun o => match o with | .load l => decide (l.due ≤ s.now) | _ => false) (.mloadComplete t) ++
    on (fun o => match o with | .chain _ => true | _ => false) (.chainDelivery t)

/-- The commands of an A stream: the next element of each, and what is over. -/
def State.commandTurns (s : State) (th : Thread) : List Agent :=
  th.a.cmds.flatMap fun c =>
    [Agent.cmd th.tid c.id] ++
      (match c.instr with
        | .fence .. => [.event (.fenceComplete th.tid c.id)]
        | _ => (if c.got.isSome then [.event (.gamoReturn th.tid c.id)] else []) ++
          (if s.cmdComplete th.tid c then [.event (.accessCommandComplete th.tid c.id)] else []))

/-- Whether a stream's head has waited as long as its WDOG allows. -/
def State.watchDue (s : State) (th : Thread) (x : StreamId) : Bool :=
  let st := th.strm x
  match st.wdog with
  | some w => st.run == .running && w != 0 && decide (s.countedAt th st + w ≤ s.now)
  | none => false

/-- The turns of a thread. -/
def State.threadTurns (s : State) (th : Thread) : List Agent :=
  let t := th.tid
  let l := th.life
  let when_ := fun (b : Bool) (i : Instr) => if b then [Agent.event i] else []
  let sids : List StreamId := [.c, .a, .v, .m]
  let busy := (if th.c.queue.isEmpty then [] else [Agent.access t 0]) ++ (if th.v.queue.isEmpty then [] else [Agent.vaccess t]) ++
    s.matrixTurns th ++ s.commandTurns th
  match l.phase with
  | .running =>
    when_ (l.asked.isSome && th.canBeTaken) (.preemption t) ++
      when_ (l.sliceLen != 0 && decide (l.sliceAt + l.sliceLen ≤ s.now)) (.sliceExpiry t) ++
      when_ (l.asked.isNone && s.autoDue th) (.autoCheckpoint t) ++
      (sids.filter (s.watchDue th)).map (fun x => .event (.watchdogWait t x)) ++
      when_ (th.loop.inStep && decide (th.loop.ks + th.loop.kmax ≤ s.now)) (.kmaxOverrun t) ++
      when_ (th.isLoop && !th.loop.finished && !th.loop.inStep && th.allArrived) (.loopKernelStep t) ++ busy ++
      [.stream t .c, .stream t .a, .stream t .v, .stream t .m, .stream t .c, .stream t .a, .stream t .c, .stream t .a]
  | .saving .. => busy ++ [.event (.contextStoreComplete t)]
  | _ => []

/-- What moves in the interconnect: packets, permits, lines on their way to a base die, late writes, page walks. -/
def State.fabricTurns (s : State) : List Agent :=
  (s.packets.flatMap fun p => [Agent.event (.packetPlace p.id), .event (.packetDelivery p.id true)]) ++
    (s.ports.zipIdx.flatMap fun x => x.1.owed.map fun o => Agent.event (.permitReturn x.2 o.cls)) ++
    (s.dies.zipIdx.flatMap fun x => if x.1.lines.isEmpty then [] else [.event (.filterLineArrival x.2 0)]) ++
    List.replicate s.late.length (.land 0) ++
    s.dies.zipIdx.flatMap fun x => x.1.walks.map fun w => .event (.pageWalkComplete (16 * x.2 + w.part) w.ctx w.page)

/-- What moves in the device: clusters, boot loads, a device command, the flash. -/
def State.deviceTurns (s : State) : List Agent :=
  ((List.range 32).filter fun c => (s.cluster c).pendW.isSome && s.clusterIdle c).map (fun c => .event (.clcfgApply c)) ++
    ((List.range 128).filter fun k => (s.core k).boot.state == 1).map Agent.loaded ++
    (if s.dev.cmd.busy then [.event (.commandComplete .dev)] else []) ++ (if s.dev.flashBusy then [.event .flashRewriteDone] else [])

/-- The turns of a cycle. -/
def State.allTurns (s : State) : List Agent :=
  s.deviceTurns ++ (List.range 16).flatMap s.partTurns ++ s.fabricTurns ++ s.threads.flatMap s.threadTurns

/-- The end of a cycle and the turns of the next; without power nothing moves (R325). -/
def State.tick (s : State) : State :=
  if s.dev.power then
    let t := s.endCycle
    { t with turns := t.allTurns }
  else s

/-! ### A policy's turn -/

/-- What a partition's decision comes to in one Puppeteer cycle: an instruction of its image, or a cycle of the fallback (R262, R263). A
decision out of cycles waits for its overrun. -/
def State.beginPolicy (s : State) (p : Nat) : Begin :=
  match (s.part p).pol.running with
  | none => .moved s
  | some d =>
    if d.image.isEmpty then .moved (s.fallbackCycle p d)
    else if 256 ≤ d.cycles then .moved s
    else
      match decodePolicy (d.image.getD d.pc 0) with
      | .ok i => .run i { s with cur := .policy p }
      | .error _ => .moved (s.modPol p fun q => { q with running := some { d with cycles := d.cycles + 1 } })

/-- The sampling instruction at the C stream's head, were it to issue now, reads the next word of block k before it issues: each word is read at
one moment, and what is delivered between two such moments is seen by the later one alone (R353). A thread brought to its boundaries before the
instruction has issued reads all of them again (log 83). -/
def State.sampleAhead (s : State) (tid k : Nat) : State :=
  match s.thread? tid, s.beginStream tid .c with
  | some th, .run (.tsamp _ x y _) _ | some th, .run (.tacc _ x y _) _ =>
    let a := (th.regs .c).read x
    if th.c.queue.isEmpty && !a.pending && a.mark.isNone && !((th.regs .c).read y).pending && legalAddr th.panes a.bits.toNat 64 then
      s.readAhead th a.bits.toNat k
    else s
  | _, _ => s

/-- What an agent's turn comes to. Without power only its return is heard. -/
def State.begin_ (s : State) (a : Agent) : Begin :=
  match s.dev.power, a with
  | true, .stream tid sid => s.beginStream tid sid
  | true, .access tid k => .moved (s.performAccess tid k)
  | true, .vaccess tid => .moved (s.performV tid)
  | true, .cmd tid id => .moved (s.performCmd tid id)
  | true, .late tid id => .moved (s.performLate tid id)
  | true, .land k => .moved (s.land k)
  | true, .slice d line load => .moved (s.sliceMove d line load)
  | true, .upset u => .moved (s.upset u)
  | true, .refusal tid r => .moved (s.refuse tid r)
  | true, .arrival p => .moved (s.arrival p)
  | true, .sampling tid k => .moved (s.sampleAhead tid k)
  | true, .words pkt n => .moved (s.deliverWords pkt n)
  | true, .storing tid n => .moved (s.storeSome tid n)
  | true, .imaging n => .moved (s.imageSome n)
  | true, .loading core v => .moved (s.beginLoad core v)
  | true, .loaded core => .moved (s.endLoad core)
  | true, .peerForget pkg line => .moved (s.peerForget pkg line)
  | true, .hostWrite pa bytes => .moved (s.hostWrite pa bytes)
  | true, .policy p => s.beginPolicy p
  | true, .event i => .run i s
  | false, .event .powerUp => .run .powerUp s
  | false, _ => .moved s

/-! ### A word as the next instruction -/

/-- The streams in which a word is looked up, in the order of the opcode table's reading (log 13). -/
def placeStream (w lit : Word) : Option StreamId :=
  [StreamId.c, .a, .v, .m].find? fun x => match decodeWord x w lit with
    | .ok _ => true
    | .error _ => false

/-- A thread that runs nothing but the stream given, on core 0, at address 0 of a window of n words. -/
def placedThread (x : StreamId) (n : Nat) : Thread :=
  let t : Thread := { tid := 0 }
  t.modStrm x fun st => { st with run := .running, words := n, hold := some 0 }

/-- The machine with one thread whose stream's next word is w, its literal the word after it. -/
def State.placeWord (s : State) (w lit : Word) : State :=
  let x := (placeStream w lit).getD .c
  let s1 := s.modCore 0 fun c =>
    { c with imem := putCode [] 0 [(w, false), (lit, false)], lease := .leased 0 }
  { s1 with threads := [placedThread x 2], nextId := max s.nextId 1, turns := [.stream 0 x] }

/-- The machine with a decision of partition 0 whose image is the word. -/
def State.placePolicy (s : State) (w : BitVec 32) : State :=
  let s1 := s.modPol 0 fun q => { q with running := some { trigger := { hook := .dispatch, cause := 0 }, snap := {}, image := [w] } }
  { s1 with turns := [.policy 0] }

end Sys2Proof.Machine
end

