-- ==== Sys2Proof/Machine/Step.lean ====
section
/-! DEFINITION. One step of the machine: the next agent of `turns` moves; when no turn is left the cycle ends (log 1). -/

namespace Sys2Proof.Machine

/-- The outcome, with nobody issuing any more. -/
def finish : Host.Outcome State Fault Refusal → Host.Outcome State Fault Refusal
  | .next s => .next { s with cur := .none }
  | .fault f => .fault f
  | .refused r => .refused r

/-- Runs what an agent has come to. -/
def runBegin : Begin → Host.Outcome State Fault Refusal
  | .moved s => .next s
  | .run i s => finish (exec i s)
  | .tie i go s tid => match exec i go with
    | .next t => .next (s.tieTrap tid t)
    | .fault f => .fault f
    | .refused r => .refused r

/-- One step. -/
def step (s : State) : Host.Outcome State Fault Refusal :=
  match s.turns with
  | [] => .next s.tick
  | a :: r => runBegin ({ s with turns := r }.begin_ a)

/-- The machine with an instruction stored where the next step fetches it: a stream word and its literal at address 0 of core 0, for a
thread whose stream runs there; or, for the 32 bits of a policy word, the one word of a decision's image (log 26). -/
def State.withFetchWord (s : State) (nbits w : Nat) : State :=
  if nbits = 32 then s.placePolicy (BitVec.ofNat 32 w) else s.placeWord (BitVec.ofNat 64 w) (BitVec.ofNat 64 (w / 2 ^ 64))

end Sys2Proof.Machine
end

