-- ==== Sys2Proof/Safety.lean ====
section
/-! DEFINITION. Safety: a run never stops. And the words in which the statements of Certificates are written: who issues, what an
instruction that completes leaves, the arithmetic of spec/03_scalar.md on bit vectors. -/

namespace Sys2Proof

/-! ### Instructions -/

/-- The rows of the opcode table that are events or host commands: no word encodes them. -/
def Instr.isEvent : Instr → Bool
  | .dispatchDecision .. | .preemptDecision .. | .faultDecision .. | .decisionOverrun .. | .probeAnswer .. | .preemption ..
  | .contextStoreComplete .. | .sliceExpiry .. | .watchdogWait .. | .kmaxOverrun .. | .loopKernelStep .. | .autoCheckpoint ..
  | .barrierEpisodeComplete .. | .drainPoint .. | .mmaPassRetire .. | .standInCheck .. | .saccFoldComplete ..
  | .mdrainComplete .. | .chainDelivery .. | .mloadComplete .. | .accessCommandComplete .. | .pageWalkComplete ..
  | .fenceComplete .. | .gamoReturn .. | .writeTimeout .. | .packetPlace .. | .permitReturn .. | .packetDelivery ..
  | .filterLineArrival .. | .commandComplete .. | .notify .. | .qcfgWrite .. | .pload .. | .policySel .. | .clcfgWrite ..
  | .clcfgApply .. | .intcauseWrite .. | .intvecWrite .. | .devstatWrite .. | .bootGo .. | .registerWrite .. | .quiesce ..
  | .release .. | .image .. | .partitionReset .. | .rollback .. | .decide .. | .kill .. | .tlbinv .. | .restore ..
  | .deviceQuiesce | .deviceRelease | .deviceImage .. | .coreReset | .dieReset | .deviceReset | .retire | .phaseFailure ..
  | .powerControllerCheck .. | .thermalCadenceUpdate .. | .sensorTestStep .. | .thermalWarning .. | .hardTrip | .permitAudit ..
  | .linkCrcError .. | .hbmUncorrectableRead .. | .proxyInvalidation .. | .peerPackageAccess .. | .flashRewriteDone | .powerUp => true
  | _ => false

/-- The word of an instruction decodes to it in every stream that holds it, whatever its header, with its literal after it; the word of a
policy instruction decodes to it; what has no word is an event (02 R15 to R31). -/
def DecodesBack (i : Instr) : Prop :=
  wellFormed i = true →
    match encode i with
    | .stream sts op lit body => sts ≠ [] ∧ ∀ st ∈ sts, ∀ h, decodeWord st (joinWord h op lit.isSome body) (lit.getD 0) = .ok i
    | .policy w => decodePolicy w = .ok i
    | .none => i.isEvent = true

/-! ### Arithmetic at a width (03 R45) -/

/-- The w low bits of an operand. -/
def narrow (ws : WS) (x : Word) : BitVec ws.w.bits := x.setWidth ws.w.bits

/-- w bits extended to 64, by the sign when S = 1. -/
def widen (ws : WS) (x : BitVec ws.w.bits) : Word := if ws.s then x.signExtend 64 else x.setWidth 64

/-- An operand as an integer. -/
def operand (ws : WS) (x : Word) : Int := if ws.s then (narrow ws x).toInt else (narrow ws x).toNat

/-- An integer kept to w bits and extended. -/
def result (ws : WS) (v : Int) : Word := widen ws (BitVec.ofInt ws.w.bits v)

/-- The shifts and the rotation of w bits. -/
def shiftBits (k : ShiftKind) {w : Nat} (x : BitVec w) (c : Nat) : BitVec w :=
  match k with
  | .shl => x <<< c
  | .shr => x >>> c
  | .sar => x.sshiftRight c
  | .rot => x.rotateLeft c

/-- bc's conditions on a 64-bit pattern read as a signed number (04 R62). -/
def BcCond.Holds (c : BcCond) (x : Word) : Prop :=
  match c with
  | .z => x.toInt = 0
  | .nz => x.toInt ≠ 0
  | .neg => x.toInt < 0
  | .nneg => 0 ≤ x.toInt
  | .pos => 0 < x.toInt
  | .npos => x.toInt ≤ 0

/-- The conditions of cmp, cmpi, wadr on two integers (03 R44; 05 R95). -/
def Cond.Holds (c : Cond) (a b : Int) : Prop :=
  match c with
  | .eq => a = b
  | .ne => a ≠ b
  | .lt => a < b
  | .le => a ≤ b
  | .gt => b < a
  | .ge => b ≤ a

end Sys2Proof

namespace Sys2Proof.Machine

/-- A state from which the next step goes on. -/
def Safe (s : State) : Prop := ∃ t, step s = .next t

/-! ### Issuing and completing -/

/-- The head instruction of a stream of thread th is issuing, as k says. -/
def Issues (s : State) (k : Issue) (th : Thread) : Prop := s.cur = .stream k ∧ s.thread? k.tid = some th

/-- The next turn is that of a stream that looks at its head: it runs, no parked command holds the A stream, and the loop unit holds it nowhere
(04 R59, R80; 10 R214). -/
def HeadsTurn (s : State) (tid : Nat) (sid : StreamId) (rest : List Agent) (th : Thread) : Prop :=
  let st := th.strm sid
  let pc := st.pc.toNat
  s.turns = .stream tid sid :: rest ∧ s.dev.power = true ∧ s.thread? tid = some th ∧ th.life.phase = .running ∧ st.run = .running ∧
    (sid = .a → ∀ c ∈ th.a.cmds, c.parked = false) ∧
    (th.takesPart sid = true → th.loop.finished = false →
      th.loop.arrived.getD (streamNum sid) false = false ∧ (th.loop.inStep = false → pc ≠ st.kernel.1) ∧
        (th.loop.inStep = true → pc < st.kernel.1 + st.kernel.2 ∧ th.loop.ks ≤ s.now))

/-- An operand of the issuing scalar stream. -/
def Thread.src (th : Thread) (k : Issue) (x : Src) : Val := (th.regs k.sid).read x

/-- A value whose result is there. -/
def Val.There (v : Val) : Prop := v.wait = none

/-- A value that is there and not poisoned. -/
def Val.Clean (v : Val) : Prop := v.wait = none ∧ v.mark = none

/-- t is s but for one thread, which has become u: memories, cores, partitions, dies and every other thread are as they were. -/
def OnlyThread (s t : State) (tid : Nat) (u : Thread) : Prop :=
  t = { s with threads := t.threads } ∧ t.thread? tid = some u ∧ ∀ x, x ≠ tid → t.thread? x = s.thread? x

/-- t is s but for threads and for what f changes: used where an instruction also changes a named part of the machine. -/
def OnlyThreadAnd (s t : State) (tid : Nat) (u : Thread) (f : State → State) : Prop :=
  t = { f s with threads := t.threads } ∧ t.thread? tid = some u ∧ ∀ x, x ≠ tid → t.thread? x = s.thread? x

/-- The instruction issues, and its thread alone changes: it becomes u. -/
def Completes (s : State) (i : Instr) (k : Issue) (u : Thread) : Prop := ∃ t, exec i s = .next t ∧ OnlyThread s t k.tid u

/-- The head of the issuing stream waits: nothing changes but its wait code and the WDOG in force. -/
def Waits (s : State) (i : Instr) (k : Issue) (th : Thread) (w : WaitFor) : Prop :=
  Completes s i k (th.modStrm k.sid fun st => { st with wait := w, wdog := some (st.wdog.getD (s.part th.life.part).set.wdog.toNat) })

/-- The instruction traps: nothing changes but that its thread takes the trap, with the fault record given (15 R303). -/
def Traps (s : State) (i : Instr) (k : Issue) (th : Thread) (f : TrapInfo) : Prop :=
  Completes s i k (th.takeTrap s.now (f.record k.sid k.pc))

/-- A thread whose scalar stream has pushed a value: the value at age 0, every entry one age older, the entry at age 15 gone; the named copy
written, but that a copy to register 0 is discarded (03 R40, R42). -/
def Thread.pushed (th : Thread) (sid : StreamId) (v : Val) (d : Dst) : Thread :=
  th.modRegs sid fun r =>
    { belt := v :: r.belt.take 15,
      named := match d with
        | none => r.named
        | some n => if n = 0 then r.named else setAt r.named n.toNat v }

end Sys2Proof.Machine

namespace Sys2Proof.Machine

/-! ### Control -/

/-- A taken branch may go to word n: it lies in the fetch window, is no tagged literal, and does not leave a running kernel (04 R62, R82). -/
def MayLand (s : State) (th : Thread) (k : Issue) (n : Nat) : Prop :=
  (th.strm k.sid).inWindow n = true ∧ (s.fetch th n).2 = false ∧
    (th.inKernel k.sid = true → (th.strm k.sid).kernel.1 ≤ n ∧ n < (th.strm k.sid).kernel.1 + (th.strm k.sid).kernel.2)

/-- A thread whose stream goes on at word n. -/
def Thread.jumped (th : Thread) (sid : StreamId) (n : Nat) : Thread := th.modStrm sid fun st => { st with pc := BitVec.ofNat 16 n }

/-! ### Scratchpads and queues -/

/-- The instruction issues with a fresh identity; its thread alone changes: it becomes u. -/
def CompletesFresh (s : State) (i : Instr) (k : Issue) (u : Thread) : Prop :=
  ∃ t, exec i s = .next t ∧ OnlyThreadAnd s t k.tid u fun s => { s with nextId := s.nextId + 1 }

/-- A local address that n bytes may be read from or written to: 28 bits, a pane of the fragment, inside 12 MiB, aligned (05 R84). -/
def LegalAt (th : Thread) (ea n : Nat) : Prop :=
  ea < 2 ^ 28 ∧ ea / 2 ^ 24 < th.panes ∧ ea % 2 ^ 24 + n ≤ 0xC00000 ∧ ea % n = 0

/-- The scratchpad a local address lies in. -/
def State.pad (s : State) (th : Thread) (ea : Nat) : Mem := (s.core (th.coreOf (ea / 2 ^ 24))).sp

/-- No scratchpad word of the thread's panes holds an error that has not been met (05 R100). -/
def NoLatent (s : State) : Prop := ∀ c, (s.core c).spBad = []

/-- A thread with one more access in its C-stream queues. -/
def Thread.queued (th : Thread) (x : CAccess) : Thread := { th with c := { th.c with queue := th.c.queue ++ [x] } }

/-! ### Commands of the A stream -/

/-- A thread whose A stream has issued one more command. -/
def Thread.issued (th : Thread) (c : Cmd) : Thread := { th with a := { th.a with cmds := th.a.cmds ++ [c] } }

/-- A tile operand that suits a record: configured, of the record's distribution where it names one, and its rows long enough (10 R199,
R202). -/
def Suits (th : Thread) (now : Nat) (rc : BufRec) (t : TileRef) (d : Word) : Prop :=
  th.descOf now t = some d ∧ (recDist rc = 7 ∨ recDist rc = descDist d) ∧ recRow rc ≤ 64 * descUlen d

/-- A scale or index tile, named by a value, that n bytes are read from: configured, large enough, FULL, its first n bytes clean (10 R202,
R204). -/
def AuxThere (s : State) (th : Thread) (v : Val) (n : Word → Nat) (bs : List (BitVec 8)) : Prop :=
  v.bits.toNat ≤ 254 ∧ ∃ x m, th.tile? v.bits.toNat = some x ∧ n x.desc ≤ leadSize th.life.rect x.desc ∧ x.isIn .full s.now = true ∧
    s.leadBytes th x.desc (n x.desc) = (m, none) ∧ bs = m.take (n x.desc)

/-- A destination word and a payload that a send may carry (11 R219 to R221). -/
def MaySend (th : Thread) (dst : Word) (src len : Nat) : Prop :=
  dstOff dst % 8 = 0 ∧ len % 8 = 0 ∧ dstOff dst + len ≤ 0xC00000 ∧ src / 2 ^ 24 < th.panes ∧ src % 8 = 0 ∧ src % 2 ^ 24 + len ≤ 0xC00000

/-! ### Fragments -/

/-- The head of a thread's C stream is an instruction that may issue, as k says: the stream runs, no loop unit holds it, the word's counted
cycle has come and its guard lets it run (02 R16; 04 R57, R59, R71). -/
def HeadOfC (s : State) (th : Thread) (k : Issue) (i : Instr) : Prop :=
  let st := th.sc
  let pc := st.pc.toNat
  let w := (s.fetch th pc).1
  let lit := if hasLit w then (s.fetch th (pc + 1)).1 else 0
  let h := headerOf w
  let counted := st.hold.getD (st.idleRef + 1 + h.idle.toNat)
  s.thread? th.tid = some th ∧ th.life.phase = .running ∧ st.run = .running ∧ th.takesPart .c = false ∧ st.inWindow pc = true ∧
    (s.fetch th pc).2 = false ∧ counted ≤ s.now ∧ (hasLit w = true → st.inWindow (pc + 1) = true) ∧ decodeWord .c w lit = .ok i ∧
    st.repCount = 0 ∧ th.guardValue s.now .c h.gsl = some (!h.gnot) ∧
    k = { tid := th.tid, sid := .c, gsl := h.gsl, gnot := h.gnot, gpop := h.gpop, pc := st.pc,
          next := st.pc + (if hasLit w then 2 else 1), counted := counted, word := w, lit := lit }

/-- The status word of the fragment instructions (09 R189). -/
def fragWord (r : Rect) (c : Nat) : Val := { bits := BitVec.ofNat 64 (r.code * 2 ^ 8 + c) }

/-- A fragment that may not take a shape by ffuse: the shape does not contain it, or is its own, or it has a link or a held block partial
(09 R182). -/
def FuseBarred (th : Thread) (sh : Nat) : Prop :=
  sh / 4 < th.life.rect.lrows ∨ sh % 4 < th.life.rect.lcols ∨ sh = th.life.rect.shape ∨ th.linked = true ∨ th.bpHeld = true

/-- The panes of a fuse's target are the partition's and enabled, and its context would fit its save slot (09 R182; log 53). -/
def FuseOwn (s : State) (th : Thread) (target : Rect) : Prop :=
  (∀ c ∈ target.cores, s.ownPane th.life.part c = true) ∧
    saveLen (target.rows * target.cols) th.life.record [] th.life.handles.length ≤ s.slotSize th.life.part

/-- The entries of a split list. -/
def State.splitList (s : State) (th : Thread) (sh : Nat) (v : Val) : List Word :=
  (s.spWords th v.bits.toNat (subRects th.life.rect sh).length).map (·.1)

/-- The records that the entries of a split list name. -/
def State.splitRecords (s : State) (th : Thread) (es : List Word) : List (Option Record) :=
  es.map fun e => if entryStarts e then some ((s.spWords th (entryAddr e) 8).map (·.1)) else none

/-- An fsplit at its drain point whose checks pass (09 R177, R179). -/
def SplitReady (s : State) (th : Thread) (sh : Nat) (v : Val) : Prop :=
  let n := (subRects th.life.rect sh).length
  s.drained177 th = true ∧ sh / 4 ≤ th.life.rect.lrows ∧ sh % 4 ≤ th.life.rect.lcols ∧ th.linked = false ∧ th.bpHeld = false ∧ v.Clean ∧
    (∀ i, i < n → LegalAt th (v.bits.toNat + 8 * i) 8) ∧ NoLatent s ∧ (∀ w ∈ s.spWords th v.bits.toNat n, w.2 = none) ∧
    (∀ e ∈ s.splitList th sh v, entryOk th.panes e = true) ∧
    ∀ e ∈ s.splitList th sh v, entryStarts e = true →
      let r := s.spWords th (entryAddr e) 8
      (∀ w ∈ r, w.2 = none) ∧ recordOk (r.map (·.1)) = true ∧ (trCtx (r.map (·.1)) = 0 ∨ trCtx (r.map (·.1)) = th.life.ctx)

/-! ### Vectors -/

/-- A vector instruction may issue: the results that it names are there, and the n cycles by which bank conflicts delay it have passed (07
R133). -/
def VGo (s : State) (k : Issue) (th : Thread) (xs : List VSrc) (act : List Bool) (d : VDst) (n : Nat) : Prop :=
  th.v.waits s.now xs act d = false ∧ n = bankStall th.v xs ∧ k.counted + n ≤ s.now

/-- A thread whose V stream has pushed a vector: its active lanes, with a copy of them in a named register, ready from the cycle given on, in
which its flags are raised, and n cycles counted in VSTALL (06 R119; 07 R131, R133). -/
def Thread.vwrote (th : Thread) (at_ : Nat) (act : List Bool) (r : List Lane) (d : VDst) (fl : Flags) (n : Nat) : Thread :=
  { th with
    v := th.v.push th.lanes act r d at_,
    dues := if fl = 0 then th.dues else th.dues ++ [{ at_ := at_, sid := .v, flags := fl }],
    cnt := { th.cnt with vstall := min (th.cnt.vstall + n) (2 ^ 48 - 1) } }

/-- What a lane operation raises, taken over the active lanes: a flag is raised when some active lane raises it. -/
def RaisedBy (fl : Flags) (f : Nat → Option Flags) : Prop := ∀ b, b < 8 → (fl.getLsbD b = true ↔ ∃ j x, f j = some x ∧ x.getLsbD b = true)

/-- A lane operation of one operand on the active lanes, each result with its source's poison (07 R131). -/
def LaneWise1 (act : List Bool) (x : List Lane) (f : BitVec 32 → LaneOut) (r : List Lane) (fl : Flags) : Prop :=
  (∀ (j : Nat) (a : Lane), act[j]? = some true → x[j]? = some a → r[j]? = some ({ bits := (f a.bits).1, mark := a.mark } : Lane)) ∧
    RaisedBy fl fun j => if act[j]? = some true then x[j]?.map fun a => (f a.bits).2 else none

/-- The same of two operands. -/
def LaneWise2 (act : List Bool) (x y : List Lane) (f : BitVec 32 → BitVec 32 → LaneOut) (r : List Lane) (fl : Flags) : Prop :=
  (∀ (j : Nat) (a b : Lane), act[j]? = some true → x[j]? = some a → y[j]? = some b →
    r[j]? = some ({ bits := (f a.bits b.bits).1, mark := meet a.mark b.mark } : Lane)) ∧
    RaisedBy fl fun j =>
      if act[j]? = some true then x[j]?.bind fun a => y[j]?.map fun b => (f a.bits b.bits).2 else none

/-- The same of three operands. -/
def LaneWise3 (act : List Bool) (x y z : List Lane) (f : BitVec 32 → BitVec 32 → BitVec 32 → LaneOut) (r : List Lane) (fl : Flags) : Prop :=
  (∀ (j : Nat) (a b c : Lane), act[j]? = some true → x[j]? = some a → y[j]? = some b → z[j]? = some c →
    r[j]? = some ({ bits := (f a.bits b.bits c.bits).1, mark := meet a.mark (meet b.mark c.mark) } : Lane)) ∧
    RaisedBy fl fun j =>
      if act[j]? = some true then x[j]?.bind fun a => y[j]?.bind fun b => z[j]?.map fun c => (f a.bits b.bits c.bits).2 else none

/-- A finite number as an integer multiple of 2^k, where it is one by its own exponent (06 R104). -/
def Num.scaled (x : Num) (k : Int) : Option Int :=
  match x with
  | .fin n m e => if k ≤ e then some ((if n then -(m : Int) else m) * 2 ^ (e - k).toNat) else none
  | _ => none

/-! ### The matrix field -/

/-- The panes of a thread are cores of the machine, each another one. -/
def Placed (s : State) (th : Thread) : Prop :=
  (∀ p, p < th.panes → th.coreOf p < s.cores.length) ∧ ∀ p q, p < th.panes → q < th.panes → th.coreOf p = th.coreOf q → p = q

/-- t is s but for one thread, which has become w, for cores, and for identities given out. -/
def ThreadAndCores (s t : State) (tid : Nat) (w : Thread) : Prop :=
  t = { s with threads := t.threads, cores := t.cores, nextId := t.nextId } ∧ t.thread? tid = some w ∧
    ∀ x, x ≠ tid → t.thread? x = s.thread? x

/-- A thread whose matrix field has one more operation in flight. -/
def Thread.inField (th : Thread) (o : MOp) : Thread := { th with m := { th.m with ops := th.m.ops ++ [o] } }

/-- A cell of a bank of an accumulator. -/
def State.accCell (s : State) (core k e : Nat) : AccCell := sget {} ((s.core core).acc.getD k []) e

/-- A cell of a block-partial register. -/
def State.bpCell (s : State) (core : Nat) (p : Bool) (e : Nat) : BpCell := sget {} ((s.core core).bp.getD (parIx p) []) e

/-! ### Events -/

/-- An event or a host command answers a state that f describes. -/
def Leads (s : State) (i : Instr) (f : State → Prop) : Prop := ∃ t, exec i s = .next t ∧ f t

/-- A thread that was rolled back (15 R320): it is SAVED and restores the context of its checkpoint's half, its undo log is empty, it is the
youngest resume entry of its queue, and each line that its log held once has its logged bytes and mark, every other line what it had. -/
def RolledBack (s t : State) (th : Thread) : Prop :=
  (∃ u, t.thread? th.tid = some u ∧ u.life.phase = .saved ∧ u.life.act = .plain ∧ u.life.undo = [] ∧
    u.life.csaHalf = th.life.ckpt.half ∧ u.life.slot = th.life.slot ∧ u.life.ckpt = th.life.ckpt) ∧
  (th.life.part < s.parts.length → th.life.queue < (s.part th.life.part).queues.length →
    (t.queue th.life.part th.life.queue).resumes =
      ((s.queue th.life.part th.life.queue).resumes.filter fun e => e.tid != th.tid) ++ [{ tid := th.tid }]) ∧
  (∀ x, x ≠ th.tid → t.thread? x = s.thread? x) ∧
  ((∀ e ∈ th.life.undo, e.bytes.length = 64) →
    (∀ l, (∀ e ∈ th.life.undo, e.line ≠ l) → t.mem.line l = s.mem.line l) ∧
    ∀ e ∈ th.life.undo, (∀ f ∈ th.life.undo, f.line = e.line → f = e) → t.mem.line e.line = (e.bytes, e.mark))

/-- Every thread but one is as it was. -/
def OthersKeep (s t : State) (tid : Nat) : Prop := ∀ x, x ≠ tid → t.thread? x = s.thread? x

/-- What the first words of a stored context say (15 R312 to R314): the identity with MAGIC, LENGTH, SHAPE, REASON, CTX, TILES, HWMU, PART, SLOT and
CKSEQ, the CRC over the context, the fault record of a trapped thread, the task record, and of each stream its RIDLE, secondary trap, RUN, PC,
repetition, LATCHED, WAIT and loop counters, then the values and marks of its belt (a result that has not come is void, log 20). -/
def CsaSays (s : State) (th : Thread) (r d : Nat) (b : List (BitVec 8)) : Prop :=
  let w := fun k => word8 b k
  let l := th.life
  w 0 = 0x5448435341310001 ∧
  w 1 = wordFields [(b.length, 32), (l.rect.shape, 28), (r, 24), (l.ctx.toNat, 0)] ∧
  w 2 = wordFields [(trTiles l.record, 48), (trHwmu l.record, 24), (l.part, 16), (l.slot, 0)] ∧ w 3 = l.ckpt.seq ∧
  w 4 = (crc32 (b.take 32 ++ [0, 0, 0, 0] ++ b.drop 36)).setWidth 64 ∧
  (r = 1 → w 8 = wordFields [(l.fault.pc.toNat, 16), (StreamId.code l.fault.strm, 8), (l.fault.code, 0)] ∧ w 9 = l.fault.detail) ∧
  (r ≠ 1 → w 8 = 0 ∧ w 9 = 0) ∧
  (∀ k, k < 8 → w (16 + k) = l.record.getD k 0) ∧
  (∀ x ∈ [(StreamId.c, 32), (.a, 96), (.v, 192), (.m, 224)],
    let st := th.strm x.1
    w x.2 = wordFields [(s.remaining th st d, 32), (st.trap2, 20), (st.run.code, 16), (st.pc.toNat, 0)] ∧
    (st.repCount ≠ 0 → w (x.2 + 1) = wordFields [(st.pc.toNat, 16), (st.repCount, 0)]) ∧ (st.repCount = 0 → w (x.2 + 1) = 0) ∧
    w (x.2 + 2) = wordFields [(b2n st.latched, 4), (st.wait.code, 0)] ∧
    (st.lc.length = 4 → ∀ k, k < 4 → w (x.2 + 4 + k) = st.lc.getD k 0)) ∧
  w 35 = th.sc.latch ∧ w 99 = th.a.fence.word ∧
  (∀ x ∈ [(th.sc.lc, th.c.regs, 32), (th.sa.lc, th.a.regs, 96)], x.1.length = 4 → x.2.1.belt.length = 16 → x.2.1.named.length = 16 →
    ∀ k, k < 16 →
      let v := x.2.1.belt.getD k {}
      let n := x.2.1.named.getD k {}
      w (x.2.2 + 16 + k) = v.stored ∧ w (x.2.2 + 32 + k) = n.stored ∧
      fieldNat (w (x.2.2 + 8 + k / 4)) (16 * (k % 4) + 15) (16 * (k % 4)) = v.mark16 ∧
      fieldNat (w (x.2.2 + 12 + k / 4)) (16 * (k % 4) + 15) (16 * (k % 4)) = mark16 false n.mark) ∧
  ∀ g, g < 16 → (g = 0 ∨ th.isStageGuard g = true → w (240 + g) = 0) ∧
    (g ≠ 0 → th.isStageGuard g = false → w (240 + g) = guardWord (th.guards.getD g []))

/-- What the resumption of a SAVED thread on a rectangle leads to, where its image is accepted, its context is read and no parked command names a
tile that was not saved (12 R255; 15 R301): the panes are leased to it and it runs; every stream stands as its context has it, and one that was
RUNNING issues no earlier than the next cycle and its remaining idle; its commands are parked no more and stand at their resume indices. Where
the decision chose .resume and the trap is no translation, permission or WATCHDOG trap, the poisoned element of a parked command is skipped, or
the trapping instruction completes as a guarded-off one; what else the thread holds is as its context has it. -/
def Resumes (s t : State) (old : Thread) (rc : Rect) : Prop :=
  let l := old.life
  let base := s.slotBase l.part l.slot l.csaHalf
  let side := (s.padSide (l.sides.getD (b2n l.csaHalf) {})).2
  let f := l.fault
  ∀ img h b m1 m2 t0, (s.resumeImage old rc).2 = .ok img → s.readPool l.part base 16 = some (h, m1) →
    fieldNat (word8 h 1) 63 32 ≤ s.slotSize l.part → s.readPool l.part base (fieldNat (word8 h 1) 63 32) = some (b, m2) →
    (({ old with life := { l with rect := rc } } : Thread).load img).ofCsa b (some side) = some t0 →
    (∀ c ∈ t0.a.cmds, c.lost (trTiles t0.life.record) t0.rings = false ∧ ∀ x ∈ side.cmds, x.id = c.id → x.lost = false) →
    ∃ u, t.thread? old.tid = some u ∧ u.life.phase = .running ∧ u.life.rect = rc ∧ u.life.slot = l.slot ∧ u.life.trapping = false ∧
      u.life.act = .plain ∧ u.life.keys = l.keys ∧ u.life.start = s.now ∧
      (∀ k ∈ rc.cores, k < s.cores.length → (t.core k).lease = .leased old.tid) ∧
      (∀ x, (u.strm x).run = (t0.strm x).run ∧ (u.strm x).lc = (t0.strm x).lc) ∧
      (∀ x, x ≠ f.strm ∨ l.act ≠ .resume → (u.strm x).pc = (t0.strm x).pc ∧
        ((t0.strm x).run = .running →
          (u.strm x).hold = some (s.now + 1 + fieldNat (word8 b (match x with | .c => 32 | .a => 96 | .v => 192 | .m => 224)) 41 32))) ∧
      (∀ c ∈ u.a.cmds, c.parked = false) ∧
      (let keeps := (u.a.cmds.map fun c => (c.instr, c.elem)) = (t0.a.cmds.map fun c => (c.instr, c.elem))
       let stays := (u.strm f.strm).pc = (t0.strm f.strm).pc ∧ u.c.regs = t0.c.regs ∧ u.v = t0.v ∧ u.guards = t0.guards
       (l.act ≠ .resume ∨ f.code = 0 ∨ f.code = trapTranslation ∨ f.code = trapPermission ∨ f.code = trapWatchdog → keeps ∧ stays) ∧
       (l.act = .resume → f.code = trapPoison ∨ f.code = trapBounds →
         (∀ id c rest, l.faultCmd = some id → t0.a.cmds = c :: rest → stays ∧ ∃ c1 rest1, u.a.cmds = c1 :: rest1 ∧ c1.elem = c.elem + 1 ∧
           c1.instr = c.instr ∧ (rest1.map fun c => (c.instr, c.elem)) = (rest.map fun c => (c.instr, c.elem))) ∧
         (l.faultCmd = none → (t0.strm f.strm).run = .running → keeps ∧ ∃ n, (n = 1 ∨ n = 2) ∧
           (u.strm f.strm).pc = ((t0.strm f.strm).advance s.now ((t0.strm f.strm).pc + n)).pc)))

/-- The save pool takes the context of a thread that is being saved for a reason other than a checkpoint (15 R311). -/
def PoolTakes (s : State) (th : Thread) (r d : Nat) : Prop :=
  (s.toStore th r d).2.1.writeCsa (s.toStore th r d).1 (s.toStore th r d).2.2 (!th.life.ckpt.half) ≠ none

end Sys2Proof.Machine
end

