-- ==== Sys2Proof/Certificates/Slice0/Obligations.lean ====
section
/-! DEFINITION. What is stated of the model for the provers: each statement formalises rules of spec/, named in its docstring; where a clause
rests on a choice of the model, the docstring names the log entry. -/

section Statements

open Sys2Proof Sys2Proof.Machine

/-! ### Words, steps, reset -/

/-- Decoding what the encoder writes gives the instruction back, in every stream whose map holds it, whatever its header and with its
literal after it; for a policy instruction, from its 32 bits; only events have no word (02 R15 to R31). -/
def Obligations.EncodedInstructionDecodesBack : Prop := ∀ i : Instr, DecodesBack i

/-- Words that the spec prints, decoded: some of every class of stream instructions (scalar, control, scratchpad, task, token and system words of C,
access words of A, vector words, matrix words), and some of a policy's; events have no word (02 R15 to R31; 13 R266). -/
def Obligations.PrintedWordsDecode : Prop :=
  decodeWord .c 0x0000130AB9000000 0 = .ok (.mulh ⟨.w64, false⟩ (.belt 2) (.named 5) (some 9)) ∧
  decodeWord .a 0x00002D0414800003 0 = .ok (.shi .sar ⟨.w16, true⟩ (.belt 1) (.short 3) none) ∧
  decodeWord .c 0x0000450080FFFFFB 0 = .ok (.loop 2 (-5)) ∧
  decodeWord .c 0x0000490080000000 0 = .ok (.gpush (.belt 0) 2) ∧
  decodeWord .a 0x0000495440000000 0 = .ok (.gpush (.named 5) 1) ∧
  decodeWord .a 0x00004B0002800000 0 = .ok (.wtw (.reg (.belt 0)) (.tile 20)) ∧
  decodeWord .c 0x00004C0262880000 0 = .ok (.rtw true (.tile 20) (some 3)) ∧
  decodeWord .c 0x00004701C0000000 0 = .ok (.go true true true) ∧
  decodeWord .c 0x0000565000000B14 0 = .ok (.aop .cas ⟨.w64, true⟩ (.named 4) (.belt 0) 0 (some 6)) ∧
  decodeWord .c 0x0000604C14000000 0 = .ok (.gjoin (.named 3) (some 4)) ∧
  decodeWord .c 0x0000684E95000000 0 = .ok (.spawn (.named 3) (.named 4) (some 5)) ∧
  decodeWord .c 0x0000690000000000 0 = .ok (.done) ∧
  decodeWord .c 0x00006B4E80150000 0 = .ok (.rngset (.named 3) (.named 4) (.named 5)) ∧
  decodeWord .c 0x00006C0013000000 0 = .ok (.yield (some 3)) ∧
  decodeWord .c 0x0000784E80000A80 0 = .ok (.smopen (.named 3) (.named 4) (some 5)) ∧
  decodeWord .c 0x00007A5400028C18 0 = .ok (.smprop (.named 5) (.tile 20) 3 0 (some 8)) ∧
  decodeWord .c 0x00007F4E80000B08 0 = .ok (.tacc true (.named 3) (.named 4) (some 6)) ∧
  decodeWord .c 0x0000F10240000084 0 = .ok (.sysr (.short 0x084) (some 2)) ∧
  decodeWord .c 0x0000F25000000084 0 = .ok (.sysw (.named 4) (.short 0x084)) ∧
  decodeWord .c 0x0000F40260000000 0 = .ok (.ptst false (.belt 0) none (some 3)) ∧
  decodeWord .a 0x0000805000200000 0 = .ok (.brec 1 (.named 4)) ∧
  decodeWord .a 0x0000814260201002 0 = .ok (.tld none true 1 (.ring 0) (.named 0) (.named 3)) ∧
  decodeWord .a 0x0000860000001008 0 = .ok (.rcfg false 0 0 1) ∧
  decodeWord .a 0x00008A5200010000 0 = .ok (.tlsp (.tile 8) (.named 4) (.named 0)) ∧
  decodeWord .a 0x00008D52A002C000 0 = .ok (.sendf .short (.named 4) (.reg (.named 5)) (.named 6)) ∧
  decodeWord .a 0x00008ED000000000 1 = .ok (.flag .short (.named 4) (.lit 1)) ∧
  decodeWord .a 0x0000900000000B88 0 = .ok (.fence .dev (some 7)) ∧
  decodeWord .a 0x00009252A8400000 0 = .ok (.fltopen 2 8 (.named 4) (.reg (.named 5))) ∧
  decodeWord .v 0x00005800B2800008 0 = .ok (.vld ⟨2, true, false, 8⟩ (some 5)) ∧
  decodeWord .v 0x00001F2980000002 0 = .ok (.vcmp .lt .f32 false (.named 4) .zero none) ∧
  decodeWord .v 0x00002B62013FFFE0 0 = .ok (.vaddi .s32 false .lane (.short (-32)) none) ∧
  decodeWord .v 0x00006128C8160400 0 = .ok (.vqnt .e4m3 .f32 .dth .dflt false (.named 4) (.named 9) (some 12)) ∧
  decodeWord .v 0x0000632800148000 0 = .ok (.vbsc .e4m3 .f32 (.named 4) (some 9)) ∧
  decodeWord .v 0x0000650098119820 0 = .ok (.vpak .e4m3 false 2 (.belt 0) (.named 3) (some 3)) ∧
  decodeWord .v 0x0000670000000005 0 = .ok (.vdph 5) ∧
  decodeWord .v 0x0000700040000001 0 = .ok (.vmirror 8 true) ∧
  decodeWord .m 0x0000100040100000 0 = .ok (.mma false .e4m3 .e5m2 0 1) ∧
  decodeWord .m 0x000011010C000000 0 = .ok (.sacc false 0 2 3) ∧
  decodeWord .m 0x0000116216000000 0 = .ok (.saccI true 2 4 5) ∧
  decodeWord .m 0x0000121000000000 0 = .ok (.macz 1) ∧
  decodeWord .m 0x00001320D8442800 0 = .ok (.mdrain 1 (.ring 6) true .e4m3 .dth .sat false true 2) ∧
  decodeWord .m 0x0000150280000000 0 = .ok (.mchk (.tile 20)) ∧
  decodePolicy 0x04400000 = .ok (.pview .hook 1 0 0) ∧
  decodePolicy 0x3404000D = .ok (.pbf 1 13) ∧
  decodePolicy 0x08800001 = .ok (.pli 2 1) ∧
  decodePolicy 0x50000002 = .ok (.pfaultPark) ∧
  decodePolicy 0x48000003 = .ok (.pickGrantall) ∧
  decodePolicy 0x3C400003 = .ok (.qloop 1 3) ∧
  decodePolicy 0x48140000 = .ok (.pickDisp 5 0) ∧
  decodePolicy 0x5C000000 = .ok (.pend)

/-- A running stream's turn issues the instruction that the word at its head decodes to: the stream is running, the loop unit holds it
nowhere, the word is in the fetch window and no tagged literal, its counted cycle has come, its literal is in the window, and its guard lets it
run (02 R16; 04 R57, R59, R71, R80). The step is then exec of that instruction, with the stream named as the issuer before it and nobody after. -/
def Obligations.StepRunsTheStreamInstructionDecoded : Prop :=
  ∀ (s : State) (tid : Nat) (sid : StreamId) (rest : List Agent) (th : Thread) (i : Instr) (g : Bool),
    let st := th.strm sid
    let pc := st.pc.toNat
    let w := (s.fetch th pc).1
    let lit := if hasLit w then (s.fetch th (pc + 1)).1 else 0
    let h := headerOf w
    let counted := st.hold.getD (st.idleRef + 1 + h.idle.toNat)
    HeadsTurn s tid sid rest th →
    st.inWindow pc = true → (s.fetch th pc).2 = false → counted ≤ s.now → (hasLit w = true → st.inWindow (pc + 1) = true) →
    decodeWord sid w lit = .ok i → (0 < st.repCount → repForbids sid i = false) →
    ({ s with turns := rest } : State).headKept th sid h.gsl = false → th.guardValue s.now sid h.gsl = some g → g ≠ h.gnot →
      step s = finish (exec i { s with
        turns := rest,
        cur := .stream
          { tid := th.tid, sid := sid, gsl := h.gsl, gnot := h.gnot, gpop := h.gpop, pc := st.pc,
            next := st.pc + (if hasLit w then 2 else 1), counted := counted, word := w, lit := lit } })

/-- An event's turn runs the event; a running decision's turn runs the policy instruction its image holds at its program counter, while it has
cycles left; an empty list of turns ends the cycle (13 R262; log 1). -/
def Obligations.StepRunsEventsAndPolicies : Prop :=
  (∀ (s : State) (i : Instr) (rest : List Agent), s.turns = .event i :: rest → s.dev.power = true →
    step s = finish (exec i { s with turns := rest })) ∧
  (∀ (s : State) (p : Nat) (rest : List Agent) (d : Decision) (i : Instr), s.turns = .policy p :: rest → s.dev.power = true →
    (s.part p).pol.running = some d → d.image ≠ [] → d.cycles < 256 → decodePolicy (d.image.getD d.pc 0) = .ok i →
      step s = finish (exec i { s with turns := rest, cur := .policy p })) ∧
  (∀ s : State, s.turns = [] → step s = .next s.tick)

/-- A place that holds no instruction of its stream is not run: a word outside the fetch window or tagged, at IDLE 0; a word whose literal lies
outside the window; a word that is illegal in its stream's map. In the cycle its turn to issue comes, the thread takes ILLEGAL with the program
counter at it, and nothing else changes (02 R16, R17; 15 R303). A guarded-off instruction keeps its place: it pushes a void 0 exactly when it
would have pushed a value, it pops its guard as GPOP says, its stream goes on past it, and it writes no named register and nothing else
(04 R74). An instruction whose guard slot is empty waits; one whose guard an earlier stream's `gpush` may still pop in this cycle has its turn put
behind (04 R71). -/
def Obligations.IllegalAndGuardedOffWords : Prop :=
  (∀ (s : State) (tid : Nat) (sid : StreamId) (rest : List Agent) (th : Thread) (e : Illegal),
    let st := th.strm sid
    let pc := st.pc.toNat
    let w := (s.fetch th pc).1
    let ill := ∃ t, step s = .next t ∧
      OnlyThread { s with turns := rest } t tid (th.modLife fun l =>
        { l with phase := .saving 1 s.now, trapping := true, fault := { strm := sid, code := 1, pc := st.pc }, trapAt := some s.now })
    HeadsTurn s tid sid rest th → th.life.trapping = false → th.life.waitingTrap = none →
    ((st.inWindow pc = false ∨ (s.fetch th pc).2 = true) → st.hold.getD (st.idleRef + 1) ≤ s.now → ill) ∧
    (st.inWindow pc = true → (s.fetch th pc).2 = false → st.hold.getD (st.idleRef + 1 + (headerOf w).idle.toNat) ≤ s.now →
      (hasLit w = true → st.inWindow (pc + 1) = false → ill) ∧
      ((hasLit w = true → st.inWindow (pc + 1) = true) →
        decodeWord sid w (if hasLit w then (s.fetch th (pc + 1)).1 else 0) = .error e → ill))) ∧
  (∀ (s : State) (tid : Nat) (sid : StreamId) (rest : List Agent) (th : Thread) (i : Instr),
    let st := th.strm sid
    let pc := st.pc.toNat
    let w := (s.fetch th pc).1
    let lit := if hasLit w then (s.fetch th (pc + 1)).1 else 0
    let h := headerOf w
    let k : Issue := { tid := tid, sid := sid, gsl := h.gsl, gnot := h.gnot, gpop := h.gpop, next := st.pc + (if hasLit w then 2 else 1) }
    HeadsTurn s tid sid rest th →
    st.inWindow pc = true → (s.fetch th pc).2 = false → st.hold.getD (st.idleRef + 1 + h.idle.toNat) ≤ s.now →
    (hasLit w = true → st.inWindow (pc + 1) = true) → decodeWord sid w lit = .ok i → (0 < st.repCount → repForbids sid i = false) →
    let hidden := ({ s with turns := rest } : State).headKept th sid h.gsl
    (hidden = false → th.guardValue s.now sid h.gsl = some h.gnot →
      let u := th.advance k s.now
      ∃ t, step s = .next t ∧ OnlyThread { s with turns := rest } t tid
        (if pushes i then
          match sid with
          | .c => { u with c := { u.c with regs := { u.c.regs with belt := Val.empty :: u.c.regs.belt.take 15 } } }
          | .a => { u with a := { u.a with regs := { u.a.regs with belt := Val.empty :: u.a.regs.belt.take 15 } } }
          | .v => { u with v := { u.v with belt := { void := true } :: u.v.belt.take 15 } }
          | .m => u
        else u)) ∧
    (hidden = false → th.guardValue s.now sid h.gsl = none → th.tid = tid →
      ∃ t, step s = .next t ∧ OnlyThread { s with turns := rest } t tid (th.modStrm sid fun st =>
        { st with wait := .guard, wdog := some (st.wdog.getD (s.part th.life.part).set.wdog.toNat) })) ∧
    (hidden = true → th.tid = tid → ∃ t, step s = .next t ∧
      (sid = .a → t = { s with turns := rest }) ∧
      (sid ≠ .a → OnlyThread { s with turns := rest ++ [.stream tid sid, .stream tid .c, .stream tid .a] } t tid
        (th.modStrm sid fun st => { st with behind := some s.now }))))

/-- What issuing does to the stream: outside rep the program counter goes to the next word, and the issue cycle is the idle reference (R57);
under rep one repetition is counted and the word stays at the head (R67); the other streams are as they were; the guard slot named loses its
first visible value when GPOP = 1 and the slot is neither g0 nor a stage guard, and the others keep theirs (R71). -/
def Obligations.IssueAdvancesTheStream : Prop :=
  ∀ (th : Thread) (k : Issue) (now : Nat),
    let u := th.advance k now
    ((th.strm k.sid).repCount ≤ 1 →
      (u.strm k.sid).pc = k.next ∧ (u.strm k.sid).idleRef = now ∧ (u.strm k.sid).repCount = 0 ∧ (u.strm k.sid).hold = none) ∧
    (1 < (th.strm k.sid).repCount →
      (u.strm k.sid).pc = (th.strm k.sid).pc ∧ (u.strm k.sid).idleRef = now ∧ (u.strm k.sid).repCount = (th.strm k.sid).repCount - 1 ∧
        (u.strm k.sid).hold = some (now + 1)) ∧
    (∀ x, x ≠ k.sid → u.strm x = th.strm x) ∧
    (∀ n : Nat, n ≠ k.gsl.toNat → u.guards.getD n [] = th.guards.getD n []) ∧
    (k.gpop = false ∨ k.gsl = 0 ∨ th.isStageGuard k.gsl.toNat = true → u.guards = th.guards) ∧
    (k.gpop = true → k.gsl ≠ 0 → th.isStageGuard k.gsl.toNat = false →
      ∀ (pre : List GuardVal) (g : GuardVal) (post : List GuardVal), th.guards.getD k.gsl.toNat [] = pre ++ g :: post →
        (∀ x ∈ pre, x.seen now = false) → g.seen now = true → u.guards.getD k.gsl.toNat [] = pre ++ post) ∧
    u = { th with sc := u.sc, sa := u.sa, sv := u.sv, sm := u.sm, guards := u.guards }

/-- The machine right after reset: no thread, no packet, no cluster in a partition, every pane unleased with CAD 1 and LCYC 0, memory with
nothing listed, KMAX and BYPASS_MAX at their reset values, PHOK 36 and RCAD 1 on every rail (01 R8; 16 R323, R333 to R336); each die has
128 GB of HBM (00 R1, R2), into which the listed homes fit, and in which every line has a place as long as nothing is stored. What the spec states no value for is the model's choice (log 5) and is not stated
here, but for a memory with nothing listed (log 2), an empty list of homes (log 7) and no retired memory (log 5). -/
def Obligations.ResetLeavesAnEmptyDevice : Prop :=
  let s := State.reset
  s.threads = [] ∧ s.packets = [] ∧ s.mem = {} ∧ s.cores.length = 128 ∧ s.parts.length = 16 ∧ s.dies.length = 8 ∧
  (∀ k, s.partOf k = none) ∧
  (∀ k, k < 128 → (s.core k).lease = .unleased ∧ (s.core k).cad = 1 ∧ (s.core k).lcyc = 0 ∧ (s.core k).sp = {} ∧ (s.core k).trf = {}) ∧
  (∀ p, p < 16 → (s.part p).set.bypassMax = 64 ∧ (s.part p).set.kmax = 16777216 ∧ (s.part p).set.wdog = 0 ∧ (s.part p).pol.dis = false) ∧
  (∀ r, r < 4 → (s.rails.getD r {}).phok = 36 ∧ (s.rails.getD r {}).rcad = 1 ∧ (s.rails.getD r {}).derate = false) ∧
  (∀ d, d < 8 → s.hbmBytes d = 128000000000) ∧ s.homesFit = true ∧ ∀ l, s.held l = true

/-- The memory of the package is in canonical form at reset. -/
def Obligations.ResetMemoryIsCanonical : Prop := State.reset.mem.wf = true

/-- Every step keeps the memory of the package in canonical form: addresses rise and nothing is listed that reads as unlisted, so that two
memories that read alike are equal. -/
def Obligations.StepKeepsMemoryCanonical : Prop := ∀ s t : State, s.mem.wf = true → step s = .next t → t.mem.wf = true

/-! ### The scalar class (03) -/

/-- The integer instructions compute in the exact integers on their operands narrowed to the width, and narrow once at the end; the result
takes the lower tag of its poisoned operands, and is pushed with its named copy (03 R40, R44, R45, R48, R51). The bitwise instructions,
the shifts and the rotation act on the w low bits, with the count the second operand modulo w, and extend the result (03 R45, R48). -/
def Obligations.ScalarIntegerAndBitwiseResults : Prop :=
  (∀ (s : State) (k : Issue) (th : Thread) (ws : WS) (x y : Src) (d : Dst),
    Issues s k th → (th.src k x).There → (th.src k y).There →
      let a := operand ws (th.src k x).bits
      let b := operand ws (th.src k y).bits
      ∀ p ∈ [(Instr.add ws x y d, a + b), (.sub ws x y d, a - b), (.mul ws x y d, a * b),
          (.mulh ws x y d, (a * b) / (2 ^ ws.w.bits : Nat)), (.div ws x y d, if b = 0 then -1 else a.tdiv b),
          (.rem ws x y d, if b = 0 then a else a.tmod b), (.min ws x y d, min a b), (.max ws x y d, max a b),
          (.cmp .eq ws x y d, if a = b then 1 else 0), (.cmp .ne ws x y d, if a ≠ b then 1 else 0),
          (.cmp .lt ws x y d, if a < b then 1 else 0), (.cmp .le ws x y d, if a ≤ b then 1 else 0),
          (.cmp .gt ws x y d, if b < a then 1 else 0), (.cmp .ge ws x y d, if b ≤ a then 1 else 0)],
        Completes s p.1 k ((th.advance k s.now).pushed k.sid
          { bits := (match p.1 with | .cmp .. => BitVec.ofInt 64 p.2 | _ => result ws p.2),
            mark := meet (th.src k x).mark (th.src k y).mark } d)) ∧
  (∀ (s : State) (k : Issue) (th : Thread) (ws : WS) (x y : Src) (d : Dst),
    Issues s k th → (th.src k x).There → (th.src k y).There →
      let a := narrow ws (th.src k x).bits
      let b := narrow ws (th.src k y).bits
      let c := (th.src k y).bits.toNat % ws.w.bits
      ∀ p ∈ [(Instr.and ws x y d, a &&& b), (.or ws x y d, a ||| b), (.xor ws x y d, a ^^^ b), (.andn ws x y d, a &&& ~~~b),
          (.shl ws x y d, shiftBits .shl a c), (.shr ws x y d, shiftBits .shr a c), (.sar ws x y d, shiftBits .sar a c),
          (.rot ws x y d, shiftBits .rot a c)],
        Completes s p.1 k ((th.advance k s.now).pushed k.sid
          { bits := widen ws p.2, mark := meet (th.src k x).mark (th.src k y).mark } d))

/-- The immediate forms compute as the two-operand forms with the immediate, sign-extended from 22 bits or the literal, as the second operand,
never poisoned; lit pushes its immediate at the width (03 R44, R51, R52). -/
def Obligations.ScalarImmediateResults : Prop :=
  ∀ (s : State) (k : Issue) (th : Thread) (ws : WS) (x : Src) (v : BitVec 22) (l : Word) (i : Imm) (d : Dst),
    Issues s k th → (th.src k x).There → i = .short v ∨ i = .lit l →
      let q : Word := match i with | .short v => v.signExtend 64 | .lit l => l
      let a := operand ws (th.src k x).bits
      let b := operand ws q
      let n := narrow ws (th.src k x).bits
      (∀ p ∈ [(Instr.addi ws x i d, result ws (a + b)), (.andi ws x i d, widen ws (n &&& narrow ws q)),
          (.ori ws x i d, widen ws (n ||| narrow ws q)), (.xori ws x i d, widen ws (n ^^^ narrow ws q)),
          (.shi .shl ws x i d, widen ws (shiftBits .shl n (q.toNat % ws.w.bits))),
          (.shi .shr ws x i d, widen ws (shiftBits .shr n (q.toNat % ws.w.bits))),
          (.shi .sar ws x i d, widen ws (shiftBits .sar n (q.toNat % ws.w.bits))),
          (.shi .rot ws x i d, widen ws (shiftBits .rot n (q.toNat % ws.w.bits))),
          (.cmpi .eq ws x i d, if a = b then 1 else 0), (.cmpi .ne ws x i d, if a ≠ b then 1 else 0),
          (.cmpi .lt ws x i d, if a < b then 1 else 0), (.cmpi .le ws x i d, if a ≤ b then 1 else 0),
          (.cmpi .gt ws x i d, if b < a then 1 else 0), (.cmpi .ge ws x i d, if b ≤ a then 1 else 0)],
        Completes s p.1 k ((th.advance k s.now).pushed k.sid { bits := p.2, mark := (th.src k x).mark } d)) ∧
      Completes s (.lit ws i d) k ((th.advance k s.now).pushed k.sid { bits := result ws b } d)

/-- nop changes nothing but its place; mov pushes its operand; ext narrows and extends it; clz and popc count; sel takes one operand and only
its poison, beside the condition's; bext extracts a field; bins inserts one, dropping what passes bit 63; lea adds (03 R46, R47, R53 to R56). -/
def Obligations.ScalarOtherResults : Prop :=
  ∀ (s : State) (k : Issue) (th : Thread) (ws : WS) (x y z : Src) (d : Dst),
    Issues s k th →
      let u := th.advance k s.now
      let a := th.src k x
      let b := th.src k y
      let c := th.src k z
      Completes s .nop k u ∧
      (a.There →
        Completes s (.mov x d) k (u.pushed k.sid { bits := a.bits, mark := a.mark } d) ∧
        Completes s (.ext ws x d) k (u.pushed k.sid { bits := widen ws (narrow ws a.bits), mark := a.mark } d) ∧
        (∃ n : Nat, n ≤ ws.w.bits ∧ (∀ j, ws.w.bits - n ≤ j → j < ws.w.bits → bitOf a.bits j = false) ∧
          (n < ws.w.bits → bitOf a.bits (ws.w.bits - 1 - n) = true) ∧
          Completes s (.clz ws x d) k (u.pushed k.sid { bits := result ws n, mark := a.mark } d)) ∧
        Completes s (.popc ws x d) k (u.pushed k.sid
          { bits := result ws ((List.range ws.w.bits).filter fun j => bitOf a.bits j).length, mark := a.mark } d) ∧
        (∀ (pos len1 : BitVec 6), pos.toNat + len1.toNat + 1 ≤ 64 → ∀ sgn : Bool,
          let f := a.bits.extractLsb' pos.toNat (len1.toNat + 1)
          Completes s (.bext sgn x pos len1 d) k
            (u.pushed k.sid { bits := if sgn then f.signExtend 64 else f.setWidth 64, mark := a.mark } d))) ∧
      (a.There → b.There → c.There →
        (∀ v, v = (if a.bits = 0 then c else b) →
          Completes s (.sel x y z d) k (u.pushed k.sid { bits := v.bits, mark := meet a.mark v.mark } d)) ∧
        (∀ n : BitVec 3, Completes s (.lea x y z n d) k
          (u.pushed k.sid { bits := a.bits + b.bits * (2 ^ n.toNat : Nat) + c.bits, mark := meet a.mark (meet b.mark c.mark) } d)) ∧
        (∀ (pos len1 : BitVec 6), pos.toNat + len1.toNat + 1 ≤ 64 →
          let q := (pos.toNat + c.bits.toNat) % 64
          ∃ r : Word, (∀ j, j < 64 → bitOf r j = if q ≤ j ∧ j - q ≤ len1.toNat then bitOf b.bits (j - q) else bitOf a.bits j) ∧
            Completes s (.bins x y z pos len1 d) k (u.pushed k.sid { bits := r, mark := meet a.mark (meet b.mark c.mark) } d)))

/-- A scalar instruction whose operand's result is not there waits at the head (03 R50). How poison merges: the result is clean when every
operand is, and else carries the least of the tags as a 12-bit number (03 R44; 15 R304). Register 0 of the named file reads 0, clean,
whatever has been written, and a named copy directed to it is discarded while the push takes place (03 R42). A void entry reads 0, clean,
without a wait, and what is computed from void entries is valid (03 R41). -/
def Obligations.ScalarOperands : Prop :=
  (∀ (s : State) (k : Issue) (th : Thread) (ws : WS) (x y z : Src) (c : Cond) (i : Imm) (n : BitVec 3) (d : Dst),
    Issues s k th → ¬ (th.src k x).There →
      ∀ p ∈ [Instr.add ws x y d, .sub ws x y d, .mul ws x y d, .mulh ws x y d, .div ws x y d, .rem ws x y d, .and ws x y d,
          .or ws x y d, .xor ws x y d, .andn ws x y d, .shl ws x y d, .shr ws x y d, .sar ws x y d, .rot ws x y d, .min ws x y d,
          .max ws x y d, .cmp c ws x y d, .sel x y z d, .clz ws x d, .popc ws x d, .ext ws x d, .lea x y z n d, .mov x d,
          .addi ws x i d, .andi ws x i d, .ori ws x i d, .xori ws x i d, .cmpi c ws x i d],
        Waits s p k th .result) ∧
  (∀ l : List Mark,
    (meetAll l = none ↔ ∀ m ∈ l, m = none) ∧
    ∀ t, meetAll l = some t → some t ∈ l ∧ ∀ t', some t' ∈ l → t.toNat ≤ t'.toNat) ∧
  ((∀ r : Scalar, r.read (.named 0) = { bits := 0 }) ∧
  (∀ (r : Scalar) (a : BitVec 4), (r.belt.getD a.toNat Val.empty).void = true →
    (r.read (.belt a)).bits = 0 ∧ (r.read (.belt a)).mark = none ∧ (r.read (.belt a)).wait = none) ∧
  (∀ (s : State) (k : Issue) (th : Thread) (ws : WS) (a b : BitVec 4) (d : Dst), Issues s k th →
    ((th.regs k.sid).belt.getD a.toNat Val.empty).void = true → ((th.regs k.sid).belt.getD b.toNat Val.empty).void = true →
      let valid : Val := { void := false, bits := 0, mark := none }
      Completes s (.mov (.belt a) d) k ((th.advance k s.now).pushed k.sid valid d) ∧
      Completes s (.add ws (.belt a) (.belt b) d) k ((th.advance k s.now).pushed k.sid valid d)) ∧
  (∀ (s : State) (k : Issue) (th : Thread) (x : Src), Issues s k th → k.sid = .c → (th.src k x).There →
    ∃ t u, exec (.mov x (some 0)) s = .next t ∧ t.thread? k.tid = some u ∧ u.c.regs.named = th.c.regs.named ∧
      u.c.regs.belt.head? = some { bits := (th.src k x).bits, mark := (th.src k x).mark }))

/-- What a scalar instruction leaves alone, whether it completes or waits: memory, cores, partitions, dies and every other thread; of its
thread everything but its own stream, its guard slot and its own registers, of which the named registers other than its destination stay.
What the control instructions leave alone: memory, cores, partitions, dies and every other thread; of their thread every register, flag,
counter, tile and ring, the vector and matrix state and the commands. -/
def Obligations.ScalarAndControlFrame : Prop :=
  (∀ (s t : State) (k : Issue) (th : Thread) (ws : WS) (x y z : Src) (c : Cond) (sh : ShiftKind) (im : Imm) (sg : Bool) (p l : BitVec 6)
    (n : BitVec 3) (d : Dst),
    Issues s k th →
    ∀ i ∈ [Instr.nop, .add ws x y d, .sub ws x y d, .mul ws x y d, .mulh ws x y d, .div ws x y d, .rem ws x y d, .and ws x y d,
        .or ws x y d, .xor ws x y d, .andn ws x y d, .shl ws x y d, .shr ws x y d, .sar ws x y d, .rot ws x y d, .min ws x y d,
        .max ws x y d, .cmp c ws x y d, .sel x y z d, .clz ws x d, .popc ws x d, .bext sg x p l d, .bins x y z p l d, .ext ws x d,
        .lea x y z n d, .mov x d, .addi ws x im d, .andi ws x im d, .ori ws x im d, .xori ws x im d, .shi sh ws x im d,
        .cmpi c ws x im d, .lit ws im d],
      exec i s = .next t →
        ∃ u, OnlyThread s t k.tid u ∧
          u = { th with sc := u.sc, sa := u.sa, sv := u.sv, sm := u.sm, guards := u.guards, c := u.c, a := u.a } ∧
          (∀ q, q ≠ k.sid → u.strm q = th.strm q) ∧
          u.c = { th.c with regs := u.c.regs } ∧ u.a = { th.a with regs := u.a.regs } ∧
          (k.sid = .c → u.a = th.a) ∧ (k.sid = .a → u.c = th.c) ∧
          (∀ m : BitVec 4, d ≠ some m → (u.regs k.sid).read (.named m) = (th.regs k.sid).read (.named m)) ∧
          (∀ a, t.mem.byte a = s.mem.byte a)) ∧
  (∀ (s t : State) (k : Issue) (th : Thread) (off : BitVec 24) (x : Src) (c : BcCond) (m : BitVec 2) (n : BitVec 13) (ga gv gm : Bool)
    (e : BitVec 4),
    Issues s k th →
    ∀ i ∈ [Instr.b off, .bc c x off, .jmp x, .call off, .ret, .loop m off, .repImm n, .repOperand x, .go ga gv gm, .stop, .gpush x e,
        .gflush e],
      exec i s = .next t →
        ∃ u, OnlyThread s t k.tid u ∧
          u = { th with life := u.life, sc := u.sc, sa := u.sa, sv := u.sv, sm := u.sm, guards := u.guards,
                        c := { th.c with stack := u.c.stack } } ∧
          (∀ a, t.mem.byte a = s.mem.byte a))

/-! ### Control and coupling (04) -/

/-- A taken branch goes to its target: b and a bc whose condition holds to their own address plus OFF, jmp to its operand, call so too
with the address after it on the return stack, ret to the address it takes off; a bc that does not hold falls through and checks nothing;
loop counts down and goes back, or falls through with its COUNT reloaded (04 R62, R63, R65). Where a branch traps instead, changing no
state: a target outside the fetch window, tagged, or out of a running kernel, of b, a bc that holds, jmp, call, ret and a loop that goes back;
a jmp beyond word 65,535; a call at depth 16; a ret at depth 0; a poisoned condition or target (04 R62, R63, R65, R82; 15 R305). -/
def Obligations.BranchesGoOrTrap : Prop :=
  (∀ (s : State) (k : Issue) (th : Thread) (off : BitVec 24) (n : Nat) (x : Src) (c : BcCond) (m : BitVec 2),
    Issues s k th →
      let u := th.advance k s.now
      let w := (th.strm k.sid).lc.getD m.toNat 0
      let back := (k.pc.toNat : Int) + off.toInt = n
      (back → MayLand s th k n → Completes s (.b off) k (u.jumped k.sid n)) ∧
      (back → MayLand s th k n → (th.src k x).Clean → c.Holds (th.src k x).bits → Completes s (.bc c x off) k (u.jumped k.sid n)) ∧
      ((th.src k x).Clean → ¬ c.Holds (th.src k x).bits → Completes s (.bc c x off) k u) ∧
      (MayLand s th k n → n < 65536 → (th.src k x).Clean → (th.src k x).bits.toNat = n → Completes s (.jmp x) k (u.jumped k.sid n)) ∧
      (back → MayLand s th k n → th.c.stack.length < 16 →
        Completes s (.call off) k ({ u with c := { u.c with stack := (k.pc + 1) :: th.c.stack } }.jumped k.sid n)) ∧
      (∀ (a : BitVec 16) (r : List (BitVec 16)), th.c.stack = a :: r → MayLand s th k a.toNat →
        Completes s .ret k ({ u with c := { u.c with stack := r } }.jumped k.sid a.toNat)) ∧
      (back → MayLand s th k n → 1 < w.toNat % 2 ^ 32 →
        Completes s (.loop m off) k ((u.modStrm k.sid fun st => { st with lc := setAt st.lc m.toNat (w - 1) }).jumped k.sid n)) ∧
      (w.toNat % 2 ^ 32 ≤ 1 →
        Completes s (.loop m off) k (u.modStrm k.sid fun st =>
          { st with lc := setAt st.lc m.toNat (BitVec.ofNat 64 (w.toNat / 2 ^ 32 * 2 ^ 32 + w.toNat / 2 ^ 32)) }))) ∧
  (∀ (s : State) (k : Issue) (th : Thread) (off : BitVec 24) (n : Nat) (x : Src) (c : BcCond) (m : BitVec 2),
    Issues s k th →
      let back := (k.pc.toNat : Int) + off.toInt = n
      (back → ¬ MayLand s th k n → Traps s (.b off) k th { code := 1 }) ∧
      ((k.pc.toNat : Int) + off.toInt < 0 → Traps s (.b off) k th { code := 1 }) ∧
      (back → ¬ MayLand s th k n → (th.src k x).Clean → c.Holds (th.src k x).bits → Traps s (.bc c x off) k th { code := 1 }) ∧
      ((th.src k x).Clean → 65536 ≤ (th.src k x).bits.toNat → Traps s (.jmp x) k th { code := 1 }) ∧
      ((th.src k x).Clean → (th.src k x).bits.toNat = n → ¬ MayLand s th k n → Traps s (.jmp x) k th { code := 1 }) ∧
      (back → ¬ MayLand s th k n → Traps s (.call off) k th { code := 1 }) ∧
      (∀ (a : BitVec 16) (r : List (BitVec 16)), th.c.stack = a :: r → ¬ MayLand s th k a.toNat → Traps s .ret k th { code := 1 }) ∧
      (back → ¬ MayLand s th k n → 1 < ((th.strm k.sid).lc.getD m.toNat 0).toNat % 2 ^ 32 → Traps s (.loop m off) k th { code := 1 }) ∧
      (16 ≤ th.c.stack.length → Traps s (.call off) k th { code := 1 }) ∧
      (th.c.stack = [] → Traps s .ret k th { code := 1 }) ∧
      (∀ t, (th.src k x).There → (th.src k x).mark = some t →
        Traps s (.bc c x off) k th { code := 6, tag := t } ∧ Traps s (.jmp x) k th { code := 6, tag := t }))

/-- rep repeats the word after it: the count stands in the stream's repeat state, and the program counter is at the repeated word; with a count of
0 the word is passed over with its literal, and the cycle after the issue is the idle reference; a count above 4096 traps ILLEGAL (04 R67). -/
def Obligations.RepeatSetsTheRepeatState : Prop :=
  ∀ (s : State) (k : Issue) (th : Thread) (n : BitVec 13) (x : Src),
    Issues s k th →
      let u := th.advance k s.now
      let w := (s.fetch th k.next.toNat).1
      let open_ := ¬ (th.inKernel k.sid = true ∧ bitOf w 39 = true ∧ k.next.toNat + 1 = (th.strm k.sid).kernel.1 + (th.strm k.sid).kernel.2)
      (open_ → 1 ≤ n.toNat → n.toNat ≤ 4096 → Completes s (.repImm n) k (u.modStrm k.sid fun st => { st with repCount := n.toNat })) ∧
      (open_ → (th.src k x).Clean → 1 ≤ (th.src k x).bits.toNat → (th.src k x).bits.toNat ≤ 4096 →
        Completes s (.repOperand x) k (u.modStrm k.sid fun st => { st with repCount := (th.src k x).bits.toNat })) ∧
      (open_ → (th.src k x).Clean → (th.src k x).bits = 0 →
        Completes s (.repOperand x) k (u.modStrm k.sid fun st =>
          { st with idleRef := s.now + 1, pc := k.next + (if bitOf w 39 then 2 else 1) })) ∧
      ((th.src k x).Clean → 4096 < (th.src k x).bits.toNat → Traps s (.repOperand x) k th { code := 1 }) ∧
      (¬ open_ → 1 ≤ n.toNat → n.toNat ≤ 4096 → Traps s (.repImm n) k th { code := 1 })

/-- go starts the streams it names that are not running, at their current program counter, in the next cycle, and leaves a running one alone; an
empty section traps before any is started; stop joins in the C stream, and in the others stops the stream from the next cycle (04 R59 to R61). -/
def Obligations.GoAndStop : Prop :=
  ∀ (s : State) (k : Issue) (th : Thread) (ga gv gm : Bool),
    Issues s k th → th.inKernel k.sid = false →
      let u := th.advance k s.now
      (((ga = true → th.sa.words ≠ 0) ∧ (gv = true → th.sv.words ≠ 0) ∧ (gm = true → th.sm.words ≠ 0)) → k.sid = .c →
        ∃ v, Completes s (.go ga gv gm) k v ∧ v = { u with sa := v.sa, sv := v.sv, sm := v.sm } ∧
          (∀ p ∈ [(ga, th.sa, v.sa), (gv, th.sv, v.sv), (gm, th.sm, v.sm)],
            (p.1 = true → p.2.1.idleAt s.now = true →
              p.2.2 = { p.2.1 with run := .running, idleRef := s.now, hold := none, wait := .none }) ∧
            (p.1 = false ∨ p.2.1.idleAt s.now = false → p.2.2 = p.2.1))) ∧
      (((ga = true ∧ th.sa.words = 0) ∨ (gv = true ∧ th.sv.words = 0) ∨ (gm = true ∧ th.sm.words = 0)) →
        Traps s (.go ga gv gm) k th { code := 1 }) ∧
      (k.sid = .c → th.sa.idleAt s.now = true → th.sv.idleAt s.now = true → th.sm.idleAt s.now = true → Completes s .stop k u) ∧
      (k.sid = .c → ¬ (th.sa.idleAt s.now = true ∧ th.sv.idleAt s.now = true ∧ th.sm.idleAt s.now = true) → Waits s .stop k th .join) ∧
      (k.sid ≠ .c → Completes s .stop k (u.modStrm k.sid fun st => { st with run := .stopped (s.now + 1) }))

/-- gpush appends whether its operand is not 0, once every earlier store that R75 names has been performed, every earlier fence of its stream
has completed (the model's reading of R234, log 70), and while its slot holds, with its own guard popped, fewer than eight values; on a full slot
it waits, its guard kept as the cycle showed it; a stage guard or a poisoned operand traps; gflush removes the values pushed before its cycle
(04 R70 to R73, R75, R81). -/
def Obligations.GuardFifos : Prop :=
  ∀ (s : State) (k : Issue) (th : Thread) (x : Src) (n : BitVec 4),
    Issues s k th →
      let u := th.advance k s.now
      let here := fun g : GuardVal => g.gone.isNone || g.gone == some s.now
      let add := fun l : List GuardVal => l.filter here ++ [{ val := (th.src k x).bits != 0, at_ := s.now }]
      let flush := fun l : List GuardVal => (l.filter here).map fun g => if g.at_ < s.now then { g with gone := some s.now } else g
      let ready := th.storesDone k.sid = true ∧ (k.sid ≠ .c → ∀ c ∈ th.a.cmds, c.isFence = false)
      let held := ((u.guards.getD n.toNat []).filter fun g => g.gone.isNone).length
      let kept : Option (Nat × Bool × Nat) :=
        some (s.now, !k.gnot, if k.gpop = true ∧ th.isStageGuard k.gsl.toNat = false then k.gsl.toNat else 0)
      (th.isStageGuard n.toNat = false → (th.src k x).Clean → ready → held < 8 →
        Completes s (.gpush x n) k { u with guards := modAt u.guards n.toNat add }) ∧
      (th.isStageGuard n.toNat = false → (th.src k x).Clean → ¬ ready → Waits s (.gpush x n) k th .none) ∧
      (th.isStageGuard n.toNat = false → (th.src k x).Clean → ready → 8 ≤ held →
        Waits s (.gpush x n) k (th.modStrm k.sid fun st => { st with peek := kept }) .none) ∧
      (th.isStageGuard n.toNat = true → Traps s (.gpush x n) k th { code := 1 } ∧ Traps s (.gflush n) k th { code := 1 }) ∧
      (∀ t, th.isStageGuard n.toNat = false → (th.src k x).There → (th.src k x).mark = some t →
        Traps s (.gpush x n) k th { code := 6, tag := t }) ∧
      (th.isStageGuard n.toNat = false →
        Completes s (.gflush n) k { u with guards := modAt u.guards n.toNat flush })

/-- The tile a writer or a consumer takes: a plain tile when it is FREE or FULL in this cycle, a ring's tail or head tile beyond those
already taken; t255 discards what is written and cannot be read; what is not configured traps, and so does writing a ring's member by its
own number (10 R196 to R198). wtw writes its value and zeros to the first granule of the lead pane's part, with its poison, and its tile
is FILLING now and FULL two cycles later; to t255 it changes nothing. rtw pushes the granule's first word with its mark and frees a plain
tile from the next cycle, or keeps it FULL; of a ring it takes and frees the head. tstate pushes the states, the head and the tail as they stand
at the cycle's start; lcyc and self push what they read (04 R76 to R79). -/
def Obligations.WordTilesAndTileStates : Prop :=
  (∀ (th : Thread) (now : Nat) (n : BitVec 8) (m : BitVec 5) (y : Tile) (r : Ring),
    (n ≠ 255 → th.tile? n.toNat = some y → y.ring = none → y.st = .free → y.since ≤ now →
      th.writer now (.tile n) = .ok ⟨n.toNat, none⟩ y.desc) ∧
    (n ≠ 255 → th.tile? n.toNat = some y → y.ring = none → (y.st ≠ .free ∨ now < y.since) → th.writer now (.tile n) = .wait) ∧
    (n ≠ 255 → th.tile? n.toNat = some y → y.st = .full → y.since ≤ now → th.consumer now (.tile n) = .ok ⟨n.toNat, none⟩ y.desc) ∧
    (n ≠ 255 → th.tile? n.toNat = some y → (y.st ≠ .full ∨ now < y.since) → th.consumer now (.tile n) = .wait) ∧
    (n ≠ 255 → th.tile? n.toNat = none → th.writer now (.tile n) = .bad ∧ th.consumer now (.tile n) = .bad) ∧
    (n ≠ 255 → th.tile? n.toNat = some y → y.ring.isSome = true → th.writer now (.tile n) = .bad) ∧
    (th.writer now (.tile 255) = .null ∧ th.consumer now (.tile 255) = .bad) ∧
    (th.ring? now m.toNat = none → th.writer now (.ring m) = .bad ∧ th.consumer now (.ring m) = .bad) ∧
    (th.ring? now m.toNat = some r → th.tile? (r.first + (r.tail + r.wtake) % r.n) = some y → y.st = .free → y.since ≤ now → r.wtake < r.n →
      th.writer now (.ring m) = .ok ⟨r.first + (r.tail + r.wtake) % r.n, some m.toNat⟩ y.desc) ∧
    (th.ring? now m.toNat = some r → th.tile? (r.first + (r.head + r.rtake) % r.n) = some y → y.st = .full → y.since ≤ now →
      th.consumer now (.ring m) = .ok ⟨r.first + (r.head + r.rtake) % r.n, some m.toNat⟩ y.desc)) ∧
  (∀ (s : State) (k : Issue) (th : Thread) (x : Src) (v : Word) (o : Opnd) (t : TileRef) (tk : Taken) (desc : Word) (keep : Bool) (d : Dst),
    Issues s k th →
      let u := th.advance k s.now
      let a : Val := match o with | .reg x => th.src k x | .lit v => { bits := v }
      let g := (s.core (th.coreOf 0)).trf.gran (descBase desc)
      (o = .reg x ∨ o = .lit v → a.There → th.storesDone k.sid = true → th.writer s.now t = .ok tk desc →
        ∃ w, exec (.wtw o t) s = .next w ∧
          OnlyThreadAnd s w k.tid
            ((u.startWrite s.now tk).modTile tk.tile fun y => { y with prev := .filling, st := .full, since := s.now + 2 })
            (fun s => s.modCore (th.coreOf 0) fun c =>
              { c with trf := c.trf.setGran (descBase desc) (wordBytes a.bits ++ List.replicate 56 0) a.mark })) ∧
      (a.There → th.writer s.now t = .null → Completes s (.wtw o t) k u) ∧
      (∀ n, t = .tile n → th.consumer s.now t = .ok tk desc → keep = true →
        Completes s (.rtw keep t d) k (u.pushed k.sid { bits := wordOf (g.1.take 8), mark := g.2 } d)) ∧
      (∀ (n : BitVec 8) (y : Tile), t = .tile n → th.tile? n.toNat = some y → y.ring = none → th.consumer s.now t = .ok tk desc →
        keep = false →
        Completes s (.rtw keep t d) k
          ((u.modTile tk.tile fun y => y.go .free s.now).pushed k.sid { bits := wordOf (g.1.take 8), mark := g.2 } d)) ∧
      (∀ m, t = .ring m → th.consumer s.now t = .ok tk desc → keep = false →
        Completes s (.rtw keep t d) k
          (((u.startRead s.now tk).endRead s.now tk).pushed k.sid { bits := wordOf (g.1.take 8), mark := g.2 } d)) ∧
      (∀ (n : BitVec 8) (y : Tile), n ≠ 255 → th.tile? n.toNat = some y →
        Completes s (.tstate (.tile n) d) k (u.pushed k.sid { bits := BitVec.ofNat 64 (y.seen s.now).code } d)) ∧
      (∀ n : BitVec 8, n ≠ 255 → th.tile? n.toNat = none →
        Completes s (.tstate (.tile n) d) k (u.pushed k.sid { bits := 0x8000000000000000 } d)) ∧
      Completes s (.tstate t d) k (u.pushed k.sid { bits := tstateWord th s.now t } d) ∧
      (∀ (m : BitVec 5) (r : Ring), th.ring? s.now m.toNat = some r →
        let st := fun i : Nat => ((th.tile? (r.first + i)).map fun x => x.seen s.now).getD .free
        let head := if r.headSince ≤ s.now then r.head else r.headWas
        head < r.n → Completes s (.tstate (.ring m) d) k (u.pushed k.sid { bits := wordFields [(r.n - 1, 16), (r.tail, 12), (head, 8),
          (((List.range r.n).filter fun i => st i == .full).length, 3), ((st head).code, 0)] } d)) ∧
      Completes s (.lcyc d) k (u.pushed k.sid { bits := (s.core th.life.rect.lead).lcyc } d) ∧
      Completes s (.self d) k (u.pushed k.sid { bits := selfWord s th } d))

/-! ### The scratchpad path of the C stream (05) -/

/-- A load enters the load queue while it holds fewer than 16, its address the sum of its operands and DISP, and pushes the place of its
result; a store enters with its value, its poison with it; a mark and a linv enter; an aop enters and pushes the place of the old value
(05 R88 to R94). Where a scratchpad instruction does not enter: an illegal address traps BOUNDS, a poisoned address operand traps POISON,
an operand whose result is not there waits, and so does a full queue (05 R84, R88, R89, R94; 15 R305). -/
def Obligations.MemoryInstructionsEnterTrapOrWait : Prop :=
  (∀ (s : State) (k : Issue) (th : Thread) (ws : WS) (w : Width) (base x : Src) (disp : BitVec 16) (op : AopOp) (n : BitVec 4) (d : Dst),
    Issues s k th →
      let u := th.advance k s.now
      let b := th.src k base
      let v := th.src k x
      let e := th.src k (.named n)
      let off := b.bits + disp.signExtend 64
      let ea := (b.bits + v.bits + disp.signExtend 64).toNat
      let there : Val := { wait := some s.nextId }
      (b.Clean → v.Clean → LegalAt th ea ws.w.size → th.loads < 16 →
        CompletesFresh s (.ld ws base x disp d) k ((u.queued (.load true ws ea s.nextId)).pushed k.sid there d) ∧
        CompletesFresh s (.ldx ws base x disp d) k ((u.queued (.load false ws ea s.nextId)).pushed k.sid there d)) ∧
      (b.Clean → v.There → LegalAt th off.toNat w.size → th.stores < 16 →
        Completes s (.st w base x disp) k (u.queued (.store true w off.toNat v)) ∧
        Completes s (.stx w base x disp) k (u.queued (.store false w off.toNat v))) ∧
      Completes s .mark k (u.queued .mark) ∧
      (b.Clean → v.Clean → v.bits ≠ 0 → Completes s (.linv base x disp) k (u.queued (.linv off.toNat (off.toNat + v.bits.toNat)))) ∧
      (b.Clean → v.There → LegalAt th off.toNat ws.w.size → op ≠ .cas →
        CompletesFresh s (.aop op ws base x disp d) k
          ((u.queued (.aop op ws off.toNat v { bits := 0 } s.nextId)).pushed k.sid there d)) ∧
      (b.Clean → v.There → e.There → LegalAt th off.toNat ws.w.size →
        CompletesFresh s (.aop .cas ws base x disp (some n)) k
          ((u.queued (.aop .cas ws off.toNat v e s.nextId)).pushed k.sid there (some n)))) ∧
  (∀ (s : State) (k : Issue) (th : Thread) (c : Cond) (ws : WS) (w : Width) (base x : Src) (disp : BitVec 16) (d : Dst),
    Issues s k th →
      let b := th.src k base
      let v := th.src k x
      let off := (b.bits + disp.signExtend 64).toNat
      let ea := (b.bits + v.bits + disp.signExtend 64).toNat
      (b.Clean → v.Clean → ¬ LegalAt th ea ws.w.size →
        Traps s (.ld ws base x disp d) k th { code := 5 } ∧ Traps s (.ldx ws base x disp d) k th { code := 5 }) ∧
      (b.Clean → v.There → ¬ LegalAt th off w.size →
        Traps s (.st w base x disp) k th { code := 5 } ∧ Traps s (.stx w base x disp) k th { code := 5 }) ∧
      (b.Clean → v.Clean → ¬ LegalAt th off ws.w.size → Traps s (.wadr c ws base x disp d) k th { code := 5 }) ∧
      (∀ t, b.There → v.There → meet b.mark v.mark = some t →
        Traps s (.ld ws base x disp d) k th { code := 6, tag := t } ∧ Traps s (.ldx ws base x disp d) k th { code := 6, tag := t } ∧
        Traps s (.linv base x disp) k th { code := 6, tag := t } ∧ Traps s (.wadr c ws base x disp d) k th { code := 6, tag := t }) ∧
      (∀ t, b.There → v.There → b.mark = some t →
        Traps s (.st w base x disp) k th { code := 6, tag := t } ∧ Traps s (.stx w base x disp) k th { code := 6, tag := t }) ∧
      (¬ (b.There ∧ v.There) → ∀ i ∈ [Instr.ld ws base x disp d, .ldx ws base x disp d, .st w base x disp, .stx w base x disp,
        .linv base x disp, .wadr c ws base x disp d], Waits s i k th .result) ∧
      (b.Clean → v.Clean → LegalAt th ea ws.w.size → 16 ≤ th.loads →
        Waits s (.ld ws base x disp d) k th .none ∧ Waits s (.ldx ws base x disp d) k th .none) ∧
      (b.Clean → v.There → LegalAt th off w.size → 16 ≤ th.stores →
        Waits s (.st w base x disp) k th .none ∧ Waits s (.stx w base x disp) k th .none)) ∧
  (∀ (s : State) (k : Issue) (th : Thread) (ws : WS) (base x : Src) (disp : BitVec 16) (op : AopOp) (n : BitVec 4) (d : Dst),
    Issues s k th → (op = .cas → d = some n) →
      let b := th.src k base
      let v := th.src k x
      let e := if op = .cas then th.src k (.named n) else { bits := 0 }
      let off := (b.bits + disp.signExtend 64).toNat
      (b.Clean → v.There → e.There → ¬ LegalAt th off ws.w.size → Traps s (.aop op ws base x disp d) k th { code := 5 }) ∧
      (∀ t, b.There → v.There → e.There → b.mark = some t → Traps s (.aop op ws base x disp d) k th { code := 6, tag := t }) ∧
      (¬ (b.There ∧ v.There ∧ e.There) → Waits s (.aop op ws base x disp d) k th .result))

/-- wadr waits while older accesses are not performed, and then until the word it reads meets its condition; it pushes what it read. While the word
stands as it read it at this place, it reads no more. What
a save latched is pushed without another read. A poisoned word traps (05 R95, R96, R102). The order in which queued accesses may be
performed: a load after every older load, mark and linv; a store after every older store and mark and every older load of bytes it writes;
a mark and an aop after every older load, store and mark; a linv after every older load (05 R88, R92 to R94). An access whose turn comes
earlier is not performed. -/
def Obligations.WaitOnAddressAndAccessOrder : Prop :=
  (∀ (s : State) (k : Issue) (th : Thread) (c : Cond) (ws : WS) (base x : Src) (disp : BitVec 16) (d : Dst),
    Issues s k th → (th.src k base).Clean → (th.src k x).Clean →
      let u := th.advance k s.now
      let v := (th.src k x).bits
      let ea := ((th.src k base).bits + disp.signExtend 64).toNat
      let r := BitVec.ofNat 64 (leNat ((s.pad th ea).read (ea % 2 ^ 24) ws.w.size))
      let m := (s.pad th ea).mark (ea % 2 ^ 24 / 8)
      let word : Polled := { since := th.sc.idleRef, unit := ea / 8, word := s.spWords th (ea / 8 * 8) 1 }
      let reads := th.sc.latched = false ∧ th.c.queue = [] ∧ th.c.polled ≠ some word ∧ NoLatent s
      LegalAt th ea ws.w.size →
        (th.sc.latched = true → Completes s (.wadr c ws base x disp d) k (u.pushed k.sid { bits := th.sc.latch } d)) ∧
        (th.sc.latched = false → th.c.queue ≠ [] → Waits s (.wadr c ws base x disp d) k th .wadr) ∧
        (th.sc.latched = false → th.c.queue = [] → th.c.polled = some word → Waits s (.wadr c ws base x disp d) k th .wadr) ∧
        (reads → m = none → c.Holds (operand ws r) (operand ws v) →
          Completes s (.wadr c ws base x disp d) k (u.pushed k.sid { bits := widen ws (narrow ws r) } d)) ∧
        (reads → m = none → ¬ c.Holds (operand ws r) (operand ws v) →
          Waits s (.wadr c ws base x disp d) k { th with c := { th.c with polled := some word } } .wadr) ∧
        (∀ t, reads → m = some t →
          Traps s (.wadr c ws base x disp d) k th { code := 6, tag := t })) ∧
  (∀ (s : State) (tid n : Nat) (th : Thread) (x : CAccess),
    s.thread? tid = some th → th.c.queue[n]? = some x →
      let older := th.c.queue.take n
      let waits : Prop := match x with
        | .load .. => ∃ y ∈ older, match y with | .store .. => False | _ => True
        | .store _ w ea _ => ∃ y ∈ older, match y with
          | .load _ ws e _ => e < ea + w.size ∧ ea < e + ws.w.size
          | .linv .. => False
          | _ => True
        | .linv .. => ∃ y ∈ older, match y with | .load .. | .aop .. => True | _ => False
        | _ => ∃ y ∈ older, match y with | .linv .. => False | _ => True
      (waits → s.performAccess tid n = s) ∧
      (¬ waits → ∃ u, (s.performAccess tid n).thread? tid = some u ∧ u.c.queue = older ++ th.c.queue.drop (n + 1) ∧
        u.c.stack = th.c.stack ∧ u.sc = th.sc ∧ ∀ y, y ≠ tid → (s.performAccess tid n).thread? y = s.thread? y))

/-- What performing an access does. A load that the L1 does not serve delivers the bytes it reads, little-endian and extended, or the
poison of their word. A load through the L1 that hits reads the line; one that misses, or hits a line whose parity is wrong, fills it with all
eight words and their marks; the line is then its set's most recent, of which seven others stay (a line's set is its number modulo 64, the
model's choice, log 71). A linv invalidates the lines that its range touches, and stx the line of its bytes; st updates the line as it writes
(05 R87, R93). A store writes its bytes and no other byte of its word's scratchpad; one that carries poison zeroes and marks the
word (05 R90, R91, R101, R102). An aop that is performed on a clean word with clean operands writes the new contents at the width and
delivers the old ones, extended; the rest of the scratchpad stays; when the word, the value or, for cas, the expected value is poisoned, the word
is marked with the lowest tag among them, and the old value delivered has the word's own mark (05 R94). -/
def Obligations.ScratchpadAccessesPerformed : Prop :=
  (∀ (s : State) (tid n : Nat) (th : Thread) (x : CAccess),
    s.thread? tid = some th → th.c.queue[n]? = some x → x.permitted (th.c.queue.take n) = true → NoLatent s →
      let t := s.performAccess tid n
      (∀ (ws : WS) (ea id : Nat), x = .load false ws ea id →
        let o := ea % 2 ^ 24
        let v : Val := match (s.pad th ea).mark (o / 8) with
          | some p => { bits := 0, mark := some p }
          | none => { bits := widen ws (BitVec.ofNat ws.w.bits (leNat ((s.pad th ea).read o ws.w.size))) }
        t.cores = s.cores ∧ ∃ u, OnlyThread s t tid u ∧ u.c.regs = th.c.regs.settle id v ∧ u.a.regs = th.a.regs.settle id v) ∧
      (∀ (ws : WS) (ea id : Nat), x = .load true ws ea id → LegalAt th ea ws.w.size → th.life.rect.lead < s.cores.length →
        let o := ea % 2 ^ 24
        let l := (s.core th.life.rect.lead).l1
        let l' := (t.core th.life.rect.lead).l1
        let hit := l.find? fun y => y.line == ea / 64 && !y.bad
        let same := l.filter fun y => y.line % 64 == ea / 64 % 64 && y.line != ea / 64
        let v : Val := match hit with
          | some y => (match y.marks.getD (ea % 64 / 8) none with
            | some p => { bits := 0, mark := some p }
            | none => { bits := widen ws (BitVec.ofNat ws.w.bits (leNat ((y.bytes.drop (ea % 64)).take ws.w.size))) })
          | none => (match (s.pad th ea).mark (o / 8) with
            | some p => { bits := 0, mark := some p }
            | none => { bits := widen ws (BitVec.ofNat ws.w.bits (leNat ((s.pad th ea).read o ws.w.size))) })
        (∃ u, t.thread? tid = some u ∧ u.c.regs = th.c.regs.settle id v ∧ u.a.regs = th.a.regs.settle id v) ∧
        (∀ c, (t.core c).sp = (s.core c).sp) ∧ (∀ c, c ≠ th.life.rect.lead → t.core c = s.core c) ∧
        ∃ y, y.line = ea / 64 ∧ y.bad = false ∧ l'.head? = some y ∧ (∀ z, hit = some z → y = z) ∧
          (hit = none → ∀ i, i < 8 → y.marks.getD i none = (s.pad th ea).mark (o / 64 * 8 + i) ∧
            ((s.pad th ea).mark (o / 64 * 8 + i) = none →
              ∀ j, j < 8 → y.bytes[8 * i + j]? = some ((s.pad th ea).byte (o / 64 * 64 + 8 * i + j)))) ∧
          ∀ z, z ∈ l' ↔ z = y ∨ (z ∈ l ∧ z.line ≠ ea / 64 ∧ (z.line % 64 ≠ ea / 64 % 64 ∨ z ∈ same.take 7))) ∧
      (∀ lo hi, x = .linv lo hi → th.life.rect.lead < s.cores.length →
        (∀ c, (t.core c).sp = (s.core c).sp) ∧ (∀ c, c ≠ th.life.rect.lead → t.core c = s.core c) ∧
        ∀ y, y ∈ (t.core th.life.rect.lead).l1 ↔
          y ∈ (s.core th.life.rect.lead).l1 ∧ (hi ≤ 64 * y.line ∨ 64 * y.line + 64 ≤ lo)) ∧
      (∀ (w : Width) (ea : Nat) (v : Val), x = .store false w ea v → ∀ y ∈ (t.core th.life.rect.lead).l1, y.line ≠ ea / 64) ∧
      (∀ (w : Width) (ea : Nat) (v : Val) (y : L1Line), x = .store true w ea v → LegalAt th ea w.size → y ∈ (s.core th.life.rect.lead).l1 →
        y.line = ea / 64 → y.bytes.length = 64 → v.mark = none → (y.marks.getD (ea % 64 / 8) none = none ∨ w = .w64) →
        ∃ z ∈ (t.core th.life.rect.lead).l1, z.line = y.line ∧
          ∀ i, i < 64 → z.bytes[i]? = if ea % 64 ≤ i ∧ i < ea % 64 + w.size then some (v.bits.extractLsb' (8 * (i - ea % 64)) 8) else y.bytes[i]?) ∧
      (∀ (l1 : Bool) (w : Width) (ea : Nat) (v : Val), x = .store l1 w ea v → LegalAt th ea w.size →
        th.coreOf (ea / 2 ^ 24) < s.cores.length →
          let o := ea % 2 ^ 24
          (∀ c, c ≠ th.coreOf (ea / 2 ^ 24) → (t.core c).sp = (s.core c).sp) ∧
          (v.mark = none → ((s.pad th ea).mark (o / 8) = none ∨ w = .w64) →
            (∀ i, i < w.size → (t.pad th ea).byte (o + i) = v.bits.extractLsb' (8 * i) 8) ∧
            (∀ a, ¬ (o ≤ a ∧ a < o + w.size) → (t.pad th ea).byte a = (s.pad th ea).byte a) ∧ (t.pad th ea).mark (o / 8) = none) ∧
          (∀ p, v.mark = some p → (s.pad th ea).mark (o / 8) = none ∨ w = .w64 →
            (t.pad th ea).mark (o / 8) = some p ∧
            (∀ a, (t.pad th ea).byte a = if a / 8 = o / 8 then 0 else (s.pad th ea).byte a)) ∧
          ((s.pad th ea).mark (o / 8) ≠ none → w ≠ .w64 → t.pad th ea = s.pad th ea) ∧
          (∀ u, u ≠ o / 8 → (t.pad th ea).mark u = (s.pad th ea).mark u))) ∧
  (∀ (s : State) (tid n : Nat) (th : Thread) (op : AopOp) (ws : WS) (ea id : Nat) (v e : Val),
    s.thread? tid = some th → th.c.queue[n]? = some (.aop op ws ea v e id) →
    (CAccess.aop op ws ea v e id).permitted (th.c.queue.take n) = true → NoLatent s → LegalAt th ea ws.w.size →
    th.coreOf (ea / 2 ^ 24) < s.cores.length → v.mark = none → e.mark = none → (s.pad th ea).mark (ea % 2 ^ 24 / 8) = none →
      let t := s.performAccess tid n
      let o := ea % 2 ^ 24
      let old : BitVec ws.w.bits := BitVec.ofNat _ (leNat ((s.pad th ea).read o ws.w.size))
      let a := operand ws (widen ws old)
      let b := operand ws v.bits
      let new : BitVec ws.w.bits := match op with
        | .add => old + narrow ws v.bits
        | .xchg => narrow ws v.bits
        | .cas => if old = narrow ws e.bits then narrow ws v.bits else old
        | .min => if a ≤ b then old else narrow ws v.bits
        | .max => if b ≤ a then old else narrow ws v.bits
        | .and => old &&& narrow ws v.bits
        | .or => old ||| narrow ws v.bits
      (∀ i, i < ws.w.size → (t.pad th ea).byte (o + i) = new.extractLsb' (8 * i) 8) ∧
      (∀ c x, ¬ (c = th.coreOf (ea / 2 ^ 24) ∧ o ≤ x ∧ x < o + ws.w.size) → (t.core c).sp.byte x = (s.core c).sp.byte x) ∧
      ∃ u, t.thread? tid = some u ∧ u.c.regs = th.c.regs.settle id { bits := widen ws old }) ∧
  (∀ (s : State) (tid n : Nat) (th : Thread) (op : AopOp) (ws : WS) (ea id : Nat) (v e : Val) (p : Tag),
    s.thread? tid = some th → th.c.queue[n]? = some (.aop op ws ea v e id) →
    (CAccess.aop op ws ea v e id).permitted (th.c.queue.take n) = true → NoLatent s → LegalAt th ea ws.w.size →
    th.coreOf (ea / 2 ^ 24) < s.cores.length →
      let t := s.performAccess tid n
      let o := ea % 2 ^ 24
      let q := (s.pad th ea).mark (o / 8)
      let old : BitVec ws.w.bits := BitVec.ofNat _ (leNat ((s.pad th ea).read o ws.w.size))
      meet (meet q v.mark) (if op = .cas then e.mark else none) = some p →
        (t.pad th ea).mark (o / 8) = some p ∧
        (∀ a, (t.pad th ea).byte a = if a / 8 = o / 8 then 0 else (s.pad th ea).byte a) ∧
        (∀ u, u ≠ o / 8 → (t.pad th ea).mark u = (s.pad th ea).mark u) ∧
        ∃ u, t.thread? tid = some u ∧
          u.c.regs = th.c.regs.settle id { bits := if q = none then widen ws old else 0, mark := q })

/-- What the scratchpad instructions leave alone when they issue or wait: every byte of memory and of every scratchpad, partitions, dies and every
other thread; of their thread everything but its stream, guards, registers and access queue, of which the named registers but the destination
stay. -/
def Obligations.ScratchpadFrame : Prop :=
  ∀ (s t : State) (k : Issue) (th : Thread) (c : Cond) (ws : WS) (w : Width) (base x : Src) (disp : BitVec 16) (op : AopOp) (d : Dst),
    Issues s k th → NoLatent s →
    ∀ i ∈ [Instr.ld ws base x disp d, .ldx ws base x disp d, .st w base x disp, .stx w base x disp, .mark, .linv base x disp,
        .aop op ws base x disp d, .wadr c ws base x disp d],
      exec i s = .next t →
        ∃ u, (OnlyThreadAnd s t k.tid u fun s => { s with nextId := t.nextId }) ∧
          (u = { th with life := u.life, sc := u.sc, sa := u.sa, sv := u.sv, sm := u.sm, guards := u.guards, c := u.c, a := u.a }) ∧
          u.c.stack = th.c.stack ∧ u.c.pending = th.c.pending ∧ u.a = { th.a with regs := u.a.regs } ∧
          (∀ m : BitVec 4, d ≠ some m → (u.regs k.sid).read (.named m) = (th.regs k.sid).read (.named m)) ∧
          (∀ a, t.mem.byte a = s.mem.byte a) ∧ ∀ c a, (t.core c).sp.byte a = (s.core c).sp.byte a

/-! ### The access engine and messages: the A stream (05 R99; 10; 11) -/

/-- The access instructions issue a command, with their operand values and the record captured, that holds a range slot until it
completes: a load of a tile takes a tile that is FREE, which is FILLING from the next cycle; a store takes one that is FULL and keeps
reading it; the scale or index tile must be FULL and clean; a load into the belt pushes the place of its result (05 R99; 10 R199, R202,
R204, R205, R208, R210). ncopy issues a command with its nest captured, one element for each block, when every block is legal and, where
the record faults out of bounds, in the extent; a nest of no block completes at once; one of more than 2^48 traps (10 R206, R207). -/
def Obligations.AccessAndCopyCommandsIssue : Prop :=
  (∀ (s : State) (k : Issue) (th : Thread) (ws : WS) (w : Width) (x y : Src) (disp : BitVec 16) (d : Dst) (g : Option (BitVec 4)) (r : BitVec 8)
    (t : TileRef) (tk : Taken) (desc dd : Word) (bs : List (BitVec 8)),
    Issues s k th → k.sid = .a → th.a.cmds.length < 64 →
      let u := th.advance k s.now
      let a := th.src k x
      let b := th.src k y
      let rc := th.record r
      let c := fun i : Instr => { cmdOf k i a b {} with id := s.nextId }
      let c1 := fun i : Instr => { cmdOf k i a {} {} with id := s.nextId }
      let load := fun c : Cmd => (u.issued { c with taken := some tk, total := descGrans desc }).startWrite s.now tk
      let store := fun c : Cmd => (u.issued { c with taken := some tk, total := descGrans desc }).startRead s.now tk
      (a.Clean → b.Clean → LegalAt th (a.bits + b.bits + disp.signExtend 64).toNat ws.w.size →
        CompletesFresh s (.ldA ws x y disp d) k ((u.issued (c (.ldA ws x y disp d))).pushed k.sid { wait := some s.nextId } d)) ∧
      (a.Clean → b.There → LegalAt th (a.bits + disp.signExtend 64).toNat w.size →
        CompletesFresh s (.stA w x y disp) k (u.issued (c (.stA w x y disp)))) ∧
      (a.Clean → recV rc = true → th.writer s.now t = .ok tk desc → Suits th s.now rc t dd →
        rowsOk { c1 (.tld g false r t x y) with brec := rc } (descRows dd) = true →
        CompletesFresh s (.tld g false r t x y) k (load { c1 (.tld g false r t x y) with brec := rc })) ∧
      (a.Clean → b.Clean → recV rc = true → th.writer s.now t = .ok tk desc → Suits th s.now rc t dd → recFmt rc ≤ 5 →
        recRow rc % blockBytes (recFmt rc) = 0 → AuxThere s th b (fun _ => descRows dd * (recRow rc / blockBytes (recFmt rc))) bs →
        rowsOk { c (.tld g true r t x y) with brec := rc, auxBytes := bs } (descRows dd) = true →
        CompletesFresh s (.tld g true r t x y) k (load { c (.tld g true r t x y) with brec := rc, auxBytes := bs })) ∧
      (a.Clean → b.Clean → recV rc = true → 1 ≤ b.bits.toNat → b.bits.toNat ≤ 256 →
        CompletesFresh s (.tld g false r (.tile 255) x y) k (u.issued { c (.tld g false r (.tile 255) x y) with brec := rc })) ∧
      (a.Clean → recV rc = true → th.consumer s.now t = .ok tk desc → Suits th s.now rc t dd → boundOk rc a.bits.toInt = true →
        rowsOk { c1 (.tst g r t x) with brec := rc } (descRows dd) = true →
        CompletesFresh s (.tst g r t x) k (store { c1 (.tst g r t x) with brec := rc })) ∧
      (a.Clean → b.Clean → recV rc = true → th.writer s.now t = .ok tk desc → Suits th s.now rc t dd →
        AuxThere s th b (indexSize th.life.rect (descRows dd)) bs → (∀ z, th.tile? b.bits.toNat = some z → indexDist z.desc = true) →
        rowsOk { c (.tgat r t x y) with brec := rc, auxBytes := bs } (descRows dd) = true →
        CompletesFresh s (.tgat r t x y) k (load { c (.tgat r t x y) with brec := rc, auxBytes := bs })) ∧
      (a.Clean → b.Clean → recV rc = true → AuxThere s th b (indexSize th.life.rect 0) bs →
        (∀ z, th.tile? b.bits.toNat = some z → indexDist z.desc = true) →
        CompletesFresh s (.tgat r (.tile 255) x y) k
          (u.issued { c (.tgat r (.tile 255) x y) with brec := rc, auxBytes := bs })) ∧
      (a.Clean → b.Clean → recV rc = true → th.consumer s.now t = .ok tk desc → Suits th s.now rc t dd →
        AuxThere s th b (indexSize th.life.rect (descRows dd)) bs → (∀ z, th.tile? b.bits.toNat = some z → indexDist z.desc = true) →
        rowsOk { c (.tsca r t x y) with brec := rc, auxBytes := bs } (descRows dd) = true →
        CompletesFresh s (.tsca r t x y) k (store { c (.tsca r t x y) with brec := rc, auxBytes := bs })) ∧
      (a.Clean → b.Clean → th.descOf s.now t = some dd → a.bits.toNat < 2 ^ 24 → a.bits.toNat % 64 = 0 → b.bits.toInt % 64 = 0 →
        spRowsOk th.life.rect dd a.bits b.bits.toInt = true →
        (th.writer s.now t = .ok tk desc → CompletesFresh s (.tlsp t x y) k (load (c (.tlsp t x y)))) ∧
        (t ≠ .tile 255 → th.consumer s.now t = .ok tk desc → CompletesFresh s (.tssp t x y) k (store (c (.tssp t x y))))) ∧
      (a.Clean → b.Clean → Completes s (.tlsp (.tile 255) x y) k u) ∧
      (a.Clean → b.Clean → recV rc = true → b.bits.toNat ≤ 2 ^ 24 →
        CompletesFresh s (.pfch r x y) k (u.issued { c (.pfch r x y) with brec := rc }))) ∧
  (∀ (s : State) (k : Issue) (th : Thread) (bk : BitVec 4) (n : BitVec 2) (r : BitVec 8) (x y : Src),
    Issues s k th → k.sid = .a → (th.src k x).Clean → (th.src k y).Clean →
      let u := th.advance k s.now
      let a := th.src k x
      let b := th.src k y
      let rc := th.record r
      let ls := th.a.nests.getD n.toNat []
      let c := fun dir : CopyDir =>
        { cmdOf k (.ncopy dir bk n r x y) a b {} with id := s.nextId, nest := ls, total := nestProduct ls }
      let ok := fun (v : Word) (f : Level → Int) => nestOk th.panes (2 ^ bk.toNat) f ls.reverse v.toInt = true
      let inside := fun f : Level → Int =>
        recBchk rc ≠ 0 ∨ (0 ≤ b.bits.toInt + nestMin f ls ∧ b.bits.toInt + nestMax f ls + (2 ^ bk.toNat : Nat) ≤ recExtent rc)
      (1 ≤ nestProduct ls → nestProduct ls ≤ 2 ^ 48 → th.a.cmds.length < 64 →
        (ok a.bits Level.src → ok b.bits Level.dst → CompletesFresh s (.ncopy .ll bk n r x y) k (u.issued (c .ll))) ∧
        (recV rc = true → inside Level.src → ok a.bits Level.dst →
          CompletesFresh s (.ncopy .gl bk n r x y) k (u.issued { c .gl with brec := rc })) ∧
        (recV rc = true → inside Level.dst → ok a.bits Level.src →
          CompletesFresh s (.ncopy .lg bk n r x y) k (u.issued { c .lg with brec := rc }))) ∧
      (nestProduct ls = 0 → Completes s (.ncopy .ll bk n r x y) k u ∧
        (recV rc = true → Completes s (.ncopy .gl bk n r x y) k u ∧ Completes s (.ncopy .lg bk n r x y) k u)) ∧
      (2 ^ 48 < nestProduct ls → Traps s (.ncopy .ll bk n r x y) k th { code := 1 }) ∧
      (1 ≤ nestProduct ls → nestProduct ls ≤ 2 ^ 48 → ¬ (ok a.bits Level.src ∧ ok b.bits Level.dst) →
        Traps s (.ncopy .ll bk n r x y) k th { code := 5 }))

/-- Messages, atomics, fences and the filter's commands issue with their operand values; a gamo and a fence push the place of their result; a
send of no bytes completes at once; a gamo outside the extent under clamp-and-zero pushes 0 and does nothing else (11 R219 to R227; 14 R291). -/
def Obligations.MessagesIssue : Prop :=
  ∀ (s : State) (k : Issue) (th : Thread) (rt : Route) (x y z : Src) (o : Opnd) (op : GamoOp) (ws : WS) (r : BitVec 8) (sc : Scope)
    (f : BitVec 3) (dsel : BitVec 4) (d : Dst),
    Issues s k th → k.sid = .a →
      let u := th.advance k s.now
      let a := th.src k x
      let b := th.src k y
      let v : Val := match o with | .reg q => th.src k q | .lit l => { bits := l }
      let e : Val := match op with | .cas => th.src k z | _ => { bits := 0 }
      let rc := th.record r
      let free := th.a.cmds.length < 64
      let c := fun (i : Instr) (p q t : Val) => { cmdOf k i p q t with id := s.nextId }
      let there : Val := { wait := some s.nextId }
      (a.Clean → b.Clean → dstFlagw a.bits = 0 → fieldNat b.bits 31 28 = 0 → MaySend th a.bits (sendSrc b.bits) (sendLen b.bits) →
        (sendLen b.bits = 0 → Completes s (.send rt x y) k u) ∧
        (free → sendLen b.bits ≠ 0 → CompletesFresh s (.send rt x y) k
          (u.issued { c (.send rt x y) a b {} with total := (sendLen b.bits + 4095) / 4096 }))) ∧
      (free → a.Clean → v.Clean → b.There → fieldNat v.bits 31 28 = 0 → MaySend th a.bits (sendSrc v.bits) (sendLen v.bits) →
        8 * dstFlagw a.bits ≤ 0xBFFFF8 →
        CompletesFresh s (.sendf rt x o y) k (u.issued { c (.sendf rt x o y) a v b with total := (sendLen v.bits + 4095) / 4096 + 1 })) ∧
      (free → a.Clean → v.Clean → dstFlagw a.bits = 0 → dstOff a.bits % 8 = 0 → dstOff a.bits + 8 ≤ 0xC00000 →
        CompletesFresh s (.flag rt x o) k (u.issued (c (.flag rt x o) a v {}))) ∧
      (∀ va, free → a.Clean → v.There → e.There → recV rc = true → byteVa rc a.bits.toInt = .at_ va → va % ws.w.size = 0 →
        CompletesFresh s (.gamo op ws r x o z d) k
          ((u.issued { c (.gamo op ws r x o z d) a v e with brec := rc }).pushed k.sid there d)) ∧
      (a.Clean → v.There → e.There → recV rc = true → recBchk rc = 1 → ¬ (0 ≤ a.bits.toInt ∧ a.bits.toInt < recExtent rc) →
        Completes s (.gamo op ws r x o z d) k (u.pushed k.sid { bits := 0 } d)) ∧
      (free → CompletesFresh s (.fence sc d) k ((u.issued (c (.fence sc d) {} {} {})).pushed k.sid there d)) ∧
      (free → a.Clean → v.Clean → dsel.toNat ≤ 8 → bitOf a.bits 63 = false → fieldNat a.bits 54 48 = 0 → fieldNat a.bits 23 0 = 0 →
        1 ≤ fieldNat a.bits 62 56 → fieldNat a.bits 62 56 ≤ 64 → fieldNat v.bits 30 23 ≠ 255 →
        CompletesFresh s (.fltopen f dsel x o) k (u.issued (c (.fltopen f dsel x o) a v {}))) ∧
      (free → a.Clean → dsel.toNat ≤ 8 → dstFlagw a.bits = 0 → dstOff a.bits % 64 = 0 → dstOff a.bits + 544 ≤ 0xC00000 →
        CompletesFresh s (.fltclose f dsel x) k (u.issued (c (.fltclose f dsel x) a {} {})))

/-- Where a command does not issue: an invalid record, an unconfigured tile or a reserved bit traps ILLEGAL; a bad address BOUNDS; a poisoned
operand POISON; without a free range slot, or before its tile is in the state it needs, the head waits (10 R196, R199, R205, R208; 11 R221). -/
def Obligations.CommandsThatDoNotIssue : Prop :=
  ∀ (s : State) (k : Issue) (th : Thread) (rt : Route) (x y : Src) (g : Option (BitVec 4)) (sc : Bool) (r : BitVec 8) (t : TileRef) (dd : Word)
    (scope : Scope) (d : Dst),
    Issues s k th → k.sid = .a →
      let a := th.src k x
      let b := th.src k y
      let rc := th.record r
      (a.Clean → b.Clean → recV rc = false →
        Traps s (.tld g sc r t x y) k th { code := 1 } ∧ Traps s (.tst g r t x) k th { code := 1 } ∧
        Traps s (.tgat r t x y) k th { code := 1 } ∧ Traps s (.tsca r t x y) k th { code := 1 } ∧ Traps s (.pfch r x y) k th { code := 1 }) ∧
      (a.Clean → b.Clean → recV rc = true → t ≠ .tile 255 → th.descOf s.now t = none →
        Traps s (.tld g sc r t x y) k th { code := 1 } ∧ Traps s (.tst g r t x) k th { code := 1 } ∧
        Traps s (.tgat r t x y) k th { code := 1 } ∧ Traps s (.tsca r t x y) k th { code := 1 } ∧ Traps s (.tlsp t x y) k th { code := 1 } ∧
        Traps s (.tssp t x y) k th { code := 1 }) ∧
      (a.Clean → b.Clean → t ≠ .tile 255 → th.descOf s.now t = some dd → a.bits.toNat % 64 ≠ 0 →
        Traps s (.tlsp t x y) k th { code := 5 } ∧ Traps s (.tssp t x y) k th { code := 5 }) ∧
      (a.Clean → b.Clean → dstFlagw a.bits ≠ 0 → Traps s (.send rt x y) k th { code := 1 }) ∧
      (a.Clean → b.Clean → dstFlagw a.bits = 0 → fieldNat b.bits 31 28 = 0 → ¬ MaySend th a.bits (sendSrc b.bits) (sendLen b.bits) →
        Traps s (.send rt x y) k th { code := 5 }) ∧
      (∀ p, a.There → b.There → meet a.mark b.mark = some p →
        ((sc = true ∨ t = .tile 255) → Traps s (.tld g sc r t x y) k th { code := 6, tag := p }) ∧
        Traps s (.tlsp t x y) k th { code := 6, tag := p } ∧ Traps s (.send rt x y) k th { code := 6, tag := p } ∧ Traps s (.pfch r x y) k th { code := 6, tag := p }) ∧
      (∀ p, a.There → a.mark = some p → t ≠ .tile 255 → Traps s (.tld g false r t x y) k th { code := 6, tag := p }) ∧
      (a.Clean → b.Clean → recV rc = true → Traps s (.tld g true r (.tile 255) x y) k th { code := 1 }) ∧
      (64 ≤ th.a.cmds.length → Waits s (.fence scope d) k th .none) ∧
      (th.a.cmds.length < 64 → a.Clean → recV rc = true → Suits th s.now rc t dd → t ≠ .tile 255 →
        rowsOk { cmdOf k (.tld g false r t x y) a {} {} with brec := rc } (descRows dd) = true → th.writer s.now t = .wait →
        Waits s (.tld g false r t x y) k th .tile)

/-- brec reads four words and makes them a record when none of its values is reserved; tcfg configures or clears a tile; rcfg configures or
clears a ring of tiles of one shape; tfree frees a tile or a ring; nset writes a level of a nest (10 R193 to R195, R199, R200, R206). -/
def Obligations.RecordsTilesAndNests : Prop :=
  ∀ (s : State) (k : Issue) (th : Thread) (x : Src) (o : Opnd) (r n : BitVec 8) (q : BitVec 5) (n1 : BitVec 4) (hi lv : BitVec 3) (nest : BitVec 2),
    Issues s k th → k.sid = .a →
      let u := th.advance k s.now
      let a := th.src k x
      let v : Val := match o with | .reg p => th.src k p | .lit l => { bits := l }
      let ea := a.bits.toNat
      let ws := s.spWords th ea 4
      let level : Level := { c := a.bits.truncate 32, ss := v.bits.extractLsb' 0 32, ds := v.bits.extractLsb' 32 32 }
      let idle := fun y : Tile => y.busy s.now = false ∧ y.reads = 0
      (a.Clean → LegalAt th ea 32 → NoLatent s → th.a.cmds.length < 64 → (∀ c ∈ th.a.cmds, c.blocks = false) →
        th.rangeHeld th.a.cmds [(ea, ea + 32)] = false → (∀ p ∈ ws, p.2 = none) → recOk (ws.map (·.1)) = true →
        Completes s (.brec r x) k { u with a := { u.a with recs := sset [0, 0, 0, 0] u.a.recs r.toNat (ws.map (·.1)) } }) ∧
      (a.Clean → n ≠ 255 → (∀ y, th.tile? n.toNat = some y → y.ring = none ∧ idle y) → descOk th.life.rect a.bits = true →
        (trTiles th.life.record ≤ n.toNat ∨
          (th.setTile n.toNat (some { desc := a.bits, since := s.now + 1 })).saveLen ≤ s.slotSize th.life.part) →
        Completes s (.tcfg false n x) k (u.setTile n.toNat (some { desc := a.bits, since := s.now + 1 }))) ∧
      (n ≠ 255 → (∀ y, th.tile? n.toNat = some y → y.ring = none ∧ idle y) → Completes s (.tcfg true n x) k (u.setTile n.toNat none)) ∧
      (th.ring? s.now q.toNat = none → n.toNat + n1.toNat ≤ 254 →
        th.joinable q.toNat ((List.range (n1.toNat + 1)).map (n.toNat + ·)) = true →
        Completes s (.rcfg false q n n1) k
          ((((List.range (n1.toNat + 1)).map (n.toNat + ·)).foldl
              (fun w m => w.modTile m fun y => { y.freed s.now with ring := some q.toNat }) u).setRing q.toNat
            (some { first := n.toNat, n := n1.toNat + 1 }))) ∧
      (∀ z, th.ring? s.now q.toNat = some z → (∀ m ∈ z.members, ∀ y, th.tile? m = some y → y.busy s.now = false) →
        Completes s (.rcfg true q n n1) k
          ((z.members.foldl (fun w m => w.modTile m fun y => { y.freed s.now with ring := none }) u).setRing q.toNat none)) ∧
      (∀ y, n ≠ 255 → th.tile? n.toNat = some y → y.ring = none → idle y →
        Completes s (.tfree (.tile n)) k (u.modTile n.toNat fun y => y.freed s.now)) ∧
      (∀ z, th.ring? s.now q.toNat = some z → (∀ m ∈ z.members, ∀ y, th.tile? m = some y → idle y) →
        Completes s (.tfree (.ring q)) k
          ((z.members.foldl (fun w m => w.modTile m fun y => y.freed s.now) u).setRing q.toNat (some { first := z.first, n := z.n }))) ∧
      (a.Clean → v.Clean → hi = 0 → lv.toNat ≤ 5 → a.bits.toNat < 2 ^ 32 →
        Completes s (.nset hi nest lv x o) k
          { u with a := { u.a with nests := modAt u.a.nests nest.toNat (fun ls => setAt ls lv.toNat level) } }) ∧
      (a.Clean → descOk th.life.rect a.bits = false ∨ n = 255 → Traps s (.tcfg false n x) k th { code := 1 }) ∧
      (a.Clean → ¬ LegalAt th ea 32 → Traps s (.brec r x) k th { code := 5 }) ∧
      (a.Clean → v.Clean → hi ≠ 0 ∨ 5 < lv.toNat ∨ 2 ^ 32 ≤ a.bits.toNat → Traps s (.nset hi nest lv x o) k th { code := 1 })

/-- An element of a tile load writes one granule of the tile, each byte the one at the address that the record gives it, translated, and 0
where it has none, in every pane that holds the granule; an element of a tile store writes the bytes of one granule to their addresses and no
other byte of memory. It is said of elements for which the undo log has room, while no line of host memory arrives in error (10 R192, R201,
R202). -/
def Obligations.TileElementsMoveTheirBytes : Prop :=
  ∀ (s : State) (tid id : Nat) (th : Thread) (c : Cmd) (g : Option (BitVec 4)) (sc : Bool) (r : BitVec 8) (x : TileRef) (o y : Src),
    s.thread? tid = some th → th.cmd? id = some c → th.engineOn c = true → s.cmdFree th c = true → s.missing th c c.elem = none →
    s.logWaits th c = false → s.hostBad = [] →
      let d := th.cmdDesc c
      let at_ := place th.life.rect d (c.elem / descUlen d) (c.elem % descUlen d)
      let pas := s.cmdPhys th c c.elem
      let t := s.performCmd tid id
      (c.instr = .tld g sc r x o y ∨ c.instr = .tgat r x o y → c.taken ≠ none → (∀ a, some a ∈ pas → (s.homeOf (a / 64)).isForeign = false) →
        t.mem = s.mem ∧ ((t.thread? tid).bind fun u => u.cmd? id) = some { c with elem := c.elem + 1 } ∧
        ∀ p ∈ at_.1, th.coreOf p < s.cores.length →
          (t.core (th.coreOf p)).trf.gran at_.2 =
            (pas.map fun a => match a with | some z => s.mem.byte z | none => 0,
              meetAll (pas.map fun a => match a with | some z => s.mem.mark (z / 64) | none => none))) ∧
      (c.instr = .tst g r x o ∨ c.instr = .tsca r x o y → (s.tileGran th d (c.elem / descUlen d) (c.elem % descUlen d)).2 = none →
        (∀ a, some a ∈ pas → s.mem.mark (a / 64) = none) → (pas.filterMap fun q => q).Nodup →
        ((t.thread? tid).bind fun u => u.cmd? id) = some { c with elem := c.elem + 1 } ∧
        (∀ i a, pas[i]? = some (some a) → s.held (a / 64) = true →
          t.mem.byte a = (s.tileGran th d (c.elem / descUlen d) (c.elem % descUlen d)).1.getD i 0) ∧
        (∀ a, some a ∉ pas → t.mem.byte a = s.mem.byte a) ∧ ∀ l, t.mem.mark l = s.mem.mark l)

/-- What the instructions of the access engine leave alone when they issue, wait or trap: every byte of memory and of every scratchpad and tile,
partitions, dies and every other thread; of their thread the other streams' state, counters and loop, and of the A stream the named registers but
the destination. -/
def Obligations.CommandFrame : Prop :=
  ∀ (s t : State) (k : Issue) (th : Thread) (ws : WS) (w : Width) (x y z : Src) (o : Opnd) (disp : BitVec 16) (d : Dst)
    (g : Option (BitVec 4)) (b : Bool) (r n : BitVec 8) (tr : TileRef) (q : BitVec 5) (n1 bk : BitVec 4) (hi lv : BitVec 3) (ne : BitVec 2)
    (dir : CopyDir) (rt : Route) (op : GamoOp) (sc : Scope),
    Issues s k th → k.sid = .a → th.life.trapping = false → NoLatent s →
      let same := fun u : Thread =>
        (OnlyThreadAnd s t k.tid u fun s => { s with nextId := t.nextId }) ∧
        (u = { th with life := u.life, sa := u.sa, a := u.a, guards := u.guards, tiles := u.tiles, rings := u.rings }) ∧
        (∀ a, t.mem.byte a = s.mem.byte a) ∧ (∀ c a, (t.core c).sp.byte a = (s.core c).sp.byte a) ∧
        ∀ c a, (t.core c).trf.byte a = (s.core c).trf.byte a
      (∀ i ∈ [Instr.stA w x y disp, .brec r x, .tld g b r tr x y, .tst g r tr x, .tgat r tr x y, .tsca r tr x y, .tcfg b n x,
          .rcfg b q n n1, .tfree tr, .nset hi ne lv x o, .ncopy dir bk ne r x y, .tlsp tr x y, .tssp tr x y, .send rt x y, .sendf rt x o y,
          .flag rt x o, .pfch r x y, .fltopen hi n1 x o, .fltclose hi n1 x],
        exec i s = .next t → ∃ u, same u ∧ u.a.regs = th.a.regs ∧ u.a.fence = th.a.fence) ∧
      ∀ i ∈ [Instr.ldA ws x y disp d, .gamo op ws r x o z d, .fence sc d],
        exec i s = .next t → ∃ u, same u ∧ u.a.fence = th.a.fence ∧ u.a.recs = th.a.recs ∧ u.a.nests = th.a.nests ∧
          ∀ m : BitVec 4, d ≠ some m → u.a.regs.read (.named m) = th.a.regs.read (.named m)

/-! ### Groups, tasks, fragments (11 R232, R233; 12; 09) -/

/-- gjoin adds the thread to the group of its key, or makes the group in the free entry of lowest index; a member, a thread in sixteen groups
and a full table change nothing; gleave takes the thread out; gbar arrives, waiting then for its episode, and pushes the status it learns. The
status word holds the count in bits 31..16, the index in 15..8 and the code in 7..0 (11 R232, R233; the order in which gjoin's codes are tried and
that the lowest free entry is taken are the model's choice, log 48). -/
def Obligations.GroupInstructions : Prop :=
  ∀ (s : State) (k : Issue) (th : Thread) (x : Src) (d : Dst),
    Issues s k th → k.sid = .c → (th.src k x).Clean → (th.src k x).bits ≠ 0 →
      let u := th.advance k s.now
      let w := (th.src k x).bits
      let p := th.life.part
      let status := fun n i c : Nat => ({ bits := BitVec.ofNat 64 (n * 2 ^ 16 + i * 2 ^ 8 + c) } : Val)
      let put := fun (i : Nat) (g : Option Group) (s : State) => s.modPart p fun q => q.setGroup i g
      let join := fun (i : Nat) (g : Group) (c : Nat) =>
        ∃ t, exec (.gjoin x d) s = .next t ∧
          OnlyThreadAnd s t k.tid ((u.modLife fun l => { l with keys := l.keys ++ [w] }).pushed k.sid (status (g.members.length + 1) i c) d)
            (put i (some { g with members := g.members ++ [k.tid] }))
      let waiting := fun b : Pending =>
        (({ th with c := { th.c with pending := b } } : Thread)).modStrm k.sid fun st =>
          { st with wait := .gbar, wdog := some (st.wdog.getD (s.part p).set.wdog.toNat) }
      let arrive := fun (i : Nat) (g : Group) (b : Pending) =>
        ∃ t, exec (.gbar x d) s = .next t ∧ OnlyThreadAnd s t k.tid (waiting b) (put i (some g))
      let fresh := th.c.pending = .none ∧ th.sc.latched = false ∧ th.c.queue = []
      (∀ i g, (s.part p).findGroup w = some (i, g) →
        (k.tid ∉ g.members → th.life.keys.length < 16 → join i g 0) ∧
        (k.tid ∈ g.members → Completes s (.gjoin x d) k (u.pushed k.sid (status g.members.length i 3) d)) ∧
        (k.tid ∉ g.members → 16 ≤ th.life.keys.length → Completes s (.gjoin x d) k (u.pushed k.sid (status g.members.length 0 4) d)) ∧
        (k.tid ∈ g.members → ∃ t, exec (.gleave x d) s = .next t ∧
          OnlyThreadAnd s t k.tid
            ((u.modLife fun l => { l with keys := l.keys.filter (· != w) }).pushed k.sid (status (g.members.length - 1) i 0) d)
            (put i (g.leave k.tid))) ∧
        (fresh → k.tid ∈ g.members → g.isOpen = false →
          arrive i { g with isOpen := true, awaited := g.members, arrived := [k.tid] } (.barArrived w)) ∧
        (fresh → k.tid ∈ g.members → g.isOpen = true → k.tid ∉ g.arrived → k.tid ∈ g.awaited →
          arrive i { g with arrived := g.arrived ++ [k.tid] } (.barArrived w)) ∧
        (fresh → k.tid ∈ g.members → g.isOpen = true → k.tid ∉ g.arrived → k.tid ∉ g.awaited → k.tid ∉ g.waitNext →
          arrive i { g with waitNext := g.waitNext ++ [k.tid] } (.barNext w)) ∧
        (fresh → k.tid ∉ g.members → Completes s (.gbar x d) k (u.pushed k.sid (status 0 0 6) d))) ∧
      ((s.part p).findGroup w = none →
        (∀ i, th.life.keys.length < 16 → (s.part p).freeGroup = some i → join i { key := w, members := [] } 1) ∧
        (th.life.keys.length < 16 → (s.part p).freeGroup = none → Completes s (.gjoin x d) k (u.pushed k.sid (status 0 0 2) d)) ∧
        (16 ≤ th.life.keys.length → Completes s (.gjoin x d) k (u.pushed k.sid (status 0 0 4) d)) ∧
        Completes s (.gleave x d) k (u.pushed k.sid (status 0 0 6) d) ∧
        (fresh → Completes s (.gbar x d) k (u.pushed k.sid (status 0 0 6) d))) ∧
      (∀ v, th.c.pending = .barDone v →
        Completes s (.gbar x d) k (({ u with c := { u.c with pending := .none } } : Thread).pushed k.sid { bits := v } d)) ∧
      (th.c.pending = .none → th.sc.latched = true → Completes s (.gbar x d) k (u.pushed k.sid { bits := th.sc.latch } d))

/-- grab takes the elements that R250 gives and advances the range, pushing where they begin and their count; rngset writes a range; a
control word that R250 forbids traps (12 R250, R251). yield asks for a PREEMPT decision of cause 2 and waits for it; denied, it pushes 0;
stored at the yield, it pushes what was latched. ckpt pushes the place of its result and takes the thread at its boundaries with REASON 2
(12 R252; 15 R318); in a step of a loop task it waits for the step's end (the model's reading, log 72). -/
def Obligations.RangesYieldAndCheckpoint : Prop :=
  (∀ (s : State) (k : Issue) (th : Thread) (x y z : Src) (d : Dst),
    Issues s k th → k.sid = .c → (th.src k x).Clean →
      let u := th.advance k s.now
      let a := (th.src k x).bits
      let b := (th.src k y).bits
      let c := (th.src k z).bits
      let p := th.life.part
      let r := s.ferry p a.toNat
      let left := r.last.toNat - r.next.toNat
      let n := if left = 0 then 0 else min left (min (max r.m.toNat ((left + 2 * r.p.toNat - 1) / (2 * r.p.toNat))) (2 ^ 24 - 1))
      (a.toNat < 64 → ∃ t, exec (.grab x d) s = .next t ∧
        OnlyThreadAnd s t k.tid (u.pushed k.sid { bits := BitVec.ofNat 64 (min r.next.toNat r.last.toNat * 2 ^ 24 + n) } d)
          fun s => s.setFerry p a.toNat { r with next := r.next + BitVec.ofNat 40 n }) ∧
      (64 ≤ a.toNat → Traps s (.grab x d) k th { code := 1 }) ∧
      ((th.src k y).Clean → (th.src k z).Clean →
        let bad := fieldNat a 23 8 = 0 ∨ fieldNat a 47 24 = 0 ∨ fieldNat a 7 6 ≠ 0 ∨ fieldNat a 63 48 ≠ 0 ∨ 2 ^ 40 ≤ b.toNat ∨ 2 ^ 40 ≤ c.toNat
        (bad → Traps s (.rngset x y z) k th { code := 1 }) ∧
        (¬ bad → th.c.queue = [] → ∃ t, exec (.rngset x y z) s = .next t ∧
          OnlyThreadAnd s t k.tid u fun s => s.setFerry p (fieldNat a 5 0)
            { next := b.extractLsb' 0 40, last := c.extractLsb' 0 40, p := a.extractLsb' 8 16, m := a.extractLsb' 24 24 }) ∧
        (¬ bad → th.c.queue ≠ [] → Waits s (.rngset x y z) k th .none))) ∧
  (∀ (s : State) (k : Issue) (th : Thread) (d : Dst),
    Issues s k th → k.sid = .c → th.inKernel k.sid = false →
      let u := th.advance k s.now
      let asked := ({ th with c := { th.c with pending := .yieldAsked } } : Thread).modStrm k.sid fun st =>
        { st with wait := .none, wdog := some (st.wdog.getD (s.part th.life.part).set.wdog.toNat) }
      (th.sc.latched = true → Completes s (.yield d) k (u.pushed k.sid { bits := th.sc.latch } d)) ∧
      (th.sc.latched = false → th.c.pending = .yieldDenied →
        Completes s (.yield d) k (({ u with c := { u.c with pending := .none } } : Thread).pushed k.sid { bits := 0 } d)) ∧
      (th.sc.latched = false → th.c.pending = .yieldAsked → Waits s (.yield d) k th .none) ∧
      (th.sc.latched = false → th.c.pending = .none → th.c.queue ≠ [] → Waits s (.yield d) k th .none) ∧
      (th.sc.latched = false → th.c.pending = .none → th.c.queue = [] →
        ∃ t, exec (.yield d) s = .next t ∧
          OnlyThreadAnd s t k.tid asked fun s => s.trigger th.life.part
            { hook := .preempt, cause := 2, tid := th.tid, handle := th.life.rect.lead, shape := th.life.rect.shape }) ∧
      (th.loop.inStep = true → ∃ t, exec (.ckpt d) s = .next t ∧ OnlyThread s t k.tid
        (({ th with c := { th.c with pending := .ckptAsked } } : Thread).modStrm k.sid fun st =>
          { st with wait := .none, wdog := some (st.wdog.getD (s.part th.life.part).set.wdog.toNat) })) ∧
      (th.loop.inStep = false → CompletesFresh s (.ckpt d) k
        (({ u.pushed k.sid { wait := some s.nextId } d with
            c := { (u.pushed k.sid { wait := some s.nextId } d).c with pending := .ckptTaken s.nextId } } : Thread).modLife fun l =>
          { l with phase := .saving 2 s.now })))

/-- spawn reads eight words at its address and enqueues them with the thread's CTX, pushing the slot; it refuses a record not allowed, one of
another CTX, a queue it may not use and a full one, with codes 3, 4, 2, 1 in that order (12 R248; the order is the model's reading). -/
def Obligations.SpawnEnqueuesOrRefuses : Prop :=
  ∀ (s : State) (k : Issue) (th : Thread) (x y : Src) (d : Dst),
    Issues s k th → k.sid = .c → (th.src k x).Clean → (th.src k y).Clean →
      let u := th.advance k s.now
      let a := (th.src k x).bits.toNat
      let q := (th.src k y).bits.toNat
      let p := th.life.part
      let r := (s.spWords th a 8).map (·.1)
      let z := s.queue p q
      let refused := fun c : Nat => Completes s (.spawn x y d) k (u.pushed k.sid { bits := BitVec.ofNat 64 c } d)
      let other := trCtx r ≠ 0 ∧ trCtx r ≠ th.life.ctx
      let closed := 31 < q ∨ z.en = false ∨ z.host = true
      (¬ LegalAt th a 64 → Traps s (.spawn x y d) k th { code := 5 }) ∧
      (LegalAt th a 64 → th.c.queue ≠ [] → Waits s (.spawn x y d) k th .none) ∧
      (LegalAt th a 64 → th.c.queue = [] → NoLatent s → (∀ w ∈ s.spWords th a 8, w.2 = none) →
        (recordOk r = false → refused 3) ∧
        (recordOk r = true → other → refused 4) ∧
        (recordOk r = true → ¬ other → closed → refused 2) ∧
        (recordOk r = true → ¬ other → ¬ closed → z.size ≤ z.depth → refused 1) ∧
        (∀ t, recordOk r = true → ¬ other → ¬ closed → z.depth < z.size →
          (s.advance k).enqueueRecord p q (Record.withCtx r th.life.ctx) = some t →
          exec (.spawn x y d) s = .next (t.push k { bits := BitVec.ofNat 64 (z.tail.toNat * 2 ^ 32) } d)))

/-- done waits for the drain; then the thread is gone, its panes are unleased or held for its parent, its save slot is free; a counter at a
translated address falls by one, or stays 0 and counts JOINERR, and no other byte of memory changes; a poisoned counter traps POISON and one that
does not translate traps, with nothing changed. A continuation is enqueued with the thread's CTX when there is no counter or it was 1, and not
otherwise; a poisoned record traps POISON, a malformed one, and a queue that is disabled or the host's, trap ILLEGAL (12 R249; 09 R181). -/
def Obligations.DoneEndsTheThread : Prop :=
  ∀ (s : State) (k : Issue) (th : Thread),
    Issues s k th → k.sid = .c → th.inKernel k.sid = false →
      let free := fun t : State =>
        t.thread? k.tid = none ∧ th.life.slot ∉ (t.part th.life.part).slots ∧
        ∀ c ∈ th.life.rect.cores, c < s.cores.length → (t.core c).lease =
          match th.life.holdAtDone, th.life.parent with
          | true, some q => .held q
          | _, _ => .unleased
      ((s.drained177 th = false ∨ s.fenceWaits th .dev = true) → Waits s .done k th .done) ∧
      (s.fenceWaits th .dev = false → s.drained177 th = true → trCont th.life.record = 0 → trJoin th.life.record = 0 →
        ∃ t, exec .done s = .next t ∧ free t ∧ t.mem = s.mem) ∧
      (∀ pa : Nat, s.fenceWaits th .dev = false → s.drained177 th = true → trCont th.life.record = 0 → trJoin th.life.record ≠ 0 → pa % 8 = 0 →
        s.tlbGet th.life.rect.die th.life.part th.life.ctx (trJoin th.life.record) .atomic = some pa → s.mem.mark (pa / 64) = none →
        s.physWord pa ≠ 0 → s.held (pa / 64) = true →
        ∃ t, exec .done s = .next t ∧ free t ∧ t.physWord pa = s.physWord pa - 1 ∧
          ∀ a, ¬ (pa ≤ a ∧ a < pa + 8) → t.mem.byte a = s.mem.byte a) ∧
      let p := th.life.part
      let join := trJoin th.life.record
      let cont := trCont th.life.record
      let ready := s.fenceWaits th .dev = false ∧ s.drained177 th = true
      let counter := fun (s1 : State) (pa : Nat) => pa % 8 = 0 ∧ s1.tlbGet th.life.rect.die p th.life.ctx join .atomic = some pa
      let takes := fun (s1 : State) (f : TrapInfo) => exec .done s = .next (s1.takeTrap k.tid (f.record k.sid k.pc))
      (∀ pa, ready → cont = 0 → join ≠ 0 → counter s pa → s.mem.mark (pa / 64) = none → s.physWord pa = 0 →
        ∃ t, exec .done s = .next t ∧ free t ∧ t.mem = s.mem ∧ (p < s.parts.length →
          (t.part p).pol.usage.joinerr = (s.part p).pol.usage.joinerr + 1)) ∧
      (∀ pa tag, ready → cont = 0 → join ≠ 0 → counter s pa → s.mem.mark (pa / 64) = some tag →
        Traps s .done k th { code := 6, tag := tag }) ∧
      (∀ s1 f, ready → cont = 0 → join ≠ 0 → s.xlate th.life.rect.die p th.life.ctx join .atomic = (s1, .error f) → takes s1 (f.atHead join)) ∧
      (∀ s1 f va, ready → cont ≠ 0 → s.readVirt th.life.rect.die p th.life.ctx cont 64 = (s1, .error (f, va)) → takes s1 (f.atHead va)) ∧
      (∀ s1 bs tag, ready → cont ≠ 0 → s.readVirt th.life.rect.die p th.life.ctx cont 64 = (s1, .ok (bs, some tag)) →
        takes s1 { code := 6, tag := tag }) ∧
      ∀ s1 bs, ready → cont ≠ 0 → s.readVirt th.life.rect.die p th.life.ctx cont 64 = (s1, .ok (bs, none)) →
        let q := trCq th.life.record
        let x := s.queue p q
        let rec0 := Record.withCtx (wordsOf bs) th.life.ctx
        ((recordOk (wordsOf bs) = false ∨ x.en = false ∨ x.host = true) → takes s1 { code := 1 }) ∧
        (recordOk (wordsOf bs) = true → x.en = true → x.host = false → x.depth < x.size → p < s.parts.length → q < (s.part p).queues.length →
          (∀ w, join = 0 → s1.enqueueRecord p q rec0 = some w → ∃ t, exec .done s = .next t ∧ free t ∧ t.mem = w.mem ∧
            (t.queue p q).tail = x.tail + 1) ∧
          (∀ w pa, join ≠ 0 → s1.enqueueRecord p q rec0 = some w → counter s1 pa → s1.mem.mark (pa / 64) = none →
            let s2 := s1.writeRaw pa (wordBytes (s1.physWord pa - 1))
            (s1.physWord pa ≠ 1 → ∃ t, exec .done s = .next t ∧ free t ∧ (t.queue p q).tail = x.tail) ∧
            ∀ v, s1.physWord pa = 1 → s2.enqueueRecord p q rec0 = some v →
              ∃ t, exec .done s = .next t ∧ free t ∧ t.mem = v.mem ∧ (t.queue p q).tail = x.tail + 1))

/-- The fragment instructions at their own effects: fquery pushes what it sees; fchain at the die's edge, with a partner that suits and with one
that does not, whose own fchain completes with it (which partner, of several, is the model's choice: log 80); funchain without a link and with one that is at rest; ffuse with a target outside the partition, ready, and tried; fsplit with its
checks passed; the area check of both counts no tile (the model's reading, log 53). What a fuse and a split do (09 R178, R180 to R182): the thread's
tiles and rings are unconfigured, its vectors keep the lanes of the panes that it keeps and its masks are off in the others; the new lead pane holds
its code and no L1 line. A fuse leases every target pane to the thread: one from the allocator is cleared when its last lessee was of another CTX
and has zero accumulators, a held one keeps everything but its block partials. Of a split's other sub-fragments each is returned, held for the
thread, or leased to a child of its CTX in the free slot of lowest index, with its accumulators as they were (09 R178 to R189). -/
def Obligations.FragmentInstructions : Prop :=
  (∀ (s : State) (k : Issue) (th : Thread) (sh : BitVec 4) (x : Src) (west try_ : Bool) (d : Dst),
    Issues s k th → k.sid = .c → th.isLoop = false →
      let u := th.advance k s.now
      let rc := th.life.rect
      let status := fragWord
      let none_ := fun v : Thread => ({ v with c := { v.c with pending := .none } } : Thread)
      let to_ := if west then th.life.chainW else th.life.chainE
      let target := fuseTarget rc sh.toNat
      let barred := FuseBarred th sh.toNat
      let own := FuseOwn s th target
      let es := s.splitList th sh.toNat (th.src k x)
      let rs := s.splitRecords th es
      let starts := (es.filter entryStarts).length
      let new := rectOf sh.toNat rc.die rc.crow rc.ccol
      let splits := SplitReady s th sh.toNat (th.src k x)
      Completes s (.fquery d) k (u.pushed k.sid { bits := s.queried th } d) ∧
      (∀ w, th.c.query = some (s.now, w) → Completes s (.fquery d) k (u.pushed k.sid { bits := w } d)) ∧
      (s.takeQuery th).c.query = some (s.now, s.fqueryWord th) ∧
      (to_ = none → (if west then rc.ccol = 0 else rc.ccol + rc.cols = 4) →
        Completes s (.fchain west d) k (u.pushed k.sid (status rc 4) d)) ∧
      (∀ o, to_ = none → ¬ (if west then rc.ccol = 0 else rc.ccol + rc.cols = 4) → s.partner th west = some o →
        s.thread? o.tid = some o → o.tid ≠ k.tid →
        let ok := linkable th o
        ∃ t, exec (.fchain west d) s = .next t ∧ t = { s with threads := t.threads } ∧
          t.thread? k.tid = some ((u.modLife fun l => l.chained west (if ok then some o.tid else none)).pushed k.sid
            (status rc (if ok then 0 else 5)) d) ∧
          let o1 := o.modLife fun l => l.chained (!west) (if ok then some k.tid else none)
          let kO := s.headIssue o .c
          (∀ w2 d2, s.headInstr o .c = some (.fchain w2 d2) →
            t.thread? o.tid = some ((o1.advance kO s.now).pushed .c (status o.life.rect (if ok then 0 else 5)) d2)) ∧
          ((∀ w2 d2, s.headInstr o .c ≠ some (.fchain w2 d2)) → t.thread? o.tid = some o1)) ∧
      (to_.bind s.thread? = none → Completes s (.funchain west d) k (u.pushed k.sid (status rc 6) d)) ∧
      (∀ o, to_ = some o.tid → s.thread? o.tid = some o → o.tid ≠ k.tid → ((if west then o else th).sm.idleAt s.now = true) →
        (if west then o else th).m.ops = [] →
        ∃ t, exec (.funchain west d) s = .next t ∧ t = { s with threads := t.threads } ∧
          t.thread? k.tid = some ((u.modLife fun l => l.chained west none).pushed k.sid (status rc 0) d) ∧
          t.thread? o.tid = some (o.modLife fun l => l.chained (!west) none)) ∧
      (s.drained177 th = false → Waits s (.fsplit sh x d) k th .none ∧ Waits s (.ffuse try_ sh d) k th .none) ∧
      (s.drained177 th = true → barred → Traps s (.ffuse try_ sh d) k th { code := 1 }) ∧
      (s.drained177 th = true → ¬ barred → ¬ own → th.c.pending = .none →
        Completes s (.ffuse try_ sh d) k ((none_ u).pushed k.sid (status rc 2) d)) ∧
      (s.drained177 th = true → ¬ barred → own → th.c.pending = .none → s.fuseReady th target = true →
        exec (.ffuse try_ sh d) s = .next (((s.advance k).fuse th target).push k (status target 0) d)) ∧
      (s.drained177 th = true → ¬ barred → own → th.c.pending = .none → s.fuseReady th target = false →
        Completes s (.ffuse true sh d) k ((none_ u).pushed k.sid (status rc 3) d)) ∧
      (splits → (s.freeSlots th.life.part starts).length < starts →
        Completes s (.fsplit sh x d) k (u.pushed k.sid (status rc 7) d)) ∧
      (splits → starts ≤ (s.freeSlots th.life.part starts).length →
        exec (.fsplit sh x d) s = .next (((s.advance k).split th sh.toNat es rs).push k (status new 0) d))) ∧
  (∀ (th : Thread) (new : Rect),
    let u := th.reshape new
    let old := th.life.rect
    let kept := fun (f : Nat → Lane) (g : Nat → Lane) => ∀ p q i, i < 64 → new.cores[p]? = some (th.coreOf q) → q < th.panes →
      (∀ j, j < q → th.coreOf j ≠ th.coreOf q) → f (64 * p + i) = g (64 * q + i)
    u = { th with tiles := [], rings := [], life := { th.life with rect := new }, v := u.v } ∧
    u.v = { th.v with belt := u.v.belt, file := u.v.file, masks := u.v.masks } ∧
    (∀ (n : Nat) (x : Vec), th.v.file[n]? = some x → x.lanes.length = th.lanes → ∃ y, u.v.file[n]? = some y ∧ y.void = x.void ∧
      y.wait = x.wait ∧ kept (fun j => y.lanes.getD j {}) fun j => x.lanes.getD j {}) ∧
    (∀ (n : Nat) (x : Vec), th.v.belt[n]? = some x → x.lanes.length = th.lanes → ∃ y, u.v.belt[n]? = some y ∧ y.void = x.void ∧
      y.wait = x.wait ∧ kept (fun j => y.lanes.getD j {}) fun j => x.lanes.getD j {}) ∧
    ∀ (n : Nat) (m : List Bool), th.v.masks[n]? = some m → ∃ y, u.v.masks[n]? = some y ∧
      ∀ p i, p < new.cores.length → i < 64 → new.cores[p]?.all (fun c => !old.cores.contains c) = true → y.getD (64 * p + i) false = false) ∧
  (∀ (s : State) (th : Thread) (new : Rect), s.thread? th.tid = some th →
    let w := s.fuse th new
    let lead := fun c : Nat => c = th.life.rect.lead ∨ c = new.lead
    (w.thread? th.tid = some (({ th.reshape new with c := { th.c with pending := .none } }))) ∧
    (∀ q, q ≠ th.tid → w.thread? q = s.thread? q) ∧ w.mem = s.mem ∧
    (∀ f ∈ (w.part th.life.part).fuses, th.life.part < s.parts.length → f.tid ≠ th.tid) ∧
    (∀ c, c < s.cores.length → c ∈ new.cores →
      let x := s.core c
      let y := w.core c
      y.lease = .leased th.tid ∧ y.bp = [[], []] ∧ y.l1 = [] ∧
      (x.lease = .unleased → y.acc = [[], [], [], []] ∧
        (x.lastCtx = some th.life.ctx → y.sp = x.sp ∧ y.trf = x.trf) ∧ (x.lastCtx ≠ some th.life.ctx → y.sp = {} ∧ y.trf = {})) ∧
      (x.lease ≠ .unleased → y.acc = x.acc ∧ y.sp = x.sp ∧ y.trf = x.trf)) ∧
    (∀ c, c ∉ new.cores → ¬ lead c → w.core c = s.core c) ∧
    (new.lead < s.cores.length → (w.core new.lead).imem = (s.core th.life.rect.lead).imem)) ∧
  (∀ (s : State) (th : Thread) (sh : Nat) (es : List Word) (rs : List (Option Record)),
    let old := th.life.rect
    let new := rectOf sh old.die old.crow old.ccol
    s.split th sh es rs = ((es.zip rs).zip (subRects old sh)).foldl (fun z x => z.giveSub th x.1.1 x.1.2 x.2)
      ((s.modThread th.tid fun t => t.reshape new).moveLead old new)) ∧
  (∀ (s : State) (th : Thread) (e : Word) (rec : Record) (rc : Rect), (∀ t ∈ s.threads, t.tid < s.nextId) → rec.length = 8 →
    let rest := fun w : State => (∀ c, c ∉ rc.cores → (w.core c).lease = (s.core c).lease ∧ (w.core c).acc = (s.core c).acc)
    let kept := fun w : State => ∀ c ∈ rc.cores, c < s.cores.length →
      (w.core c).sp = (s.core c).sp ∧ (w.core c).trf = (s.core c).trf ∧ (w.core c).acc = (s.core c).acc
    (entryKind e = 1 →
      let w := s.giveSub th e none rc
      w.threads = s.threads ∧ rest w ∧ kept w ∧
        ∀ c ∈ rc.cores, c < s.cores.length → (w.core c).lease = .held th.tid ∧ (w.core c).bp = [[], []]) ∧
    (entryKind e ≠ 1 →
      let w := s.giveSub th e none rc
      w.threads = s.threads ∧ rest w ∧ kept w ∧ ∀ c ∈ rc.cores, c < s.cores.length → (w.core c).lease = .unleased) ∧
    (
      let w := s.giveSub th e (some rec) rc
      rest w ∧ (∀ c ∈ rc.cores, c < s.cores.length → (w.core c).lease = .leased s.nextId ∧ (w.core c).acc = (s.core c).acc ∧
        (w.core c).bp = [[], []]) ∧
      (∀ t, t.tid ≠ s.nextId → s.thread? t.tid = some t → w.thread? t.tid = some t) ∧
      ∃ x, w.thread? s.nextId = some x ∧ x.life.rect = rc ∧ x.life.part = th.life.part ∧ x.life.ctx = th.life.ctx ∧
        x.life.slot = (s.freeSlot th.life.part).getD 0 ∧
        (entryKind e = 2 → x.life.parent = some th.tid ∧ x.life.holdAtDone = true) ∧ (entryKind e ≠ 2 → x.life.parent = none)))

/-! ### Token units (14) -/

/-- smopen traps ILLEGAL for a reserved value of its config word, a QUOTA outside 1 to 0x200000 and an HBASE that is no multiple of 64. Otherwise
it takes the slot of lowest index that is not open, on die DSEL or the thread's own for 8: it becomes open for the thread's partition and CTX
under its own generation, every register 0, QUOTA, HLOG and HBASE from the operands, and its handle is pushed and kept by the thread; or it pushes
bit 63 with a code in bits 55..48: 1 when every slot is open, 2 when the partition's slot quota is reached or one more handle would raise the save
length above SLOTSZ, 3 when the QUOTAs of the partition's open slots with this one exceed its entry quota (codes tried in that order: the model's
choice, log 54). smclose frees the slot, counting its generation up and dropping its index entries, and pushes EVC; a handle that is not current
traps (14 R278, R279, R284, R289). -/
def Obligations.SuffixSlotsOpenAndClose : Prop :=
  ∀ (s : State) (k : Issue) (th : Thread) (x y : Src) (d : Dst),
    Issues s k th → k.sid = .c → (th.src k x).Clean →
      let u := th.advance k s.now
      let h := (th.src k x).bits
      let dd := handleDie h
      let n := handleSlot h
      let z := (s.die dd).slot n
      let handle := fun (gen : BitVec 16) (die slot : Nat) => BitVec.ofNat 64 (gen.toNat * 2 ^ 32 + die * 2 ^ 12 + slot)
      let p := th.life.part
      let hbase := (th.src k y).bits
      let dsel := fieldNat h 59 56
      let hlog := fieldNat h 51 48
      let quota := fieldNat h 23 0
      let e := if dsel = 8 then th.life.rect.die else dsel
      let mine := ((s.die e).smm.filter fun o => o.2.isOpen && o.2.part == p).map (·.2)
      let limits := (s.part p).set.smmq.getD e 0
      let wrong := fieldNat h 63 60 ≠ 0 ∨ 8 < dsel ∨ fieldNat h 55 52 ≠ 0 ∨ 12 < hlog ∨ fieldNat h 47 24 ≠ 0 ∨ quota = 0 ∨
        0x200000 < quota ∨ hbase.toNat % 64 ≠ 0
      let refused := fun c : Nat => Completes s (.smopen x y d) k (u.pushed k.sid { bits := BitVec.ofNat 64 (2 ^ 63 + c * 2 ^ 48) } d)
      let full := fieldNat limits 12 0 ≤ mine.length ∨
        s.slotSize p < saveLen th.panes th.life.record th.tiles (th.life.handles.length + 1)
      let over_ := fieldNat limits 45 24 < (mine.map (·.quota)).sum + quota
      ((th.src k y).Clean →
        (wrong → Traps s (.smopen x y d) k th { code := 1 }) ∧
        (¬ wrong → th.c.queue = [] →
          ((∀ i, i < 4096 → ((s.die e).slot i).isOpen = true) → refused 1) ∧
          ∀ i, i < 4096 → ((s.die e).slot i).isOpen = false → (∀ j, j < i → ((s.die e).slot j).isOpen = true) →
            (full → refused 2) ∧
            (¬ full → over_ → refused 3) ∧
            (¬ full → ¬ over_ →
              let gen := ((s.die e).slot i).gen
              let new : SmmSlot := { isOpen := true, gen := gen, part := p, ctx := th.life.ctx, hlog := hlog, quota := quota,
                                     hbase := hbase.setWidth 56, npos := 0, mlen := 0, mpos := 0, evc := 0 }
              ∃ t, exec (.smopen x y d) s = .next t ∧
                OnlyThreadAnd s t k.tid
                  ((u.modLife fun l => { l with handles := l.handles ++ [handle gen e i] }).pushed k.sid { bits := handle gen e i } d)
                  (fun s => s.modDie e fun o => o.setSlot i new) ∧
                (e < s.dies.length → (t.die e).slot i = new ∧ ∀ j, j ≠ i → (t.die e).slot j = (s.die e).slot j)))) ∧
      (s.current th h = false → Traps s (.smclose x d) k th { code := 1 }) ∧
      (s.current th h = true → th.c.queue ≠ [] → Waits s (.smclose x d) k th .none) ∧
      (s.current th h = true → th.c.queue = [] →
        ∃ t v, exec (.smclose x d) s = .next t ∧ t.thread? k.tid = some v ∧
          (v.regs k.sid).belt.head? = some { bits := BitVec.ofNat 64 z.evc } ∧ (∀ w ∈ v.life.handles, w ≠ handle z.gen dd n) ∧
          t.mem = s.mem ∧ t.cores = s.cores ∧ t.parts = s.parts ∧
          (dd < s.dies.length →
            (t.die dd).slot n = { gen := z.gen + 1 } ∧ (∀ e ∈ (t.die dd).index, e.slot ≠ n) ∧
            (∀ e ∈ (s.die dd).index, e.slot ≠ n → e ∈ (t.die dd).index) ∧ ∀ j, j ≠ n → (t.die dd).slot j = (s.die dd).slot j))

/-- The lookups and copies of an open slot, once the pages they touch translate: smapp appends its tokens, its position counting up by their
number; smprop keeps the match it finds and pushes it; smsave writes the slot's dump and pushes its length; smload opens a slot from an accepted
dump, and frees it again, with code 4, for one that is refused (14 R280 to R288; which pages a lookup touches and that a refused smload advances
GEN as a close does are the model's choice, log 54, and so are the free values of words that nothing states, log 9). -/
def Obligations.SuffixSlotsUsed : Prop :=
  ∀ (s v : State) (k : Issue) (th : Thread) (x y z : Src) (d1 : BitVec 4) (lmin : BitVec 3) (d : Dst),
    Issues s k th → k.sid = .c → (th.src k x).Clean → th.c.queue = [] → NoLatent s →
      let s1 := s.advance k
      let h := (th.src k x).bits
      let a := (th.src k y).bits
      let dd := handleDie h
      let n := handleSlot h
      let o := (s.die dd).slot n
      let die := th.life.rect.die
      let c := fieldNat a 63 32
      let ts := s.words32 th (fieldNat a 27 0) c
      let reads := if c = 0 then [] else lastPos (o.npos + c) (min (o.npos + c) (32 + c))
      let tok := fun p : Nat => v.ringTok die dd n o p
      let find := fun (lc : Nat) (hh : Word) => ((s.die dd).index.find? fun e => e.names n lc hh).map (·.pos)
      let ps := propReads o find (fun p => s1.ringTok die dd n o p) (2 ^ lmin.toNat) (d1.toNat + 1)
      let m := findMatch o find tok (2 ^ lmin.toNat) (d1.toNat + 1)
      let appended := v.append die dd n (ts.1.map (BitVec.ofNat 24))
      let kept := ({ (v.modDie dd fun e => e.setSlot n { o with mlen := m.1, mpos := m.2.1 }) with fresh := v.fresh + 1 } : State)
      (s.current th h = true → (th.src k y).Clean → fieldNat a 31 28 = 0 → c ≤ 256 → legal32 th.panes (fieldNat a 27 0) c = true →
        (c = 0 ∨ ts.2 = none) → (∀ t ∈ ts.1, t < 2 ^ 24) → o.npos + c ≤ 2 ^ 40 → s1.ringFault die o reads = (v, none) →
        dd < s.dies.length →
          exec (.smapp x y d) s = .next (appended.push k { bits := appWord ((appended.die dd).slot n) } d) ∧
          ((appended.die dd).slot n).npos = (o.npos + ts.1.length) % 2 ^ 40) ∧
      (s.current th h = true → s1.ringFault die o ps = (v, none) →
        exec (.smprop x (.tile 255) d1 lmin d) s =
          .next (kept.push k { bits := BitVec.ofNat 64 (m.2.1 * 2 ^ 16 + m.1 * 2 ^ 5 + m.2.2) } d)) ∧
      (∀ (t : TileRef) (tk : Taken) (desc : Word), s.current th h = true →
        s1.ringFault die o ps = (v, none) → th.writer s.now t = .ok tk desc →
        exec (.smprop x t d1 lmin d) s =
          .next ((((kept.setGran th 0 (descBase desc)
              (padBytes 64 ((List.range m.2.2).flatMap fun i => leBytes 4 (tok (m.2.1 + 1 + i)).toNat)) none).modThread k.tid fun v =>
                (v.startWrite s.now tk).modTile tk.tile fun y => { y with prev := .filling, st := .full, since := s.now + 2 })).push k
            { bits := BitVec.ofNat 64 (m.2.1 * 2 ^ 16 + m.1 * 2 ^ 5 + m.2.2) } d)) ∧
      (∀ u w : State, s.current th h = true → (th.src k y).Clean → a.toNat % 64 = 0 →
        s1.ringFault die o (lastPos o.npos (min o.npos o.hcap)) = (u, none) →
        u.probeVirt die th.life.part th.life.ctx a.toNat (u.dump die dd n).length .wr = (w, none) →
          exec (.smsave x y d) s =
            .next (({ w with fresh := w.fresh + 1 }.writeVirt die th.life.part th.life.ctx a.toNat (u.dump die dd n)).push k
              { bits := BitVec.ofNat 64 (u.dump die dd n).length } d)) ∧
      (∀ (e i : Nat) (q : SmmSlot) (u w : State) (hd bs : List (BitVec 8)) (m1 m2 : Mark), (th.src k y).Clean → (th.src k z).Clean →
        s.openSlot th h a = .ok e i q → (th.src k z).bits.toNat % 64 = 0 →
        s1.readVirt die th.life.part th.life.ctx (th.src k z).bits.toNat 64 = (u, .ok (hd, m1)) →
          (word8 hd 0 ≠ 0x534D44554D500001 →
            exec (.smload x y z d) s =
              .next (((u.takeSlot th.tid e i q).closeSlot e i).push k { bits := BitVec.ofNat 64 (2 ^ 63 + 4 * 2 ^ 48) } d)) ∧
          (word8 hd 0 = 0x534D44554D500001 →
            u.readVirt die th.life.part th.life.ctx (th.src k z).bits.toNat (dumpLen hd) = (w, .ok (bs, m2)) →
            let es := (List.range (fieldNat (word8 bs 5) 63 32)).map (dumpEntry bs (64 + pad64 (4 * fieldNat (word8 bs 5) 31 0)) i)
            dumpOk bs q es = true → ∀ r, w.ringFault die q (lastPos (fieldNat (word8 bs 1) 39 0) (fieldNat (word8 bs 5) 31 0)) = (r, none) →
              exec (.smload x y z d) s =
                .next (((r.takeSlot th.tid e i q).loadDump die e i bs (es.map (·.1))).push k { bits := handleWord q.gen e i } d)))

/-- draw pushes the high half of the hash that R295 gives of its counter and key. tsamp and tacc read the descriptor and the shards' blocks that
it names, and push what R298 makes of their candidates: OUT in bits 31..30, whether the token is a stop, its shard and the token; a block that is
not done gives OUT 3. The poison of the second operand goes with the word pushed, and the three spare words of every block are read (the
model's readings, log 55). A word that was read ahead of the issue counts as it then stood, every other one as it stands; reading ahead takes the
descriptor and the first word of a block before any other (log 83) (14 R295 to R298; 20 R353). -/
def Obligations.DrawsAndSamples : Prop :=
  ∀ (s : State) (k : Issue) (th : Thread) (x y : Src) (g : Bool) (d : Dst),
    Issues s k th → k.sid = .c →
      let u := th.advance k s.now
      let a := th.src k x
      let o := th.src k y
      let ea := a.bits.toNat
      let ds := (s.sampleWords th ea 8).2.map (·.1)
      let w := fun n : Nat => ds.getD n 0
      let nsh := fieldNat (w 1) 35 32
      let nstop := fieldNat (w 1) 47 40
      let stopa := fieldNat (w 6) 27 0
      let shards := (List.range nsh).map (shardWord ds)
      let counts := fun hs : List (List Nat) => hs.map fun q => if Nat.testBit (q.getD 1 0) 30 then 0 else q.getD 0 0 % 256
      let cands := fun bs : List (List Nat) => bs.zipIdx.flatMap fun b => candsOf ((w 1).extractLsb' 0 32) b.2 (b.1.drop 6)
      (a.There → o.There →
        let mix := fun q : Word =>
          let p := (q ^^^ (q >>> 31)) * 0x9E6C63D0676A9A99
          let r := (p ^^^ (p >>> 29)) * 0xD6E8FEB86659FD93
          r ^^^ (r >>> 32)
        let step := fun (v : Word) (i : Word) => mix (v ^^^ (a.bits + i * 0xB4A16C3D5E27F08B))
        Completes s (.draw x y d) k (u.pushed k.sid
          { bits := step (step (step (step o.bits 0) 1) 2) 3 >>> 32, mark := meet a.mark o.mark } d)) ∧
      (a.Clean → o.There → LegalAt th ea 64 → th.c.queue = [] → NoLatent s → (∀ q ∈ (s.sampleWords th ea 8).2, q.2 = none) →
        descOk296 ds = true → (∀ q ∈ shards, q % 64 = 0) → legal32 th.panes stopa nstop = true →
        ∀ heads : List (List Nat), s.readAll th (shards.map fun q => (q, 2)) = (s, .ok heads) →
          ((∃ q ∈ heads, q.getD 1 0 < 2 ^ 31) →
            Completes s (.tsamp g x y d) k (u.pushed k.sid { bits := BitVec.ofNat 64 (3 * 2 ^ 30), mark := o.mark } d) ∧
            Completes s (.tacc g x y d) k (u.pushed k.sid { bits := BitVec.ofNat 64 (3 * 2 ^ 30), mark := o.mark } d)) ∧
          ((∀ q ∈ heads, 2 ^ 31 ≤ q.getD 1 0) → ∀ (stops : List Nat) (blocks : List (List Nat)),
            s.readAll th ((stopa, nstop) :: (shards.zip (counts heads)).map fun q => (q.1 + 8, 6 + 2 * q.2)) = (s, .ok (stops :: blocks)) →
            (∀ e ∈ cands blocks, isNan32 e.val = false) →
              Completes s (.tsamp g x y d) k (u.pushed k.sid
                { bits := sampleWord (tsampOf g (w 0) (fieldNat o.bits 63 24) nsh (cands blocks)) stops, mark := o.mark } d) ∧
              Completes s (.tacc g x y d) k (u.pushed k.sid
                { bits := sampleWord (taccOf g (w 0) (fieldNat o.bits 63 24) (fieldNat o.bits 23 0) (cands blocks)) stops,
                  mark := o.mark } d))) ∧
      (a.Clean → o.There → ¬ LegalAt th ea 64 →
        Traps s (.tsamp g x y d) k th { code := 5 } ∧ Traps s (.tacc g x y d) k th { code := 5 }) ∧
      (∀ (n i : Nat) (q : Word × Mark), i < n → th.early? (ea + 8 * i) = some q → (s.sampleWords th ea n).2[i]? = some q) ∧
      (th.sc.early = [] → NoLatent s →
        (∀ n, s.sampleWords th ea n = (s, s.spWords th ea n)) ∧
        ∀ j, (∀ q ∈ s.spWords th ea 8, q.2 = none) → descOk296 ds = true → j < nsh → shardWord ds j % 64 = 0 →
          legal32 th.panes (shardWord ds j) 2 = true →
          let b := shardWord ds j
          s.readAhead th ea j = s.modThread th.tid fun v => { v with
            sc := { v.sc with
              early := (((List.range 8).zip (s.spWords th ea 8)).map fun q => (ea + 8 * q.1, q.2)) ++ (s.spWords th b 1).map fun q => (b, q) } })

/-! ### Traps and system registers (15) -/

/-- What taking a trap does to a thread (15 R303, R313): a running thread is frozen in this cycle for a save with REASON 1 and the record
names the stream, the code and the instruction; one already being brought to its boundaries for another save becomes a trap save, from the
same decision cycle; a checkpoint's store is completed first. Of the trap that froze the thread and another of the same cycle the one of the
earlier stream in the order C, A, V, M is the primary trap; any later trap is its stream's secondary trap, with no detail. The trap of a parked
command (10 R214) is the primary one, though the thread runs on until its C, V and M streams wait on nothing but what the parked commands would provide, and is then taken (log 74). trap and brk
take their trap, with SOFTWARE and BREAK as code and their operand as DETAIL; in a kernel they trap ILLEGAL; nothing else changes (15
R309; 04 R82). -/
def Obligations.TrapsTakenAndRaised : Prop :=
  (∀ (th : Thread) (now : Nat) (f : FaultRec),
    let ties := th.life.trapAt = some now ∧ streamNum f.strm < streamNum th.life.fault.strm
    let l := th.life
    (l.trapping = false → l.waitingTrap = none →
      (l.phase = .running →
        th.takeTrap now f = { th with life := { l with phase := .saving 1 now, trapping := true, fault := f, trapAt := some now } }) ∧
      (∀ r d, l.phase = .saving r d → r ≠ 2 →
        th.takeTrap now f = { th with life := { l with phase := .saving 1 d, trapping := true, fault := f, trapAt := some now } }) ∧
      (∀ d, l.phase = .saving 2 d →
        th.takeTrap now f = { th with life := { l with trapping := true, fault := f, trapAt := some now } })) ∧
    (l.trapping = true → ¬ ties →
      ((th.takeTrap now f).strm f.strm).trap2 = f.code ∧ (th.takeTrap now f).life = l ∧
        ∀ x, x ≠ f.strm → (th.takeTrap now f).strm x = th.strm x) ∧
    (l.trapping = true → ties →
      ((th.takeTrap now f).strm l.fault.strm).trap2 = l.fault.code ∧
        (th.takeTrap now f).life = { l with fault := f, faultCmd := none } ∧
        ∀ x, x ≠ l.fault.strm → (th.takeTrap now f).strm x = th.strm x) ∧
    (∀ old, l.trapping = false → l.waitingTrap = some old → l.phase = .running →
      let u := ({ th with life := { l with phase := .saving 1 now, trapping := true, fault := old, trapAt := none, waitingTrap := none } } : Thread)
      (th.takeTrap now f).life = u.life ∧ ((th.takeTrap now f).strm f.strm).trap2 = f.code ∧
        (∀ x, x ≠ f.strm → (th.takeTrap now f).strm x = th.strm x) ∧
        ∀ ea, (th.allStuck now ea = true → th.releaseTrap now ea = u) ∧ (th.allStuck now ea = false → th.releaseTrap now ea = th))) ∧
  (∀ (s : State) (k : Issue) (th : Thread) (i : Imm) (v : BitVec 22) (l : Word),
    Issues s k th → i = .short v ∨ i = .lit l →
      let detail : Word := match i with | .short v => v.setWidth 64 | .lit l => l
      (th.inKernel k.sid = false → Traps s (.trap i) k th { code := 8, detail := detail } ∧ Traps s (.brk i) k th { code := 9, detail := detail }) ∧
      (th.inKernel k.sid = true → Traps s (.trap i) k th { code := 1 } ∧ Traps s (.brk i) k th { code := 1 }))

/-- sysr pushes the register that its number names as it stands; a number that names none or a write-only one, a window of a pane that the fragment
does not have, traps ILLEGAL (15 R307; 04 R64; 05 R103; 06 R118; 07 R133; 08 R153; 10 R210; 11 R224). -/
def Obligations.SystemRegistersRead : Prop :=
  ∀ (s : State) (k : Issue) (th : Thread) (r : RegNum) (d : Dst),
    Issues s k th → k.sid = .c →
      let u := th.advance k s.now
      let n := r.num
      let reads := fun v : Word => Completes s (.sysr r d) k (u.pushed k.sid { bits := v } d)
      (∀ p ∈ [(0x010, th.life.ckst), (0x080, BitVec.ofNat 64 th.cnt.spV), (0x081, BitVec.ofNat 64 th.cnt.spC),
          (0x082, BitVec.ofNat 64 th.cnt.spA), (0x083, BitVec.ofNat 64 th.cnt.spX), (0x084, th.cnt.fstat.setWidth 64),
          (0x085, th.cnt.dph.setWidth 64), (0x086, BitVec.ofNat 64 th.cnt.vstall),
          (0x087, BitVec.ofNat 64 (s.effCad th * 2 ^ 8 + (s.core th.life.rect.lead).cad)), (0x088, BitVec.ofNat 64 th.cnt.pfdrop)],
        n = p.1 → reads p.2) ∧
      (∀ j, j < 4 →
        (n = 0x040 + j → reads (th.sc.lc.getD j 0)) ∧ (n = 0x044 + j → reads (th.sa.lc.getD j 0)) ∧
        (n = 0x048 + j → reads (th.sv.lc.getD j 0)) ∧ (n = 0x04C + j → reads (th.sm.lc.getD j 0))) ∧
      (∀ p w, p < 16 → w < 8 → n = 0x100 + 8 * p + w →
        (p < th.panes → reads ((s.core (th.coreOf p)).wins.getD w 0)) ∧ (th.panes ≤ p → Traps s (.sysr r d) k th { code := 1 })) ∧
      (n < 0x010 ∨ (0x010 < n ∧ n < 0x040) ∨ (0x04F < n ∧ n < 0x080) ∨ (0x088 < n ∧ n < 0x100) ∨ 0x17F < n →
        Traps s (.sysr r d) k th { code := 1 })

/-- sysw writes the register that its number names, and nothing else: a loop counter, of another stream only while that stream does not run; the
conflict counters, VSTALL and PFDROP; FSTAT; DPH while V and M do not run; an inbox window. A number that names no register, a read-only one, one
that may not be written now and a reserved field that is not 0 trap ILLEGAL; a poisoned value traps POISON (15 R307; 04 R64; 05 R103; 06 R118, R119;
11 R224). -/
def Obligations.SystemRegistersWritten : Prop :=
  ∀ (s : State) (k : Issue) (th : Thread) (r : RegNum) (x : Src),
    Issues s k th → k.sid = .c →
      let n := r.num
      let running := fun st : StreamId => (th.strm st).idleAt s.now = false
      let named := n ∈ [0x080, 0x081, 0x082, 0x083, 0x084, 0x086, 0x088] ∨ (n = 0x085 ∧ ¬ running .v ∧ ¬ running .m) ∨
        (0x040 ≤ n ∧ n < 0x044) ∨ (0x044 ≤ n ∧ n < 0x048 ∧ ¬ running .a) ∨ (0x048 ≤ n ∧ n < 0x04C ∧ ¬ running .v) ∨
        (0x04C ≤ n ∧ n < 0x050 ∧ ¬ running .m) ∨ (0x100 ≤ n ∧ n < 0x180 ∧ (n - 0x100) / 8 < th.panes)
      (n ≤ 0x010 ∨ (0x010 < n ∧ n < 0x040 ∧ n ≠ 0x020) ∨ (0x04F < n ∧ n < 0x080) ∨ n = 0x087 ∨ (0x088 < n ∧ n < 0x100) ∨ 0x17F < n →
        Traps s (.sysw x r) k th { code := 1 }) ∧
      (∀ t, named → (th.src k x).There → (th.src k x).mark = some t → Traps s (.sysw x r) k th { code := 6, tag := t }) ∧
      ((th.src k x).Clean →
      let u := th.advance k s.now
      let v := (th.src k x).bits
      let writes := fun w : Thread => Completes s (.sysw x r) k w
      let bad := Traps s (.sysw x r) k th { code := 1 }
      (∀ (st : StreamId) (j m : Nat), j < 4 → (st, m) ∈ [(StreamId.c, 0x040), (.a, 0x044), (.v, 0x048), (.m, 0x04C)] → n = m + j →
        (st = .c ∨ (th.strm st).idleAt s.now = true → writes (u.modStrm st fun q => { q with lc := setAt q.lc j v })) ∧
        (st ≠ .c → (th.strm st).idleAt s.now = false → bad)) ∧
      (v.toNat < 2 ^ 48 →
        (n = 0x080 → writes { u with cnt := { u.cnt with spV := v.toNat } }) ∧ (n = 0x081 → writes { u with cnt := { u.cnt with spC := v.toNat } }) ∧
        (n = 0x082 → writes { u with cnt := { u.cnt with spA := v.toNat } }) ∧ (n = 0x083 → writes { u with cnt := { u.cnt with spX := v.toNat } }) ∧
        (n = 0x086 → writes { u with cnt := { u.cnt with vstall := v.toNat } }) ∧
        (n = 0x088 → writes { u with cnt := { u.cnt with pfdrop := v.toNat } })) ∧
      (2 ^ 48 ≤ v.toNat → n ∈ [0x080, 0x081, 0x082, 0x083, 0x086, 0x088] → bad) ∧
      (n = 0x084 → (v.toNat < 2 ^ 8 → writes { u with cnt := { u.cnt with fstat := v.setWidth 8 } }) ∧ (2 ^ 8 ≤ v.toNat → bad)) ∧
      (n = 0x085 → (v.toNat < 2 ^ 5 → th.sv.idleAt s.now = true → th.sm.idleAt s.now = true →
        writes { u with cnt := { u.cnt with dph := v.setWidth 5 } }) ∧
        (th.sv.idleAt s.now = false ∨ th.sm.idleAt s.now = false ∨ 2 ^ 5 ≤ v.toNat → bad)) ∧
      (∀ p w, p < 16 → w < 8 → n = 0x100 + 8 * p + w →
        (p < th.panes → fieldNat v 44 36 = 0 → ∃ t, exec (.sysw x r) s = .next t ∧
          OnlyThreadAnd s t k.tid u fun s => s.modCore (th.coreOf p) fun c => { c with wins := setAt c.wins w v }) ∧
        (th.panes ≤ p ∨ fieldNat v 44 36 ≠ 0 → bad)))

/-- ptst pushes whether its operand is void, its poison bit and its tag, or with STRIP its bits, consuming no poison; faultreq asks for a further
FAULT decision on the parked thread of its partition and CTX that holds the slot it names, and does nothing where there is none; it waits for the
thread's earlier writes as done does: for its commands that write, and for its writes to lines homed in this package that are not seen yet (15
R308, R310; 12 R249; which writes are seen late is an input, log 18). -/
def Obligations.PoisonTestAndFaultRequest : Prop :=
  ∀ (s : State) (k : Issue) (th : Thread) (x : Src) (l : Option Word) (b : Bool) (d : Dst),
    Issues s k th → k.sid = .c →
      let u := th.advance k s.now
      let a := th.src k x
      let parked := fun t : Thread =>
        t.life.phase = .parked ∧ t.life.part = th.life.part ∧ t.life.ctx = th.life.ctx ∧ t.life.slot = a.bits.toNat
      (a.There → l.getD 0 = 0 →
        Completes s (.ptst true x l d) k (u.pushed k.sid { bits := a.bits } d) ∧
        (∀ n : BitVec 4, x = .belt n → (th.c.regs.belt.getD n.toNat Val.empty).void = true →
          Completes s (.ptst false x l d) k (u.pushed k.sid { bits := 0x2000 } d)) ∧
        (th.c.regs.isVoid x = false → Completes s (.ptst false x l d) k (u.pushed k.sid
          { bits := match a.mark with | some t => BitVec.ofNat 64 (2 ^ 12 + t.toNat) | none => 0 } d))) ∧
      (l.getD 0 ≠ 0 → Traps s (.ptst b x l d) k th { code := 1 }) ∧
      (a.Clean → fieldNat a.bits 63 16 = 0 → (∀ c ∈ th.a.cmds, writesAfar c.instr = false) → s.fenceWaits th .dev = false →
        (∀ t, (s.threads.find? fun t => t.life.phase == .parked && t.life.part == th.life.part && t.life.ctx == th.life.ctx &&
            t.life.slot == a.bits.toNat) = some t →
          parked t ∧ ∃ w, exec (.faultreq x b) s = .next w ∧
            OnlyThreadAnd s w k.tid u fun s => s.trigger th.life.part
              { hook := .fault, cause := 1, tid := t.tid, handle := t.life.rect.lead, shape := t.life.rect.shape }) ∧
        ((∀ t ∈ s.threads, ¬ parked t) → Completes s (.faultreq x b) k u)) ∧
      (a.Clean → fieldNat a.bits 63 16 ≠ 0 → Traps s (.faultreq x b) k th { code := 1 }) ∧
      (a.Clean → fieldNat a.bits 63 16 = 0 → ((∃ c ∈ th.a.cmds, writesAfar c.instr = true) ∨ s.fenceWaits th .dev = true) →
        Waits s (.faultreq x b) k th .none)

/-! ### The vector stream (06, 07) -/

/-- The lane-by-lane instructions push, in every active lane, what their element operation makes of their operands' lanes there, with the least
tag of those lanes, and raise the flags that some active lane raises at the end of the cycle in which the result is ready (06 R119, R121,
R123, R125; 07 R129, R131, R140 to R144, R151). What is due at the end of a cycle is done then, once. A pushed vector and its named copy are not
there before the cycle in which they are ready, and an instruction that reads one that is not there waits. -/
def Obligations.VectorLaneResults : Prop :=
  (∀ (th : Thread) (now : Nat),
    (∀ d ∈ th.dues, d.at_ ≤ now → ∀ b, b < 8 → d.flags.getLsbD b = true → (th.settleDues now).cnt.fstat.getLsbD b = true) ∧
    (∀ b, b < 8 → (th.settleDues now).cnt.fstat.getLsbD b = true → th.cnt.fstat.getLsbD b = true ∨
      ∃ d ∈ th.dues, d.at_ ≤ now ∧ d.flags.getLsbD b = true) ∧
    (th.settleDues now).dues = th.dues.filter fun d => decide (now < d.at_)) ∧
  (∀ (v : VState) (l : Nat) (act : List Bool) (r : List Lane) (d : VDst) (at_ now : Nat),
    ((v.push l act r d at_).pending now (.belt 0) = true ↔ now < at_) ∧
    (∀ n, d = some n → n.toNat < v.file.length → ((v.push l act r d at_).pending now (.named n) = true ↔ now < at_))) ∧
  ∀ (s : State) (k : Issue) (th : Thread) (t dt : LaneTy) (rnd : Rnd) (mk h : Bool) (c : VCond) (fmt : EFmt) (i : Imm) (v : BitVec 32)
    (x y z : VSrc) (d : VDst) (n : Nat),
    Issues s k th →
      let u := th.advance k s.now
      let act := th.v.active th.lanes mk
      let a := th.v.read th.lanes x
      let b := th.v.read th.lanes y
      let e := th.v.read th.lanes z
      let gives := fun (i : Instr) (lat : Nat) (p : List Lane → Flags → Prop) =>
        ∃ r fl, Completes s i k (u.vwrote (s.now + lat) act r d fl n) ∧ p r fl
      let lat := if laneFloat t = true then 4 else 1
      (VGo s k th [x] act d n →
        (∀ p ∈ [(Instr.vabs t mk x d, 1, onElems1 t (absElem t)), (.vneg t mk x d, 1, onElems1 t (negElem t)),
            (.vrcp t rnd mk x d, 10, onElems1 t (rcpElem t)), (.vrsq t rnd mk x d, 10, onElems1 t (rsqElem t)),
            (.vexp2 t rnd mk x d, 10, onElems1 t (exp2Elem t)), (.vlog2 t rnd mk x d, 10, onElems1 t (log2Elem t)),
            (.vmov mk x d, 1, fun q => (q, 0)), (.vsce h mk x d, 1, onElems1 .s8 (sceByte h))],
          gives p.1 p.2.1 (LaneWise1 act a p.2.2)) ∧
        (vcvtTakesB dt t = false → gives (.vcvt dt t rnd mk h x y d) 2 (LaneWise1 act a fun q => vcvtLane dt t rnd h q 0)) ∧
        (viBits i = some v → gives (.vaddi t mk x i d) 1
          (LaneWise1 act a (onElems1 t fun q => addElem t .rne q (v.toNat % 2 ^ LaneBits t))))) ∧
      (VGo s k th [x, y] act d n →
        (∀ p ∈ [(Instr.vadd t rnd mk x y d, lat, onElems2 t (addElem t rnd)), (.vsub t rnd mk x y d, lat, onElems2 t (subElem t rnd)),
            (.vmul t rnd mk x y d, 4, onElems2 t (mulElem t rnd)), (.vmin t mk x y d, lat, onElems2 t (minElem t false)),
            (.vmax t mk x y d, lat, onElems2 t (minElem t true)), (.vand t mk x y d, 1, fun p q => (p &&& q, 0)),
            (.vor t mk x y d, 1, fun p q => (p ||| q, 0)), (.vxor t mk x y d, 1, fun p q => (p ^^^ q, 0)),
            (.vshl t mk x y d, 1, onElems2 t (shlElem t)), (.vshr t mk x y d, 1, onElems2 t (shrElem t)),
            (.vsar t mk x y d, 1, onElems2 t (sarElem t)), (.vcmp c t mk x y d, 1, onElems2 t (cmpElem c t)),
            (.vrsh t mk x y d, 4, rshLane t), (.vmulq mk x y d, 4, mulqLane),
            (.vdeq fmt t rnd mk x y d, 3, deqLane (narrowFmt fmt) t rnd)],
          gives p.1 p.2.1 (LaneWise2 act a b p.2.2)) ∧
        (vcvtTakesB dt t = true → gives (.vcvt dt t rnd mk h x y d) 2 (LaneWise2 act a b (vcvtLane dt t rnd h)))) ∧
      (VGo s k th [x, y, z] act d n →
        (∀ p ∈ [(Instr.vfma t rnd mk x y z d, 4, onElems3 t (fmaElem t rnd false)),
            (.vfms t rnd mk x y z d, 4, onElems3 t (fmaElem t rnd true)), (.vclamp t mk x y z d, lat, onElems3 t (clampElem3 t)),
            (.vdot4 t mk x y z d, 4, dot4Lane t)],
          gives p.1 p.2.1 (LaneWise3 act a b e p.2.2)) ∧
        ∃ r, Completes s (.vsel t mk x y z d) k (u.vwrote (s.now + 1) act r d 0 n) ∧
          ∀ (j : Nat) (p q w : Lane), a[j]? = some p → b[j]? = some q → e[j]? = some w → r[j]? = some (selLane t p q w)) ∧
      (VGo s k th [] act d n → viBits i = some v →
        Completes s (.vlit mk i d) k (u.vwrote (s.now + 1) act (List.replicate th.lanes { bits := v }) d 0 n)) ∧
      (th.v.waits s.now [x, y] act d = true → ∀ i ∈ [Instr.vadd t rnd mk x y d, .vsub t rnd mk x y d, .vmul t rnd mk x y d, .vmin t mk x y d,
          .vmax t mk x y d, .vcmp c t mk x y d, .vdeq fmt t rnd mk x y d], Waits s i k th .result) ∧
      (∀ l : Word, 2 ^ 32 ≤ l.toNat → Traps s (.vlit mk (.lit l) d) k th { code := 1 } ∧ Traps s (.vaddi t mk x (.lit l) d) k th { code := 1 })

/-- What the elements compute. Elements of 32, 16 and 8 bits add, subtract and multiply modulo their
width, with IOV where the exact integer is out of range; a comparison gives all ones or zero (07 R140, R141). A number that a format represents,
rounded to that format by any mode, is its own code and raises no flag (06 R112). A dot product is kept to 32 bits; vrsh and vmulq round half up
and clamp (07 R144). vsce shifts the bias (06 R125). Conversions between integers extend or clamp, those to an integer and from one are exact where
they can be (06 R121). A fused multiply-add, a reciprocal, a reciprocal root, a power and a logarithm whose exact value the format holds give
its code and raise no flag; the special operands give what the table of R142 says (07 R140, R142). -/
def Obligations.ElementArithmetic : Prop :=
  (∀ (t : LaneTy) (rnd : Rnd) (a b : BitVec 32) (j : Nat), laneFloat t = false → j < 32 / LaneBits t →
    let w := LaneBits t
    let part := fun q : BitVec 32 => q.extractLsb' (w * j) w
    part (onElems2 t (addElem t rnd) a b).1 = part a + part b ∧
    part (onElems2 t (subElem t rnd) a b).1 = part a - part b ∧
    part (onElems2 t (mulElem t rnd) a b).1 = part a * part b ∧
    part (onElems2 t (shlElem t) a b).1 = part a <<< ((part b).toNat % w) ∧
    part (onElems2 t (shrElem t) a b).1 = part a >>> ((part b).toNat % w) ∧
    part (onElems2 t (sarElem t) a b).1 = (part a).sshiftRight ((part b).toNat % w) ∧
    part (onElems2 t (minElem t false) a b).1 = (if (if laneSigned t then (part b).slt (part a) else (part b).ult (part a)) then part b else part a) ∧
    part (onElems2 t (cmpElem .eq t) a b).1 = (if part a = part b then BitVec.allOnes w else 0)) ∧
  (∀ (rnd : Rnd) (a b : BitVec 32),
    (onElems2 .s32 (addElem .s32 rnd) a b).2 = (if a.saddOverflow b then flIOV else 0) ∧
    (onElems2 .z32 (addElem .z32 rnd) a b).2 = (if a.uaddOverflow b then flIOV else 0) ∧
    (onElems2 .s32 (subElem .s32 rnd) a b).2 = (if a.ssubOverflow b then flIOV else 0) ∧
    (onElems2 .s32 (mulElem .s32 rnd) a b).2 = (if a.smulOverflow b then flIOV else 0)) ∧
  (∀ (f : Fmt) (rnd : Rnd) (ov : Ov) (p ph code m : Nat) (neg : Bool) (e : Int), code < 2 ^ f.width →
    decodeNum f code = .fin neg m e → roundFp (decodeNum f code) f rnd ov p ph = (code, 0)) ∧
  (∀ (a b c : BitVec 32),
    let byte := fun (q : BitVec 32) (j : Nat) => q.extractLsb' (8 * j) 8
    let sum := fun f : Nat → Int => f 0 + f 1 + f 2 + f 3
    let v := c.toInt + sum fun j => (byte a j).toInt * (byte b j).toInt
    let u := (c.toNat : Int) + sum fun j => ((byte a j).toNat : Int) * (byte b j).toNat
    dot4Lane .s8 a b c = (BitVec.ofInt 32 v, if -(2 ^ 31) ≤ v ∧ v < 2 ^ 31 then 0 else flIOV) ∧
    dot4Lane .z8 a b c = (BitVec.ofInt 32 u, if u < 2 ^ 32 then 0 else flIOV)) ∧
  (∀ (t : LaneTy) (a b : BitVec 32), laneFloat t = false →
    let n := b.toNat % 32
    let y := if n = 0 then a.toInt else (a.toInt + 2 ^ (n - 1)) / 2 ^ n
    let lo : Int := if laneSigned t then -(2 ^ (LaneBits t - 1)) else 0
    let hi : Int := if laneSigned t then 2 ^ (LaneBits t - 1) - 1 else 2 ^ LaneBits t - 1
    rshLane t a b = (BitVec.ofInt 32 (max lo (min y hi)), if lo ≤ y ∧ y ≤ hi then 0 else flSAT)) ∧
  (∀ a b : BitVec 32, mulqLane a b =
    if a = 0x80000000 ∧ b = 0x80000000 then (0x7FFFFFFF, flSAT) else (BitVec.ofInt 32 ((a.toInt * b.toInt + 2 ^ 30) / 2 ^ 31), 0)) ∧
  (∀ q : BitVec 8,
    sceByte true q.toNat = (if q = 0x80 then 0xFF else (q + 127).toNat, 0) ∧
    sceByte false q.toNat = if q = 0xFF then (0x80, flSN) else ((q - 127).toNat, 0)) ∧
  (∀ (rnd : Rnd) (h : Bool) (a b : BitVec 32),
    let at_ := fun (q : BitVec 32) (w j : Nat) => q.extractLsb' (w * j) w
    let hi : Nat := if h then 1 else 0
    let sat := fun (lo up v : Int) => max lo (min v up)
    vcvtLane .s32 .s16 rnd h a b = ((at_ a 16 hi).signExtend 32, 0) ∧ vcvtLane .z32 .z16 rnd h a b = ((at_ a 16 hi).setWidth 32, 0) ∧
    vcvtLane .s16 .s8 rnd h a b = ((at_ a 8 (2 * hi + 1)).signExtend 16 ++ (at_ a 8 (2 * hi)).signExtend 16, 0) ∧
    vcvtLane .z16 .z8 rnd h a b = ((at_ a 8 (2 * hi + 1)).setWidth 16 ++ (at_ a 8 (2 * hi)).setWidth 16, 0) ∧
    (vcvtLane .s16 .s32 rnd h a b).1 =
      BitVec.ofInt 16 (sat (-32768) 32767 b.toInt) ++ BitVec.ofInt 16 (sat (-32768) 32767 a.toInt) ∧
    (vcvtLane .s16 .s32 rnd h a b).2 =
      (if -32768 ≤ a.toInt ∧ a.toInt ≤ 32767 ∧ -32768 ≤ b.toInt ∧ b.toInt ≤ 32767 then 0 else flSAT) ∧
    vcvtLane .s32 .z32 rnd h a b = (BitVec.ofInt 32 (sat 0 (2 ^ 31 - 1) a.toNat), if a.toNat < 2 ^ 31 then 0 else flSAT) ∧
    vcvtLane .z32 .s32 rnd h a b = (BitVec.ofInt 32 (sat 0 (2 ^ 32 - 1) a.toInt), if 0 ≤ a.toInt then 0 else flSAT) ∧
    (decodeNum .f32 a.toNat = .nan → vcvtLane .s32 .f32 rnd h a b = (0, flNV) ∧ vcvtLane .z32 .f32 rnd h a b = (0, flNV)) ∧
    (∀ (n : Int) (j : Nat), (decodeNum .f32 a.toNat).scaled (-(j : Int)) = some (n * 2 ^ j) →
      (-(2 ^ 31) ≤ n → n < 2 ^ 31 → vcvtLane .s32 .f32 rnd h a b = (BitVec.ofInt 32 n, 0)) ∧
      (0 ≤ n → n < 2 ^ 32 → vcvtLane .z32 .f32 rnd h a b = (BitVec.ofInt 32 n, 0)) ∧
      (2 ^ 31 ≤ n → vcvtLane .s32 .f32 rnd h a b = (0x7FFFFFFF, flNV)) ∧ (n < 0 → vcvtLane .z32 .f32 rnd h a b = (0, flNV)) ∧
      (n ≠ 0 → b.toInt = n → vcvtLane .f32 .s32 rnd h b a = (a, 0)))) ∧
  (∀ (t : LaneTy) (rnd : Rnd) (a b c r : Nat) (ka kb x y z w n : Int) (i j : Nat), laneFloat t = true →
    a < 2 ^ LaneBits t → b < 2 ^ LaneBits t → c < 2 ^ LaneBits t → r < 2 ^ LaneBits t →
    let num := fun q : Nat => decodeNum (laneFmt t) q
    ((num a).scaled ka = some x → (num b).scaled kb = some y → (num c).scaled (ka + kb) = some z → (num r).scaled (ka + kb) = some w → w ≠ 0 →
      (x * y + z = w → fmaElem t rnd false a b c = (r, 0)) ∧ (x * y - z = w → fmaElem t rnd true a b c = (r, 0))) ∧
    ((num a).scaled ka = some x → (num r).scaled kb = some y →
      (x * y = 2 ^ i → ka + kb = -(i : Int) → rcpElem t a = (r, 0)) ∧
      (0 < x → 0 < y → x * y * y = 2 ^ i → ka + 2 * kb = -(i : Int) → rsqElem t a = (r, 0))) ∧
    ((num a).scaled (-(i : Int)) = some (n * 2 ^ i) → (num r).scaled (n - j) = some (2 ^ j) → exp2Elem t a = (r, 0)) ∧
    ((num a).scaled (n - j) = some (2 ^ j) → (num r).scaled (-(i : Int)) = some (n * 2 ^ i) → n ≠ 0 → log2Elem t a = (r, 0))) ∧
  (∀ a : Nat, a < 2 ^ 32 →
    let nv := if isSnan .f32 a then flNV else 0
    (decodeNum .f32 a = .nan → rcpElem .f32 a = (0x7FC00000, nv) ∧ rsqElem .f32 a = (0x7FC00000, nv) ∧ exp2Elem .f32 a = (0x7FC00000, nv) ∧
      log2Elem .f32 a = (0x7FC00000, nv)) ∧
    (∀ (m : Nat) (e : Int), decodeNum .f32 a = .fin true m e → m ≠ 0 →
      rsqElem .f32 a = (0x7FC00000, flNV) ∧ log2Elem .f32 a = (0x7FC00000, flNV))) ∧
  (∀ p ∈ [(rcpElem, 0x7F800000, 0xFF800000, 0, 0x80000000, flDZ, flDZ, 0, 0), (rsqElem, 0x7F800000, 0xFF800000, 0, 0x7FC00000, flDZ, flDZ, 0, flNV),
      (exp2Elem, 0x3F800000, 0x3F800000, 0x7F800000, 0, 0, 0, 0, 0),
      (log2Elem, 0xFF800000, 0xFF800000, 0x7F800000, 0x7FC00000, flDZ, flDZ, 0, flNV)],
    let (f, pz, nz, pi, ni, fpz, fnz, fpi, fni) := p
    f .f32 0 = (pz, fpz) ∧ f .f32 0x80000000 = (nz, fnz) ∧ f .f32 0x7F800000 = (pi, fpi) ∧ f .f32 0xFF800000 = (ni, fni))

/-- The instructions that take a vector as a whole: reductions, scans, permutes, argmax, block scales, packing, requantisation, the mask (06 R120,
R122, R124, R126, R127; 07 R137, R145, R146). Dither waits for an earlier dither and advances DPH by one when it retires (06 R115). -/
def Obligations.VectorWholeResults : Prop :=
  ∀ (s : State) (k : Issue) (th : Thread) (t : LaneTy) (rnd : Rnd) (ov : Ov) (mk half : Bool) (fmt : EFmt) (g : BitVec 3) (x y : VSrc) (d : VDst)
    (n : Nat),
    Issues s k th →
      let u := th.advance k s.now
      let l := th.lanes
      let doubled := 2 * (th.life.rect.lrows + th.life.rect.lcols)
      let act := th.v.active l mk
      let all := th.v.active l false
      let a := th.v.read l x
      let b := th.v.read l y
      let on := activeOf act a
      let es := on.flatMap fun q => elems t q.bits
      let marks := fun ls : List Lane => meetAll (ls.map (·.mark))
      let reduce := fun (i : Instr) (r : LaneOut) =>
        Completes s i k (u.vwrote (s.now + 6 + doubled) (act.map fun _ => true) (List.replicate l { bits := r.1, mark := marks on }) d r.2 n)
      let moves := fun (i : Instr) (from_ : Nat → Nat) (by_ : Nat → Nat) =>
        ∃ r, Completes s i k (u.vwrote (s.now + 3 + doubled) act r d 0 n) ∧
          ∀ j, j < l → r[j]? = some
            { bits := (a.getD (from_ j) {}).bits, mark := meet (a.getD (from_ j) {}).mark (b.getD (by_ j) {}).mark }
      let size := if t == .bf16 then 16 else 32
      let block := fun j : Nat => (a.drop (size * (j / size))).take size
      let scale := fun j : Nat => blockScale (narrowFmt fmt) (((block j).flatMap fun q => elems t q.bits).map (decodeNum (laneFmt t)))
      let quantised := fun (j : Nat) (p q : Lane) =>
        (List.range (elems t p.bits).length).map fun h => qntElem (narrowFmt fmt) t rnd ov th.cnt.dph.toNat (scaleOf q.bits)
          (((elems t p.bits).length * (j % 64) + h) % 32) ((elems t p.bits).getD h 0)
      (VGo s k th [x] act d n →
        reduce (.vredadd t rnd mk x d) (sumElems t rnd es) ∧ reduce (.vredmax t mk x d) (extremeElems t true es) ∧
        reduce (.vredmin t mk x d) (extremeElems t false es) ∧
        (∃ r fl, Completes s (.vscan t rnd mk x d) k (u.vwrote (s.now + 6 + doubled) act r d fl n) ∧
          ∀ j, act[j]? = some true → j < a.length →
            let seen := activeOf (act.take (j + 1)) (a.take (j + 1))
            r[j]? = some ({ bits := (sumElems t rnd (seen.flatMap fun q => elems t q.bits)).1, mark := marks seen } : Lane)) ∧
        Completes s (.vargmax t mk x d) k
          (u.vwrote (s.now + 6 + doubled) act (List.replicate l { bits := BitVec.ofInt 32 (argmaxLanes t act a), mark := marks on }) d 0 n)) ∧
      (VGo s k th [x, y] act d n →
        moves (.vperm mk x y d) (fun j => (b.getD j {}).bits.toNat % l) (fun j => j) ∧
        moves (.vrot mk x y d) (fun j => (j + l - (b.getD 0 {}).bits.toNat % l) % l) (fun _ => 0) ∧
        moves (.vbcast mk x y d) (fun _ => (b.getD 0 {}).bits.toNat % l) (fun _ => 0) ∧
        (rnd = .dth → th.phaseDue .v = true → Waits s (.vqnt fmt t rnd ov mk x y d) k th .none) ∧
        ((rnd = .dth → th.phaseDue .v = false) → ∃ r fl, Completes s (.vqnt fmt t rnd ov mk x y d) k
          (let w := u.vwrote (s.now + 4) act r d 0 n
           { w with dues := if fl = 0 ∧ rnd ≠ .dth then th.dues
                      else th.dues ++ [{ at_ := s.now + 4, sid := .v, flags := fl, phase := rnd == .dth }] }) ∧
          (∀ (j : Nat) (p q : Lane), act[j]? = some true → a[j]? = some p → b[j]? = some q →
            r[j]? = some ({ bits := joinElems t ((quantised j p q).map (·.1)), mark := meet p.mark q.mark } : Lane)) ∧
          RaisedBy fl fun j => if act[j]? = some true then
            a[j]?.bind fun p => b[j]?.map fun q => (quantised j p q).foldl (fun f z => f ||| z.2) 0 else none)) ∧
      (VGo s k th [x] all d n →
        (∃ r fl, Completes s (.vbsc fmt t x d) k (u.vwrote (s.now + 4) all r d fl n) ∧
          (∀ j, j < a.length → r[j]? = some ({ bits := BitVec.ofInt 32 (scale j).1, mark := marks (block j) } : Lane)) ∧
          RaisedBy fl fun j => if j < a.length then some (scale j).2 else none) ∧
        ∃ r, Completes s (.vupk fmt half g x d) k (u.vwrote (s.now + 2) all r d 0 n) ∧
          ∀ p j, p < th.panes → j < 64 → r[64 * p + j]? = (upkPane (pakWidth fmt) half g.toNat (paneLanes a p))[j]?) ∧
      (VGo s k th [x, y] all d n → ∃ r, Completes s (.vpak fmt half g x y d) k (u.vwrote (s.now + 2) all r d 0 n) ∧
        ∀ p j, p < th.panes → j < 64 → r[64 * p + j]? = (pakPane (pakWidth fmt) half g.toNat (paneLanes a p) (paneLanes b p))[j]?) ∧
      (VGo s k th [] all d n → Completes s (.vmget d) k
        (u.vwrote (s.now + 1) all ((th.v.top l).map fun m => ({ bits := if m then 0xFFFFFFFF else 0 } : Lane)) d 0 n))

/-- Index registers, the mask stack, mask branches, mirrors and the dither phase: what each writes, and where it traps; with sixteen masks held,
vmpush traps MASKOVF before its operand's poison is looked at (the model's order, log 75; 06 R128; 07 R134 to R138). -/
def Obligations.VectorControl : Prop :=
  ∀ (s : State) (k : Issue) (th : Thread) (i : Imm) (v : BitVec 32) (n : BitVec 3) (m : BitVec 5) (on : Bool) (x : VSrc) (off : BitVec 24) (q : Nat),
    Issues s k th → k.sid = .v →
      let u := th.advance k s.now
      let setV := fun f : VState → VState => ({ u with v := f u.v } : Thread)
      let index := fun f : IndexReg → IndexReg => setV fun w => { w with idx := modAt w.idx n.toNat f }
      let a := th.v.read th.lanes x
      let top := th.v.top th.lanes
      let stall := fun (w : Thread) (c : Nat) => ({ w with cnt := { w.cnt with vstall := min (w.cnt.vstall + c) (2 ^ 48 - 1) } } : Thread)
      let wraps := fun r : IndexReg =>
        ({ r with val := BitVec.ofInt 32 (((r.val.toNat : Int) + v.toInt) % (if r.lim = 0 then 2 ^ 32 else (r.lim.toNat : Int))) } : IndexReg)
      (viBits i = some v →
        Completes s (.iset n (.val i)) k (index fun r => { r with val := v }) ∧
        Completes s (.iset n (.step i)) k (index fun r => { r with step := v }) ∧
        Completes s (.iset n (.lim i)) k (index fun r => { r with lim := v }) ∧
        Completes s (.iadd n i) k (index wraps)) ∧
      (th.v.pending s.now x = false → (a.getD 0 {}).mark = none →
        viBits i = some v → Completes s (.iset n (.vec x i)) k (index fun r => { r with val := (a.getD 0 {}).bits })) ∧
      (∀ t, viBits i = some v → th.v.pending s.now x = false → (a.getD 0 {}).mark = some t →
        Traps s (.iset n (.vec x i)) k th { code := 6, tag := t }) ∧
      (∀ c, VGo s k th [x] top none c →
        (th.v.masks.length < 16 → (∀ y ∈ activeOf top a, y.mark = none) →
          Completes s (.vmpush x) k
            (stall (setV fun w => { w with masks := List.zipWith (fun m y => m && y.bits != 0) top a :: w.masks }) c)) ∧
        (16 ≤ th.v.masks.length → Traps s (.vmpush x) k th { code := 2 }) ∧
        (th.v.masks.length < 16 → ∀ q, meetAll ((activeOf top a).map (·.mark)) = some q → Traps s (.vmpush x) k th { code := 6, tag := q })) ∧
      (∀ t r, th.v.masks = t :: r →
        Completes s .vmpop k (setV fun w => { w with masks := r }) ∧
        Completes s .vminv k (setV fun w =>
          { w with masks := List.zipWith (fun a b => a && !b) (match r with | [] => List.replicate th.lanes true | y :: _ => y) t :: r })) ∧
      (th.v.masks = [] → Traps s .vmpop k th { code := 2 } ∧ Traps s .vminv k th { code := 2 }) ∧
      (th.sv.repCount = 0 →
        ((∀ y ∈ top, y = false) → Completes s (.vbany off) k u) ∧ ((∃ y ∈ top, y = true) → Completes s (.vbnone off) k u) ∧
        ((k.pc.toNat : Int) + off.toInt = q → MayLand s th k q →
          ((∀ y ∈ top, y = false) → Completes s (.vbnone off) k (u.jumped k.sid q)) ∧
          ((∃ y ∈ top, y = true) → Completes s (.vbany off) k (u.jumped k.sid q)))) ∧
      Completes s (.vmirror m on) k (setV fun w => { w with mirror := setAt w.mirror m.toNat on }) ∧
      (th.phaseDue .v = false → Completes s (.vdph m) k { u with cnt := { u.cnt with dph := m } }) ∧
      (th.phaseDue .v = true → Waits s (.vdph m) k th .none)

/-- The vector accesses: vld, vst and vldx enter the V queue with their lanes' offsets, and the index register moves when INC is set; vldt
pushes what the tile's parts hold, each lane with its granule's poison, and a ring's head goes FREE when its result is ready; vstt writes its
lanes into the granules that they lie in, once the flags of earlier instructions are raised, and makes its tile FULL when it reaches the parts'
end, behind the stores before it, the tile being FILLING under its writer till then; an offset that is not allowed
traps BOUNDS, a poisoned offset lane POISON (07 R135, R147 to R150). The oldest access of a V queue, performed: a load delivers
to its active lanes the words at their offsets in their panes, or their poison; a store writes its active lanes' bytes and no other byte of any
scratchpad, and a poisoned lane poisons its word (07 R131, R147, R148, R150). -/
def Obligations.VectorAccessesIssueAndPerform : Prop :=
  (∀ (s : State) (k : Issue) (th : Thread) (x : VSrc) (a : VAddr) (d : VDst) (t : TileRef) (tk : Taken) (desc dd : Word) (n : Nat),
    Issues s k th → k.sid = .v →
      let u := th.advance k s.now
      let act := th.v.active th.lanes a.masked
      let o := th.v.offset a
      let ls := th.v.read th.lanes x
      let stall := fun w : Thread => ({ w with cnt := { w.cnt with vstall := min (w.cnt.vstall + n) (2 ^ 48 - 1) } } : Thread)
      let setV := fun (w : Thread) (f : VState → VState) => ({ w with v := f w.v } : Thread)
      let ok := 0 ≤ o ∧ o ≤ 0xBFFF00 ∧ o % 4 = 0
      let lane := fun (m : Bool) (y : Lane) => if m then some (o + 4 * y.bits.toInt) else none
      let addrs := List.zipWith lane act ls
      let bytes := 64 * partUnits th.life.rect desc
      let inPart := 0 ≤ o ∧ o < bytes ∧ o % 4 = 0
      (VGo s k th [] act d n →
        (ok → CompletesFresh s (.vld a d) k (setV u fun w => ((w.pushWait th.lanes s.nextId d).enqueue (.load
          ((List.range th.lanes).map fun i => if act.getD i false then some (o.toNat + 4 * (i % 64)) else none) s.nextId)).bump a)) ∧
        (¬ ok → Traps s (.vld a d) k th { code := 5 }) ∧
        (t ≠ .tile 255 → th.descOf s.now t = some desc → inPart → th.consumer s.now t = .ok tk dd →
          ∃ r, Completes s (.vldt t a d) k
            (let w := match tk.ring with
              | some _ =>
                let x := u.startRead s.now tk
                { x with dues := x.dues ++ [{ at_ := s.now + 6, sid := .v, read := some tk }] }
              | none => u
             setV w fun q => (q.push th.lanes act r d (s.now + 6)).bump a) ∧
            ∀ i, i < th.lanes →
              let at_ := o.toNat + 4 * (i % 64)
              let g := (s.core (th.coreOf (i / 64))).trf.gran (descBase dd + at_ / 64)
              r[i]? = some (if i / 64 ∈ partPanes th.life.rect dd ∧ at_ < 64 * partUnits th.life.rect dd
                then { bits := BitVec.ofNat 32 (leNat ((g.1.drop (at_ % 64)).take 4)), mark := g.2 } else {})) ∧
        (t ≠ .tile 255 → th.descOf s.now t = some desc → ¬ inPart → Traps s (.vldt t a d) k th { code := 5 })) ∧
      (VGo s k th [x] act none n →
        (ok → Completes s (.vst x a) k (stall (setV u fun w => (w.enqueue (.store o.toNat act ls)).bump a))) ∧
        (¬ ok → Traps s (.vst x a) k th { code := 5 }) ∧
        Completes s (.vstt x (.tile 255) a) k (stall (setV u fun w => w.bump a)) ∧
        (t ≠ .tile 255 → th.descOf s.now t = some desc → inPart → th.vsttTake s.now t = .ok tk dd → th.flagsOwed s.now .v = true →
          Waits s (.vstt x t a) k th .none) ∧
        (t ≠ .tile 255 → th.descOf s.now t = some desc → inPart → th.vsttTake s.now t = .ok tk dd → th.flagsOwed s.now .v = false →
          (∀ p ∈ partPanes th.life.rect dd, th.coreOf p < s.cores.length) →
          (∀ p ∈ partPanes th.life.rect dd, ∀ q ∈ partPanes th.life.rect dd, th.coreOf p = th.coreOf q → p = q) →
          (partPanes th.life.rect dd).Nodup →
          let stores := ∃ y ∈ th.v.queue, match y with | .store .. => True | _ => False
          let unit := fun v : Nat => o.toNat / 64 ≤ v ∧ v < o.toNat / 64 + 5 ∧ 64 * v < min (o.toNat + 256) bytes
          ∃ w z, exec (.vstt x t a) s = .next w ∧ w = { s with threads := w.threads, cores := w.cores } ∧ w.thread? k.tid = some z ∧
            (o.toNat + 256 < bytes → z = stall (setV (u.vsttStart s.now tk) fun q => q.bump a)) ∧
            (bytes ≤ o.toNat + 256 → ¬ stores →
              z = stall (setV ((u.vsttStart s.now tk).endFull s.now tk) fun q => q.bump a)) ∧
            (bytes ≤ o.toNat + 256 → stores →
              z = stall (setV (u.vsttStart s.now tk) fun q => (q.enqueue (.full tk)).bump a)) ∧
            (∀ c e, (w.core c).sp.byte e = (s.core c).sp.byte e) ∧
            (∀ p ∈ partPanes th.life.rect dd, ∀ v, unit v →
              (w.core (th.coreOf p)).trf.gran (descBase dd + v) =
                vsttGran o.toNat (paneLanes act p) (paneLanes ls p) v ((s.core (th.coreOf p)).trf.gran (descBase dd + v))) ∧
            ∀ c g, (∀ p ∈ partPanes th.life.rect dd, ∀ v, unit v → ¬ (c = th.coreOf p ∧ g = descBase dd + v)) →
              (w.core c).trf.gran g = (s.core c).trf.gran g)) ∧
      (VGo s k th [x] act d n → (∀ y ∈ activeOf act ls, y.mark = none) →
        (o % 4 = 0 → (∀ y ∈ addrs, ∀ v, y = some v → 0 ≤ v ∧ v ≤ 0xBFFFFC) →
          CompletesFresh s (.vldx x a d) k
            (let w := setV u fun q =>
               ((q.pushWait th.lanes s.nextId d).enqueue (.load (addrs.map fun y => y.map Int.toNat) s.nextId)).bump a
             let c := vldxCycles th.panes (addrs.map fun y => y.map Int.toNat)
             stall { w with cnt := if c ≤ 1 then w.cnt else { w.cnt with
               spV := min (w.cnt.spV + (c - 1)) (2 ^ 48 - 1),
               refusedAt := setAt w.cnt.refusedAt 0 (some ((match w.cnt.refusedAt.getD 0 none with
                 | some q => max s.now (q + 1)
                 | none => s.now) + c - 2)) } })) ∧
        ((o % 4 ≠ 0 ∨ ∃ v, some v ∈ addrs ∧ ¬ (0 ≤ v ∧ v ≤ 0xBFFFFC)) → Traps s (.vldx x a d) k th { code := 5 })) ∧
      (VGo s k th [x] act d n → ∀ q, meetAll ((activeOf act ls).map (·.mark)) = some q → Traps s (.vldx x a d) k th { code := 6, tag := q })) ∧
  (∀ (s : State) (tid : Nat) (th : Thread) (r : List VAccess),
    s.thread? tid = some th → NoLatent s →
      let t := s.performV tid
      let pane := fun i : Nat => (s.core (th.coreOf (i / 64))).sp
      (∀ (addrs : List (Option Nat)) (id : Nat), th.v.queue = .load addrs id :: r → th.lanes ≤ 64 * 16 → addrs.length ≤ 64 * 16 →
        (∀ (i a : Nat), addrs[i]? = some (some a) → a < 2 ^ 24) →
        let word := fun (i a : Nat) => match (pane i).mark (a / 8) with
          | some p => ({ bits := 0, mark := some p } : Lane)
          | none => { bits := BitVec.ofNat 32 (leNat ((pane i).read a 4)) }
        t.cores = s.cores ∧ t.mem = s.mem ∧ ∃ ls, ls.length = addrs.length ∧ (∀ (i a : Nat), addrs[i]? = some (some a) → ls[i]? = some (word i a)) ∧
          t.thread? tid = some { th with v := { th.v with queue := r }.settle id (addrs.map Option.isSome) ls }) ∧
      (∀ (o : Nat) (act : List Bool) (ls : List Lane), th.v.queue = .store o act ls :: r → o % 4 = 0 → th.lanes = act.length →
        ls.length = act.length →
        (∀ p q, p < th.panes → q < th.panes → th.coreOf p = th.coreOf q → p = q) → (∀ p, p < th.panes → th.coreOf p < s.cores.length) →
        let left : Thread := { th with v := { th.v with queue := r } }
        t.mem = s.mem ∧ t.thread? tid = some (left.retireFulls s.now) ∧
        ((∀ y ∈ r, match y with | .full _ => False | _ => True) → t.thread? tid = some left) ∧
        (∀ tk q, r = .full tk :: q → (∀ y ∈ q, match y with | .full _ => False | _ => True) →
          t.thread? tid = some (({ th with v := { th.v with queue := q } } : Thread).endFull s.now tk)) ∧
        (∀ i, i < act.length → act.getD i false = true → (ls.getD i {}).mark ≠ none →
          (t.core (th.coreOf (i / 64))).sp.mark ((o + 4 * (i % 64)) / 8) ≠ none) ∧
        ((∀ y ∈ ls, y.mark = none) → (∀ c, (s.core c).sp.marks = []) →
        (∀ i b, i < act.length → b < 4 → act.getD i false = true →
          (t.core (th.coreOf (i / 64))).sp.byte (o + 4 * (i % 64) + b) = (ls.getD i {}).bits.extractLsb' (8 * b) 8) ∧
        ∀ c e, (∀ i b, i < act.length → b < 4 → act.getD i false = true → ¬ (c = th.coreOf (i / 64) ∧ e = o + 4 * (i % 64) + b)) →
          (t.core c).sp.byte e = (s.core c).sp.byte e)))

/-- What the vector instructions leave alone: every byte of memory and of every scratchpad, partitions, dies and every other thread; of their
thread the other streams, and of the V state the named registers but the destination and, but for the instructions that name them, index
registers, masks and mirrors. -/
def Obligations.VectorFrame : Prop :=
  ∀ (s t : State) (k : Issue) (th : Thread) (ty dt : LaneTy) (rnd : Rnd) (ov : Ov) (mk h : Bool) (c : VCond) (fmt : EFmt) (im : Imm) (g : BitVec 3)
    (x y z : VSrc) (a : VAddr) (d : VDst) (tr : TileRef) (arg : IsetArg) (off : BitVec 24) (m : BitVec 5),
    Issues s k th → k.sid = .v → th.life.trapping = false →
      let same := fun u : Thread =>
        t.thread? k.tid = some u ∧ (∀ q, q ≠ k.tid → t.thread? q = s.thread? q) ∧
        t = { s with threads := t.threads, cores := t.cores, nextId := t.nextId } ∧
        u = { th with
          life := u.life, sv := u.sv, v := u.v, cnt := u.cnt, guards := u.guards, tiles := u.tiles, rings := u.rings, dues := u.dues } ∧
        (∀ q e, (t.core q).sp.byte e = (s.core q).sp.byte e) ∧ ∀ e, t.mem.byte e = s.mem.byte e
      (∀ i ∈ [Instr.vadd ty rnd mk x y d, .vsub ty rnd mk x y d, .vmul ty rnd mk x y d, .vfma ty rnd mk x y z d, .vfms ty rnd mk x y z d,
          .vmin ty mk x y d, .vmax ty mk x y d, .vabs ty mk x d, .vneg ty mk x d, .vand ty mk x y d, .vor ty mk x y d, .vxor ty mk x y d,
          .vshl ty mk x y d, .vshr ty mk x y d, .vsar ty mk x y d, .vcmp c ty mk x y d, .vsel ty mk x y z d, .vrcp ty rnd mk x d,
          .vrsq ty rnd mk x d, .vexp2 ty rnd mk x d, .vlog2 ty rnd mk x d, .vclamp ty mk x y z d, .vmov mk x d, .vlit mk im d,
          .vaddi ty mk x im d, .vdot4 ty mk x y z d, .vrsh ty mk x y d, .vmulq mk x y d, .vredadd ty rnd mk x d, .vredmax ty mk x d,
          .vredmin ty mk x d, .vscan ty rnd mk x d, .vperm mk x y d, .vrot mk x y d, .vbcast mk x y d, .vargmax ty mk x d, .vmget d,
          .vcvt dt ty rnd mk h x y d, .vqnt fmt ty rnd ov mk x y d, .vdeq fmt ty rnd mk x y d, .vbsc fmt ty x d, .vsce h mk x d,
          .vpak fmt h g x y d, .vupk fmt h g x d],
        exec i s = .next t → ∃ u, same u ∧ t.cores = s.cores ∧ u.v = { th.v with belt := u.v.belt, file := u.v.file } ∧
          u.cnt = { th.cnt with vstall := u.cnt.vstall } ∧
          ∀ q : BitVec 5, d ≠ some q → u.v.file.getD q.toNat {} = th.v.file.getD q.toNat {}) ∧
      (∀ i ∈ [Instr.iset g arg, .iadd g im, .vmpush x, .vminv, .vmpop, .vbnone off, .vbany off, .vmirror m mk, .vdph m],
        exec i s = .next t → ∃ u, same u ∧ t.cores = s.cores ∧ u.v.belt = th.v.belt ∧ u.v.file = th.v.file ∧ u.v.queue = th.v.queue ∧
          u.cnt.fstat = th.cnt.fstat) ∧
      ∀ i ∈ [Instr.vld a d, .vst x a, .vldx x a d, .vldt tr a d, .vstt x tr a],
        exec i s = .next t → ∃ u, same u ∧ u.v.masks = th.v.masks ∧ u.v.mirror = th.v.mirror ∧ u.cnt.fstat = th.cnt.fstat ∧
          ∀ q : BitVec 5, d ≠ some q → u.v.file.getD q.toNat {} = th.v.file.getD q.toNat {}

/-! ### The matrix stream (08) -/

/-- mma takes a tile of each ring and computes every block partial exactly from its row of the west pane's part and its row of the north pane's
part; sacc takes its scale tiles and empties the parity; macz clears a bank; mload reads a bank from a tile's granules; mdrain takes a tile, or only
clears and raises flags; one that is chained begins its first delivery as it issues; a tile is written once the flags of earlier instructions are
raised, which a fold's are at its completion (log 38), and a chained one waits until the blocks of those before it have been begun; mchk writes its
word once every pass has retired. A ring or tile that is not configured or whose geometry is another, an mma on a HELD parity and a sacc on an EMPTY
one trap ILLEGAL (06 R105, R106, R111; 08 R152, R155 to R167). -/
def Obligations.MatrixInstructionsIssue : Prop :=
  ∀ (s : State) (k : Issue) (th : Thread) (p int ch clr : Bool) (fa fb fmt : EFmt) (rnd : Rnd) (ov : Ov) (dsh : BitVec 6) (acc : BitVec 2)
    (ra rb : BitVec 5) (t : TileRef) (ta tb : Taken) (da db d : Word),
    Issues s k th → k.sid = .m → Placed s th →
      let r := th.life.rect
      let u := th.advance k s.now
      let gran := fun (p q : Nat) => (s.core (th.coreOf p)).trf.gran q
      let codes := fun (f : EFmt) (g : List (BitVec 8)) (j : Nat) =>
        decodeNum (narrowFmt f) (leNat g / 2 ^ ((narrowFmt f).width * j) % 2 ^ (narrowFmt f).width)
      let both := th.consumer s.now (.ring ra) = .ok ta da ∧ th.consumer s.now (.ring rb) = .ok tb db
      let dithers := th.phaseDue .m = true ∨ ∃ o ∈ th.m.ops, match o with | .drain d => d.dth = true | .chain c => c.dth = true | _ => False
      let idle := th.m.bankDone s.now acc.toNat = true ∧ (rnd = .dth → ¬ dithers)
      let quiet := th.m.flagsToCome = false
      let rest := fun w : State =>
        (∀ c, (w.core c).sp = (s.core c).sp ∧ (w.core c).imem = (s.core c).imem) ∧ ∀ e, w.mem.byte e = s.mem.byte e
      (th.descOf s.now (.ring ra) = some da → th.descOf s.now (.ring rb) = some db → both → th.m.held.getD (parIx p) false = false →
        descRows da = 64 * r.rows → descUlen da = 1 → descRows db = 64 * r.cols → descUlen db = 1 → th.m.fieldFree s.now = true → s.railStopped th = false →
        (∀ i, i < th.panes → (s.core (th.coreOf i)).bp.length = 2) →
        ∃ w v nv, exec (.mma p fa fb ra rb) s = .next w ∧ ThreadAndCores s w k.tid v ∧ rest w ∧
          v = (let x := (u.startRead s.now ta).startRead s.now tb
            ({ x with m := { x.m with
                held := setAt x.m.held (parIx p) true
                lastPass := setAt x.m.lastPass (parIx p) (some s.nextId) } } : Thread).inField (.pass
                  { id := s.nextId, par := p, a := ta, b := tb, inj := if fa = .e2m1 then 4 else 8, at_ := s.now,
                    left := if fa = .e2m1 then 3 else 7, spacing := s.effCad th, nv := nv })) ∧
          (∀ i y x, i < th.panes → y < 64 → x < 64 →
            let a := gran (i / r.cols * r.cols) (descBase da + y)
            let b := gran (i % r.cols) (descBase db + x)
            w.bpCell (th.coreOf i) p (64 * y + x) =
              { bits := (bpEncode ((List.range 32).map fun j => (codes fa a.1 j).mul (codes fb b.1 j))).1, mark := meet a.2 b.2 }) ∧
          ∀ c e, w.bpCell c (!p) e = s.bpCell c (!p) e ∧ ∀ q, w.accCell c q e = s.accCell c q e) ∧
      (th.descOf s.now (.ring ra) = some da → th.descOf s.now (.ring rb) = some db → both → th.m.held.getD (parIx p) false = true →
        descRows da = 1 → descUlen da = r.rows → descRows db = 1 → descUlen db = r.cols → th.m.bankLoaded s.now acc.toNat = true →
        ∀ i ∈ [(false, Instr.sacc p acc ra rb), (true, .saccI p acc ra rb)], ∃ f,
          CompletesFresh s i.2 k
            (let x := (u.startRead s.now ta).startRead s.now tb
             ({ x with m := { x.m with held := setAt x.m.held (parIx p) false } } : Thread).inField (.fold f)) ∧
          f.id = s.nextId ∧ f.int = i.1 ∧ f.acc = acc.toNat ∧ f.rs = ta ∧ f.cs = tb ∧
          ∀ j, j < th.panes → f.part[j]? = some ((s.core (th.coreOf j)).bp.getD (parIx p) [])) ∧
      (th.m.bankDone s.now acc.toNat = true → ∃ w, exec (.macz acc) s = .next w ∧ rest w ∧
        ThreadAndCores s w k.tid { u with m := { u.m with bankAt := setAt u.m.bankAt acc.toNat (s.now + 2) } } ∧
        ∀ j e, j < th.panes → w.accCell (th.coreOf j) acc.toNat e = {}) ∧
      (th.m.bankDone s.now acc.toNat = true → th.descOf s.now t = some d → t ≠ .tile 255 → th.consumer s.now t = .ok ta d →
        descRows d = 64 * r.rows → descUlen d = drainUnits fmt * r.cols → (∀ i, i < th.panes → (s.core (th.coreOf i)).acc.length = 4) →
        ∃ w, exec (.mload acc t fmt) s = .next w ∧ rest w ∧
          ThreadAndCores s w k.tid ((u.startRead s.now ta).inField (.load ⟨s.nextId, acc.toNat, ta, s.now + 8 + 64 * drainUnits fmt⟩)) ∧
          ∀ i y x, i < th.panes → y < 64 → x < 64 → w.accCell (th.coreOf i) acc.toNat (64 * y + x) =
            loadCell fmt ((List.range (drainUnits fmt)).map fun j => gran i (descBase d + y * drainUnits fmt + j)) x) ∧
      (idle → ∃ w v fl, exec (.mdrain acc (.tile 255) false fmt rnd ov int clr dsh) s = .next w ∧ ThreadAndCores s w k.tid v ∧ rest w ∧
        (let x : Thread := { u with m := { u.m with bankAt := setAt u.m.bankAt acc.toNat s.now } }
         v = { x with dues := if fl = 0 ∧ rnd ≠ .dth then th.dues
                 else th.dues ++ [{ at_ := s.now, sid := .m, flags := fl, phase := rnd == .dth }] }) ∧
        ∀ j e, j < th.panes → w.accCell (th.coreOf j) acc.toNat e = if clr then {} else s.accCell (th.coreOf j) acc.toNat e) ∧
      (idle → quiet → th.descOf s.now t = some d → t ≠ .tile 255 → th.writer s.now t = .ok ta d → descRows d = 64 * r.rows →
        descUlen d = drainUnits fmt * r.cols →
        ∃ w v fl, exec (.mdrain acc t false fmt rnd ov int clr dsh) s = .next w ∧ ThreadAndCores s w k.tid v ∧ rest w ∧
          v = (let x : Thread := { u with m := { u.m with bankAt := setAt u.m.bankAt acc.toNat s.now } }
            (x.startWrite s.now ta).inField (.drain
              { id := s.nextId, taken := ta, due := s.now + 8 + 64 * drainUnits fmt, flags := fl, dth := rnd == .dth })) ∧
          (∀ i y j, i < th.panes → y < 64 → j < drainUnits fmt →
            let out := fun x : Nat =>
              let c := s.accCell (th.coreOf i) acc.toNat (64 * y + x)
              ((drainCode fmt rnd ov int dsh.toInt th.cnt.dph.toNat x c).1, c.mark)
            (w.core (th.coreOf i)).trf.gran (descBase d + y * drainUnits fmt + j) =
              (packRow (drainWidth fmt) (drainUnits fmt) ((List.range 64).map out)).getD j ([], none)) ∧
          ∀ j e, j < th.panes → w.accCell (th.coreOf j) acc.toNat e = if clr then {} else s.accCell (th.coreOf j) acc.toNat e) ∧
      (∀ east, idle → quiet → s.eastOf th = some east → t = .ring ra → east.descOf s.now (.ring ra) = some d → descRows d = 64 * r.rows →
        descUlen d = 1 → east.tid ≠ k.tid →
        (th.m.chainBusy = true ∨ east.writer s.now (.ring ra) = .wait → Waits s (.mdrain acc t true fmt rnd ov int clr dsh) k th .tile) ∧
        (∀ dd, th.m.chainBusy = false → east.writer s.now (.ring ra) = .ok ta dd → ∃ w c, exec (.mdrain acc t true fmt rnd ov int clr dsh) s = .next w ∧ rest w ∧
          w = { s with threads := w.threads, cores := w.cores, nextId := w.nextId } ∧
          w.thread? k.tid = some
            (({ u with m := { u.m with bankAt := setAt u.m.bankAt acc.toNat s.now } } : Thread).inField (.chain c)) ∧
          w.thread? east.tid = some (east.startWrite s.now ta) ∧ (∀ q, q ≠ k.tid → q ≠ east.tid → w.thread? q = s.thread? q) ∧
          c.id = s.nextId ∧ c.ring = ra.toNat ∧ c.blocks.length = 2 * r.cols ∧ c.going = some (ta, s.now + 72 + 4 * r.cols) ∧
          c.dth = (rnd == .dth))) ∧
      (ch = true → s.eastOf th = none → Traps s (.mdrain acc t ch fmt rnd ov int clr dsh) k th { code := 1 }) ∧
      (th.m.passesIn = [] → th.m.passAt ≠ some s.now →
        Completes s (.mchk (.tile 255)) k u ∧
        (t ≠ .tile 255 → quiet → 0 < th.panes → th.writer s.now t = .ok ta d → ∃ w, exec (.mchk t) s = .next w ∧ rest w ∧
          ThreadAndCores s w k.tid ((u.startWrite s.now ta).modTile ta.tile fun y => { y with prev := .filling, st := .full, since := s.now + 3 }) ∧
          (w.core (th.coreOf 0)).trf.gran (descBase d) = (wtwBytes (mchkWord s th), none))) ∧
      ((th.descOf s.now (.ring ra) = none ∨ th.descOf s.now (.ring rb) = none) →
        ∀ i ∈ [Instr.mma p fa fb ra rb, .sacc p acc ra rb, .saccI p acc ra rb], Traps s i k th { code := 1 }) ∧
      (th.descOf s.now (.ring ra) = some da → th.descOf s.now (.ring rb) = some db →
        (th.m.held.getD (parIx p) false = true ∨ descRows da ≠ 64 * r.rows ∨ descUlen da ≠ 1 ∨ descRows db ≠ 64 * r.cols ∨ descUlen db ≠ 1 →
          Traps s (.mma p fa fb ra rb) k th { code := 1 }) ∧
        (th.m.held.getD (parIx p) false = false ∨ descRows da ≠ 1 ∨ descUlen da ≠ r.rows ∨ descRows db ≠ 1 ∨ descUlen db ≠ r.cols →
          ∀ i ∈ [Instr.sacc p acc ra rb, .saccI p acc ra rb], Traps s i k th { code := 1 })) ∧
      (th.descOf s.now t = none ∨ (th.descOf s.now t = some d ∧ (descRows d ≠ 64 * r.rows ∨ descUlen d ≠ drainUnits fmt * r.cols)) →
        t ≠ .tile 255 → ∀ i ∈ [Instr.mload acc t fmt, .mdrain acc t false fmt rnd ov int clr dsh], Traps s i k th { code := 1 }) ∧
      Traps s (.mload acc (.tile 255) fmt) k th { code := 1 } ∧
      (th.writer s.now t = .bad → Traps s (.mchk t) k th { code := 1 }) ∧
      ∀ east, s.eastOf th = some east →
        (∀ n, t = .tile n → Traps s (.mdrain acc t true fmt rnd ov int clr dsh) k th { code := 1 }) ∧
        (t = .ring ra →
          (east.descOf s.now t = none ∨ (east.descOf s.now t = some d ∧ (descRows d ≠ 64 * r.rows ∨ descUlen d ≠ 1))) →
            Traps s (.mdrain acc t true fmt rnd ov int clr dsh) k th { code := 1 })

/-- What the operations in flight in the matrix field do when they complete: a pass retires, its tiles free; a fold adds each scaled partial to
its element, in the float or in the integer reading, with the tags of all it read, and its sacc never traps on poison; a drain makes its tile
FULL; a load frees its tile; a chained drain's block starts into the neighbour's tile, and ends (08 R157 to R160, R164 to R166, R168, R170). -/
def Obligations.MatrixOperationsComplete : Prop :=
  ∀ (s : State) (tid : Nat) (th : Thread), s.thread? tid = some th → th.tid = tid →
    let next := fun (i : Instr) (v : Thread) (f : State → Prop) => ∃ w, exec i s = .next w ∧ ThreadAndCores s w tid v ∧ f w
    let cores := fun w : State => w.cores = s.cores
    let drop := fun (v : Thread) (id : Nat) => ({ v with m := { v.m with ops := dropOp id v.m.ops } } : Thread)
    (∀ p, passReady [] th.m.passesIn = some p →
      ∃ w v, exec (.mmaPassRetire tid) s = .next w ∧ ThreadAndCores s w tid v ∧ (∀ x ∈ v.m.passesIn, x.id ≠ p.id) ∧
        v = { (((th.endRead s.now p.a).endRead s.now p.b).flagsAt s.now .m (if p.nv then flNV else 0)) with m := v.m } ∧
        v.m.passes = (th.m.passes + 1) % 65536 ∧ v.m.held = th.m.held ∧ v.m.bankAt = th.m.bankAt ∧
        ∀ x, .fold x ∈ v.m.ops → x.passId = p.id → x.due = some (s.now + 4)) ∧
    (∀ f, foldReady s.now th.m.bankAt [] th.m.ops = some f → Placed s th → f.acc < 4 →
      (∀ i, i < th.panes → (s.core (th.coreOf i)).acc.length = 4) →
      let scales := fun (t : Taken) (i q : Nat) =>
        (s.core (th.coreOf i)).trf.gran (descBase (((th.tile? t.tile).map (·.desc)).getD 0) + q)
      let cols := th.life.rect.cols
      ∃ w v fl, exec (.saccFoldComplete tid) s = .next w ∧ ThreadAndCores s w tid v ∧
        (let x := ((th.endRead s.now f.rs).endRead s.now f.cs).flagsAt s.now .m fl
         v = { x with m := { x.m with ops := dropOp f.id x.m.ops, bankAt := setAt x.m.bankAt f.acc s.now } }) ∧
        (∀ i y x, i < th.panes → y < 64 → x < 64 →
          let rs := scales f.rs i (i / cols)
          let cs := scales f.cs i (i % cols)
          let ka := (rs.1.getD y 0).toInt
          let kb := (cs.1.getD x 0).toInt
          let a := s.accCell (th.coreOf i) f.acc (64 * y + x)
          let b : BpCell := sget {} (f.part.getD i []) (64 * y + x)
          w.accCell (th.coreOf i) f.acc (64 * y + x) =
            { bits := ((if f.int then foldInt else foldFloat) a.bits b.bits ka kb).1,
              mark := meet a.mark (meet rs.2 (meet cs.2 (if ka = -128 ∨ kb = -128 then none else b.mark))) }) ∧
        ∀ c q e, q ≠ f.acc → w.accCell c q e = s.accCell c q e) ∧
    (∀ d, th.m.ops.find? (fun o => match o with | .drain d => d.due ≤ s.now | _ => false) = some (.drain d) →
      next (.mdrainComplete tid) (drop ((th.endWrite s.now d.taken).flagsAt s.now .m d.flags d.dth) d.id) cores) ∧
    (∀ l, th.m.ops.find? (fun o => match o with | .load l => l.due ≤ s.now | _ => false) = some (.load l) →
      next (.mloadComplete tid)
        (let x := drop (th.endRead s.now l.taken) l.id
         { x with m := { x.m with bankAt := setAt x.m.bankAt l.acc s.now } }) cores) ∧
    (∀ c east, th.m.nextChain s.now = some c → s.eastOf th = some east →
      east.tid ≠ tid → s.thread? east.tid = some east →
      (∀ tk due, c.going = some (tk, due) → due ≤ s.now → ∃ w, exec (.chainDelivery tid) s = .next w ∧ w.cores = s.cores ∧
        w.thread? east.tid = some (east.endWrite s.now tk) ∧ ∀ q, q ≠ tid → q ≠ east.tid → w.thread? q = s.thread? q) ∧
      (∀ b r tk d, c.going = none → c.blocks = b :: r → east.writer s.now (.ring (BitVec.ofNat 5 c.ring)) = .ok tk d → Placed s east → 0 < east.panes →
        b.length = 64 * east.life.rect.rows →
        ∃ w, exec (.chainDelivery tid) s = .next w ∧ w.thread? east.tid = some (east.startWrite s.now tk) ∧
          (∀ q, q ≠ tid → q ≠ east.tid → w.thread? q = s.thread? q) ∧
          ∀ i g, b[i]? = some g → g.1.length = 64 →
            (w.core (east.coreOf (i / 64 * east.life.rect.cols))).trf.gran (descBase d + i % 64) = g)) ∧
    (∀ p x, th.m.passesIn.find? (fun q => !q.concluded && q.left == 0 &&
        decide (q.at_ + q.spacing + 4 * (th.life.rect.rows + th.life.rect.cols) + 8 ≤ s.now)) = some p → p.attempt = 1 →
      exec (.standInCheck tid []) s = .next (s.modPass tid p.id fun q => { q with concluded := true }) ∧
      (x.pane < th.panes → x.mismatch = true → (s.core (th.coreOf x.pane)).mapped = none →
        exec (.standInCheck tid [x]) s = .next (s.modPass tid p.id fun q =>
          { q with attempt := 2, prior := [x], at_ := s.now + 1, left := q.inj, spacing := 0 }))) ∧
    (∀ (k : Issue) (p : Bool) (acc : BitVec 2) (ra rb : BitVec 5) (t : State) (u : Thread),
      Issues s k th → k.tid = tid → th.life.phase = .running → th.life.trapping = false →
        ∀ i ∈ [Instr.sacc p acc ra rb, .saccI p acc ra rb], exec i s = .next t → t.thread? tid = some u →
          u.life = th.life ∨ u.life.fault.code = 1)

/-! ### Policies (13) -/

/-- The policy instructions of a decision: each takes one cycle and changes its partition's running decision alone; the arithmetic is of 32 bits and
unsigned; branches and loops go forward, qloop and qnext over the queues that were enabled in the snapshot; a view of what waits for a probe does
not go on, and a probe when 32 wait not until the oldest of them is answered; pget reads the committed word and pkeep keeps one for the end; a pcmp
of code 6 or 7 is no instruction (13 R261, R266 to R272, R277). -/
def Obligations.PolicyInstructions : Prop :=
  ∀ (s : State) (p : Nat) (e : Decision) (a b d : BitVec 4) (imm off : BitVec 14) (n : BitVec 5) (w : BitVec 3) (k : BitVec 2) (c : Cond)
    (item : ViewItem),
    s.cur = .policy p → (s.part p).pol.running = some e →
      let goes := fun (i : Instr) (x : Decision) => ∃ t, exec i s = .next t ∧ t = { s with parts := t.parts } ∧
        t.part p = { s.part p with pol := { (s.part p).pol with running := some { x with cycles := e.cycles + 1 } } } ∧
        ∀ q, q ≠ p → t.part q = s.part q
      let on : Decision := { e with pc := e.pc + 1 }
      let r := fun x : BitVec 4 => e.regs.getD x.toNat 0
      let puts := fun (i : Instr) (v : BitVec 32) => goes i { on with regs := setAt e.regs d.toNat v }
      let en := fun q : Nat => q < 32 ∧ (e.snap.queues.getD q {}).en = true
      let firstFrom := fun m q : Nat => m ≤ q ∧ en q ∧ ∀ j, m ≤ j → j < q → ¬ en j
      puts (.pli d imm) (imm.signExtend 32) ∧ puts (.padd d a b) (r a + r b) ∧ puts (.psub d a b) (r a - r b) ∧
      puts (.pand d a b) (r a &&& r b) ∧ puts (.por d a b) (r a ||| r b) ∧ puts (.pshl d a n) (r a <<< n.toNat) ∧
      puts (.pshr d a n) (r a >>> n.toNat) ∧ puts (.pmin d a b) (BitVec.ofNat 32 (min (r a).toNat (r b).toNat)) ∧
      puts (.pmax d a b) (BitVec.ofNat 32 (max (r a).toNat (r b).toNat)) ∧
      (c.Holds (r a).toNat (r b).toNat → puts (.pcmp c d a b) 1) ∧ (¬ c.Holds (r a).toNat (r b).toNat → puts (.pcmp c d a b) 0) ∧
      (r d = 0 → puts (.psel d a b) (r b)) ∧ (r d ≠ 0 → puts (.psel d a b) (r a)) ∧
      (r a ≠ 0 → goes (.pbf a off) on) ∧
      (∀ i ∈ [Instr.pbf a off, .pjf off], (i = .pbf a off → r a = 0) →
        ∃ ls, (∀ l ∈ ls, l ∈ e.loops) ∧ goes i { e with pc := e.pc + off.toNat, loops := ls }) ∧
      ((∀ q, ¬ en q) → ∃ ls, goes (.qloop d off) { e with pc := e.pc + off.toNat, loops := ls }) ∧
      (∀ q, firstFrom 0 q → ∃ ls, goes (.qloop d off) { on with regs := setAt e.regs d.toNat (BitVec.ofNat 32 q), loops := (e.pc, q) :: ls }) ∧
      (∀ q0, e.loops.find? (fun x => x.1 == e.pc - off.toNat - 1) = some (e.pc - off.toNat - 1, q0) →
        ((∀ j, q0 < j → ¬ en j) → ∃ ls, goes (.qnext d off) { on with loops := ls }) ∧
        ∀ q, firstFrom (q0 + 1) q → ∃ ls, goes (.qnext d off)
          { e with
            pc := e.pc - off.toNat, regs := setAt e.regs d.toNat (BitVec.ofNat 32 q), loops := (e.pc - off.toNat - 1, q) :: ls }) ∧
      (∀ v, e.view item (r a) (r b) = some v → puts (.pview item d a b) v) ∧
      (e.view item (r a) (r b) = none → goes (.pview item d a b) e) ∧
      (∀ x ∈ e.probes, x.queue = (r a).toNat → x.entry = k.toNat → goes (.probe a k) on) ∧
      ((∀ x ∈ e.probes, ¬ (x.queue = (r a).toNat ∧ x.entry = k.toNat)) →
        let waiting := (e.probes.filter fun x => !x.answered).length
        let answered := fun i : Nat => ∀ x, e.probes[i]? = some x → x.answered = true
        (e.probeWait = none → 32 ≤ waiting →
          goes (.probe a k) { e with probeWait := some (e.probes.findIdx fun x => !x.answered) }) ∧
        (∀ i, e.probeWait = some i → ¬ answered i → goes (.probe a k) { e with probeWait := some i }) ∧
        (((e.probeWait = none ∧ waiting < 32) ∨ ∃ i, e.probeWait = some i ∧ answered i) →
          ∃ pr : Probe, pr.queue = (r a).toNat ∧ pr.entry = k.toNat ∧ pr.hit = false ∧ (pr.answered = false → pr.was = s.present pr.line) ∧
            goes (.probe a k) { on with probes := e.probes ++ [pr], probeWait := none })) ∧
      puts (.pget d w) ((s.part p).pol.pwords.getD w.toNat 0) ∧
      goes (.pkeep a w) { on with keeps := e.keeps ++ [(w.toNat, r a)] } ∧
      ∀ v : BitVec 32, v.extractLsb' 26 6 = 0x0B → 6 ≤ (v.extractLsb' 0 3).toNat → ∃ z, decodePolicy v = .error z

/-- The outputs of a decision: a pick or verdict of a dispatch decision joins its outputs; the last victim and the last action stand; an output
of another hook is void. pend ends the decision: what ran is over, and of the words kept the last of each is committed. A fault decision's
action is applied to its thread, which is parked; or waits in its queue to resume, to issue its instruction again, or rolled back; or is killed,
its slot free, its holds and group memberships over and no byte of memory changed; or is parked with a copy of a handler slot at the tail of a
queue, FRAME the address of its context (that a fault of the partition stage on that write counts BADPICK is the model's choice, log 73). A
dispatch decision's last verdict on a request stands: a grant of one that is ready and a failure answer it; then the last .disp dispatches its
queue's first entry where its placement puts it, or is void; a resume entry comes before every record, and its thread goes on there with what its
context's image holds (12 R255; 13 R260, R273 to R277; 15 R311, R315, R320; that a grant whose panes another grant has taken, or whose request
stands behind an older one that wants them, is void is the model's reading, log 81). -/
def Obligations.PolicyOutputs : Prop :=
  ∀ (s : State) (p : Nat) (e : Decision) (a b : BitVec 4) (k : BitVec 2),
    s.cur = .policy p → (s.part p).pol.running = some e →
      let goes := fun (i : Instr) (x : Decision) => ∃ t, exec i s = .next t ∧ t = { s with parts := t.parts } ∧
        t.part p = { s.part p with pol := { (s.part p).pol with running := some { x with cycles := e.cycles + 1 } } } ∧
        ∀ q, q ≠ p → t.part q = s.part q
      let on : Decision := { e with pc := e.pc + 1 }
      let r := fun x : BitVec 4 => e.regs.getD x.toNat 0
      let picks := [(Instr.pickDisp a b, Verdict.disp (r a) (r b)), (.pickGrant a, .grant (r a)), (.pickFail a, .fail (r a)),
        (.pickGrantall, .grantall)]
      let acts := [(Instr.pfaultResume, FaultAct.resume), (.pfaultRetry, .retry), (.pfaultPark, .park), (.pfaultKill, .kill),
        (.pfaultRollback, .rollback), (.pfaultHandler a k, .handler (r a) k)]
      (∀ x ∈ picks, (e.trigger.hook = .dispatch → goes x.1 { on with picks := e.picks ++ [x.2] }) ∧
        (e.trigger.hook ≠ .dispatch → goes x.1 { on with voids := e.voids + 1 })) ∧
      ((e.trigger.hook = .preempt → goes (.ppre a) { on with victim := some (r a) }) ∧
        (e.trigger.hook ≠ .preempt → goes (.ppre a) { on with voids := e.voids + 1 })) ∧
      (∀ x ∈ acts, (e.trigger.hook = .fault → goes x.1 { on with action := some x.2 }) ∧
        (e.trigger.hook ≠ .fault → goes x.1 { on with voids := e.voids + 1 })) ∧
      (∃ t, exec .pend s = .next t ∧ (t.part p).pol.running = none ∧
        ((s.part p).pol.writes = [] → ∀ w, w < (s.part p).pol.pwords.length → (t.part p).pol.pwords.getD w 0 =
          (((e.keeps.filter fun x => x.1 == w).getLast?).map (·.2)).getD ((s.part p).pol.pwords.getD w 0))) ∧
      (∀ th, e.trigger.hook = .fault → s.thread? e.trigger.tid = some th → th.life.phase = .trapped → th.life.part < s.parts.length →
        let pt := th.life.part
        let bad := fun t : State => (t.part p).pol.usage.badpick = (s.part p).pol.usage.badpick + BitVec.ofNat 32 e.voids + 1
        ∃ t, exec .pend s = .next t ∧ (e.action ≠ some .kill → ∀ x, x ≠ th.tid → t.thread? x = s.thread? x) ∧
          ((e.action = none ∨ e.action = some .park) → t.thread? th.tid = some { th with life := { th.life with phase := .parked } }) ∧
          (e.action = some .resume → t.thread? th.tid = some { th with life := { th.life with phase := .saved, act := .resume } }) ∧
          (e.action = some .retry → t.thread? th.tid = some { th with life := { th.life with phase := .saved, act := .retry } }) ∧
          (e.action = some .rollback → th.life.ckpt.isOpen = false →
            t.thread? th.tid = some { th with life := { th.life with phase := .parked } } ∧ bad t) ∧
          (e.action = some .rollback → th.life.ckpt.isOpen = true → RolledBack s t th) ∧
          (e.action = some .kill →
            t.thread? th.tid = none ∧ th.life.slot ∉ (t.part pt).slots ∧ t.mem = s.mem ∧
            (∀ x, x ≠ th.tid → (t.thread? x).isSome = (s.thread? x).isSome) ∧
            (∀ c, c < 128 → (t.core c).lease ≠ .held th.tid) ∧
            ((∀ i j g h, (s.part pt).group? i = some g → (s.part pt).group? j = some h → g.key = h.key → i = j) →
              ∀ i g, (t.part pt).group? i = some g → g.key ∈ th.life.keys → th.tid ∉ g.members)) ∧
          (∀ (qw : BitVec 32) (n : BitVec 2), e.action = some (.handler qw n) →
            let q := qw.toNat
            let x := s.queue pt q
            let h := (s.part pt).pol.handlers.getD n.toNat []
            let rec0 := Record.withCtx (setAt h 1 (BitVec.ofNat 64 (s.slotBase pt th.life.slot th.life.csaHalf))) th.life.ctx
            let cannot := 31 < q ∨ x.en = false ∨ x.size ≤ x.depth ∨ recordOk h = false ∨ s.writePool pt (x.slot x.tail) (Record.bytes rec0) = none
            t.thread? th.tid = some { th with life := { th.life with phase := .parked } } ∧
            (cannot → bad t ∧ t.mem = s.mem ∧ (t.queue pt q).tail = x.tail) ∧
            (¬ cannot → q < (s.part pt).queues.length → (t.queue pt q).tail = x.tail + 1 ∧
              ∀ w, s.writePool pt (x.slot x.tail) (Record.bytes rec0) = some w → t.mem = w.mem))) ∧
      (∀ h th, e.trigger.hook = .preempt → e.trigger.cause = 0 → e.victim = some h → s.atHandle p h.toNat = some th → s.thread? th.tid = some th →
        ∃ t u, exec .pend s = .next t ∧ t.thread? th.tid = some u ∧
          u = { th with life := { th.life with asked := if th.life.asked = some 3 then some 3 else some 0, mate := false } }) ∧
      (∀ (f : FuseReq) (th : Thread), e.trigger.hook = .dispatch → lastDisp e.picks = none → f ∈ s.waitingFuses p →
        s.thread? f.tid = some th → th.life.part = p → (∀ g ∈ (s.part p).fuses, g.tid = f.tid → g = f) →
        let mine := (e.picks.filter fun v => match v with
          | .grant n => e.reqs[n.toNat]? == some f
          | .fail n => e.reqs[n.toNat]? == some f
          | .grantall => s.fuseFree th f.target
          | .disp .. => false).getLast?
        ∃ t, exec .pend s = .next t ∧
          ((mine = none ∨ ((∀ n, mine ≠ some (.fail n)) ∧ s.fuseFree th f.target = false)) →
            t.thread? f.tid = some th ∧ f ∈ (t.part p).fuses) ∧
          (∀ n, mine = some (.fail n) → (∀ g ∈ (t.part p).fuses, g.tid ≠ f.tid) ∧
            t.thread? f.tid = some { th with c := { th.c with pending := .fuseAnswered 1 } }) ∧
          (∀ v, mine = some v → (v = .grantall ∨ ∃ n, v = .grant n) → s.fuseReady th f.target = true →
            t.thread? f.tid = some { th with c := { th.c with pending := .fuseAnswered 0 } })) ∧
      (∀ (qw pl : BitVec 32), e.trigger.hook = .dispatch → e.picks = [.disp qw pl] →
        let q := qw.toNat
        let x := s.queue p q
        let m := pl.toNat
        let sh := m / 16 % 16
        let exact_ := rectOf sh (m / 256 % 8) (m / 4 % 4) (m % 4)
        let within_ := fun r : Record => trSmin r / 4 ≤ sh / 4 ∧ sh / 4 ≤ trSpref r / 4 ∧ sh / 4 < 3 ∧
          trSmin r % 4 ≤ sh % 4 ∧ sh % 4 ≤ trSpref r % 4 ∧ sh % 4 < 3
        ∃ t, exec .pend s = .next t ∧
          let void := (t.part p).pol.usage.badpick = (s.part p).pol.usage.badpick + BitVec.ofNat 32 e.voids + 1 ∧ t.threads = s.threads
          (31 < q ∨ x.en = false ∨ (x.resumes = [] ∧ x.depth = 0) → void) ∧
          (∀ e0 rest old, q < 32 → x.en = true → x.resumes = e0 :: rest → s.thread? e0.tid = some old → old.life.part = p →
            let rcs := s.placeShape p none old.life.rect.shape
            (m = 0 → rcs = none → t.threads = s.threads ∧
              (t.part p).pol.usage.badpick = (s.part p).pol.usage.badpick + BitVec.ofNat 32 e.voids) ∧
            ∀ rc, ((m = 0 ∧ rcs = some rc) ∨ (m / 2048 = 4 ∧ sh = old.life.rect.shape ∧ sh / 4 < 3 ∧ sh % 4 < 3 ∧ rc = exact_ ∧
                exact_.crow % exact_.rows = 0 ∧ exact_.ccol % exact_.cols = 0 ∧ s.rectFree p none exact_ = true)) →
              (t.part p).pol.usage.dispatched = (s.part p).pol.usage.dispatched + 1 ∧ Resumes s t old rc) ∧
          ∀ r, q < 32 → x.en = true → x.resumes = [] → 0 < x.depth → s.wellFormedAt p q x.head = some r →
            (s.freeSlot p = none → void) ∧
            ∀ slot, s.freeSlot p = some slot →
              let at_ := fun rc : Rect => (t.part p).pol.usage.dispatched = (s.part p).pol.usage.dispatched + 1 ∧
                (q < (s.part p).queues.length → (t.queue p q).head = x.head + 1) ∧
                ((∀ y ∈ s.threads, y.tid < s.nextId) → ∃ u, t.thread? s.nextId = some u ∧ u.life.rect = rc ∧ u.life.record = r ∧
                  u.life.slot = slot ∧ u.life.queue = q ∧ u.life.part = p)
              (m = 0 → s.placeAuto p (some q) (trSmin r) (trSpref r) = none →
                t.threads = s.threads ∧ (t.part p).pol.usage.badpick = (s.part p).pol.usage.badpick + BitVec.ofNat 32 e.voids) ∧
              (∀ rc, m = 0 → s.placeAuto p (some q) (trSmin r) (trSpref r) = some rc → at_ rc) ∧
              (m / 2048 = 4 → within_ r → exact_.crow % exact_.rows = 0 → exact_.ccol % exact_.cols = 0 →
                s.rectFree p (some q) exact_ = true → at_ exact_) ∧
              (16384 ≤ m ∨ m / 2048 % 2 = 1 ∨ m / 4096 = 3 ∨
                (m / 2048 = 4 ∧ ¬ (within_ r ∧ exact_.crow % exact_.rows = 0 ∧ exact_.ccol % exact_.cols = 0 ∧
                  s.rectFree p (some q) exact_ = true)) → void))

/-- Decisions: the next trigger of a partition is its oldest fault, else its oldest preemption, else its dispatch, and a decision on it starts
when none runs and the partition is not quiesced, from word 0 of the selected image with its registers 0; a probe's answer is recorded; a
decision that has taken 256 cycles is given to the fallback, its outputs and kept words gone (13 R259 to R263, R265, R272; that the fallback then
works on the decision's own snapshot and that DECISIONS counts at the start are the model's choice, log 57, and so is that a probe whose line
was where it is at its issue and at its answer says so, and where the two differ answers as its event says, log 8). -/
def Obligations.Decisions : Prop :=
  ∀ (s : State) (p : Nat) (t : Trigger) (e : Decision) (n : Nat) (present : Bool),
    p < s.parts.length →
      let pol := (s.part p).pol
      let event : Hook → Instr := fun h => match h with
        | .dispatch => .dispatchDecision p
        | .preempt => .preemptDecision p
        | .fault => .faultDecision p
      let only := fun w : State => w = { s with parts := w.parts } ∧ ∀ q, q ≠ p → w.part q = s.part q
      let oldest := fun x : Trigger => pol.triggers.find? (fun y => y.hook == x.hook) = some x
      let noFault := ∀ y ∈ pol.triggers, y.hook ≠ .fault
      let noPreempt := ∀ y ∈ pol.triggers, y.hook ≠ .preempt
      ((s.part p).quiesced = false → pol.running = none → oldest t →
        (t.hook = .fault ∨ (t.hook = .preempt ∧ noFault) ∨ (t.hook = .dispatch ∧ noFault ∧ noPreempt ∧
          ∀ q, q < 32 → (s.queue p q).en = true → (s.queue p q).depth = 0 ∨ s.wellFormedAt p q (s.queue p q).head ≠ none)) →
        (∀ h, h ≠ t.hook → exec (event h) s = .next s) ∧
        ∃ w x, exec (event t.hook) s = .next w ∧ only w ∧ (w.part p).pol.running = some x ∧
          x.trigger = t ∧ x.pc = 0 ∧ x.cycles = 0 ∧ x.regs = List.replicate 16 0 ∧ x.picks = [] ∧ x.keeps = [] ∧ x.loops = [] ∧
          x.image = (if pol.dis then [] else pol.slots.getD pol.slot []) ∧ x.snap.cause = BitVec.ofNat 32 t.cause ∧
          (w.part p).pol.triggers = pol.triggers.erase t ∧ (w.part p).pol.usage.decisions = pol.usage.decisions + 1 ∧
          (w.part p).pol.pwords = pol.pwords) ∧
      ((s.part p).quiesced = true ∨ pol.running = some e → ∀ h, exec (event h) s = .next s) ∧
      (pol.running = some e →
        (n < e.probes.length → ∃ w, exec (.probeAnswer p n present) s = .next w ∧ only w ∧
          (w.part p).pol = { pol with running := some { e with
            probes := modAt e.probes n fun x =>
              if x.answered then x
              else { x with answered := true, hit := if x.was = s.present x.line then x.was else present } } }) ∧
        (e.image ≠ [] → 256 ≤ e.cycles → ∃ w, exec (.decisionOverrun p) s = .next w ∧ only w ∧
          (w.part p).pol.running = some { trigger := e.trigger, snap := e.snap, reqs := e.reqs, bypassMax := e.bypassMax } ∧
          (w.part p).pol.usage = { pol.usage with overrun := pol.usage.overrun + 1, fallback := pol.usage.fallback + 1 } ∧
          (w.part p).pol.pwords = pol.pwords ∧ (w.part p).pol.dis = (pol.dis || decide (15 ≤ pol.streak))) ∧
        (e.image ≠ [] → e.cycles < 256 → exec (.decisionOverrun p) s = .next s))

/-! ### Events (04, 10, 11, 12, 14, 15, 16) -/

/-- The events of a thread's life: it is taken at its boundary, never inside a step, and its direct partners of a chain with it (log 79); its context
is stored, its area saying what the thread held (`CsaSays`), and it is SAVED, or TRAPPED when it trapped, or goes on after a checkpoint, from which
a trap or pre-emption of the meantime then saves it; its slice ends in a preemption trigger; a head that waited WDOG cycles, or a step longer than KMAX, traps WATCHDOG; a loop task's next
step or its epilogues begin; the checkpoint interval asks for a checkpoint; a barrier's arrivals all get its status, a saved one in its stored
area; a waiting fsplit or ffuse
takes its checks at the drain point and, as they come out, its effect (04 R80, R83; 11 R233; 09 R177, R179, R182, R187; 12 R244, R253, R254, R256; 15 R301,
R312 to R316, R318, R319). An empty epilogue that goes to the first word of the epilogue's entry, a loop task of no stream and a checkpoint asked for inside a step
are the model's reading (logs 34, 72); that WATCHDOG comes at the start of cycle ks + KMAX is its choice (log 72); CKINT and KMAX are those in
force when the thread starts and the step begins (log 56). -/
def Obligations.ThreadEvents : Prop :=
  ∀ (s : State) (tid : Nat) (th : Thread), s.thread? tid = some th → th.life.part < s.parts.length →
    let life := fun (t : State) (u : Thread) => t.thread? tid = some u ∧ OthersKeep s t tid
    let head := fun (st : StreamId) => th.strm st
    (∀ r, th.life.asked = some r → th.life.phase = .running →
      (th.loop.inStep = true → exec (.preemption tid) s = .next s) ∧
      (th.loop.inStep = false → (r = 2 ∨ th.life.mate = true ∨ (th.life.chainE = none ∧ th.life.chainW = none)) →
        Leads s (.preemption tid) fun t =>
          ∃ u, life t u ∧ u.life.phase = .saving r s.now ∧ u.life.asked = none ∧ u = { th with c := u.c, life := u.life }) ∧
      (∀ m x, th.loop.inStep = false → r ≠ 2 → th.life.mate = false → (th.life.chainE = some m ∨ th.life.chainW = some m) → m ≠ tid →
        s.thread? m = some x → x.life.phase = .running → (th.life.chainE = some m → th.life.chainW ≠ some m) →
        Leads s (.preemption tid) fun t => ∃ u v, t.thread? tid = some u ∧ u.life.phase = .saving r s.now ∧ t.thread? m = some v ∧
          (x.loop.inStep = false → v.life.phase = .saving r s.now) ∧
          (x.loop.inStep = true → v.life.phase = .running ∧ v.life.asked = some r))) ∧
    (∀ r d, th.life.phase = .saving r d → r ≠ 2 →
      (s.atBoundary th r d = false → exec (.contextStoreComplete tid) s = .next s) ∧
      (s.atBoundary th r d = true → PoolTakes s th r d → 0 < th.panes → Leads s (.contextStoreComplete tid) fun t =>
        ∃ u, t.thread? tid = some u ∧ u.life.phase = (if r = 1 then .trapped else .saved) ∧ u.life.reason = r ∧ u.life.asked = none ∧
          u.life.csaHalf = (!th.life.ckpt.half) ∧ (t.core th.life.rect.lead).lease = .unleased)) ∧
    (∀ r d, th.life.phase = .saving r d → s.atBoundary th r d = true →
      let st := s.toStore th r d
      CsaSays st.2.1 st.1 r d st.2.2 ∧
      (st.2.1.writeCsa st.1 st.2.2 (!th.life.ckpt.half) = none → Leads s (.contextStoreComplete tid) fun t =>
        t.thread? tid = none ∧ th.life.slot ∈ (t.part th.life.part).reports) ∧
      ∀ w, st.2.1.writeCsa st.1 st.2.2 (!th.life.ckpt.half) = some w → Leads s (.contextStoreComplete tid) fun t =>
        t.mem = w.mem ∧ (r = 2 → ∃ u, t.thread? tid = some u ∧ u.life.ckpt = th.life.ckpt.next s.now ∧ u.life.undo = [] ∧ u.life.rect = th.life.rect ∧
          (∀ id, th.c.pending = .ckptTaken id → u.c.regs = th.c.regs.settle id (Val.ofWord (ckptWord (th.life.ckpt.next s.now) false))) ∧
          (∀ x, (u.strm x).pc = (head x).pc ∧ (u.strm x).run = (head x).run ∧
            (u.strm x).hold = some (s.countedAt th (head x) + (s.now - d))) ∧
          (th.life.trapping = true → u.life.phase = .saving 1 s.now) ∧
          (th.life.trapping = false → th.life.asked = none → u.life.phase = .running) ∧
          ∀ a, th.life.trapping = false → th.life.asked = some a → a ≠ 2 → u.life.phase = .saving a s.now)) ∧
    (th.life.phase = .running → th.life.sliceLen ≠ 0 → th.life.sliceAt + th.life.sliceLen ≤ s.now → Leads s (.sliceExpiry tid) fun t =>
      life t { th with life := { th.life with sliceLen := 0 } } ∧
      ∃ x ∈ (t.part th.life.part).pol.triggers, x.hook = .preempt ∧ x.cause = 1 ∧ x.tid = tid ∧ x.handle = th.life.rect.lead) ∧
    (∀ st w, th.life.phase = .running → (head st).run = .running → (head st).wdog = some w →
      (w ≠ 0 → s.countedAt th (head st) + w ≤ s.now → Leads s (.watchdogWait tid st) fun t =>
        OnlyThread s t tid (th.takeTrap s.now (({ code := 7, detail := 2 } : TrapInfo).record st (head st).pc))) ∧
      ((w = 0 ∨ s.now < s.countedAt th (head st) + w) → exec (.watchdogWait tid st) s = .next s)) ∧
    (∀ st, th.laggard = some st → th.life.phase = .running → th.loop.inStep = true → th.loop.ks + th.loop.kmax ≤ s.now →
      Leads s (.kmaxOverrun tid) fun t =>
        OnlyThread s t tid (th.takeTrap s.now (({ code := 7, detail := 1 } : TrapInfo).record st (head st).pc))) ∧
    (th.isLoop = true → th.loop.finished = false → th.loop.inStep = false → th.allArrived = true → th.life.phase = .running →
      (th.c.pending = .ckptAsked → exec (.loopKernelStep tid) s = .next s) ∧
      (th.c.pending ≠ .ckptAsked → Leads s (.loopKernelStep tid) fun t => ∃ u, OnlyThread s t tid u ∧
        let more := decide (th.loop.step < th.loop.t) && [StreamId.c, .a, .v, .m].any th.takesPart
        u.loop = { th.loop with
          inStep := more, finished := !more, ks := max th.loop.ks s.now,
          kmax := (s.part th.life.part).set.kmax.toNat, arrived := [false, false, false, false] } ∧
        ∀ st, th.takesPart st = true → (u.strm st).idleRef = max th.loop.ks s.now - 1 ∧
          (u.strm st).pc = if th.loop.step < th.loop.t then (head st).pc
            else BitVec.ofNat 16 ((head st).base + ((head st).subs.getD 2 (0, 0)).1))) ∧
    (th.life.phase = .running → th.life.asked = none → th.life.ckLen ≠ 0 → th.life.ckpt.last + th.life.ckLen * 2 ^ 20 ≤ s.now →
      Leads s (.autoCheckpoint tid) fun t => OnlyThread s t tid { th with life := { th.life with asked := some 2 } }) ∧
    (∀ p g x, p < s.parts.length → (s.part p).group? g = some x → x.isOpen = true → (∀ m ∈ x.awaited, m ∈ x.arrived) → x.waitNext = [] →
      tid ∈ x.arrived → Leads s (.barrierEpisodeComplete p g) fun t =>
        t.thread? tid = some { th with c := { th.c with pending := .barDone (groupStatus x.awaited.length g 0) } } ∧
        (t.part p).group? g = some { key := x.key, members := x.members } ∧
        ∀ b w, x.arrived = [tid] → th.life.phase = .saved → th.sc.wait = .gbar → s.storedCsa th = some b →
          s.writePool th.life.part (s.slotBase th.life.part th.life.slot th.life.csaHalf)
            (latchCsa b (groupStatus x.awaited.length g 0)) = some w → t.mem = w.mem) ∧
    (∀ p g x, (s.part p).group? g = some x → (x.isOpen = false ∨ ∃ m ∈ x.awaited, m ∉ x.arrived) →
      exec (.barrierEpisodeComplete p g) s = .next s) ∧
    (∀ (k : Issue) (only : Bool) (shape : BitVec 4) (list : Src) (d : Dst), th.isLoop = false → s.drained177 th = true →
      let at_ : State := { s with cur := .stream k }
      let u := th.advance k s.now
      let rc := th.life.rect
      let target := fuseTarget rc shape.toNat
      let es := s.splitList th shape.toNat (th.src k list)
      let free := (s.freeSlots th.life.part (es.filter entryStarts).length).length
      let answers := fun v : Val => Leads s (.drainPoint tid) fun t => t = { s with threads := t.threads, cur := .none } ∧
        t.thread? tid = some (({ u with c := { u.c with pending := .none } } : Thread).pushed .c v d)
      (HeadOfC s th k (.ffuse only shape d) → ¬ FuseBarred th shape.toNat → th.c.pending = .none →
        (¬ FuseOwn s th target → answers (fragWord rc 2)) ∧
        (FuseOwn s th target → s.fuseReady th target = true →
          exec (.drainPoint tid) s = .next { ((at_.advance k).fuse th target).push k (fragWord target 0) d with cur := .none }) ∧
        (FuseOwn s th target → s.fuseReady th target = false → only = true → answers (fragWord rc 3))) ∧
      (HeadOfC s th k (.fsplit shape list d) → SplitReady s th shape.toNat (th.src k list) →
        (free < (es.filter entryStarts).length → Leads s (.drainPoint tid) fun t => t = { s with threads := t.threads, cur := .none } ∧
          t.thread? tid = some (u.pushed .c (fragWord rc 7) d)) ∧
        ((es.filter entryStarts).length ≤ free → exec (.drainPoint tid) s = .next
          { ((at_.advance k).split th shape.toNat es (s.splitRecords th es)).push k (fragWord (rectOf shape.toNat rc.die rc.crow rc.ccol) 0) d with
            cur := .none }))) ∧
    (s.drained177 th = false → exec (.drainPoint tid) s = .next s)

/-- A command of the A stream completes when nothing of it is left: its tile is FULL, or free again, and its range slot free; a fence delivers
the counts of its stream and clears them once every earlier command is ended and no write of its thread that its scope covers is still to be
seen (which writes are seen late is an input, log 18); an atomic delivers the old value; a walk that ends serves every command of its die,
partition and context that waits on its page, and one that fails parks the command and those issued after it, but for prefetches, with the trap
waiting for the thread's other streams, whichever threads and commands of the die they are; what is not acknowledged in time counts
one TIMEOUT, a packet of it being lost from then on (log 47; 10 R196, R208, R209, R213, R214; 11 R226 to R228). -/
def Obligations.CommandEvents : Prop :=
  ∀ (s : State) (tid : Nat) (th : Thread) (c : Cmd) (id : Nat),
    s.thread? tid = some th → th.cmd? id = some c → c.id = id →
      let gone := fun u : Thread => ({ u with a := { u.a with cmds := u.a.cmds.filter fun x => x.id != id } } : Thread)
      let given := fun (v : Val) => (th.modRegs .c fun r => r.settle id v).modRegs .a fun r => r.settle id v
      let ended := c.parked = false ∧ c.elem = c.total ∧ c.packets = [] ∧ c.got = none ∧
        ∀ d ∈ s.dies, ∀ l ∈ d.lines, ¬ (l.tid = tid ∧ l.cmd = id)
      (ended → Leads s (.accessCommandComplete tid id) fun t =>
        OnlyThread s t tid (gone (match c.taken, c.instr with
          | some k, .tld .. => th.endWrite s.now k
          | some k, .tgat .. => th.endWrite s.now k
          | some k, .tlsp .. => th.endWrite s.now k
          | some k, .tst .. => th.endRead s.now k
          | some k, .tsca .. => th.endRead s.now k
          | some k, .tssp .. => th.endRead s.now k
          | _, _ => th))) ∧
      (¬ ended → exec (.accessCommandComplete tid id) s = .next s) ∧
      (∀ v, c.got = some v → Leads s (.gamoReturn tid id) fun t => OnlyThread s t tid (gone (given v))) ∧
      (c.got = none → exec (.gamoReturn tid id) s = .next s) ∧
      (∀ sc d, c.instr = .fence sc d → c.parked = false → th.life.phase = .running →
        let unseen := fun (w : LateWrite) =>
          w.tid = th.tid ∧ (sc = .sys ∨ (s.homedHere w.line = true ∧ (sc = .dev ∨ s.hasFellow th = true)))
        (th.cmdsBefore id = [] → (∀ w ∈ s.late, ¬ unseen w) → Leads s (.fenceComplete tid id) fun t =>
          let n := th.a.fence
          let u := given { bits := wordFields [(n.dead, 48), (n.refused, 32), (n.poisoned, 16), (n.timeout, 0)] }
          OnlyThread s t tid (gone { u with a := { u.a with fence := {} } })) ∧
        ((th.cmdsBefore id ≠ [] ∨ ∃ w ∈ s.late, unseen w) → exec (.fenceComplete tid id) s = .next s)) ∧
      (∀ (d p : Nat) (ctx : BitVec 24) (page : Nat), d < s.dies.length → p < 16 → (⟨p, ctx.toNat, page⟩ : Walk) ∈ (s.die d).walks →
        let walk : Walk := ⟨p, ctx.toNat, page⟩
        let here := fun x : Thread => x.life.part = p ∧ x.life.ctx = ctx ∧ x.life.rect.die = d
        let waits := fun (x : Thread) (y : Cmd) (va : Nat) => s.waitsOn x y = some va ∧ va / 65536 = page
        let goes := fun (x : Thread) (y : Cmd) => ∀ va, waits x y va → ∃ l, s.walkBoth p ctx va y.need = .ok l
        let woken := fun (x : Thread) (y : Cmd) => if s.walkOver page x y then y.wake else y
        Leads s (.pageWalkComplete (16 * d + p) ctx.toNat page) fun t =>
          (t.die d).walks = (s.die d).walks.filter (· != walk) ∧
          (∀ x, s.thread? x.tid = some x → ¬ here x → t.thread? x.tid = some x) ∧
          (∀ x, s.thread? x.tid = some x → here x → (x.a.cmds.map (·.id)).Nodup →
            ((∀ y ∈ x.a.cmds, goes x y) → t.thread? x.tid = some { x with a := { x.a with cmds := x.a.cmds.map (woken x) } }) ∧
            ∀ pre y post va f, x.a.cmds = pre ++ y :: post → (∀ z ∈ pre, goes x z) → waits x y va → s.walkBoth p ctx va y.need = .error f →
              x.life.phase = .running → x.life.trapping = false → x.life.waitingTrap = none → x.life.faultCmd = none →
              t.thread? x.tid = some { x with
                a := { x.a with cmds := pre.map (woken x) ++ (y :: post).map fun z => (woken x z).park },
                life := { x.life with faultCmd := some y.id, waitingTrap := some ((f.trap va y.elem).record .a y.pc) } }) ∧
          ∀ x y va l, s.thread? x.tid = some x → here x → y ∈ x.a.cmds → waits x y va → s.walkBoth p ctx va y.need = .ok l →
            ∃ e ∈ (t.die d).tlb, e.part = p ∧ e.ctx = some ctx ∧ e.page = page ∧
              ∃ x1 y1 va1 l1, x1 ∈ s.threads ∧ here x1 ∧ y1 ∈ x1.a.cmds ∧ waits x1 y1 va1 ∧ s.walkBoth p ctx va1 y1.need = .ok l1 ∧
                e.phys = l1.out / 65536 ∧ e.rd = l1.rd ∧ e.wr = l1.wr ∧ e.atomic = l1.atomic) ∧
      (th.life.phase.active = true → c.need ≠ .rd → 0 < c.elem → c ∈ th.a.cmds → Leads s (.writeTimeout tid .write) fun t =>
        OnlyThread s t tid { th with a := { th.a with fence := { th.a.fence with timeout := min (th.a.fence.timeout + 1) 65535 } } }) ∧
      (∀ p, s.packets.find? (fun p => p.tid == tid && p.src == s.dev.pkg.toNat && !p.lost) = some p →
        Leads s (.writeTimeout tid .packet) fun t => OthersKeep s t tid ∧ (∀ q ∈ t.packets, q.id = p.id → q.lost = true) ∧
          ∃ u, t.thread? tid = some u ∧ u.a.fence = { th.a.fence with timeout := min (th.a.fence.timeout + 1) 65535 })

/-- Packets: a place is taken over the next link for every flit, from the pools that the rule of placing allows, by the counts of the cycle's start
and one packet on a link in a cycle, those in the ring first and then the oldest, a head that waits for places holding the younger (the model's
reading, log 47); of a packet's freed slots the permits return in the order of its flits; a packet that has arrived is written whole into its core's
scratchpad when a window admits it, and is refused, and counted for its sender, when none does. A line that reaches its base die is counted by the
session open for its owner (11 R220, R223, R225, R237, R238; 14 R290, R292, R294). -/
def Obligations.PacketAndFilterEvents : Prop :=
  ∀ (s : State) (p : Packet) (peer : Bool), s.packets.find? (fun q => q.id == p.id) = some p →
    let core := 16 * p.die + p.core
    let settled := fun t : State => ∀ q ∈ t.packets, q.id ≠ p.id
    (∀ stop h foot, p.stop? = some stop → (p.inRing = true ∨ p.forced = true) →
      let next := nextStop stop p.cw
      let port := portIx next p.cw
      let free := (s.port port).counts s.now
      port < s.ports.length → (s.port port).dead = false → (s.port port).placedAt ≠ some s.now → (∀ q ∈ s.packets, goesBefore q p = false) →
        placeIn free p.flits (p.mainB || crosses stop p.cw) p.foot = some (h, foot) →
          Leads s (.packetPlace p.id) fun t =>
            (t.port port).have_ = (s.port port).have_.sub h ∧ (t.port port).placedAt = some s.now ∧ h.sh + h.ma + h.mb + h.fb = p.flits ∧
            h.sh ≤ free.sh ∧ h.ma ≤ free.ma ∧ h.mb ≤ free.mb ∧ h.fb ≤ free.fb ∧
            { p with wher := .port next p.cw, mainB := p.mainB || crosses stop p.cw, foot := p.foot || foot, held := h } ∈ t.packets ∧
            t.threads = s.threads ∧ t.cores = s.cores) ∧
    (∀ stop, p.stop? = some stop → (p.inRing = true ∨ p.forced = true) → (s.port (portIx (nextStop stop p.cw) p.cw)).dead = false →
      let port := s.port (portIx (nextStop stop p.cw) p.cw)
      ((∃ q ∈ s.packets, goesBefore q p = true) ∨ port.placedAt = some s.now ∨
        placeIn (port.counts s.now) p.flits (p.mainB || crosses stop p.cw) p.foot = none) →
      exec (.packetPlace p.id) s = .next s) ∧
    (∀ (v : Slots) (n : Nat) (mb foot : Bool),
      let own := if mb then v.mb else v.ma
      (foot = false → n ≤ v.sh → placeIn v n mb foot = some ({ sh := n }, false)) ∧
      (foot = false → v.sh < n → n ≤ own + v.sh → placeIn v n mb foot = some
        ({ sh := n - min n own, ma := if mb then 0 else min n own, mb := if mb then min n own else 0 }, false)) ∧
      ((foot = true ∨ own + v.sh < n) → n ≤ v.fb + v.sh →
        placeIn v n mb foot = some ({ sh := n - min n v.fb, fb := min n v.fb }, true)) ∧
      ((foot = true ∨ own + v.sh < n) → v.fb + v.sh < n → placeIn v n mb foot = none)) ∧
    (∀ (k : Nat) (pre post : List Owed) (o : Owed), k < s.ports.length → (s.port k).owed = pre ++ o :: post → o.cls < 4 →
      (∀ x ∈ pre, x.pkt ≠ o.pkt ∧ x.cls ≠ o.cls) →
      let v := (s.port k).have_
      Leads s (.permitReturn k o.cls) fun t => (t.port k).owed = pre ++ post ∧
        (t.port k).have_ = (match o.cls with
          | 0 => { v with sh := v.sh + 1 }
          | 1 => { v with ma := v.ma + 1 }
          | 2 => { v with mb := v.mb + 1 }
          | _ => { v with fb := v.fb + 1 }) ∧
        ((s.port k).backAt ≠ s.now → (t.port k).counts s.now = v) ∧ ∀ q, q ≠ k → t.port q = s.port q) ∧
    (∀ k cls, (∀ x ∈ (s.port k).owed, x.cls ≠ cls) → exec (.permitReturn k cls) s = .next s) ∧
    (∀ (k cls : Nat) (o : Owed) (rest : List Owed), (s.port k).owed = o :: rest → o.cls ≠ cls → (∀ x ∈ rest, x.pkt = o.pkt) →
      exec (.permitReturn k cls) s = .next s) ∧
    (p.pkg = s.dev.pkg.toNat → p.wher = .core → core < s.cores.length →
      (s.admits core p.src p.part p.off (8 * p.data.length) = true → Leads s (.packetDelivery p.id peer) fun t => settled t ∧
        (∀ i w, p.data[i]? = some w → (t.core core).sp.spGet (p.off / 8 + i) = match w.2 with
          | some tag => (0, some tag)
          | none => w) ∧
        (∀ a, (a < p.off / 8 ∨ p.off / 8 + p.data.length ≤ a) → (t.core core).sp.spGet a = (s.core core).sp.spGet a) ∧
        ∀ c, c ≠ core → (t.core c).sp = (s.core c).sp) ∧
      (s.admits core p.src p.part p.off (8 * p.data.length) = false → Leads s (.packetDelivery p.id peer) fun t => settled t ∧
        t.cores = s.cores ∧ ∀ th, p.src = s.dev.pkg.toNat → p.lost = false → s.thread? p.tid = some th →
          ∃ u, t.thread? p.tid = some u ∧ u.a.fence = { th.a.fence with refused := min (th.a.fence.refused + 1) 65535 })) ∧
    (p.wher = .source → exec (.packetDelivery p.id peer) s = .next s) ∧
    (∀ d k l, d < s.dies.length → (s.die d).lines[k]? = some l → l.session < (s.die d).filters.length →
      let f := (s.die d).filter l.session
      Leads s (.filterLineArrival d k) fun t => t = { s with dies := t.dies } ∧ (t.die d).lines.length + 1 = (s.die d).lines.length ∧
        (f.openFor l.part l.ctx = true →
          (t.die d).filter l.session = l.vals.foldl (fun g v => g.count1 l.mark v.1 v.2) f) ∧
        (f.openFor l.part l.ctx = false → (t.die d).filters = (s.die d).filters) ∧
        ∀ q, q ≠ l.session → (t.die d).filter q = (s.die d).filter q) ∧
    (∀ (f : Filter) (m : Mark) (o : Nat) (y : BitVec 32),
      (isNan32 y = true → f.count1 m o y = { f with nanf := true }) ∧
      (isNan32 y = false → ∀ tag, m = some tag → (f.count1 m o y).count = f.count ∧ (f.count1 m o y).psn = meet f.psn m) ∧
      (isNan32 y = false → m = none → (f.count1 m o y).count = f.count + 1 ∧ (f.count1 m o y).nanf = f.nanf ∧
        (f.list.length ≤ f.k → (f.count1 m o y).list.length ≤ f.k)))

/-! ### The host (12, 13, 16) -/

/-- What the host writes: NOTIFY makes records QUEUED, each a trigger, or changes nothing; QCFG configures a queue and keeps what it holds, its SZ
too when the value is reserved; an image is accepted into its slot or refused with a code; POLICY_SEL takes effect between decisions, and clears DIS
and STREAK when DIS is set and an image has come into the slot since; a cluster changes its partition once it is idle, and every CAD follows; causes
written 1 are cleared and vectors set; a boot load starts a thread or is refused, in one step with its write, and succeeds in a quiesced partition
and in a cluster with a change pending alike (the model's choices, log 60) (00 R5; 12 R243, R259; 13 R264, R265; 16 R327, R329 to R332, R335, R342).
-/
def Obligations.HostWrites : Prop :=
  ∀ (s : State) (p q c core addr : Nat) (tail : BitVec 32) (v : Word),
    p < s.parts.length → q < 32 → (s.part p).queues.length = 32 → c < s.clusters.length → core < s.cores.length → core < 128 →
      let x := s.queue p q
      let pol := (s.part p).pol
      let slot := b2n (bitOf v 16)
      let words := ((pol.window.getD slot []) ++ List.replicate 512 0).take (fieldNat v 9 0)
      let code := policyCode words slot pol.slot
      let polIs := fun (t : State) (y : Policy) => t = { s with parts := t.parts } ∧ t.part p = { s.part p with pol := y } ∧
        ∀ k, k ≠ p → t.part k = s.part k
      let more := (tail - x.tail).toNat
      let cl := s.cluster c
      let asked := ¬ (bitOf v 63 = cl.asn ∧ fieldNat v 61 60 = cl.rail ∧ fieldNat v 3 0 = cl.part)
      let cfg : Word := if fieldNat v 59 56 < 12 then v &&& 0xFFFFFFFFFFFFFFE0 else (v &&& 0xF0FFFFFFFFFFFFE0) ||| (x.cfg &&& 0x0F00000000000000)
      let boot := (s.core core).boot
      let set_ := s.modCore core fun y => { y with boot := { y.boot with bq := v.extractLsb' 40 5, ctx := v.extractLsb' 0 24 } }
      (s.resetting p = false → more ≠ 0 → more ≤ x.size → (tail - x.head).toNat ≤ x.size → Leads s (.notify p q tail) fun t =>
        t.queue p q = { x with tail := tail } ∧ (∃ y ∈ (t.part p).pol.triggers, y.hook = .dispatch) ∧ t = { s with parts := t.parts } ∧
        let preempts := fun u : State => (u.part p).pol.triggers.filter fun y => y.hook == .preempt
        let lower := ∃ th ∈ s.threads, th.life.part = p ∧ th.isRunning = true ∧ s.classOf th < x.prio
        (lower → preempts t = preempts s ++ List.replicate more { hook := .preempt, cause := 0, queue := q }) ∧
        (¬ lower → preempts t = preempts s)) ∧
      (s.resetting p = true ∨ more = 0 ∨ x.size < more ∨ x.size < (tail - x.head).toNat → exec (.notify p q tail) s = .next s) ∧
      Leads s (.qcfgWrite p q v) (fun t => t.queue p q = { x with cfg := cfg } ∧
        ∀ k, k ≠ q → t.queue p k = s.queue p k) ∧
      ((fieldNat v 9 0 = 0 ∨ 512 < fieldNat v 9 0) → Leads s (.pload p v) fun t => polIs t { pol with loadCode := 1 }) ∧
      (0 < fieldNat v 9 0 → fieldNat v 9 0 ≤ 512 →
        (code = 0 → Leads s (.pload p v) fun t => polIs t
          { pol with slots := setAt pol.slots slot words, sinceDis := setAt pol.sinceDis slot true, loadCode := 0 }) ∧
        (code ≠ 0 → Leads s (.pload p v) fun t => polIs t { pol with loadCode := code })) ∧
      (pol.slots.getD (b2n (bitOf v 0)) [] = [] → Leads s (.policySel p v) fun t => polIs t pol) ∧
      (pol.slots.getD (b2n (bitOf v 0)) [] ≠ [] →
        (pol.running ≠ none → Leads s (.policySel p v) fun t => polIs t { pol with writes := pol.writes ++ [.sel v] }) ∧
        (pol.running = none → Leads s (.policySel p v) fun t =>
          let fresh := pol.dis = true ∧ pol.sinceDis.getD (b2n (bitOf v 0)) false = true
          polIs t { pol with
            slot := b2n (bitOf v 0), pwords := (if bitOf v 1 then pol.pwords else List.replicate 8 0), dis := (t.part p).pol.dis,
            streak := (t.part p).pol.streak } ∧
          (fresh → (t.part p).pol.dis = false ∧ (t.part p).pol.streak = 0) ∧
          (¬ fresh → (t.part p).pol.dis = pol.dis ∧ (t.part p).pol.streak = pol.streak))) ∧
      Leads s (.clcfgWrite c v) (fun t => t.cluster c = { cl with pendW := (if asked then some v else none) }) ∧
      (∀ w, cl.pendW = some w →
        ((∀ k ∈ coresIn c, (s.core k).lease = .unleased ∧ ∀ n, n < 16 → s.inFuse n k = false ∧ s.inReserve n k = false) →
          Leads s (.clcfgApply c) fun t => t.threads = s.threads ∧
            t.cluster c = { cl with asn := bitOf w 63, rail := fieldNat w 61 60, part := fieldNat w 3 0, pendW := none } ∧
            (∀ k, k ≠ c → t.cluster k = s.cluster k) ∧
            ∀ k, k < s.cores.length →
              (t.core k).cad = max (s.rail (t.cluster (clusterOf k)).rail).rcad (t.cluster (clusterOf k)).thcad) ∧
        ((∃ k ∈ coresIn c, (s.core k).lease ≠ .unleased) → exec (.clcfgApply c) s = .next s)) ∧
      Leads s (.intcauseWrite p v) (fun t => t.part p =
        { s.part p with ints := { (s.part p).ints with cause := (s.part p).ints.cause &&& ~~~(v.extractLsb' 0 6) } }) ∧
      Leads s (.intvecWrite p v) (fun t => (t.part p).ints.vec = v &&& 0x0000BFBFBFBFBFBF ∧ (t.part p).ints.cause = (s.part p).ints.cause) ∧
      Leads s (.devstatWrite v) (fun t =>
        t = { s with dev := { s.dev with ints := { s.dev.ints with cause := s.dev.ints.cause &&& ~~~(v.extractLsb' 40 6) } } }) ∧
      (bitOf v 63 = false → Leads s (.bootGo core v) fun t =>
        (t.core core).boot = { boot with bq := v.extractLsb' 40 5, ctx := v.extractLsb' 0 24 } ∧ t.threads = s.threads) ∧
      (bitOf v 63 = true → boot.state = 1 → exec (.bootGo core v) s = .next s) ∧
      (bitOf v 63 = true → boot.state ≠ 1 →
        ((s.partOf core = none ∨ (s.core core).lease ≠ .unleased ∨ (s.core core).disabled = true) → Leads s (.bootGo core v) fun t =>
          (t.core core).boot.state = 3 ∧ (t.core core).boot.code = 0x10 ∧ t.threads = s.threads) ∧
        (∀ img n, s.partOf core = some p → (s.core core).lease = .unleased → (s.core core).disabled = false → s.inFuse p core = false →
          s.inReserve p core = false → s.freeSlot p = some n →
          (set_.takeImage (core / 16) p (v.extractLsb' 0 24) boot.img.toNat 1).2 = .ok img →
          Leads s (.bootGo core v) fun t => (t.core core).boot.state = 2 ∧ ∃ th ∈ t.threads, th.life.part = p ∧ th.life.slot = n ∧
            th.life.rect.lead = core ∧ ∀ z ∈ s.threads, z ∈ t.threads)) ∧
      Leads s (.registerWrite 0x10 v) (fun t => t.hostRead 0x10 = v) ∧ Leads s (.registerWrite 0x18 v) (fun t => t.hostRead 0x18 = v) ∧
      Leads s (.registerWrite 0x20 v) (fun t => t.hostRead 0x20 = v) ∧ Leads s (.registerWrite 0x28 v) (fun t => t.hostRead 0x28 = v) ∧
      (∀ off ∈ [0xC0, 0xC8], p < 16 → Leads s (.registerWrite (0x100000 + 0x10000 * p + off) v) fun t =>
        t.hostRead (0x100000 + 0x10000 * p + off) = v) ∧
      (∀ off ∈ [0x30, 0x38], p < 16 → Leads s (.registerWrite (0x100000 + 0x10000 * p + off) v) fun t =>
        t.hostRead (0x100000 + 0x10000 * p + off) = v) ∧
      (∀ r, r < s.rails.length → r < 4 → Leads s (.registerWrite (0x100 + 8 * r) v) fun t =>
        (t.rail r).inom = min (fieldNat v 10 0) 1100 ∧ (t.rail r).ilim = limitOf (min (fieldNat v 10 0) 1100) (s.rail r).phok) ∧
      (addr % 8 ≠ 0 → exec (.registerWrite addr v) s = .next s)

/-- The commands of a partition's page: while one runs, another sets REJ and does nothing else; one that is accepted shows BUSY and its number,
takes effect, and completes with its result, which raises CMD; each names a slot below NSLOT whose thread is in a state it takes, or answers 2 or
3: a ROLLBACK of a thread with no open interval answers 3 (log 60). A TLBINV drops the translations of its arguments as they stood at its
acceptance from every TLB when it completes. A partition reset aborts a running command, and a running DEVICE_QUIESCE, with RESULT 4. That an
accepted command clears REJ is the model's choice (log 58) (15 R320, R321; 16 R327, R328, R333). -/
def Obligations.PartitionCommands : Prop :=
  ∀ (s : State) (p : Nat) (stamp : Word), p < s.parts.length →
    let cmd := (s.part p).cmd
    let shows := fun (t : State) (op r : Nat) => (t.part p).cmd =
      { cmd with busy := true, rej := false, op := BitVec.ofNat 8 op, result := 0, next := BitVec.ofNat 8 r, inv := none }
    let k := cmd.arg0.toNat
    let at_ := s.threads.find? fun th => th.life.part == p && th.life.slot == k
    let slot := fun i : Instr × Nat => Leads s i.1 fun t => shows t i.2 2 ∧ t.threads = s.threads
    let state := fun i : Instr × Nat => Leads s i.1 fun t => shows t i.2 3 ∧ t.threads = s.threads
    let onThread : List (Instr × Nat) := [(.rollback p, 5), (.decide p, 6), (.kill p, 7)]
    (cmd.busy = true → ∀ i ∈ [Instr.quiesce p, .release p, .image p stamp, .rollback p, .decide p, .kill p, .tlbinv p, .restore p],
      Leads s i fun t => t = { s with parts := t.parts } ∧ t.part p = { s.part p with cmd := { cmd with rej := true } }) ∧
    (cmd.busy = false →
      (Leads s (.quiesce p) fun t => shows t 1 0 ∧ (t.part p).quiesced = true ∧
        ∀ th ∈ s.threads, th.life.part = p → th.life.phase = .running →
          { th with life := { th.life with asked := some 3 } } ∈ t.threads) ∧
      (Leads s (.release p) fun t => shows t 2 0 ∧ (t.part p).quiesced = false ∧ t.threads = s.threads) ∧
      ((s.part p).set.nslot ≤ k → ∀ i ∈ onThread, slot i) ∧
      (k < (s.part p).set.nslot → at_ = none → ∀ i ∈ onThread, state i) ∧
      (∀ th, k < (s.part p).set.nslot → at_ = some th →
        (th.life.phase = .running → ∀ i ∈ onThread, state i) ∧
        (th.life.phase ≠ .parked → state (.decide p, 6)) ∧
        (th.life.phase = .parked → Leads s (.decide p) fun t => shows t 6 0 ∧ t.threads = s.threads ∧
          ∃ x ∈ (t.part p).pol.triggers, x.hook = .fault ∧ x.cause = 1 ∧ x.tid = th.tid) ∧
        ((th.life.phase = .saved ∨ th.life.phase = .trapped ∨ th.life.phase = .parked) →
          (Leads s (.kill p) fun t => shows t 7 0 ∧ t.thread? th.tid = none) ∧
          (th.life.ckpt.isOpen = false → state (.rollback p, 5)))) ∧
      (Leads s (.tlbinv p) fun t => t.cores = s.cores ∧ t.dies = s.dies ∧ (t.part p).cmd =
        { cmd with busy := true, rej := false, op := 8, result := 0, next := 0, inv := some (cmd.arg0, cmd.arg1) }) ∧
      (s.atCut p = false → ∀ i ∈ [(Instr.image p stamp, 3), (.restore p, 9)],
        Leads s i.1 fun t => shows t i.2 3 ∧ t.threads = s.threads ∧ t.mem = s.mem)) ∧
    (Leads s (.partitionReset p) fun t => (t.part p).cmd.result = (if cmd.busy then 4 else 0) ∧
      (s.dev.cmd.busy = true → s.dev.cmd.op = 1 → t.dev.cmd.busy = false ∧ t.dev.cmd.result = 4) ∧ (∀ th ∈ t.threads, th.life.part ≠ p) ∧ (t.part p).cmd.op = 4 ∧
      (t.part p).cmd.busy = true ∧ (t.part p).pol.running = none ∧ (t.part p).pol.triggers = [] ∧ (t.part p).fuses = [] ∧
      (t.part p).quiesced = false ∧ (t.part p).pol.pwords = List.replicate 8 0 ∧
      ∀ q ∈ (t.part p).queues, q.head = q.tail ∧ q.resumes = []) ∧
    (cmd.busy = true →
      ((cmd.op ≠ 1 ∨ s.atCut p = true) → Leads s (.commandComplete (.part p)) fun t =>
        (t.part p).cmd = { cmd with busy := false, result := cmd.next, next := 0, inv := none } ∧ (t.part p).ints.cause.getLsbD 0 = true ∧
        t.threads = s.threads ∧
        (cmd.inv = none → t.cores = s.cores ∧ t.dies = s.dies) ∧
        ∀ a0 a1, cmd.inv = some (a0, a1) →
          let outside := fun e : TlbEntry => e.part ≠ p ∨ (bitOf a0 24 = false ∧ e.ctx ≠ some (a0.extractLsb' 0 24)) ∨
            fieldNat a1 55 0 + 2 ^ fieldNat a1 63 56 ≤ 65536 * e.page ∨ 65536 * (e.page + 1) ≤ fieldNat a1 55 0
          (∀ c e, e ∈ (t.core c).tlb ↔ e ∈ (s.core c).tlb ∧ outside e) ∧ ∀ d e, e ∈ (t.die d).tlb ↔ e ∈ (s.die d).tlb ∧ outside e) ∧
      (cmd.op = 1 → s.atCut p = false → Leads s (.commandComplete (.part p)) fun t => (t.part p).cmd = cmd)) ∧
    (cmd.busy = false → exec (.commandComplete (.part p)) s = .next s)

/-- IMAGE of a partition at its cut serialises it and writes the image where its buffer holds it, else answers 5: a header of 256 bytes, the
partition's block, the stored contexts of its threads, and a trailer with a CRC-32 of the header without its last word, of the block and of each
context; the header holds MAGIC and VERSION, LENGTH, the package and one block, the stamp, the places of the trailer and of the block, and last
DONE with the trailer's CRC. RESTORE of an accepted block brings its threads in, at rest and with no open interval, the SAVED ones as resume
entries of their queues, and frees the partition's logit-filter sessions. ROLLBACK gives every line that the thread's undo log holds its logged
bytes and mark again, empties the log, and makes the thread SAVED, the youngest resume entry of its queue, its context that of the half which
CKST names (12 R244; 15 R320, R322 to R324). That a command runs at its acceptance is the model's choice (log 60). -/
def Obligations.ImagesAndRollback : Prop :=
  ∀ (s : State) (p : Nat) (stamp : Word), p < s.parts.length → (s.part p).cmd.busy = false →
    let cmd := (s.part p).cmd
    let shown := fun (op r : Nat) =>
      ({ cmd with busy := true, rej := false, op := BitVec.ofNat 8 op, result := 0, next := BitVec.ofNat 8 r, inv := none } : CmdPageSt)
    let begun := fun (op : Nat) => s.modPart p fun q => { q with cmd := shown op 0 }
    let s3 := begun 3
    (s.atCut p = true →
      (∀ cs : List (List (BitVec 8)), (s3.imageThreads p).map s3.storedCsa = cs.map some →
        ∃ b block : List (BitVec 8),
          let trail := 256 + block.length + cs.flatten.length
          let head := b.take 248 ++ List.replicate 8 0
          let trailer := (head :: block :: cs).flatMap fun x => leBytes 8 (crc32 x).toNat
          block = s3.partBlock p (offsFrom (256 + block.length) (cs.map List.length)) ∧
          b = b.take 256 ++ block ++ cs.flatten ++ trailer ∧ b.length = trail + 8 * (2 + cs.length) ∧
          word8 b 0 = 0x444556494D470001 ∧ word8 b 1 = BitVec.ofNat 64 b.length ∧
          word8 b 2 = BitVec.ofNat 64 (s.dev.pkg.toNat * 2 ^ 32 + 1) ∧ word8 b 3 = stamp ∧ word8 b 4 = BitVec.ofNat 64 trail ∧
          (∀ k, k < 16 → word8 b (8 + k) = if k = p then 256 else 0) ∧ (∀ k ∈ [5, 6, 7, 24, 25, 26, 27, 28, 29, 30], word8 b k = 0) ∧
          fieldNat (word8 b 31) 63 32 = 0x444F4E45 ∧ fieldNat (word8 b 31) 31 0 = (crc32 trailer).toNat ∧
          (cmd.arg1.toNat < b.length → Leads s (.image p stamp) fun t => (t.part p).cmd = shown 3 5 ∧ t.mem = s.mem ∧ t.threads = s.threads) ∧
          (b.length ≤ cmd.arg1.toNat → s3.writePool p (cmd.arg0.toNat % 2 ^ 56) b = none →
            Leads s (.image p stamp) fun t => (t.part p).cmd = shown 3 2 ∧ t.mem = s.mem ∧ t.threads = s.threads) ∧
          ∀ u, b.length ≤ cmd.arg1.toNat → s3.writePool p (cmd.arg0.toNat % 2 ^ 56) b = some u →
            Leads s (.image p stamp) fun t => t.mem = u.mem ∧ (t.part p).cmd = shown 3 0 ∧ t.threads = s.threads) ∧
      (∀ b u m, (begun 9).readPool p (cmd.arg0.toNat % 2 ^ 56) cmd.arg1.toNat = some (b, m) → (begun 9).restoreBlock p b = (0, u) →
        Leads s (.restore p) fun t => imageWhole b = true ∧ (∀ th ∈ s.threads, th.life.part ≠ p) ∧ t.mem = u.mem ∧ t.threads = u.threads ∧
          (∀ d ∈ t.dies, ∀ f ∈ d.filters, f.isOpen = true → f.part ≠ p) ∧
          ∃ new : List Thread, t.threads = s.threads ++ new ∧
            (∀ th ∈ new, th.life.part = p ∧ th.life.ckpt.isOpen = false ∧ th.life.undo = [] ∧ s.nextId ≤ th.tid ∧
              (th.life.phase = .saved ∨ th.life.phase = .trapped ∨ th.life.phase = .parked)) ∧
            (p < u.parts.length → (t.part p).cmd = shown 9 0 ∧ (t.part p).slots = new.map (·.life.slot) ∧
              ∀ n, n < 32 → ((t.queue p n).resumes.map (·.tid)) =
                (new.filter fun th => th.life.queue == n && th.life.phase == .saved).map (·.tid)))) ∧
    (∀ th, cmd.arg0.toNat < (s.part p).set.nslot → s.thread? th.tid = some th →
      s.threads.find? (fun x => x.life.part == p && x.life.slot == cmd.arg0.toNat) = some th → th.life.ckpt.isOpen = true →
      (th.life.phase = .saved ∨ th.life.phase = .trapped ∨ th.life.phase = .parked) →
        Leads s (.rollback p) fun t => (t.part p).cmd = shown 5 0 ∧ RolledBack s t th)

/-- The device's commands and resets: a running one rejects another; a core that is not leased, a die and the whole device are reset, and global
memory keeps its bytes through a device reset; what the flash holds of dead links and of replaced and retired rows is read again; a reset that
aborts a running command shows RESULT 4; a retired core is disabled at once when it is unleased (16 R328, R333, R342; what a device reset
leaves of global memory is the model's choice, log 24, and so are REJ 0 after an accepted command, log 58, the order of the threads
in a device image, log 61, that it is written at physical addresses, log 25, and that any reset aborts a running device command with RESULT 4,
log 62). -/
def Obligations.DeviceCommands : Prop :=
  ∀ (s : State) (stamp : Word),
    let cmd := s.dev.cmd
    let k := cmd.arg0.toNat
    let shows := fun (t : State) (op r : Nat) => t.dev.cmd =
      { cmd with busy := true, rej := false, op := BitVec.ofNat 8 op, result := 0, next := BitVec.ofNat 8 r, inv := none }
    (cmd.busy = true → ∀ i ∈ [Instr.deviceQuiesce, .deviceRelease, .deviceImage stamp, .coreReset, .retire],
      Leads s i fun t => t = { s with dev := { s.dev with cmd := { cmd with rej := true } } }) ∧
    (cmd.busy = false →
      (Leads s .deviceQuiesce fun t => shows t 1 0 ∧ (∀ p, p < s.parts.length → p < 16 → (t.part p).quiesced = true) ∧
        ∀ th ∈ t.threads, th.life.part < 16 → th.life.phase = .running → th.life.asked = some 3) ∧
      (Leads s .deviceRelease fun t => shows t 2 0 ∧ (∀ q ∈ t.parts, q.quiesced = false) ∧ t.threads = s.threads) ∧
      ((∃ p, p < 16 ∧ s.atCut p = false) → Leads s (.deviceImage stamp) fun t => shows t 3 3 ∧ t.mem = s.mem) ∧
      (∀ b, (∀ p, p < 16 → s.atCut p = true) →
        ({ s with dev := { s.dev with cmd := { cmd with busy := true, rej := false, op := 3, result := 0, next := 0, inv := none } } } : State).devImage
          s.liveParts true false stamp = some b →
        (cmd.arg1.toNat < b.length → Leads s (.deviceImage stamp) fun t => shows t 3 5 ∧ t.mem = s.mem) ∧
        (b.length ≤ cmd.arg1.toNat → Leads s (.deviceImage stamp) fun t => shows t 3 0 ∧ t.cores = s.cores ∧ t.threads = s.threads)) ∧
      (128 ≤ k → Leads s .coreReset (fun t => shows t 4 2 ∧ t.cores = s.cores) ∧ Leads s .retire fun t => shows t 7 2 ∧ t.cores = s.cores) ∧
      (k < 128 → k < s.cores.length →
        ((s.core k).lease ≠ .unleased → Leads s .coreReset (fun t => shows t 4 3 ∧ t.cores = s.cores) ∧
          Leads s .retire fun t => shows t 7 0 ∧ t.core k = { s.core k with retiring := true } ∧ t.dev.flashBusy = true) ∧
        ((s.core k).lease = .unleased →
          (Leads s .coreReset fun t => shows t 4 0 ∧ t.core k = { s.core k with
            sp := {}, spBad := [], trf := {}, l1 := [], boot := {}, wins := List.replicate 8 0 } ∧ ∀ c, c ≠ k → t.core c = s.core c) ∧
          Leads s .retire fun t => shows t 7 0 ∧ t.core k = { s.core k with disabled := true } ∧ t.dev.flashBusy = true))) ∧
    (k < 8 → k < s.dies.length → s.cores.length = 128 → Leads s .dieReset fun t => t.dev.cmd.busy = true ∧ t.dev.cmd.op = 5 ∧
      t.dev.cmd.result = (if cmd.busy then 4 else 0) ∧
      (t.die k).smm = [] ∧ (t.die k).tlb = [] ∧ (t.die k).log = (s.die k).log ∧
      (∀ n, n < s.ports.length → n / 2 = k → (t.port n).dead = s.flash.ports.contains n) ∧
      ∀ j, j < 16 → (t.core (16 * k + j)).sp = {} ∧ (t.core (16 * k + j)).trf = {} ∧ (t.core (16 * k + j)).lcyc = 0 ∧
        (t.core (16 * k + j)).tlb = []) ∧
    (Leads s .deviceReset fun t => t.mem = s.mem ∧ t.threads = [] ∧ t.packets = [] ∧ t.parts = State.reset.parts ∧
      t.dev.cmd.result = (if cmd.busy then 4 else 0) ∧
      (∀ d, d < 8 → t.die d = { State.reset.die d with
        rows := (s.flash.rows.filter (·.1 == d)).map (·.2), retired := (s.flash.retired.filter (·.1 == d)).map (·.2) }) ∧
      t.flash = s.flash ∧ t.dev.pkg = s.dev.pkg ∧ t.dev.cmd.op = 6 ∧ t.dev.cmd.busy = true ∧
      ∀ c, c < 128 → (t.core c).sp = {} ∧ (t.core c).trf = {} ∧ (t.core c).lease = .unleased ∧
        (t.core c).disabled = s.flash.disabled.contains c) ∧
    (cmd.busy = true → (cmd.op ≠ 1 ∨ ∀ p, p < 16 → s.atCut p = true) → Leads s (.commandComplete .dev) fun t =>
      t = { s with dev := { s.dev with cmd := { cmd with busy := false, result := cmd.next, next := 0, inv := none } } })

/-- Power, sensors, links, memory and other packages: failed phases lower the limit; RCAD follows the current against it; THCAD follows the hottest
of the cluster's sensors, where one that differs from the mean of its neighbours counts as the hotter of its reading and that mean and one that
failed out of range as its hottest neighbour and 5 degrees, 16 when all three have failed; a sensor's test step records such a difference (KIND
4); a warning quiesces every partition and the hard trip cuts power; permit counts are restored, or
the link dies; an uncorrectable line is poisoned; a proxy is dropped; another package's access is performed on a line homed here (11 R226, R229,
R238; 15 R325; 16 R335 to R342; what other packages, sensors and the world outside do is an argument of the event or of the model's plain data,
logs 24 and 63; that a differing sensor counts so, and what stands in for a current sensor, is the model's reading, log 61; that another package's
write of a line homed in host memory is not performed here is log 47's, and that the copies which other packages keep are read until they are
dropped log 18's; that a line for which its die has no room, or which was retired, takes no write is
the model's choice, log 7). -/
def Obligations.DeviceEvents : Prop :=
  ∀ (s : State) (r c k n imeas port line pa row pkg : Nat) (low stuck sys : Bool) (x : Int) (e : LinkId) (bs : List (BitVec 8)) (m : Mark)
    (op : GamoOp) (w : Width) (a b : Word),
    let rail := s.rail r
    let cl := s.cluster c
    let here := ∃ d, s.homeOf (pa / 64) = .die d
    let im := imeas + rail.standIns
    (r < 4 → r < s.rails.length → 0 < n → Leads s (.phaseFailure r n) fun t =>
      (t.rail r).phok = rail.phok - n ∧ (t.rail r).derate = true ∧ (t.rail r).inom = rail.inom ∧
      (t.rail r).ilim = rail.inom * (rail.phok - n) / 36 - (if rail.phok - n < 36 then rail.inom / 50 else 0) ∧
      t.dev.ints.cause.getLsbD 3 = true ∧ t.dev.ints.cause.getLsbD 4 = true) ∧
    ((∀ j, j < 6 → rail.failed.getD j false = false) → rail.standIns = 0) ∧
    (∀ (j : Nat) (z : Int), j < 6 → rail.groups.length = 6 → (∀ i, i < 6 → rail.failed.getD i false = decide (i = j)) →
      rail.outs.getD j false = true → 0 ≤ z → z ≤ 250 → (∃ i, i ≠ j ∧ rail.groups[i]? = some z) →
      (∀ i, i < 6 → i ≠ j → 0 ≤ rail.groups.getD i 0 ∧ rail.groups.getD i 0 ≤ z) → rail.standIns = (z * 11 / 10).toNat) ∧
    (r < s.rails.length → Leads s (.powerControllerCheck r imeas low) fun t => (t.rail r).imeas = im ∧
      (t.rail r).rcad = (if rail.ilim < im then min (rail.rcad + 1) 16
        else if low = true ∧ 8 * im < 7 * rail.ilim then max (rail.rcad - 1) 1 else rail.rcad) ∧
      ∀ q, q < s.cores.length → (t.core q).cad = max (t.rail (t.cluster (clusterOf q)).rail).rcad (t.cluster (clusterOf q)).thcad) ∧
    (c < s.clusters.length → cl.failed = [true, true, true] → Leads s (.thermalCadenceUpdate c [x, x, x]) fun t => (t.cluster c).thcad = 16) ∧
    (∀ ts : List Int, c < s.clusters.length → cl.temps.length = 3 → ts.length = 3 → cl.failed ≠ [true, true, true] → cl.failed.length = 3 →
      let s1 := s.modCluster c fun y => { y with temps := (List.range 3).map fun j => if cl.failed.getD j false then cl.temps.getD j 0 else ts.getD j 0 }
      let failed := fun j => cl.failed.getD j false = true
      let near := s1.nearTemps c
      let off := fun j => 15 * (near j).length < ((near j).length * ts.getD j 0 - (near j).sum).natAbs
      let counts := fun (j : Nat) (v : Int) =>
        (¬ failed j ∧ -40 ≤ ts.getD j 0 ∧ ts.getD j 0 ≤ 150 ∧ ¬ (near j ≠ [] ∧ off j) ∧ v = ts.getD j 0) ∨
        (¬ failed j ∧ -40 ≤ ts.getD j 0 ∧ ts.getD j 0 ≤ 150 ∧ near j ≠ [] ∧ off j ∧ v = max (ts.getD j 0) ((near j).sum / (near j).length)) ∨
        (failed j ∧ cl.outs.getD j false = true ∧ (v - 5) ∈ near j ∧ ∀ y ∈ near j, y ≤ v - 5)
      (∀ (j : Nat) (y : Int), j < 3 → (y ∈ near j ↔ -40 ≤ y ∧ y ≤ 150 ∧
        ((∃ i, i ≠ j ∧ i < 3 ∧ ¬ failed i ∧ ts.getD i 0 = y) ∨
          ∃ q ∈ adjacent c, ∃ i, (s.cluster q).temps[i]? = some y ∧ (s.cluster q).failed.getD i false = false))) ∧
      ∀ hot, (∃ j, j < 3 ∧ counts j hot) → (∀ j v, j < 3 → counts j v → v ≤ hot) → Leads s (.thermalCadenceUpdate c ts) fun t =>
        (t.cluster c).thcad = if 105 ≤ hot then min (cl.thcad + 1) 16 else if hot < 100 then max (cl.thcad - 1) 1 else cl.thcad) ∧
    (c < s.clusters.length → k < 3 → cl.failed.length = 3 → cl.failed.getD k true = false →
      ((stuck = true ∨ x < -40 ∨ 150 < x) → Leads s (.sensorTestStep (.temp c k) x stuck) fun t =>
        (t.cluster c).failed.getD k false = true ∧ t.dev.flashBusy = true ∧ t.dev.ints.cause.getLsbD 4 = true ∧
        (cl.outs.length = 3 → (t.cluster c).outs.getD k false = !stuck)) ∧
      (stuck = false → -40 ≤ x → x ≤ 150 → cl.temps.length = 3 → c / 4 < s.dies.length → Leads s (.sensorTestStep (.temp c k) x stuck) fun t =>
        let near := s.nearTemps c k
        let off := near ≠ [] ∧ 15 * near.length < (near.length * x - near.sum).natAbs
        (t.cluster c).temps.getD k 0 = x ∧ (t.cluster c).failed = cl.failed ∧
        (¬ off → t.dev.logSeq = s.dev.logSeq) ∧
        (off → t.dev.logSeq = s.dev.logSeq + 1 ∧ fieldNat (sget {} (t.die (c / 4)).log s.dev.logIndex).w0 63 56 = 4 ∧
          fieldNat (sget {} (t.die (c / 4)).log s.dev.logIndex).w0 55 53 = 0)) ∧
      (115 ≤ x → x ≤ 150 → Leads s (.thermalWarning (.temp c k) x) fun t => t.dev.emerg = true ∧ t.dev.ints.cause.getLsbD 5 = true ∧
        ∀ p, p < 16 → p < s.parts.length → (t.part p).quiesced = true ∧ (t.part p).ints.cause.getLsbD 5 = true) ∧
      (x < 115 → exec (.thermalWarning (.temp c k) x) s = .next s)) ∧
    (k < 6 → r < s.rails.length → rail.failed.length = 6 → rail.groups.length = 6 → rail.failed.getD k true = false →
      (stuck = false → 0 ≤ x → x ≤ 250 → Leads s (.sensorTestStep (.current r k) x stuck) fun t =>
        (t.rail r).groups.getD k 0 = x ∧ (t.rail r).failed = rail.failed) ∧
      ((stuck = true ∨ x < 0 ∨ 250 < x) → Leads s (.sensorTestStep (.current r k) x stuck) fun t =>
        (t.rail r).failed.getD k false = true ∧ t.dev.flashBusy = true ∧ (rail.outs.length = 6 → (t.rail r).outs.getD k false = !stuck))) ∧
    (Leads s .hardTrip fun t => t = { s with dev := { s.dev with power := false }, turns := [] }) ∧
    (port < 16 → port < s.ports.length → (s.port port).dead = false →
      let owed := (s.port port).owed.foldl (fun a o => a.add (Slots.one o.cls)) {}
      (((s.port port).have_.add owed).add (s.heldIn port) = fullPort → exec (.permitAudit port) s = .next s) ∧
      (((s.port port).have_.add owed).add (s.heldIn port) ≠ fullPort → Leads s (.permitAudit port) fun t =>
        (t.port port).have_ = fullPort ∧ (t.port port).owed = [] ∧ (t.port port).back = {} ∧ ((t.port port).dead = true ↔ s.heldIn port ≠ {}))) ∧
    (Leads s (.linkCrcError e .good) fun t => t.dev.lasting = s.dev.lasting ∧ t.dev.logSeq = s.dev.logSeq + 1 ∧ t.ports = s.ports) ∧
    (Leads s (.linkCrcError e .retrained) fun t => t = { s with dev := { s.dev with lasting := min (s.dev.lasting + 1) 255 } }) ∧
    ((s.lanes.filter (· == linkNum e)).length < 2 → Leads s (.linkCrcError e .spareLane) fun t =>
      t = { s with lanes := s.lanes ++ [linkNum e], dev := { s.dev with lasting := min (s.dev.lasting + 1) 255, flashBusy := true } }) ∧
    (∀ how, port < s.ports.length → (how = .dead ∨ (how = .spareLane ∧ 2 ≤ (s.lanes.filter (· == port)).length)) →
      Leads s (.linkCrcError (.carousel port) how) fun t =>
        (t.port port).dead = true ∧ t.dev.flashBusy = true ∧ t.dev.ints.cause.getLsbD 4 = true ∧ t.lanes = s.lanes) ∧
    (∀ d, s.homeOf (pa / 64) = .die d → d < s.dies.length →
      let i := s.dev.logIndex
      let y := s.die d
      (Leads s (.hbmUncorrectableRead pa true row) fun t => t.mem = s.mem ∧ t.dev.logSeq = s.dev.logSeq + 1 ∧
        (sget {} (t.die d).log i).wher = BitVec.ofNat 64 pa ∧ (t.die d).rows = y.rows ∧ (t.die d).retired = y.retired) ∧
      (Leads s (.hbmUncorrectableRead pa false row) fun t => t.mem.mark (pa / 64) = some (BitVec.ofNat 12 i) ∧
        (sget {} (t.die d).log i).wher = BitVec.ofNat 64 pa ∧
        (∀ a, a / 64 ≠ pa / 64 → t.mem.byte a = s.mem.byte a) ∧ (∀ l, l ≠ pa / 64 → t.mem.mark l = s.mem.mark l) ∧
        t.dev.lasting = min (s.dev.lasting + 1) 255 ∧ t.dev.flashBusy = true ∧
        (y.rows.length < Config.spareRows d → (t.die d).rows = y.rows ++ [row] ∧ (t.die d).retired = y.retired ∧ t.dev.ints = s.dev.ints) ∧
        (Config.spareRows d ≤ y.rows.length → (t.die d).rows = y.rows ∧ pa / 64 ∈ (t.die d).retired ∧
          t.dev.ints.cause.getLsbD 4 = true))) ∧
    (Leads s (.proxyInvalidation line) fun t => t = { s with proxies := t.proxies } ∧ (∀ y ∈ t.proxies, y.line ≠ line) ∧
      ∀ y ∈ s.proxies, y.line ≠ line → y ∈ t.proxies) ∧
    (let l := pa / 64
      let x : PeerProxy := { pkg := pkg, line := l, bytes := s.mem.read (64 * l) 64, mark := s.mem.mark l }
      let copy := s.peers.find? fun y => y.pkg == pkg && y.line == l
      ((sys = true ∨ s.homeOf l = .package pkg) →
        exec (.peerPackageAccess (.read pkg sys pa)) s = .next { s with peerRead := some x }) ∧
      (s.homeOf l ≠ .package pkg →
        (∀ y, copy = some y → exec (.peerPackageAccess (.read pkg false pa)) s = .next { s with peerRead := some y }) ∧
        (copy = none → exec (.peerPackageAccess (.read pkg false pa)) s = .next { s with peers := x :: s.peers, peerRead := some x })) ∧
      (s.homeOf l = .host → exec (.peerPackageAccess (.write pkg pa bs m)) s =
        .next { s with peers := s.peers.filter fun y => !(y.pkg == pkg && y.line == l) }) ∧
      (∀ o, s.homeOf l = .package o → s.mem.mark l = none → pa % 64 + bs.length ≤ 64 → 0 < bs.length →
        Leads s (.peerPackageAccess (.write pkg pa bs none)) fun t =>
          (∀ i v, bs[i]? = some v → t.mem.byte (pa + i) = v) ∧ (∀ a, (a < pa ∨ pa + bs.length ≤ a) → t.mem.byte a = s.mem.byte a) ∧
          t.proxies = s.proxies ∧ t.peers = s.peers.filter fun y => !(y.pkg == pkg && y.line == l))) ∧
    (∀ (l d : Nat), s.namedHome l = some (.die d) →
      let others := (s.mem.lines.filter fun x => x != l && s.namedHome x == some (.die d)).length
      (l ∈ (s.die d).retired ∨ 128000000000 < 64 * (others + 1 + (s.die d).retired.length) → s.held l = false)) ∧
    (here → s.held (pa / 64) = false → pa % 64 + bs.length ≤ 64 → Leads s (.peerPackageAccess (.write pkg pa bs m)) fun t => t.mem = s.mem) ∧
    (here → s.held (pa / 64) = true → s.mem.mark (pa / 64) = none →
      (pa % 64 + bs.length ≤ 64 → 0 < bs.length → Leads s (.peerPackageAccess (.write pkg pa bs none)) fun t =>
        (∀ i v, bs[i]? = some v → t.mem.byte (pa + i) = v) ∧ (∀ a, (a < pa ∨ pa + bs.length ≤ a) → t.mem.byte a = s.mem.byte a) ∧
        (∀ y ∈ t.proxies, y.line ≠ pa / 64) ∧ ∀ y ∈ t.peers, ¬ (y.pkg = pkg ∧ y.line = pa / 64)) ∧
      (pa % w.size = 0 → Leads s (.peerPackageAccess (.gamo op w low pkg pa a b)) fun t =>
        let n := gamoNew op (extW (wordOf (s.mem.read pa w.size)) w.bits low) (extW a w.bits low) (extW b w.bits low)
        (∀ i v, (leBytes w.size (wrapW n w.bits low).toNat)[i]? = some v → t.mem.byte (pa + i) = v) ∧
        ∀ q, (q < pa ∨ pa + w.size ≤ q) → t.mem.byte q = s.mem.byte q)) ∧
    (s.dev.flashBusy = true → Leads s .flashRewriteDone fun t => t.dev.flashBusy = false ∧
      (∀ q, q ∈ t.flash.disabled ↔ ∃ y, s.cores[q]? = some y ∧ (y.disabled = true ∨ y.retiring = true))) ∧
    (s.dev.flashBusy = false → exec .flashRewriteDone s = .next s) ∧
    (s.dev.power = true → exec .powerUp s = .next s) ∧
    (s.dev.power = false → Leads s .powerUp fun t => t.dev.power = true ∧ t.threads = [] ∧ t.flash = s.flash ∧ t.parts = State.reset.parts ∧
      ∀ a, (∀ d, s.homeOf (a / 64) ≠ .die d) → t.mem.byte a = s.mem.byte a)

end Statements
end

