-- ==== Sys2Proof/Laws/State.lean ====
section
/-! SUPPORT. One lemma per field per update of the state and of a thread: what the update leaves alone. -/

namespace Sys2Proof.Machine

/-! ### Changing a thread -/

@[simp] theorem State.modThread_now (s : State) (tid : Nat) (g : Thread → Thread) : (s.modThread tid g).now = s.now := rfl

@[simp] theorem State.modThread_fresh (s : State) (tid : Nat) (g : Thread → Thread) : (s.modThread tid g).fresh = s.fresh := rfl

@[simp] theorem State.modThread_nextId (s : State) (tid : Nat) (g : Thread → Thread) : (s.modThread tid g).nextId = s.nextId := rfl

@[simp] theorem State.modThread_cur (s : State) (tid : Nat) (g : Thread → Thread) : (s.modThread tid g).cur = s.cur := rfl

@[simp] theorem State.modThread_turns (s : State) (tid : Nat) (g : Thread → Thread) : (s.modThread tid g).turns = s.turns := rfl

@[simp] theorem State.modThread_mem (s : State) (tid : Nat) (g : Thread → Thread) : (s.modThread tid g).mem = s.mem := rfl

@[simp] theorem State.modThread_proxies (s : State) (tid : Nat) (g : Thread → Thread) : (s.modThread tid g).proxies = s.proxies := rfl

@[simp] theorem State.modThread_late (s : State) (tid : Nat) (g : Thread → Thread) : (s.modThread tid g).late = s.late := rfl

@[simp] theorem State.modThread_peers (s : State) (tid : Nat) (g : Thread → Thread) : (s.modThread tid g).peers = s.peers := rfl

@[simp] theorem State.modThread_peerRead (s : State) (tid : Nat) (g : Thread → Thread) : (s.modThread tid g).peerRead = s.peerRead := rfl

@[simp] theorem State.modThread_homes (s : State) (tid : Nat) (g : Thread → Thread) : (s.modThread tid g).homes = s.homes := rfl

@[simp] theorem State.modThread_hostBad (s : State) (tid : Nat) (g : Thread → Thread) : (s.modThread tid g).hostBad = s.hostBad := rfl

@[simp] theorem State.modThread_cores (s : State) (tid : Nat) (g : Thread → Thread) : (s.modThread tid g).cores = s.cores := rfl

@[simp] theorem State.modThread_dies (s : State) (tid : Nat) (g : Thread → Thread) : (s.modThread tid g).dies = s.dies := rfl

@[simp] theorem State.modThread_clusters (s : State) (tid : Nat) (g : Thread → Thread) : (s.modThread tid g).clusters = s.clusters := rfl

@[simp] theorem State.modThread_rails (s : State) (tid : Nat) (g : Thread → Thread) : (s.modThread tid g).rails = s.rails := rfl

@[simp] theorem State.modThread_parts (s : State) (tid : Nat) (g : Thread → Thread) : (s.modThread tid g).parts = s.parts := rfl

@[simp] theorem State.modThread_packets (s : State) (tid : Nat) (g : Thread → Thread) : (s.modThread tid g).packets = s.packets := rfl

@[simp] theorem State.modThread_ports (s : State) (tid : Nat) (g : Thread → Thread) : (s.modThread tid g).ports = s.ports := rfl

@[simp] theorem State.modThread_fabDead (s : State) (tid : Nat) (g : Thread → Thread) : (s.modThread tid g).fabDead = s.fabDead := rfl

@[simp] theorem State.modThread_lanes (s : State) (tid : Nat) (g : Thread → Thread) : (s.modThread tid g).lanes = s.lanes := rfl

@[simp] theorem State.modThread_dev (s : State) (tid : Nat) (g : Thread → Thread) : (s.modThread tid g).dev = s.dev := rfl

@[simp] theorem State.modThread_flash (s : State) (tid : Nat) (g : Thread → Thread) : (s.modThread tid g).flash = s.flash := rfl

@[simp] theorem State.modThread_shadow (s : State) (tid : Nat) (g : Thread → Thread) : (s.modThread tid g).shadow = s.shadow := rfl

/-! ### Changing a core -/

@[simp] theorem State.modCore_now (s : State) (k : Nat) (g : Core → Core) : (s.modCore k g).now = s.now := rfl

@[simp] theorem State.modCore_fresh (s : State) (k : Nat) (g : Core → Core) : (s.modCore k g).fresh = s.fresh := rfl

@[simp] theorem State.modCore_nextId (s : State) (k : Nat) (g : Core → Core) : (s.modCore k g).nextId = s.nextId := rfl

@[simp] theorem State.modCore_cur (s : State) (k : Nat) (g : Core → Core) : (s.modCore k g).cur = s.cur := rfl

@[simp] theorem State.modCore_turns (s : State) (k : Nat) (g : Core → Core) : (s.modCore k g).turns = s.turns := rfl

@[simp] theorem State.modCore_mem (s : State) (k : Nat) (g : Core → Core) : (s.modCore k g).mem = s.mem := rfl

@[simp] theorem State.modCore_proxies (s : State) (k : Nat) (g : Core → Core) : (s.modCore k g).proxies = s.proxies := rfl

@[simp] theorem State.modCore_late (s : State) (k : Nat) (g : Core → Core) : (s.modCore k g).late = s.late := rfl

@[simp] theorem State.modCore_peers (s : State) (k : Nat) (g : Core → Core) : (s.modCore k g).peers = s.peers := rfl

@[simp] theorem State.modCore_peerRead (s : State) (k : Nat) (g : Core → Core) : (s.modCore k g).peerRead = s.peerRead := rfl

@[simp] theorem State.modCore_homes (s : State) (k : Nat) (g : Core → Core) : (s.modCore k g).homes = s.homes := rfl

@[simp] theorem State.modCore_hostBad (s : State) (k : Nat) (g : Core → Core) : (s.modCore k g).hostBad = s.hostBad := rfl

@[simp] theorem State.modCore_dies (s : State) (k : Nat) (g : Core → Core) : (s.modCore k g).dies = s.dies := rfl

@[simp] theorem State.modCore_clusters (s : State) (k : Nat) (g : Core → Core) : (s.modCore k g).clusters = s.clusters := rfl

@[simp] theorem State.modCore_rails (s : State) (k : Nat) (g : Core → Core) : (s.modCore k g).rails = s.rails := rfl

@[simp] theorem State.modCore_parts (s : State) (k : Nat) (g : Core → Core) : (s.modCore k g).parts = s.parts := rfl

@[simp] theorem State.modCore_threads (s : State) (k : Nat) (g : Core → Core) : (s.modCore k g).threads = s.threads := rfl

@[simp] theorem State.modCore_packets (s : State) (k : Nat) (g : Core → Core) : (s.modCore k g).packets = s.packets := rfl

@[simp] theorem State.modCore_ports (s : State) (k : Nat) (g : Core → Core) : (s.modCore k g).ports = s.ports := rfl

@[simp] theorem State.modCore_fabDead (s : State) (k : Nat) (g : Core → Core) : (s.modCore k g).fabDead = s.fabDead := rfl

@[simp] theorem State.modCore_lanes (s : State) (k : Nat) (g : Core → Core) : (s.modCore k g).lanes = s.lanes := rfl

@[simp] theorem State.modCore_dev (s : State) (k : Nat) (g : Core → Core) : (s.modCore k g).dev = s.dev := rfl

@[simp] theorem State.modCore_flash (s : State) (k : Nat) (g : Core → Core) : (s.modCore k g).flash = s.flash := rfl

@[simp] theorem State.modCore_shadow (s : State) (k : Nat) (g : Core → Core) : (s.modCore k g).shadow = s.shadow := rfl

/-! ### Changing a partition -/

@[simp] theorem State.modPart_now (s : State) (p : Nat) (g : Part → Part) : (s.modPart p g).now = s.now := rfl

@[simp] theorem State.modPart_fresh (s : State) (p : Nat) (g : Part → Part) : (s.modPart p g).fresh = s.fresh := rfl

@[simp] theorem State.modPart_nextId (s : State) (p : Nat) (g : Part → Part) : (s.modPart p g).nextId = s.nextId := rfl

@[simp] theorem State.modPart_cur (s : State) (p : Nat) (g : Part → Part) : (s.modPart p g).cur = s.cur := rfl

@[simp] theorem State.modPart_turns (s : State) (p : Nat) (g : Part → Part) : (s.modPart p g).turns = s.turns := rfl

@[simp] theorem State.modPart_mem (s : State) (p : Nat) (g : Part → Part) : (s.modPart p g).mem = s.mem := rfl

@[simp] theorem State.modPart_proxies (s : State) (p : Nat) (g : Part → Part) : (s.modPart p g).proxies = s.proxies := rfl

@[simp] theorem State.modPart_late (s : State) (p : Nat) (g : Part → Part) : (s.modPart p g).late = s.late := rfl

@[simp] theorem State.modPart_peers (s : State) (p : Nat) (g : Part → Part) : (s.modPart p g).peers = s.peers := rfl

@[simp] theorem State.modPart_peerRead (s : State) (p : Nat) (g : Part → Part) : (s.modPart p g).peerRead = s.peerRead := rfl

@[simp] theorem State.modPart_homes (s : State) (p : Nat) (g : Part → Part) : (s.modPart p g).homes = s.homes := rfl

@[simp] theorem State.modPart_hostBad (s : State) (p : Nat) (g : Part → Part) : (s.modPart p g).hostBad = s.hostBad := rfl

@[simp] theorem State.modPart_cores (s : State) (p : Nat) (g : Part → Part) : (s.modPart p g).cores = s.cores := rfl

@[simp] theorem State.modPart_dies (s : State) (p : Nat) (g : Part → Part) : (s.modPart p g).dies = s.dies := rfl

@[simp] theorem State.modPart_clusters (s : State) (p : Nat) (g : Part → Part) : (s.modPart p g).clusters = s.clusters := rfl

@[simp] theorem State.modPart_rails (s : State) (p : Nat) (g : Part → Part) : (s.modPart p g).rails = s.rails := rfl

@[simp] theorem State.modPart_threads (s : State) (p : Nat) (g : Part → Part) : (s.modPart p g).threads = s.threads := rfl

@[simp] theorem State.modPart_packets (s : State) (p : Nat) (g : Part → Part) : (s.modPart p g).packets = s.packets := rfl

@[simp] theorem State.modPart_ports (s : State) (p : Nat) (g : Part → Part) : (s.modPart p g).ports = s.ports := rfl

@[simp] theorem State.modPart_fabDead (s : State) (p : Nat) (g : Part → Part) : (s.modPart p g).fabDead = s.fabDead := rfl

@[simp] theorem State.modPart_lanes (s : State) (p : Nat) (g : Part → Part) : (s.modPart p g).lanes = s.lanes := rfl

@[simp] theorem State.modPart_dev (s : State) (p : Nat) (g : Part → Part) : (s.modPart p g).dev = s.dev := rfl

@[simp] theorem State.modPart_flash (s : State) (p : Nat) (g : Part → Part) : (s.modPart p g).flash = s.flash := rfl

@[simp] theorem State.modPart_shadow (s : State) (p : Nat) (g : Part → Part) : (s.modPart p g).shadow = s.shadow := rfl

/-! ### Changing the policy side of a partition -/

@[simp] theorem State.modPol_now (s : State) (p : Nat) (g : Policy → Policy) : (s.modPol p g).now = s.now := rfl

@[simp] theorem State.modPol_fresh (s : State) (p : Nat) (g : Policy → Policy) : (s.modPol p g).fresh = s.fresh := rfl

@[simp] theorem State.modPol_nextId (s : State) (p : Nat) (g : Policy → Policy) : (s.modPol p g).nextId = s.nextId := rfl

@[simp] theorem State.modPol_cur (s : State) (p : Nat) (g : Policy → Policy) : (s.modPol p g).cur = s.cur := rfl

@[simp] theorem State.modPol_turns (s : State) (p : Nat) (g : Policy → Policy) : (s.modPol p g).turns = s.turns := rfl

@[simp] theorem State.modPol_mem (s : State) (p : Nat) (g : Policy → Policy) : (s.modPol p g).mem = s.mem := rfl

@[simp] theorem State.modPol_proxies (s : State) (p : Nat) (g : Policy → Policy) : (s.modPol p g).proxies = s.proxies := rfl

@[simp] theorem State.modPol_late (s : State) (p : Nat) (g : Policy → Policy) : (s.modPol p g).late = s.late := rfl

@[simp] theorem State.modPol_peers (s : State) (p : Nat) (g : Policy → Policy) : (s.modPol p g).peers = s.peers := rfl

@[simp] theorem State.modPol_peerRead (s : State) (p : Nat) (g : Policy → Policy) : (s.modPol p g).peerRead = s.peerRead := rfl

@[simp] theorem State.modPol_homes (s : State) (p : Nat) (g : Policy → Policy) : (s.modPol p g).homes = s.homes := rfl

@[simp] theorem State.modPol_hostBad (s : State) (p : Nat) (g : Policy → Policy) : (s.modPol p g).hostBad = s.hostBad := rfl

@[simp] theorem State.modPol_cores (s : State) (p : Nat) (g : Policy → Policy) : (s.modPol p g).cores = s.cores := rfl

@[simp] theorem State.modPol_dies (s : State) (p : Nat) (g : Policy → Policy) : (s.modPol p g).dies = s.dies := rfl

@[simp] theorem State.modPol_clusters (s : State) (p : Nat) (g : Policy → Policy) : (s.modPol p g).clusters = s.clusters := rfl

@[simp] theorem State.modPol_rails (s : State) (p : Nat) (g : Policy → Policy) : (s.modPol p g).rails = s.rails := rfl

@[simp] theorem State.modPol_threads (s : State) (p : Nat) (g : Policy → Policy) : (s.modPol p g).threads = s.threads := rfl

@[simp] theorem State.modPol_packets (s : State) (p : Nat) (g : Policy → Policy) : (s.modPol p g).packets = s.packets := rfl

@[simp] theorem State.modPol_ports (s : State) (p : Nat) (g : Policy → Policy) : (s.modPol p g).ports = s.ports := rfl

@[simp] theorem State.modPol_fabDead (s : State) (p : Nat) (g : Policy → Policy) : (s.modPol p g).fabDead = s.fabDead := rfl

@[simp] theorem State.modPol_lanes (s : State) (p : Nat) (g : Policy → Policy) : (s.modPol p g).lanes = s.lanes := rfl

@[simp] theorem State.modPol_dev (s : State) (p : Nat) (g : Policy → Policy) : (s.modPol p g).dev = s.dev := rfl

@[simp] theorem State.modPol_flash (s : State) (p : Nat) (g : Policy → Policy) : (s.modPol p g).flash = s.flash := rfl

@[simp] theorem State.modPol_shadow (s : State) (p : Nat) (g : Policy → Policy) : (s.modPol p g).shadow = s.shadow := rfl

/-! ### Changing a die -/

@[simp] theorem State.modDie_now (s : State) (d : Nat) (g : Die → Die) : (s.modDie d g).now = s.now := rfl

@[simp] theorem State.modDie_fresh (s : State) (d : Nat) (g : Die → Die) : (s.modDie d g).fresh = s.fresh := rfl

@[simp] theorem State.modDie_nextId (s : State) (d : Nat) (g : Die → Die) : (s.modDie d g).nextId = s.nextId := rfl

@[simp] theorem State.modDie_cur (s : State) (d : Nat) (g : Die → Die) : (s.modDie d g).cur = s.cur := rfl

@[simp] theorem State.modDie_turns (s : State) (d : Nat) (g : Die → Die) : (s.modDie d g).turns = s.turns := rfl

@[simp] theorem State.modDie_mem (s : State) (d : Nat) (g : Die → Die) : (s.modDie d g).mem = s.mem := rfl

@[simp] theorem State.modDie_proxies (s : State) (d : Nat) (g : Die → Die) : (s.modDie d g).proxies = s.proxies := rfl

@[simp] theorem State.modDie_late (s : State) (d : Nat) (g : Die → Die) : (s.modDie d g).late = s.late := rfl

@[simp] theorem State.modDie_peers (s : State) (d : Nat) (g : Die → Die) : (s.modDie d g).peers = s.peers := rfl

@[simp] theorem State.modDie_peerRead (s : State) (d : Nat) (g : Die → Die) : (s.modDie d g).peerRead = s.peerRead := rfl

@[simp] theorem State.modDie_homes (s : State) (d : Nat) (g : Die → Die) : (s.modDie d g).homes = s.homes := rfl

@[simp] theorem State.modDie_hostBad (s : State) (d : Nat) (g : Die → Die) : (s.modDie d g).hostBad = s.hostBad := rfl

@[simp] theorem State.modDie_cores (s : State) (d : Nat) (g : Die → Die) : (s.modDie d g).cores = s.cores := rfl

@[simp] theorem State.modDie_clusters (s : State) (d : Nat) (g : Die → Die) : (s.modDie d g).clusters = s.clusters := rfl

@[simp] theorem State.modDie_rails (s : State) (d : Nat) (g : Die → Die) : (s.modDie d g).rails = s.rails := rfl

@[simp] theorem State.modDie_parts (s : State) (d : Nat) (g : Die → Die) : (s.modDie d g).parts = s.parts := rfl

@[simp] theorem State.modDie_threads (s : State) (d : Nat) (g : Die → Die) : (s.modDie d g).threads = s.threads := rfl

@[simp] theorem State.modDie_packets (s : State) (d : Nat) (g : Die → Die) : (s.modDie d g).packets = s.packets := rfl

@[simp] theorem State.modDie_ports (s : State) (d : Nat) (g : Die → Die) : (s.modDie d g).ports = s.ports := rfl

@[simp] theorem State.modDie_fabDead (s : State) (d : Nat) (g : Die → Die) : (s.modDie d g).fabDead = s.fabDead := rfl

@[simp] theorem State.modDie_lanes (s : State) (d : Nat) (g : Die → Die) : (s.modDie d g).lanes = s.lanes := rfl

@[simp] theorem State.modDie_dev (s : State) (d : Nat) (g : Die → Die) : (s.modDie d g).dev = s.dev := rfl

@[simp] theorem State.modDie_flash (s : State) (d : Nat) (g : Die → Die) : (s.modDie d g).flash = s.flash := rfl

@[simp] theorem State.modDie_shadow (s : State) (d : Nat) (g : Die → Die) : (s.modDie d g).shadow = s.shadow := rfl

/-! ### Changing a rail -/

@[simp] theorem State.modRail_now (s : State) (r : Nat) (g : Rail → Rail) : (s.modRail r g).now = s.now := rfl

@[simp] theorem State.modRail_fresh (s : State) (r : Nat) (g : Rail → Rail) : (s.modRail r g).fresh = s.fresh := rfl

@[simp] theorem State.modRail_nextId (s : State) (r : Nat) (g : Rail → Rail) : (s.modRail r g).nextId = s.nextId := rfl

@[simp] theorem State.modRail_cur (s : State) (r : Nat) (g : Rail → Rail) : (s.modRail r g).cur = s.cur := rfl

@[simp] theorem State.modRail_turns (s : State) (r : Nat) (g : Rail → Rail) : (s.modRail r g).turns = s.turns := rfl

@[simp] theorem State.modRail_mem (s : State) (r : Nat) (g : Rail → Rail) : (s.modRail r g).mem = s.mem := rfl

@[simp] theorem State.modRail_proxies (s : State) (r : Nat) (g : Rail → Rail) : (s.modRail r g).proxies = s.proxies := rfl

@[simp] theorem State.modRail_late (s : State) (r : Nat) (g : Rail → Rail) : (s.modRail r g).late = s.late := rfl

@[simp] theorem State.modRail_peers (s : State) (r : Nat) (g : Rail → Rail) : (s.modRail r g).peers = s.peers := rfl

@[simp] theorem State.modRail_peerRead (s : State) (r : Nat) (g : Rail → Rail) : (s.modRail r g).peerRead = s.peerRead := rfl

@[simp] theorem State.modRail_homes (s : State) (r : Nat) (g : Rail → Rail) : (s.modRail r g).homes = s.homes := rfl

@[simp] theorem State.modRail_hostBad (s : State) (r : Nat) (g : Rail → Rail) : (s.modRail r g).hostBad = s.hostBad := rfl

@[simp] theorem State.modRail_cores (s : State) (r : Nat) (g : Rail → Rail) : (s.modRail r g).cores = s.cores := rfl

@[simp] theorem State.modRail_dies (s : State) (r : Nat) (g : Rail → Rail) : (s.modRail r g).dies = s.dies := rfl

@[simp] theorem State.modRail_clusters (s : State) (r : Nat) (g : Rail → Rail) : (s.modRail r g).clusters = s.clusters := rfl

@[simp] theorem State.modRail_parts (s : State) (r : Nat) (g : Rail → Rail) : (s.modRail r g).parts = s.parts := rfl

@[simp] theorem State.modRail_threads (s : State) (r : Nat) (g : Rail → Rail) : (s.modRail r g).threads = s.threads := rfl

@[simp] theorem State.modRail_packets (s : State) (r : Nat) (g : Rail → Rail) : (s.modRail r g).packets = s.packets := rfl

@[simp] theorem State.modRail_ports (s : State) (r : Nat) (g : Rail → Rail) : (s.modRail r g).ports = s.ports := rfl

@[simp] theorem State.modRail_fabDead (s : State) (r : Nat) (g : Rail → Rail) : (s.modRail r g).fabDead = s.fabDead := rfl

@[simp] theorem State.modRail_lanes (s : State) (r : Nat) (g : Rail → Rail) : (s.modRail r g).lanes = s.lanes := rfl

@[simp] theorem State.modRail_dev (s : State) (r : Nat) (g : Rail → Rail) : (s.modRail r g).dev = s.dev := rfl

@[simp] theorem State.modRail_flash (s : State) (r : Nat) (g : Rail → Rail) : (s.modRail r g).flash = s.flash := rfl

@[simp] theorem State.modRail_shadow (s : State) (r : Nat) (g : Rail → Rail) : (s.modRail r g).shadow = s.shadow := rfl

/-! ### Changing a cluster -/

@[simp] theorem State.modCluster_now (s : State) (c : Nat) (g : Cluster → Cluster) : (s.modCluster c g).now = s.now := rfl

@[simp] theorem State.modCluster_fresh (s : State) (c : Nat) (g : Cluster → Cluster) : (s.modCluster c g).fresh = s.fresh := rfl

@[simp] theorem State.modCluster_nextId (s : State) (c : Nat) (g : Cluster → Cluster) : (s.modCluster c g).nextId = s.nextId := rfl

@[simp] theorem State.modCluster_cur (s : State) (c : Nat) (g : Cluster → Cluster) : (s.modCluster c g).cur = s.cur := rfl

@[simp] theorem State.modCluster_turns (s : State) (c : Nat) (g : Cluster → Cluster) : (s.modCluster c g).turns = s.turns := rfl

@[simp] theorem State.modCluster_mem (s : State) (c : Nat) (g : Cluster → Cluster) : (s.modCluster c g).mem = s.mem := rfl

@[simp] theorem State.modCluster_proxies (s : State) (c : Nat) (g : Cluster → Cluster) : (s.modCluster c g).proxies = s.proxies := rfl

@[simp] theorem State.modCluster_late (s : State) (c : Nat) (g : Cluster → Cluster) : (s.modCluster c g).late = s.late := rfl

@[simp] theorem State.modCluster_peers (s : State) (c : Nat) (g : Cluster → Cluster) : (s.modCluster c g).peers = s.peers := rfl

@[simp] theorem State.modCluster_peerRead (s : State) (c : Nat) (g : Cluster → Cluster) : (s.modCluster c g).peerRead = s.peerRead := rfl

@[simp] theorem State.modCluster_homes (s : State) (c : Nat) (g : Cluster → Cluster) : (s.modCluster c g).homes = s.homes := rfl

@[simp] theorem State.modCluster_hostBad (s : State) (c : Nat) (g : Cluster → Cluster) : (s.modCluster c g).hostBad = s.hostBad := rfl

@[simp] theorem State.modCluster_cores (s : State) (c : Nat) (g : Cluster → Cluster) : (s.modCluster c g).cores = s.cores := rfl

@[simp] theorem State.modCluster_dies (s : State) (c : Nat) (g : Cluster → Cluster) : (s.modCluster c g).dies = s.dies := rfl

@[simp] theorem State.modCluster_rails (s : State) (c : Nat) (g : Cluster → Cluster) : (s.modCluster c g).rails = s.rails := rfl

@[simp] theorem State.modCluster_parts (s : State) (c : Nat) (g : Cluster → Cluster) : (s.modCluster c g).parts = s.parts := rfl

@[simp] theorem State.modCluster_threads (s : State) (c : Nat) (g : Cluster → Cluster) : (s.modCluster c g).threads = s.threads := rfl

@[simp] theorem State.modCluster_packets (s : State) (c : Nat) (g : Cluster → Cluster) : (s.modCluster c g).packets = s.packets := rfl

@[simp] theorem State.modCluster_ports (s : State) (c : Nat) (g : Cluster → Cluster) : (s.modCluster c g).ports = s.ports := rfl

@[simp] theorem State.modCluster_fabDead (s : State) (c : Nat) (g : Cluster → Cluster) : (s.modCluster c g).fabDead = s.fabDead := rfl

@[simp] theorem State.modCluster_lanes (s : State) (c : Nat) (g : Cluster → Cluster) : (s.modCluster c g).lanes = s.lanes := rfl

@[simp] theorem State.modCluster_dev (s : State) (c : Nat) (g : Cluster → Cluster) : (s.modCluster c g).dev = s.dev := rfl

@[simp] theorem State.modCluster_flash (s : State) (c : Nat) (g : Cluster → Cluster) : (s.modCluster c g).flash = s.flash := rfl

@[simp] theorem State.modCluster_shadow (s : State) (c : Nat) (g : Cluster → Cluster) : (s.modCluster c g).shadow = s.shadow := rfl

/-! ### Setting every CAD -/

@[simp] theorem State.setCads_now (s : State) : (s.setCads).now = s.now := rfl

@[simp] theorem State.setCads_fresh (s : State) : (s.setCads).fresh = s.fresh := rfl

@[simp] theorem State.setCads_nextId (s : State) : (s.setCads).nextId = s.nextId := rfl

@[simp] theorem State.setCads_cur (s : State) : (s.setCads).cur = s.cur := rfl

@[simp] theorem State.setCads_turns (s : State) : (s.setCads).turns = s.turns := rfl

@[simp] theorem State.setCads_mem (s : State) : (s.setCads).mem = s.mem := rfl

@[simp] theorem State.setCads_proxies (s : State) : (s.setCads).proxies = s.proxies := rfl

@[simp] theorem State.setCads_late (s : State) : (s.setCads).late = s.late := rfl

@[simp] theorem State.setCads_peers (s : State) : (s.setCads).peers = s.peers := rfl

@[simp] theorem State.setCads_peerRead (s : State) : (s.setCads).peerRead = s.peerRead := rfl

@[simp] theorem State.setCads_homes (s : State) : (s.setCads).homes = s.homes := rfl

@[simp] theorem State.setCads_hostBad (s : State) : (s.setCads).hostBad = s.hostBad := rfl

@[simp] theorem State.setCads_dies (s : State) : (s.setCads).dies = s.dies := rfl

@[simp] theorem State.setCads_clusters (s : State) : (s.setCads).clusters = s.clusters := rfl

@[simp] theorem State.setCads_rails (s : State) : (s.setCads).rails = s.rails := rfl

@[simp] theorem State.setCads_parts (s : State) : (s.setCads).parts = s.parts := rfl

@[simp] theorem State.setCads_threads (s : State) : (s.setCads).threads = s.threads := rfl

@[simp] theorem State.setCads_packets (s : State) : (s.setCads).packets = s.packets := rfl

@[simp] theorem State.setCads_ports (s : State) : (s.setCads).ports = s.ports := rfl

@[simp] theorem State.setCads_fabDead (s : State) : (s.setCads).fabDead = s.fabDead := rfl

@[simp] theorem State.setCads_lanes (s : State) : (s.setCads).lanes = s.lanes := rfl

@[simp] theorem State.setCads_dev (s : State) : (s.setCads).dev = s.dev := rfl

@[simp] theorem State.setCads_flash (s : State) : (s.setCads).flash = s.flash := rfl

@[simp] theorem State.setCads_shadow (s : State) : (s.setCads).shadow = s.shadow := rfl

/-! ### Taking an identity -/

@[simp] theorem State.newId_now (s : State) : (s.newId.1).now = s.now := rfl

@[simp] theorem State.newId_fresh (s : State) : (s.newId.1).fresh = s.fresh := rfl

@[simp] theorem State.newId_cur (s : State) : (s.newId.1).cur = s.cur := rfl

@[simp] theorem State.newId_turns (s : State) : (s.newId.1).turns = s.turns := rfl

@[simp] theorem State.newId_mem (s : State) : (s.newId.1).mem = s.mem := rfl

@[simp] theorem State.newId_proxies (s : State) : (s.newId.1).proxies = s.proxies := rfl

@[simp] theorem State.newId_late (s : State) : (s.newId.1).late = s.late := rfl

@[simp] theorem State.newId_peers (s : State) : (s.newId.1).peers = s.peers := rfl

@[simp] theorem State.newId_peerRead (s : State) : (s.newId.1).peerRead = s.peerRead := rfl

@[simp] theorem State.newId_homes (s : State) : (s.newId.1).homes = s.homes := rfl

@[simp] theorem State.newId_hostBad (s : State) : (s.newId.1).hostBad = s.hostBad := rfl

@[simp] theorem State.newId_cores (s : State) : (s.newId.1).cores = s.cores := rfl

@[simp] theorem State.newId_dies (s : State) : (s.newId.1).dies = s.dies := rfl

@[simp] theorem State.newId_clusters (s : State) : (s.newId.1).clusters = s.clusters := rfl

@[simp] theorem State.newId_rails (s : State) : (s.newId.1).rails = s.rails := rfl

@[simp] theorem State.newId_parts (s : State) : (s.newId.1).parts = s.parts := rfl

@[simp] theorem State.newId_threads (s : State) : (s.newId.1).threads = s.threads := rfl

@[simp] theorem State.newId_packets (s : State) : (s.newId.1).packets = s.packets := rfl

@[simp] theorem State.newId_ports (s : State) : (s.newId.1).ports = s.ports := rfl

@[simp] theorem State.newId_fabDead (s : State) : (s.newId.1).fabDead = s.fabDead := rfl

@[simp] theorem State.newId_lanes (s : State) : (s.newId.1).lanes = s.lanes := rfl

@[simp] theorem State.newId_dev (s : State) : (s.newId.1).dev = s.dev := rfl

@[simp] theorem State.newId_flash (s : State) : (s.newId.1).flash = s.flash := rfl

@[simp] theorem State.newId_shadow (s : State) : (s.newId.1).shadow = s.shadow := rfl

/-! ### Advancing the issuing stream -/

@[simp] theorem State.advance_now (s : State) (k : Issue) : (s.advance k).now = s.now := rfl

@[simp] theorem State.advance_fresh (s : State) (k : Issue) : (s.advance k).fresh = s.fresh := rfl

@[simp] theorem State.advance_nextId (s : State) (k : Issue) : (s.advance k).nextId = s.nextId := rfl

@[simp] theorem State.advance_cur (s : State) (k : Issue) : (s.advance k).cur = s.cur := rfl

@[simp] theorem State.advance_turns (s : State) (k : Issue) : (s.advance k).turns = s.turns := rfl

@[simp] theorem State.advance_mem (s : State) (k : Issue) : (s.advance k).mem = s.mem := rfl

@[simp] theorem State.advance_proxies (s : State) (k : Issue) : (s.advance k).proxies = s.proxies := rfl

@[simp] theorem State.advance_late (s : State) (k : Issue) : (s.advance k).late = s.late := rfl

@[simp] theorem State.advance_peers (s : State) (k : Issue) : (s.advance k).peers = s.peers := rfl

@[simp] theorem State.advance_peerRead (s : State) (k : Issue) : (s.advance k).peerRead = s.peerRead := rfl

@[simp] theorem State.advance_homes (s : State) (k : Issue) : (s.advance k).homes = s.homes := rfl

@[simp] theorem State.advance_hostBad (s : State) (k : Issue) : (s.advance k).hostBad = s.hostBad := rfl

@[simp] theorem State.advance_cores (s : State) (k : Issue) : (s.advance k).cores = s.cores := rfl

@[simp] theorem State.advance_dies (s : State) (k : Issue) : (s.advance k).dies = s.dies := rfl

@[simp] theorem State.advance_clusters (s : State) (k : Issue) : (s.advance k).clusters = s.clusters := rfl

@[simp] theorem State.advance_rails (s : State) (k : Issue) : (s.advance k).rails = s.rails := rfl

@[simp] theorem State.advance_parts (s : State) (k : Issue) : (s.advance k).parts = s.parts := rfl

@[simp] theorem State.advance_packets (s : State) (k : Issue) : (s.advance k).packets = s.packets := rfl

@[simp] theorem State.advance_ports (s : State) (k : Issue) : (s.advance k).ports = s.ports := rfl

@[simp] theorem State.advance_fabDead (s : State) (k : Issue) : (s.advance k).fabDead = s.fabDead := rfl

@[simp] theorem State.advance_lanes (s : State) (k : Issue) : (s.advance k).lanes = s.lanes := rfl

@[simp] theorem State.advance_dev (s : State) (k : Issue) : (s.advance k).dev = s.dev := rfl

@[simp] theorem State.advance_flash (s : State) (k : Issue) : (s.advance k).flash = s.flash := rfl

@[simp] theorem State.advance_shadow (s : State) (k : Issue) : (s.advance k).shadow = s.shadow := rfl

/-! ### Waiting at the head -/

@[simp] theorem State.waitAt_now (s : State) (k : Issue) (w : WaitFor) : (s.waitAt k w).now = s.now := rfl

@[simp] theorem State.waitAt_fresh (s : State) (k : Issue) (w : WaitFor) : (s.waitAt k w).fresh = s.fresh := rfl

@[simp] theorem State.waitAt_nextId (s : State) (k : Issue) (w : WaitFor) : (s.waitAt k w).nextId = s.nextId := rfl

@[simp] theorem State.waitAt_cur (s : State) (k : Issue) (w : WaitFor) : (s.waitAt k w).cur = s.cur := rfl

@[simp] theorem State.waitAt_turns (s : State) (k : Issue) (w : WaitFor) : (s.waitAt k w).turns = s.turns := rfl

@[simp] theorem State.waitAt_mem (s : State) (k : Issue) (w : WaitFor) : (s.waitAt k w).mem = s.mem := rfl

@[simp] theorem State.waitAt_proxies (s : State) (k : Issue) (w : WaitFor) : (s.waitAt k w).proxies = s.proxies := rfl

@[simp] theorem State.waitAt_late (s : State) (k : Issue) (w : WaitFor) : (s.waitAt k w).late = s.late := rfl

@[simp] theorem State.waitAt_peers (s : State) (k : Issue) (w : WaitFor) : (s.waitAt k w).peers = s.peers := rfl

@[simp] theorem State.waitAt_peerRead (s : State) (k : Issue) (w : WaitFor) : (s.waitAt k w).peerRead = s.peerRead := rfl

@[simp] theorem State.waitAt_homes (s : State) (k : Issue) (w : WaitFor) : (s.waitAt k w).homes = s.homes := rfl

@[simp] theorem State.waitAt_hostBad (s : State) (k : Issue) (w : WaitFor) : (s.waitAt k w).hostBad = s.hostBad := rfl

@[simp] theorem State.waitAt_cores (s : State) (k : Issue) (w : WaitFor) : (s.waitAt k w).cores = s.cores := rfl

@[simp] theorem State.waitAt_dies (s : State) (k : Issue) (w : WaitFor) : (s.waitAt k w).dies = s.dies := rfl

@[simp] theorem State.waitAt_clusters (s : State) (k : Issue) (w : WaitFor) : (s.waitAt k w).clusters = s.clusters := rfl

@[simp] theorem State.waitAt_rails (s : State) (k : Issue) (w : WaitFor) : (s.waitAt k w).rails = s.rails := rfl

@[simp] theorem State.waitAt_parts (s : State) (k : Issue) (w : WaitFor) : (s.waitAt k w).parts = s.parts := rfl

@[simp] theorem State.waitAt_packets (s : State) (k : Issue) (w : WaitFor) : (s.waitAt k w).packets = s.packets := rfl

@[simp] theorem State.waitAt_ports (s : State) (k : Issue) (w : WaitFor) : (s.waitAt k w).ports = s.ports := rfl

@[simp] theorem State.waitAt_fabDead (s : State) (k : Issue) (w : WaitFor) : (s.waitAt k w).fabDead = s.fabDead := rfl

@[simp] theorem State.waitAt_lanes (s : State) (k : Issue) (w : WaitFor) : (s.waitAt k w).lanes = s.lanes := rfl

@[simp] theorem State.waitAt_dev (s : State) (k : Issue) (w : WaitFor) : (s.waitAt k w).dev = s.dev := rfl

@[simp] theorem State.waitAt_flash (s : State) (k : Issue) (w : WaitFor) : (s.waitAt k w).flash = s.flash := rfl

@[simp] theorem State.waitAt_shadow (s : State) (k : Issue) (w : WaitFor) : (s.waitAt k w).shadow = s.shadow := rfl

/-! ### Taking a trap -/

@[simp] theorem State.takeTrap_now (s : State) (tid : Nat) (r : FaultRec) : (s.takeTrap tid r).now = s.now := rfl

@[simp] theorem State.takeTrap_fresh (s : State) (tid : Nat) (r : FaultRec) : (s.takeTrap tid r).fresh = s.fresh := rfl

@[simp] theorem State.takeTrap_nextId (s : State) (tid : Nat) (r : FaultRec) : (s.takeTrap tid r).nextId = s.nextId := rfl

@[simp] theorem State.takeTrap_cur (s : State) (tid : Nat) (r : FaultRec) : (s.takeTrap tid r).cur = s.cur := rfl

@[simp] theorem State.takeTrap_turns (s : State) (tid : Nat) (r : FaultRec) : (s.takeTrap tid r).turns = s.turns := rfl

@[simp] theorem State.takeTrap_mem (s : State) (tid : Nat) (r : FaultRec) : (s.takeTrap tid r).mem = s.mem := rfl

@[simp] theorem State.takeTrap_proxies (s : State) (tid : Nat) (r : FaultRec) : (s.takeTrap tid r).proxies = s.proxies := rfl

@[simp] theorem State.takeTrap_late (s : State) (tid : Nat) (r : FaultRec) : (s.takeTrap tid r).late = s.late := rfl

@[simp] theorem State.takeTrap_peers (s : State) (tid : Nat) (r : FaultRec) : (s.takeTrap tid r).peers = s.peers := rfl

@[simp] theorem State.takeTrap_peerRead (s : State) (tid : Nat) (r : FaultRec) : (s.takeTrap tid r).peerRead = s.peerRead := rfl

@[simp] theorem State.takeTrap_homes (s : State) (tid : Nat) (r : FaultRec) : (s.takeTrap tid r).homes = s.homes := rfl

@[simp] theorem State.takeTrap_hostBad (s : State) (tid : Nat) (r : FaultRec) : (s.takeTrap tid r).hostBad = s.hostBad := rfl

@[simp] theorem State.takeTrap_cores (s : State) (tid : Nat) (r : FaultRec) : (s.takeTrap tid r).cores = s.cores := rfl

@[simp] theorem State.takeTrap_dies (s : State) (tid : Nat) (r : FaultRec) : (s.takeTrap tid r).dies = s.dies := rfl

@[simp] theorem State.takeTrap_clusters (s : State) (tid : Nat) (r : FaultRec) : (s.takeTrap tid r).clusters = s.clusters := rfl

@[simp] theorem State.takeTrap_rails (s : State) (tid : Nat) (r : FaultRec) : (s.takeTrap tid r).rails = s.rails := rfl

@[simp] theorem State.takeTrap_parts (s : State) (tid : Nat) (r : FaultRec) : (s.takeTrap tid r).parts = s.parts := rfl

@[simp] theorem State.takeTrap_packets (s : State) (tid : Nat) (r : FaultRec) : (s.takeTrap tid r).packets = s.packets := rfl

@[simp] theorem State.takeTrap_ports (s : State) (tid : Nat) (r : FaultRec) : (s.takeTrap tid r).ports = s.ports := rfl

@[simp] theorem State.takeTrap_fabDead (s : State) (tid : Nat) (r : FaultRec) : (s.takeTrap tid r).fabDead = s.fabDead := rfl

@[simp] theorem State.takeTrap_lanes (s : State) (tid : Nat) (r : FaultRec) : (s.takeTrap tid r).lanes = s.lanes := rfl

@[simp] theorem State.takeTrap_dev (s : State) (tid : Nat) (r : FaultRec) : (s.takeTrap tid r).dev = s.dev := rfl

@[simp] theorem State.takeTrap_flash (s : State) (tid : Nat) (r : FaultRec) : (s.takeTrap tid r).flash = s.flash := rfl

@[simp] theorem State.takeTrap_shadow (s : State) (tid : Nat) (r : FaultRec) : (s.takeTrap tid r).shadow = s.shadow := rfl

/-! ### Adding a trigger -/

@[simp] theorem State.trigger_now (s : State) (p : Nat) (t : Trigger) : (s.trigger p t).now = s.now := rfl

@[simp] theorem State.trigger_fresh (s : State) (p : Nat) (t : Trigger) : (s.trigger p t).fresh = s.fresh := rfl

@[simp] theorem State.trigger_nextId (s : State) (p : Nat) (t : Trigger) : (s.trigger p t).nextId = s.nextId := rfl

@[simp] theorem State.trigger_cur (s : State) (p : Nat) (t : Trigger) : (s.trigger p t).cur = s.cur := rfl

@[simp] theorem State.trigger_turns (s : State) (p : Nat) (t : Trigger) : (s.trigger p t).turns = s.turns := rfl

@[simp] theorem State.trigger_mem (s : State) (p : Nat) (t : Trigger) : (s.trigger p t).mem = s.mem := rfl

@[simp] theorem State.trigger_proxies (s : State) (p : Nat) (t : Trigger) : (s.trigger p t).proxies = s.proxies := rfl

@[simp] theorem State.trigger_late (s : State) (p : Nat) (t : Trigger) : (s.trigger p t).late = s.late := rfl

@[simp] theorem State.trigger_peers (s : State) (p : Nat) (t : Trigger) : (s.trigger p t).peers = s.peers := rfl

@[simp] theorem State.trigger_peerRead (s : State) (p : Nat) (t : Trigger) : (s.trigger p t).peerRead = s.peerRead := rfl

@[simp] theorem State.trigger_homes (s : State) (p : Nat) (t : Trigger) : (s.trigger p t).homes = s.homes := rfl

@[simp] theorem State.trigger_hostBad (s : State) (p : Nat) (t : Trigger) : (s.trigger p t).hostBad = s.hostBad := rfl

@[simp] theorem State.trigger_cores (s : State) (p : Nat) (t : Trigger) : (s.trigger p t).cores = s.cores := rfl

@[simp] theorem State.trigger_dies (s : State) (p : Nat) (t : Trigger) : (s.trigger p t).dies = s.dies := rfl

@[simp] theorem State.trigger_clusters (s : State) (p : Nat) (t : Trigger) : (s.trigger p t).clusters = s.clusters := rfl

@[simp] theorem State.trigger_rails (s : State) (p : Nat) (t : Trigger) : (s.trigger p t).rails = s.rails := rfl

@[simp] theorem State.trigger_threads (s : State) (p : Nat) (t : Trigger) : (s.trigger p t).threads = s.threads := rfl

@[simp] theorem State.trigger_packets (s : State) (p : Nat) (t : Trigger) : (s.trigger p t).packets = s.packets := rfl

@[simp] theorem State.trigger_ports (s : State) (p : Nat) (t : Trigger) : (s.trigger p t).ports = s.ports := rfl

@[simp] theorem State.trigger_fabDead (s : State) (p : Nat) (t : Trigger) : (s.trigger p t).fabDead = s.fabDead := rfl

@[simp] theorem State.trigger_lanes (s : State) (p : Nat) (t : Trigger) : (s.trigger p t).lanes = s.lanes := rfl

@[simp] theorem State.trigger_dev (s : State) (p : Nat) (t : Trigger) : (s.trigger p t).dev = s.dev := rfl

@[simp] theorem State.trigger_flash (s : State) (p : Nat) (t : Trigger) : (s.trigger p t).flash = s.flash := rfl

@[simp] theorem State.trigger_shadow (s : State) (p : Nat) (t : Trigger) : (s.trigger p t).shadow = s.shadow := rfl

/-! ### Adding a trigger that concerns a thread -/

@[simp] theorem State.triggerFor_now (s : State) (th : Thread) (h : Hook) (c : Nat) : (s.triggerFor th h c).now = s.now := rfl

@[simp] theorem State.triggerFor_fresh (s : State) (th : Thread) (h : Hook) (c : Nat) : (s.triggerFor th h c).fresh = s.fresh := rfl

@[simp] theorem State.triggerFor_nextId (s : State) (th : Thread) (h : Hook) (c : Nat) : (s.triggerFor th h c).nextId = s.nextId := rfl

@[simp] theorem State.triggerFor_cur (s : State) (th : Thread) (h : Hook) (c : Nat) : (s.triggerFor th h c).cur = s.cur := rfl

@[simp] theorem State.triggerFor_turns (s : State) (th : Thread) (h : Hook) (c : Nat) : (s.triggerFor th h c).turns = s.turns := rfl

@[simp] theorem State.triggerFor_mem (s : State) (th : Thread) (h : Hook) (c : Nat) : (s.triggerFor th h c).mem = s.mem := rfl

@[simp] theorem State.triggerFor_proxies (s : State) (th : Thread) (h : Hook) (c : Nat) : (s.triggerFor th h c).proxies = s.proxies := rfl

@[simp] theorem State.triggerFor_late (s : State) (th : Thread) (h : Hook) (c : Nat) : (s.triggerFor th h c).late = s.late := rfl

@[simp] theorem State.triggerFor_peers (s : State) (th : Thread) (h : Hook) (c : Nat) : (s.triggerFor th h c).peers = s.peers := rfl

@[simp] theorem State.triggerFor_peerRead (s : State) (th : Thread) (h : Hook) (c : Nat) : (s.triggerFor th h c).peerRead = s.peerRead := rfl

@[simp] theorem State.triggerFor_homes (s : State) (th : Thread) (h : Hook) (c : Nat) : (s.triggerFor th h c).homes = s.homes := rfl

@[simp] theorem State.triggerFor_hostBad (s : State) (th : Thread) (h : Hook) (c : Nat) : (s.triggerFor th h c).hostBad = s.hostBad := rfl

@[simp] theorem State.triggerFor_cores (s : State) (th : Thread) (h : Hook) (c : Nat) : (s.triggerFor th h c).cores = s.cores := rfl

@[simp] theorem State.triggerFor_dies (s : State) (th : Thread) (h : Hook) (c : Nat) : (s.triggerFor th h c).dies = s.dies := rfl

@[simp] theorem State.triggerFor_clusters (s : State) (th : Thread) (h : Hook) (c : Nat) : (s.triggerFor th h c).clusters = s.clusters := rfl

@[simp] theorem State.triggerFor_rails (s : State) (th : Thread) (h : Hook) (c : Nat) : (s.triggerFor th h c).rails = s.rails := rfl

@[simp] theorem State.triggerFor_threads (s : State) (th : Thread) (h : Hook) (c : Nat) : (s.triggerFor th h c).threads = s.threads := rfl

@[simp] theorem State.triggerFor_packets (s : State) (th : Thread) (h : Hook) (c : Nat) : (s.triggerFor th h c).packets = s.packets := rfl

@[simp] theorem State.triggerFor_ports (s : State) (th : Thread) (h : Hook) (c : Nat) : (s.triggerFor th h c).ports = s.ports := rfl

@[simp] theorem State.triggerFor_fabDead (s : State) (th : Thread) (h : Hook) (c : Nat) : (s.triggerFor th h c).fabDead = s.fabDead := rfl

@[simp] theorem State.triggerFor_lanes (s : State) (th : Thread) (h : Hook) (c : Nat) : (s.triggerFor th h c).lanes = s.lanes := rfl

@[simp] theorem State.triggerFor_dev (s : State) (th : Thread) (h : Hook) (c : Nat) : (s.triggerFor th h c).dev = s.dev := rfl

@[simp] theorem State.triggerFor_flash (s : State) (th : Thread) (h : Hook) (c : Nat) : (s.triggerFor th h c).flash = s.flash := rfl

@[simp] theorem State.triggerFor_shadow (s : State) (th : Thread) (h : Hook) (c : Nat) : (s.triggerFor th h c).shadow = s.shadow := rfl

/-! ### Raising an interrupt cause -/

@[simp] theorem State.raise_now (s : State) (p c : Nat) : (s.raise p c).now = s.now := rfl

@[simp] theorem State.raise_fresh (s : State) (p c : Nat) : (s.raise p c).fresh = s.fresh := rfl

@[simp] theorem State.raise_nextId (s : State) (p c : Nat) : (s.raise p c).nextId = s.nextId := rfl

@[simp] theorem State.raise_cur (s : State) (p c : Nat) : (s.raise p c).cur = s.cur := rfl

@[simp] theorem State.raise_turns (s : State) (p c : Nat) : (s.raise p c).turns = s.turns := rfl

@[simp] theorem State.raise_mem (s : State) (p c : Nat) : (s.raise p c).mem = s.mem := rfl

@[simp] theorem State.raise_proxies (s : State) (p c : Nat) : (s.raise p c).proxies = s.proxies := rfl

@[simp] theorem State.raise_late (s : State) (p c : Nat) : (s.raise p c).late = s.late := rfl

@[simp] theorem State.raise_peers (s : State) (p c : Nat) : (s.raise p c).peers = s.peers := rfl

@[simp] theorem State.raise_peerRead (s : State) (p c : Nat) : (s.raise p c).peerRead = s.peerRead := rfl

@[simp] theorem State.raise_homes (s : State) (p c : Nat) : (s.raise p c).homes = s.homes := rfl

@[simp] theorem State.raise_hostBad (s : State) (p c : Nat) : (s.raise p c).hostBad = s.hostBad := rfl

@[simp] theorem State.raise_cores (s : State) (p c : Nat) : (s.raise p c).cores = s.cores := rfl

@[simp] theorem State.raise_dies (s : State) (p c : Nat) : (s.raise p c).dies = s.dies := rfl

@[simp] theorem State.raise_clusters (s : State) (p c : Nat) : (s.raise p c).clusters = s.clusters := rfl

@[simp] theorem State.raise_rails (s : State) (p c : Nat) : (s.raise p c).rails = s.rails := rfl

@[simp] theorem State.raise_threads (s : State) (p c : Nat) : (s.raise p c).threads = s.threads := rfl

@[simp] theorem State.raise_packets (s : State) (p c : Nat) : (s.raise p c).packets = s.packets := rfl

@[simp] theorem State.raise_ports (s : State) (p c : Nat) : (s.raise p c).ports = s.ports := rfl

@[simp] theorem State.raise_fabDead (s : State) (p c : Nat) : (s.raise p c).fabDead = s.fabDead := rfl

@[simp] theorem State.raise_lanes (s : State) (p c : Nat) : (s.raise p c).lanes = s.lanes := rfl

@[simp] theorem State.raise_flash (s : State) (p c : Nat) : (s.raise p c).flash = s.flash := rfl

@[simp] theorem State.raise_shadow (s : State) (p c : Nat) : (s.raise p c).shadow = s.shadow := rfl

/-! ### Raising a cause of the device -/

@[simp] theorem State.raiseDev_now (s : State) (c : Nat) : (s.raiseDev c).now = s.now := rfl

@[simp] theorem State.raiseDev_fresh (s : State) (c : Nat) : (s.raiseDev c).fresh = s.fresh := rfl

@[simp] theorem State.raiseDev_nextId (s : State) (c : Nat) : (s.raiseDev c).nextId = s.nextId := rfl

@[simp] theorem State.raiseDev_cur (s : State) (c : Nat) : (s.raiseDev c).cur = s.cur := rfl

@[simp] theorem State.raiseDev_turns (s : State) (c : Nat) : (s.raiseDev c).turns = s.turns := rfl

@[simp] theorem State.raiseDev_mem (s : State) (c : Nat) : (s.raiseDev c).mem = s.mem := rfl

@[simp] theorem State.raiseDev_proxies (s : State) (c : Nat) : (s.raiseDev c).proxies = s.proxies := rfl

@[simp] theorem State.raiseDev_late (s : State) (c : Nat) : (s.raiseDev c).late = s.late := rfl

@[simp] theorem State.raiseDev_peers (s : State) (c : Nat) : (s.raiseDev c).peers = s.peers := rfl

@[simp] theorem State.raiseDev_peerRead (s : State) (c : Nat) : (s.raiseDev c).peerRead = s.peerRead := rfl

@[simp] theorem State.raiseDev_homes (s : State) (c : Nat) : (s.raiseDev c).homes = s.homes := rfl

@[simp] theorem State.raiseDev_hostBad (s : State) (c : Nat) : (s.raiseDev c).hostBad = s.hostBad := rfl

@[simp] theorem State.raiseDev_cores (s : State) (c : Nat) : (s.raiseDev c).cores = s.cores := rfl

@[simp] theorem State.raiseDev_dies (s : State) (c : Nat) : (s.raiseDev c).dies = s.dies := rfl

@[simp] theorem State.raiseDev_clusters (s : State) (c : Nat) : (s.raiseDev c).clusters = s.clusters := rfl

@[simp] theorem State.raiseDev_rails (s : State) (c : Nat) : (s.raiseDev c).rails = s.rails := rfl

@[simp] theorem State.raiseDev_parts (s : State) (c : Nat) : (s.raiseDev c).parts = s.parts := rfl

@[simp] theorem State.raiseDev_threads (s : State) (c : Nat) : (s.raiseDev c).threads = s.threads := rfl

@[simp] theorem State.raiseDev_packets (s : State) (c : Nat) : (s.raiseDev c).packets = s.packets := rfl

@[simp] theorem State.raiseDev_ports (s : State) (c : Nat) : (s.raiseDev c).ports = s.ports := rfl

@[simp] theorem State.raiseDev_fabDead (s : State) (c : Nat) : (s.raiseDev c).fabDead = s.fabDead := rfl

@[simp] theorem State.raiseDev_lanes (s : State) (c : Nat) : (s.raiseDev c).lanes = s.lanes := rfl

@[simp] theorem State.raiseDev_flash (s : State) (c : Nat) : (s.raiseDev c).flash = s.flash := rfl

@[simp] theorem State.raiseDev_shadow (s : State) (c : Nat) : (s.raiseDev c).shadow = s.shadow := rfl

/-! ### Counting a lasting event -/

@[simp] theorem State.countLasting_now (s : State) : (s.countLasting).now = s.now := rfl

@[simp] theorem State.countLasting_fresh (s : State) : (s.countLasting).fresh = s.fresh := rfl

@[simp] theorem State.countLasting_nextId (s : State) : (s.countLasting).nextId = s.nextId := rfl

@[simp] theorem State.countLasting_cur (s : State) : (s.countLasting).cur = s.cur := rfl

@[simp] theorem State.countLasting_turns (s : State) : (s.countLasting).turns = s.turns := rfl

@[simp] theorem State.countLasting_mem (s : State) : (s.countLasting).mem = s.mem := rfl

@[simp] theorem State.countLasting_proxies (s : State) : (s.countLasting).proxies = s.proxies := rfl

@[simp] theorem State.countLasting_late (s : State) : (s.countLasting).late = s.late := rfl

@[simp] theorem State.countLasting_peers (s : State) : (s.countLasting).peers = s.peers := rfl

@[simp] theorem State.countLasting_peerRead (s : State) : (s.countLasting).peerRead = s.peerRead := rfl

@[simp] theorem State.countLasting_homes (s : State) : (s.countLasting).homes = s.homes := rfl

@[simp] theorem State.countLasting_hostBad (s : State) : (s.countLasting).hostBad = s.hostBad := rfl

@[simp] theorem State.countLasting_cores (s : State) : (s.countLasting).cores = s.cores := rfl

@[simp] theorem State.countLasting_dies (s : State) : (s.countLasting).dies = s.dies := rfl

@[simp] theorem State.countLasting_clusters (s : State) : (s.countLasting).clusters = s.clusters := rfl

@[simp] theorem State.countLasting_rails (s : State) : (s.countLasting).rails = s.rails := rfl

@[simp] theorem State.countLasting_parts (s : State) : (s.countLasting).parts = s.parts := rfl

@[simp] theorem State.countLasting_threads (s : State) : (s.countLasting).threads = s.threads := rfl

@[simp] theorem State.countLasting_packets (s : State) : (s.countLasting).packets = s.packets := rfl

@[simp] theorem State.countLasting_ports (s : State) : (s.countLasting).ports = s.ports := rfl

@[simp] theorem State.countLasting_fabDead (s : State) : (s.countLasting).fabDead = s.fabDead := rfl

@[simp] theorem State.countLasting_lanes (s : State) : (s.countLasting).lanes = s.lanes := rfl

@[simp] theorem State.countLasting_flash (s : State) : (s.countLasting).flash = s.flash := rfl

@[simp] theorem State.countLasting_shadow (s : State) : (s.countLasting).shadow = s.shadow := rfl

/-! ### Changing a stream of a thread -/

@[simp] theorem Thread.modStrm_tid (th : Thread) (sid : StreamId) (g : Strm → Strm) : (th.modStrm sid g).tid = th.tid := by cases sid <;> rfl

@[simp] theorem Thread.modStrm_life (th : Thread) (sid : StreamId) (g : Strm → Strm) : (th.modStrm sid g).life = th.life := by cases sid <;> rfl

@[simp] theorem Thread.modStrm_c (th : Thread) (sid : StreamId) (g : Strm → Strm) : (th.modStrm sid g).c = th.c := by cases sid <;> rfl

@[simp] theorem Thread.modStrm_a (th : Thread) (sid : StreamId) (g : Strm → Strm) : (th.modStrm sid g).a = th.a := by cases sid <;> rfl

@[simp] theorem Thread.modStrm_v (th : Thread) (sid : StreamId) (g : Strm → Strm) : (th.modStrm sid g).v = th.v := by cases sid <;> rfl

@[simp] theorem Thread.modStrm_m (th : Thread) (sid : StreamId) (g : Strm → Strm) : (th.modStrm sid g).m = th.m := by cases sid <;> rfl

@[simp] theorem Thread.modStrm_guards (th : Thread) (sid : StreamId) (g : Strm → Strm) : (th.modStrm sid g).guards = th.guards := by cases sid <;> rfl

@[simp] theorem Thread.modStrm_tiles (th : Thread) (sid : StreamId) (g : Strm → Strm) : (th.modStrm sid g).tiles = th.tiles := by cases sid <;> rfl

@[simp] theorem Thread.modStrm_rings (th : Thread) (sid : StreamId) (g : Strm → Strm) : (th.modStrm sid g).rings = th.rings := by cases sid <;> rfl

@[simp] theorem Thread.modStrm_cnt (th : Thread) (sid : StreamId) (g : Strm → Strm) : (th.modStrm sid g).cnt = th.cnt := by cases sid <;> rfl

@[simp] theorem Thread.modStrm_dues (th : Thread) (sid : StreamId) (g : Strm → Strm) : (th.modStrm sid g).dues = th.dues := by cases sid <;> rfl

@[simp] theorem Thread.modStrm_loop (th : Thread) (sid : StreamId) (g : Strm → Strm) : (th.modStrm sid g).loop = th.loop := by cases sid <;> rfl

/-! ### Changing the life of a thread -/

@[simp] theorem Thread.modLife_tid (th : Thread) (g : Life → Life) : (th.modLife g).tid = th.tid := rfl

@[simp] theorem Thread.modLife_sc (th : Thread) (g : Life → Life) : (th.modLife g).sc = th.sc := rfl

@[simp] theorem Thread.modLife_sa (th : Thread) (g : Life → Life) : (th.modLife g).sa = th.sa := rfl

@[simp] theorem Thread.modLife_sv (th : Thread) (g : Life → Life) : (th.modLife g).sv = th.sv := rfl

@[simp] theorem Thread.modLife_sm (th : Thread) (g : Life → Life) : (th.modLife g).sm = th.sm := rfl

@[simp] theorem Thread.modLife_c (th : Thread) (g : Life → Life) : (th.modLife g).c = th.c := rfl

@[simp] theorem Thread.modLife_a (th : Thread) (g : Life → Life) : (th.modLife g).a = th.a := rfl

@[simp] theorem Thread.modLife_v (th : Thread) (g : Life → Life) : (th.modLife g).v = th.v := rfl

@[simp] theorem Thread.modLife_m (th : Thread) (g : Life → Life) : (th.modLife g).m = th.m := rfl

@[simp] theorem Thread.modLife_guards (th : Thread) (g : Life → Life) : (th.modLife g).guards = th.guards := rfl

@[simp] theorem Thread.modLife_tiles (th : Thread) (g : Life → Life) : (th.modLife g).tiles = th.tiles := rfl

@[simp] theorem Thread.modLife_rings (th : Thread) (g : Life → Life) : (th.modLife g).rings = th.rings := rfl

@[simp] theorem Thread.modLife_cnt (th : Thread) (g : Life → Life) : (th.modLife g).cnt = th.cnt := rfl

@[simp] theorem Thread.modLife_dues (th : Thread) (g : Life → Life) : (th.modLife g).dues = th.dues := rfl

@[simp] theorem Thread.modLife_loop (th : Thread) (g : Life → Life) : (th.modLife g).loop = th.loop := rfl

/-! ### Popping a guard -/

@[simp] theorem Thread.popGuard_tid (th : Thread) (n : Nat) (g : BitVec 4) (p : Bool) : (th.popGuard n g p).tid = th.tid := by unfold Thread.popGuard; split <;> rfl

@[simp] theorem Thread.popGuard_life (th : Thread) (n : Nat) (g : BitVec 4) (p : Bool) : (th.popGuard n g p).life = th.life := by unfold Thread.popGuard; split <;> rfl

@[simp] theorem Thread.popGuard_sc (th : Thread) (n : Nat) (g : BitVec 4) (p : Bool) : (th.popGuard n g p).sc = th.sc := by unfold Thread.popGuard; split <;> rfl

@[simp] theorem Thread.popGuard_sa (th : Thread) (n : Nat) (g : BitVec 4) (p : Bool) : (th.popGuard n g p).sa = th.sa := by unfold Thread.popGuard; split <;> rfl

@[simp] theorem Thread.popGuard_sv (th : Thread) (n : Nat) (g : BitVec 4) (p : Bool) : (th.popGuard n g p).sv = th.sv := by unfold Thread.popGuard; split <;> rfl

@[simp] theorem Thread.popGuard_sm (th : Thread) (n : Nat) (g : BitVec 4) (p : Bool) : (th.popGuard n g p).sm = th.sm := by unfold Thread.popGuard; split <;> rfl

@[simp] theorem Thread.popGuard_c (th : Thread) (n : Nat) (g : BitVec 4) (p : Bool) : (th.popGuard n g p).c = th.c := by unfold Thread.popGuard; split <;> rfl

@[simp] theorem Thread.popGuard_a (th : Thread) (n : Nat) (g : BitVec 4) (p : Bool) : (th.popGuard n g p).a = th.a := by unfold Thread.popGuard; split <;> rfl

@[simp] theorem Thread.popGuard_v (th : Thread) (n : Nat) (g : BitVec 4) (p : Bool) : (th.popGuard n g p).v = th.v := by unfold Thread.popGuard; split <;> rfl

@[simp] theorem Thread.popGuard_m (th : Thread) (n : Nat) (g : BitVec 4) (p : Bool) : (th.popGuard n g p).m = th.m := by unfold Thread.popGuard; split <;> rfl

@[simp] theorem Thread.popGuard_tiles (th : Thread) (n : Nat) (g : BitVec 4) (p : Bool) : (th.popGuard n g p).tiles = th.tiles := by unfold Thread.popGuard; split <;> rfl

@[simp] theorem Thread.popGuard_rings (th : Thread) (n : Nat) (g : BitVec 4) (p : Bool) : (th.popGuard n g p).rings = th.rings := by unfold Thread.popGuard; split <;> rfl

@[simp] theorem Thread.popGuard_cnt (th : Thread) (n : Nat) (g : BitVec 4) (p : Bool) : (th.popGuard n g p).cnt = th.cnt := by unfold Thread.popGuard; split <;> rfl

@[simp] theorem Thread.popGuard_dues (th : Thread) (n : Nat) (g : BitVec 4) (p : Bool) : (th.popGuard n g p).dues = th.dues := by unfold Thread.popGuard; split <;> rfl

@[simp] theorem Thread.popGuard_loop (th : Thread) (n : Nat) (g : BitVec 4) (p : Bool) : (th.popGuard n g p).loop = th.loop := by unfold Thread.popGuard; split <;> rfl

@[simp] theorem State.modThread_threads (s : State) (tid : Nat) (g : Thread → Thread) :
    (s.modThread tid g).threads = s.threads.map fun th => if th.tid = tid then g th else th := rfl

@[simp] theorem State.modCore_cores (s : State) (k : Nat) (g : Core → Core) : (s.modCore k g).cores = modAt s.cores k g := rfl

@[simp] theorem State.modPart_parts (s : State) (p : Nat) (g : Part → Part) : (s.modPart p g).parts = modAt s.parts p g := rfl

@[simp] theorem State.modDie_dies (s : State) (d : Nat) (g : Die → Die) : (s.modDie d g).dies = modAt s.dies d g := rfl

@[simp] theorem State.modRail_rails (s : State) (r : Nat) (g : Rail → Rail) : (s.modRail r g).rails = modAt s.rails r g := rfl

@[simp] theorem State.modCluster_clusters (s : State) (c : Nat) (g : Cluster → Cluster) :
    (s.modCluster c g).clusters = modAt s.clusters c g := rfl

@[simp] theorem State.newId_nextId (s : State) : s.newId.1.nextId = s.nextId + 1 := rfl

@[simp] theorem State.newId_snd (s : State) : s.newId.2 = s.nextId := rfl

end Sys2Proof.Machine
end

