-- ==== Sys2Proof/Laws/Ops.lean ====
section
/-! SUPPORT. What each shared operation can do, said once: finding and changing threads, cores, partitions and dies; issuing, waiting,
trapping; pushing. -/

namespace Sys2Proof.Machine

/-! ### Lists -/

@[simp] theorem length_modAt {α : Type} (l : List α) (k : Nat) (f : α → α) : (modAt l k f).length = l.length := by
  induction l generalizing k with
  | nil => rfl
  | cons x r ih => cases k <;> simp [modAt, ih]

@[simp] theorem length_setAt {α : Type} (l : List α) (k : Nat) (y : α) : (setAt l k y).length = l.length := by
  induction l generalizing k with
  | nil => rfl
  | cons x r ih => cases k <;> simp [setAt, ih]

theorem getD_modAt {α : Type} (l : List α) (k j : Nat) (f : α → α) (d : α) :
    (modAt l k f).getD j d = if j = k ∧ k < l.length then f (l.getD k d) else l.getD j d := by
  induction l generalizing k j with
  | nil => simp [modAt]
  | cons x r ih =>
    cases k with
    | zero =>
      cases j with
      | zero => simp [modAt]
      | succ j => simp [modAt]
    | succ k =>
      cases j with
      | zero => simp [modAt]
      | succ j =>
        have := ih k j
        simp only [List.getD_eq_getElem?_getD] at this
        simp [modAt, this]

theorem getD_setAt {α : Type} (l : List α) (k j : Nat) (y d : α) :
    (setAt l k y).getD j d = if j = k ∧ k < l.length then y else l.getD j d := by
  induction l generalizing k j with
  | nil => simp [setAt]
  | cons x r ih =>
    cases k with
    | zero =>
      cases j with
      | zero => simp [setAt]
      | succ j => simp [setAt]
    | succ k =>
      cases j with
      | zero => simp [setAt]
      | succ j =>
        have := ih k j
        simp only [List.getD_eq_getElem?_getD] at this
        simp [setAt, this]

/-! ### Threads -/

theorem State.thread?_tid {s : State} {tid : Nat} {th : Thread} (h : s.thread? tid = some th) : th.tid = tid := by
  have := List.find?_some h
  simpa using this

theorem State.thread?_mem {s : State} {tid : Nat} {th : Thread} (h : s.thread? tid = some th) : th ∈ s.threads :=
  List.mem_of_find?_eq_some h

/-- What is found after a thread is changed, for a change that keeps identities. -/
theorem State.thread?_modThread (s : State) (tid x : Nat) (g : Thread → Thread) (hg : ∀ th, (g th).tid = th.tid) :
    (s.modThread tid g).thread? x = if x = tid then (s.thread? x).map g else s.thread? x := by
  unfold State.thread?
  simp only [State.modThread_threads]
  induction s.threads with
  | nil => simp
  | cons th r ih =>
    simp only [List.map_cons, List.find?_cons]
    by_cases h1 : th.tid = tid
    · simp only [h1, if_true, hg]
      by_cases h2 : x = tid
      · subst h2
        simp
      · have h3 : (tid == x) = false := by simpa using fun e => h2 e.symm
        rw [h3]
        simpa [h2] using ih
    · simp only [h1, if_false]
      by_cases h2 : th.tid = x
      · have h3 : (th.tid == x) = true := by simpa using h2
        have h4 : x ≠ tid := fun e => h1 (h2.trans e)
        simp [h3, h4]
      · have h3 : (th.tid == x) = false := by simpa using h2
        rw [h3]
        simpa using ih

theorem State.thread?_modThread_self {s : State} {tid : Nat} {th : Thread} (g : Thread → Thread) (hg : ∀ th, (g th).tid = th.tid)
    (h : s.thread? tid = some th) : (s.modThread tid g).thread? tid = some (g th) := by
  rw [State.thread?_modThread s tid tid g hg, if_pos rfl, h]
  rfl

theorem State.thread?_modThread_other (s : State) {tid x : Nat} (g : Thread → Thread) (hg : ∀ th, (g th).tid = th.tid) (hx : x ≠ tid) :
    (s.modThread tid g).thread? x = s.thread? x := by
  rw [State.thread?_modThread s tid x g hg, if_neg hx]

/-- Two changes of one thread are one change. -/
theorem State.modThread_modThread (s : State) (tid : Nat) (f g : Thread → Thread) (hf : ∀ th, (f th).tid = th.tid) :
    (s.modThread tid f).modThread tid g = s.modThread tid fun th => g (f th) := by
  unfold State.modThread
  simp only [List.map_map]
  congr 1
  apply List.map_congr_left
  intro th _
  simp only [Function.comp_def]
  by_cases h : th.tid = tid <;> simp [h, hf]

/-- A change of a thread changes the list of threads and nothing else. -/
theorem State.modThread_frame (s : State) (tid : Nat) (g : Thread → Thread) :
    s.modThread tid g = { s with threads := (s.modThread tid g).threads } := rfl

@[simp] theorem Thread.modRegs_tid (th : Thread) (sid : StreamId) (f : Scalar → Scalar) : (th.modRegs sid f).tid = th.tid := by
  cases sid <;> rfl

@[simp] theorem Thread.advance_tid (th : Thread) (k : Issue) (now : Nat) : (th.advance k now).tid = th.tid := by
  simp [Thread.advance]

@[simp] theorem Thread.secondTrap_tid (th : Thread) (f : FaultRec) : (th.secondTrap f).tid = th.tid := by
  simp [Thread.secondTrap]

@[simp] theorem Thread.firstTrap_tid (th : Thread) (now : Nat) (f : FaultRec) : (th.firstTrap now f).tid = th.tid := by
  unfold Thread.firstTrap
  split <;> rfl

@[simp] theorem Thread.takeTrap_tid (th : Thread) (now : Nat) (f : FaultRec) : (th.takeTrap now f).tid = th.tid := by
  unfold Thread.takeTrap
  repeat' split
  all_goals simp

/-! ### Cores, partitions, dies -/

theorem State.core_modCore (s : State) (k j : Nat) (f : Core → Core) :
    (s.modCore k f).core j = if j = k ∧ k < s.cores.length then f (s.core k) else s.core j := getD_modAt s.cores k j f {}

theorem State.part_modPart (s : State) (p q : Nat) (f : Part → Part) :
    (s.modPart p f).part q = if q = p ∧ p < s.parts.length then f (s.part p) else s.part q := getD_modAt s.parts p q f {}

theorem State.die_modDie (s : State) (d e : Nat) (f : Die → Die) :
    (s.modDie d f).die e = if e = d ∧ d < s.dies.length then f (s.die d) else s.die e := getD_modAt s.dies d e f {}

@[simp] theorem State.core_modThread (s : State) (tid k : Nat) (g : Thread → Thread) : (s.modThread tid g).core k = s.core k := rfl

@[simp] theorem State.part_modThread (s : State) (tid p : Nat) (g : Thread → Thread) : (s.modThread tid g).part p = s.part p := rfl

@[simp] theorem State.die_modThread (s : State) (tid d : Nat) (g : Thread → Thread) : (s.modThread tid g).die d = s.die d := rfl

@[simp] theorem State.thread?_modCore (s : State) (k x : Nat) (f : Core → Core) : (s.modCore k f).thread? x = s.thread? x := rfl

@[simp] theorem State.thread?_modPart (s : State) (p x : Nat) (f : Part → Part) : (s.modPart p f).thread? x = s.thread? x := rfl

@[simp] theorem State.thread?_modPol (s : State) (p x : Nat) (f : Policy → Policy) : (s.modPol p f).thread? x = s.thread? x := rfl

@[simp] theorem State.thread?_modDie (s : State) (d x : Nat) (f : Die → Die) : (s.modDie d f).thread? x = s.thread? x := rfl

/-- Reading scratchpad words that hold no latent error changes nothing (R100). -/
theorem State.spProbe_clean (s : State) (core : Nat) (words : List Nat) (h : (s.core core).spBad = []) : s.spProbe core words = s := by
  simp [State.spProbe, h]

/-! ### Issuing -/

/-- The outcome of an issue, in terms of what its meaning comes to. -/
theorem issue_of {s : State} {k : Issue} {th : Thread} (f : Issue → Thread → State → Head) (hc : s.cur = .stream k)
    (ht : s.thread? k.tid = some th) : issue s f = (f k th (s.advance k)).settle s k := by
  simp [issue, State.issuer?, hc, ht]

/-- An issue that goes on was of a stream, and came to one of the five ends of a head instruction. -/
theorem issue_next {s t : State} {f : Issue → Thread → State → Head} (h : issue s f = .next t) :
    ∃ k th, s.cur = .stream k ∧ s.thread? k.tid = some th ∧
      (f k th (s.advance k) = .done t ∨ (∃ w, f k th (s.advance k) = .wait w ∧ t = s.waitAt k w) ∨
        (∃ i, f k th (s.advance k) = .trap i ∧ t = s.takeTrap k.tid (i.record k.sid k.pc)) ∨
        (∃ u w, f k th (s.advance k) = .hold u w ∧ t = u.waitAt k w) ∨
        ∃ u i, f k th (s.advance k) = .trapIn u i ∧ t = u.takeTrap k.tid (i.record k.sid k.pc)) := by
  unfold issue State.issuer? at h
  split at h
  · rename_i k th hk
    split at hk
    · rename_i k' hc
      rcases ht : s.thread? k'.tid with _ | th'
      · simp [ht] at hk
      · simp only [ht, Option.map_some, Option.some.injEq, Prod.mk.injEq] at hk
        obtain ⟨rfl, rfl⟩ := hk
        refine ⟨k', th', hc, ht, ?_⟩
        unfold Head.settle at h
        split at h <;> rename_i e
        · exact .inl (by simp_all)
        · exact .inr (.inl ⟨_, e, by simp_all⟩)
        · exact .inr (.inr (.inl ⟨_, e, by simp_all⟩))
        · exact .inr (.inr (.inr (.inl ⟨_, _, e, by simp_all⟩)))
        · exact .inr (.inr (.inr (.inr ⟨_, _, e, by simp_all⟩)))
    · simp at hk
  · simp at h

theorem State.thread?_advance {s : State} {k : Issue} {th : Thread} (h : s.thread? k.tid = some th) :
    (s.advance k).thread? k.tid = some (th.advance k s.now) :=
  State.thread?_modThread_self _ (fun _ => Thread.advance_tid _ _ _) h

theorem State.thread?_advance_other (s : State) (k : Issue) {x : Nat} (hx : x ≠ k.tid) : (s.advance k).thread? x = s.thread? x :=
  State.thread?_modThread_other s _ (fun _ => Thread.advance_tid _ _ _) hx

/-- A thread whose head waits: its stream's wait code is the one given, and the WDOG in force when the wait began stands. -/
theorem State.thread?_waitAt {s : State} {k : Issue} {th : Thread} (w : WaitFor) (h : s.thread? k.tid = some th) :
    (s.waitAt k w).thread? k.tid = some (th.modStrm k.sid fun st =>
      { st with wait := w, wdog := some (st.wdog.getD (s.part th.life.part).set.wdog.toNat) }) :=
  State.thread?_modThread_self _ (fun _ => Thread.modStrm_tid _ _ _) h

theorem State.thread?_waitAt_other (s : State) (k : Issue) (w : WaitFor) {x : Nat} (hx : x ≠ k.tid) :
    (s.waitAt k w).thread? x = s.thread? x :=
  State.thread?_modThread_other s _ (fun _ => Thread.modStrm_tid _ _ _) hx

theorem State.thread?_takeTrap {s : State} {tid : Nat} {th : Thread} (f : FaultRec) (h : s.thread? tid = some th) :
    (s.takeTrap tid f).thread? tid = some (th.takeTrap s.now f) :=
  State.thread?_modThread_self _ (fun _ => Thread.takeTrap_tid _ _ _) h

theorem State.thread?_takeTrap_other (s : State) {tid x : Nat} (f : FaultRec) (hx : x ≠ tid) : (s.takeTrap tid f).thread? x = s.thread? x :=
  State.thread?_modThread_other s _ (fun _ => Thread.takeTrap_tid _ _ _) hx

/-- A trap in a running thread (R303): it is being brought to its boundaries with REASON 1, and its fault record is the trap's. -/
theorem Thread.takeTrap_running {th : Thread} (now : Nat) (f : FaultRec) (h1 : th.life.trapping = false) (h2 : th.life.phase = .running)
    (h3 : th.life.waitingTrap = none) :
    th.takeTrap now f = th.modLife fun l =>
      { l with phase := .saving 1 now, trapping := true, fault := f, trapAt := some now, waitingTrap := none } := by
  simp [Thread.takeTrap, Thread.firstTrap, h1, h2, h3]

/-- After a word that issues outside rep the program counter is the next word's, and the issue cycle is the idle reference (R57). -/
theorem Strm.advance_plain {st : Strm} (now : Nat) (next : BitVec 16) (h : st.repCount ≤ 1) :
    (st.advance now next).pc = next ∧ (st.advance now next).idleRef = now ∧ (st.advance now next).repCount = 0 := by
  simp [Strm.advance, h]

/-- Under rep the word stays at the head, and one repetition is counted (R67). -/
theorem Strm.advance_rep {st : Strm} (now : Nat) (next : BitVec 16) (h : 1 < st.repCount) :
    (st.advance now next).pc = st.pc ∧ (st.advance now next).repCount = st.repCount - 1 ∧
      (st.advance now next).hold = some (now + 1) := by
  simp [Strm.advance, Nat.not_le.2 h]

/-! ### Pushing -/

theorem length_pushBelt (v : Val) (belt : List Val) (h : belt.length = 16) : (pushBelt v belt).length = 16 := by
  simp [pushBelt, h]

/-- The belt after a push: the value at age 0, every other one age older (R40). -/
theorem getD_pushBelt (v : Val) (belt : List Val) (n : Nat) (d : Val) (h : n < 16) :
    (pushBelt v belt).getD n d = if n = 0 then v else belt.getD (n - 1) d := by
  cases n with
  | zero => simp [pushBelt]
  | succ n =>
    have hn : n < 15 := by omega
    simp [pushBelt, List.getD_eq_getElem?_getD, hn]

/-- Named register 0 discards what is written to it (R42). -/
@[simp] theorem writeNamed_zero (named : List Val) (v : Val) : writeNamed named 0 v = named := rfl

theorem writeNamed_of_ne (named : List Val) {k : BitVec 4} (v : Val) (h : k ≠ 0) : writeNamed named k v = setAt named k.toNat v :=
  if_neg h

/-- Named register 0 reads 0, whatever the file holds (R42). -/
@[simp] theorem Scalar.read_named_zero (r : Scalar) : r.read (.named 0) = Val.ofWord 0 := by simp [Scalar.read]

/-- A void belt entry reads 0, clean (R41). -/
theorem Scalar.read_void (r : Scalar) (a : BitVec 4) (h : (r.belt.getD a.toNat Val.empty).void = true) :
    r.read (.belt a) = Val.empty := by
  show (if (r.belt.getD a.toNat Val.empty).void then Val.empty else r.belt.getD a.toNat Val.empty) = _
  rw [if_pos h]

theorem State.thread?_push {s : State} {k : Issue} {th : Thread} (v : Val) (d : Dst) (h : s.thread? k.tid = some th) :
    (s.push k v d).thread? k.tid = some (th.modRegs k.sid fun r => r.push v d) :=
  State.thread?_modThread_self _ (fun _ => Thread.modRegs_tid _ _ _) h

theorem State.thread?_push_other (s : State) (k : Issue) (v : Val) (d : Dst) {x : Nat} (hx : x ≠ k.tid) :
    (s.push k v d).thread? x = s.thread? x :=
  State.thread?_modThread_other s _ (fun _ => Thread.modRegs_tid _ _ _) hx

theorem State.push_frame (s : State) (k : Issue) (v : Val) (d : Dst) :
    s.push k v d = { s with threads := (s.push k v d).threads } := rfl

/-- consume goes on with operands that are ready and clean. -/
theorem consume_clean {vs : List Val} (h : Head) (h1 : vs.any Val.pending = false) (h2 : marksOf vs = none) : consume vs h = h := by
  simp [consume, h1, h2]

theorem consume_poison {vs : List Val} {t : Tag} (h : Head) (h1 : vs.any Val.pending = false) (h2 : marksOf vs = some t) :
    consume vs h = .trap (poison t) := by
  simp [consume, h1, h2]

theorem ready_of {vs : List Val} (h : Head) (h1 : vs.any Val.pending = false) : ready vs h = h := by
  simp [ready, h1]

/-! ### Causes -/

/-- Raising a cause sets its bit and leaves the vectors alone (R332). -/
theorem Ints.raise_vec (i : Ints) (c : Nat) : (i.raise c).vec = i.vec := by
  unfold Ints.raise
  split <;> rfl

/-- A cause already raised sends no message (R332). -/
theorem Ints.raise_again (i : Ints) (c : Nat) (h : bitOf i.cause c = true) : i.raise c = i := by
  simp [Ints.raise, h]

end Sys2Proof.Machine
end

