-- ==== Sys2Proof/Laws/Issue.lean ====
section
/-! SUPPORT. How an instruction completes, waits or traps, from what its meaning comes to; and the arithmetic of widths in terms of bit
vectors. -/

namespace Sys2Proof

theorem Width.bits_pos (w : Width) : 0 < w.bits := by cases w <;> decide

theorem Width.bits_le (w : Width) : w.bits ≤ 64 := by cases w <;> decide

end Sys2Proof

namespace Sys2Proof.Machine

/-! ### Completing -/

/-- A change of one thread changes it alone. -/
theorem onlyThread_modThread {s : State} {tid : Nat} {th : Thread} (g : Thread → Thread) (hg : ∀ th, (g th).tid = th.tid)
    (h : s.thread? tid = some th) : OnlyThread s (s.modThread tid g) tid (g th) :=
  ⟨rfl, State.thread?_modThread_self g hg h, fun _ hx => State.thread?_modThread_other s g hg hx⟩

/-- An instruction whose meaning comes to a change of its own thread completes with it. -/
theorem completes_of_done {s : State} {i : Instr} {k : Issue} {th : Thread} {f : Issue → Thread → State → Head} (hi : Issues s k th)
    (he : exec i s = issue s f) {g : Thread → Thread} (hg : ∀ th, (g th).tid = th.tid)
    (hd : f k th (s.advance k) = .done (s.modThread k.tid g)) : Completes s i k (g th) := by
  refine ⟨s.modThread k.tid g, ?_, onlyThread_modThread g hg hi.2⟩
  rw [he, issue_of f hi.1 hi.2, hd]
  rfl

theorem waits_of_wait {s : State} {i : Instr} {k : Issue} {th : Thread} {f : Issue → Thread → State → Head} (hi : Issues s k th)
    (he : exec i s = issue s f) {w : WaitFor} (hd : f k th (s.advance k) = .wait w) : Waits s i k th w := by
  refine ⟨s.waitAt k w, ?_, rfl, State.thread?_waitAt w hi.2, fun _ hx => State.thread?_waitAt_other s k w hx⟩
  rw [he, issue_of f hi.1 hi.2, hd]
  rfl

theorem traps_of_trap {s : State} {i : Instr} {k : Issue} {th : Thread} {f : Issue → Thread → State → Head} (hi : Issues s k th)
    (he : exec i s = issue s f) {t : TrapInfo} (hd : f k th (s.advance k) = .trap t) : Traps s i k th t := by
  refine ⟨s.takeTrap k.tid (t.record k.sid k.pc), ?_, rfl, State.thread?_takeTrap _ hi.2,
    fun _ hx => State.thread?_takeTrap_other s _ hx⟩
  rw [he, issue_of f hi.1 hi.2, hd]
  rfl

@[simp] theorem Thread.pushed_tid (th : Thread) (sid : StreamId) (v : Val) (d : Dst) : (th.pushed sid v d).tid = th.tid := by
  simp [Thread.pushed]

theorem Thread.modRegs_push (th : Thread) (sid : StreamId) (v : Val) (d : Dst) :
    (th.modRegs sid fun r => r.push v d) = th.pushed sid v d := by
  cases d <;> rfl

/-- Advancing and pushing are one change of the thread. -/
theorem State.advance_push (s : State) (k : Issue) (v : Val) (d : Dst) :
    (s.advance k).push k v d = s.modThread k.tid fun th => (th.advance k s.now).pushed k.sid v d := by
  unfold State.advance State.push
  rw [State.modThread_modThread _ _ _ _ (fun th => Thread.advance_tid th k s.now)]
  simp only [Thread.modRegs_push]

/-- An instruction whose meaning comes to a push completes with it. -/
theorem completes_of_push {s : State} {i : Instr} {k : Issue} {th : Thread} {f : Issue → Thread → State → Head} (hi : Issues s k th)
    (he : exec i s = issue s f) {v : Val} {d : Dst} (hd : f k th (s.advance k) = .done ((s.advance k).push k v d)) :
    Completes s i k ((th.advance k s.now).pushed k.sid v d) := by
  rw [State.advance_push] at hd
  exact completes_of_done (g := fun th => (th.advance k s.now).pushed k.sid v d) hi he (fun th => by simp) hd

theorem Val.pending_eq_false {v : Val} : v.pending = false ↔ v.There := by simp [Val.pending, Val.There]

theorem scalar1_completes {s : State} {i : Instr} {k : Issue} {th : Thread} {x : Src} {d : Dst} {f : Word → Word} (hi : Issues s k th)
    (he : exec i s = scalar1 s x d f) (hx : (th.src k x).There) :
    Completes s i k ((th.advance k s.now).pushed k.sid { bits := f (th.src k x).bits, mark := (th.src k x).mark } d) := by
  refine completes_of_push hi he ?_
  have h1 := Val.pending_eq_false.2 hx
  unfold Thread.src at h1
  simp [h1, Thread.src]

theorem scalar2_completes {s : State} {i : Instr} {k : Issue} {th : Thread} {x y : Src} {d : Dst} {f : Word → Word → Word}
    (hi : Issues s k th) (he : exec i s = scalar2 s x y d f) (hx : (th.src k x).There) (hy : (th.src k y).There) :
    Completes s i k ((th.advance k s.now).pushed k.sid
      { bits := f (th.src k x).bits (th.src k y).bits, mark := meet (th.src k x).mark (th.src k y).mark } d) := by
  refine completes_of_push hi he ?_
  have h1 := Val.pending_eq_false.2 hx
  have h2 := Val.pending_eq_false.2 hy
  unfold Thread.src at h1 h2
  simp [h1, h2, Thread.src]

theorem scalar3_completes {s : State} {i : Instr} {k : Issue} {th : Thread} {x y z : Src} {d : Dst} {f : Word → Word → Word → Word}
    (hi : Issues s k th) (he : exec i s = scalar3 s x y z d f) (hx : (th.src k x).There) (hy : (th.src k y).There)
    (hz : (th.src k z).There) :
    Completes s i k ((th.advance k s.now).pushed k.sid
      { bits := f (th.src k x).bits (th.src k y).bits (th.src k z).bits,
        mark := meet (th.src k x).mark (meet (th.src k y).mark (th.src k z).mark) } d) := by
  refine completes_of_push hi he ?_
  have h1 := Val.pending_eq_false.2 hx
  have h2 := Val.pending_eq_false.2 hy
  have h3 := Val.pending_eq_false.2 hz
  unfold Thread.src at h1 h2 h3
  simp [h1, h2, h3, Thread.src]

/-! ### Widths (03 R45) -/

theorem extW_eq_operand (ws : WS) (x : Word) : extW x ws.w.bits ws.s = operand ws x := by
  unfold extW operand narrow
  cases hs : ws.s with
  | false => simp
  | true =>
    simp only [Bool.true_and, if_true, BitVec.toInt_eq_toNat_cond, BitVec.toNat_setWidth]
    have h0 := ws.w.bits_pos
    obtain ⟨n, hn⟩ : ∃ n, ws.w.bits = n + 1 := ⟨ws.w.bits - 1, by omega⟩
    rw [hn]
    simp only [Nat.add_sub_cancel, decide_eq_true_eq]
    have : (2 : Nat) ^ (n + 1) = 2 * 2 ^ n := by rw [Nat.pow_succ]; omega
    split <;> split <;> first | rfl | omega

theorem narrow_ofNat_emod (ws : WS) (v : Int) :
    narrow ws (BitVec.ofNat 64 (v % (2 ^ ws.w.bits : Nat)).toNat) = BitVec.ofInt ws.w.bits v := by
  unfold narrow
  apply BitVec.eq_of_toNat_eq
  simp only [BitVec.toNat_setWidth, BitVec.toNat_ofNat, BitVec.toNat_ofInt]
  have hp : (0 : Int) < (2 ^ ws.w.bits : Nat) := by exact_mod_cast Nat.two_pow_pos ws.w.bits
  have h2 : (v % (2 ^ ws.w.bits : Nat)).toNat < 2 ^ ws.w.bits := by
    have h3 := Int.emod_nonneg v (Int.ne_of_gt hp)
    have h4 := Int.emod_lt_of_pos v hp
    omega
  rw [Nat.mod_mod_of_dvd _ (Nat.pow_dvd_pow 2 ws.w.bits_le), Nat.mod_eq_of_lt h2]

theorem ofInt_operand (ws : WS) (x : Word) : BitVec.ofInt 64 (operand ws x) = widen ws (narrow ws x) := by
  unfold operand widen
  split
  · apply BitVec.eq_of_toInt_eq
    rw [BitVec.toInt_signExtend_of_le ws.w.bits_le, BitVec.toInt_ofInt]
    have h := BitVec.toInt_signExtend_of_le (x := narrow ws x) ws.w.bits_le
    rw [← h, BitVec.toInt_bmod_cancel]
  · apply BitVec.eq_of_toNat_eq
    simp

theorem wrapW_eq_result (ws : WS) (v : Int) : wrapW v ws.w.bits ws.s = result ws v := by
  unfold wrapW
  rw [extW_eq_operand, ofInt_operand, narrow_ofNat_emod]
  rfl

theorem widthOp_eq (ws : WS) (f : Int → Int → Int) (a b : Word) : widthOp ws f a b = result ws (f (operand ws a) (operand ws b)) := by
  unfold widthOp
  rw [wrapW_eq_result, extW_eq_operand, extW_eq_operand]

end Sys2Proof.Machine
end

