-- ==== Sys2Proof/Laws/Bodies.lean ====
section
/-! SUPPORT. What the checks that wrap a meaning's body come to: operands consumed, addresses, slots, records, tiles; and the forms in which a
body answers a next state of one thread. -/

namespace Sys2Proof.Machine

open Sys2Proof

/-! ### Operands -/

theorem pending_of_there {v : Val} (h : v.There) : v.pending = false := Val.pending_eq_false.2 h

theorem pending_of_not_there {v : Val} (h : ¬ v.There) : v.pending = true := by
  simp [Val.There] at h
  simp [Val.pending, Option.isSome_iff_ne_none, h]

theorem any_pending_of_there {vs : List Val} (h : ∀ v ∈ vs, v.There) : vs.any Val.pending = false := by
  rw [List.any_eq_false]
  intro v hv
  simp [pending_of_there (h v hv)]

theorem consume_of_clean {vs : List Val} (x : Head) (h : ∀ v ∈ vs, v.Clean) : consume vs x = x := by
  apply consume_clean
  · exact any_pending_of_there fun v hv => (h v hv).1
  · clear x
    induction vs with
    | nil => rfl
    | cons a r ih =>
      have := ih fun v hv => h v (List.mem_cons_of_mem _ hv)
      simp only [marksOf, List.map_cons, meetAll] at *
      rw [(h a List.mem_cons_self).2, this]
      rfl

theorem consume_of_mark {vs : List Val} {t : Tag} (x : Head) (h : ∀ v ∈ vs, v.There) (hm : marksOf vs = some t) :
    consume vs x = .trap (poison t) := consume_poison x (any_pending_of_there h) hm

theorem consume_of_not_there {vs : List Val} (x : Head) (h : ∃ v ∈ vs, ¬ v.There) : consume vs x = .wait .result := by
  obtain ⟨v, hv, h⟩ := h
  unfold consume
  rw [if_pos]
  exact List.any_eq_true.2 ⟨v, hv, pending_of_not_there h⟩

theorem ready_of_there {vs : List Val} (x : Head) (h : ∀ v ∈ vs, v.There) : ready vs x = x := ready_of x (any_pending_of_there h)

theorem ready_of_not_there {vs : List Val} (x : Head) (h : ∃ v ∈ vs, ¬ v.There) : ready vs x = .wait .result := by
  obtain ⟨v, hv, h⟩ := h
  unfold ready
  rw [if_pos]
  exact List.any_eq_true.2 ⟨v, hv, pending_of_not_there h⟩

theorem consume_one {a : Val} (x : Head) (h : a.Clean) : consume [a] x = x := consume_of_clean x (by simpa using h)

theorem consume_two {a b : Val} (x : Head) (h : a.Clean) (h' : b.Clean) : consume [a, b] x = x :=
  consume_of_clean x (by simp [h, h'])

theorem consume_three {a b c : Val} (x : Head) (h : a.Clean) (h' : b.Clean) (h'' : c.Clean) : consume [a, b, c] x = x :=
  consume_of_clean x (by simp [h, h', h''])

theorem consume_one_mark {a : Val} {t : Tag} (x : Head) (h : a.There) (hm : a.mark = some t) : consume [a] x = .trap (poison t) :=
  consume_of_mark x (by simpa using h) (by simp [marksOf, meetAll, hm, meet])

/-! ### Addresses, slots, records, tiles -/

theorem legalAddr_iff (th : Thread) (ea n : Nat) : legalAddr th.panes ea n = true ↔ LegalAt th ea n := by
  simp [legalAddr, LegalAt, show spBytes = 0xC00000 from rfl, and_assoc]

theorem withAddr_of_legal {th : Thread} {ea : Word} {n : Nat} (f : Nat → Head) (h : LegalAt th ea.toNat n) :
    withAddr th ea n f = f ea.toNat := by
  unfold withAddr
  rw [if_pos ((legalAddr_iff th _ n).2 h)]

theorem withAddr_of_not_legal {th : Thread} {ea : Word} {n : Nat} (f : Nat → Head) (h : ¬ LegalAt th ea.toNat n) :
    withAddr th ea n f = .trap bounds := by
  unfold withAddr
  rw [if_neg fun c => h ((legalAddr_iff th _ n).1 c)]

theorem withSlot_of_room {th : Thread} (x : Head) (h : th.a.cmds.length < 64) : withSlot th x = x := by
  simp [withSlot, Thread.slotFree, h]

theorem withRec_of_valid {th : Thread} {r : BitVec 8} (k : BufRec → Head) (h : recV (th.record r) = true) :
    withRec th r k = k (th.record r) := by simp [withRec, h]

@[simp] theorem Thread.startWrite_tid (th : Thread) (n : Nat) (t : Taken) : (th.startWrite n t).tid = th.tid := by
  unfold Thread.startWrite Thread.modTile Thread.setTile Thread.setRing
  repeat' split
  all_goals (try rfl)
  all_goals (simp; try (split <;> rfl))

@[simp] theorem Thread.startRead_tid (th : Thread) (n : Nat) (t : Taken) : (th.startRead n t).tid = th.tid := by
  unfold Thread.startRead Thread.modTile Thread.setTile Thread.setRing
  repeat' split
  all_goals (try rfl)
  all_goals (simp; try (split <;> rfl))

@[simp] theorem Thread.jumped_tid (th : Thread) (sid : StreamId) (n : Nat) : (th.jumped sid n).tid = th.tid := by simp [Thread.jumped]

/-! ### A body's answer as a change of one thread -/

theorem State.newId_eq (s : State) : s.newId = ({ s with nextId := s.nextId + 1 }, s.nextId) := rfl

theorem State.modThread_modCore (s : State) (tid : Nat) (f : Thread → Thread) (c : Nat) (g : Core → Core) :
    (s.modThread tid f).modCore c g = (s.modCore c g).modThread tid f := rfl

theorem State.modThread_modPart (s : State) (tid : Nat) (f : Thread → Thread) (p : Nat) (g : Part → Part) :
    (s.modThread tid f).modPart p g = (s.modPart p g).modThread tid f := rfl

/-- A body that answers one thread's change, the word past it among what changes, completes. -/
theorem completes_of_modThread {s : State} {i : Instr} {k : Issue} {th u : Thread} {f : Issue → Thread → State → Head} (hi : Issues s k th)
    (he : exec i s = issue s f) (g : Thread → Thread) (hg : ∀ th, (g th).tid = th.tid)
    (hd : f k th (s.advance k) = .done (s.modThread k.tid g)) (hu : g th = u) : Completes s i k u := by
  subst hu
  exact completes_of_done hi he hg hd

/-- The same for a body that takes a fresh identity. -/
theorem completesFresh_of_modThread {s : State} {i : Instr} {k : Issue} {th u : Thread} {f : Issue → Thread → State → Head}
    (hi : Issues s k th) (he : exec i s = issue s f) (g : Thread → Thread) (hg : ∀ th, (g th).tid = th.tid)
    (hd : f k th (s.advance k) = .done (({ s with nextId := s.nextId + 1 } : State).modThread k.tid g)) (hu : g th = u) :
    CompletesFresh s i k u := by
  subst hu
  refine ⟨({ s with nextId := s.nextId + 1 } : State).modThread k.tid g, ?_, rfl, ?_, ?_⟩
  · rw [he, issue_of f hi.1 hi.2, hd]
    rfl
  · exact State.thread?_modThread_self (s := { s with nextId := s.nextId + 1 }) g hg hi.2
  · intro x hx
    exact State.thread?_modThread_other { s with nextId := s.nextId + 1 } g hg hx

/-- A state that differs by a change that keeps the threads, and by one thread. -/
theorem onlyThreadAnd_of {s X : State} {tid : Nat} {th u : Thread} {f : State → State} (g : Thread → Thread)
    (hg : ∀ th, (g th).tid = th.tid) (ht : s.thread? tid = some th) (h0 : (f s).threads = s.threads) (hX : X = (f s).modThread tid g)
    (hu : g th = u) : OnlyThreadAnd s X tid u f := by
  subst hX hu
  have e : ∀ x, (f s).thread? x = s.thread? x := fun x => by unfold State.thread?; rw [h0]
  refine ⟨rfl, State.thread?_modThread_self (s := f s) g hg (by rw [e]; exact ht), fun x hx => ?_⟩
  rw [State.thread?_modThread_other (f s) g hg hx, e]

theorem onlyThread_of {s X : State} {tid : Nat} {th u : Thread} (g : Thread → Thread) (hg : ∀ th, (g th).tid = th.tid)
    (ht : s.thread? tid = some th) (hX : X = s.modThread tid g) (hu : g th = u) : OnlyThread s X tid u :=
  onlyThreadAnd_of (f := id) g hg ht rfl hX hu

end Sys2Proof.Machine
end

