-- ==== Sys2Proof/Laws/Decode.lean ====
section
/-! SUPPORT. Laws of instruction words: every body format reads back what was packed into it, every code table is inverted by its reader, and
a word gives back its header, OP, LIT and body. -/

namespace Sys2Proof

/-! ### Fields of concatenated words -/

theorem extract_hi {v w s l : Nat} {x : BitVec v} {y : BitVec w} (h : w ≤ s) :
    (x ++ y).extractLsb' s l = x.extractLsb' (s - w) l := BitVec.extractLsb'_append_eq_of_le h

theorem extract_lo {v w s l : Nat} {x : BitVec v} {y : BitVec w} (h : s + l ≤ w) :
    (x ++ y).extractLsb' s l = y.extractLsb' s l := BitVec.extractLsb'_append_eq_of_add_le h

theorem bit_hi {v w s : Nat} {x : BitVec v} {y : BitVec w} (h : w ≤ s) : (x ++ y).getLsbD s = x.getLsbD (s - w) := by
  rw [BitVec.getLsbD_append, if_neg (Nat.not_lt.2 h)]

theorem bit_lo {v w s : Nat} {x : BitVec v} {y : BitVec w} (h : s < w) : (x ++ y).getLsbD s = y.getLsbD s := by
  rw [BitVec.getLsbD_append, if_pos h]

@[simp] theorem getLsbD_bit1 (b : Bool) : (bit1 b).getLsbD 0 = b := by cases b <;> rfl

@[simp] theorem getElem_bit1 (b : Bool) : (bit1 b)[0] = b := by cases b <;> rfl

/-! ### Body formats -/

@[simp] theorem S3.unpack_pack (f : S3) : S3.unpack f.pack = f := by
  cases f
  simp only [S3.unpack, S3.pack, bitOf, S3.mk.injEq]
  refine ⟨?_, ?_, ?_, ?_, ?_, ?_, ?_, ?_⟩ <;>
    · repeat first
        | rw [extract_hi (by decide)] | rw [extract_lo (by decide)] | rw [bit_hi (by decide)] | rw [bit_lo (by decide)]
      first | exact BitVec.extractLsb'_eq_self | exact getLsbD_bit1 _

@[simp] theorem SI.unpack_pack (f : SI) : SI.unpack f.pack = f := by
  cases f
  simp only [SI.unpack, SI.pack, bitOf, SI.mk.injEq]
  refine ⟨?_, ?_, ?_, ?_, ?_, ?_, ?_⟩ <;>
    · repeat first
        | rw [extract_hi (by decide)] | rw [extract_lo (by decide)] | rw [bit_hi (by decide)] | rw [bit_lo (by decide)]
      first | exact BitVec.extractLsb'_eq_self | exact getLsbD_bit1 _

@[simp] theorem SB.unpack_pack (f : SB) : SB.unpack f.pack = f := by
  cases f
  simp only [SB.unpack, SB.pack, SB.mk.injEq]
  refine ⟨?_, ?_, ?_, ?_⟩ <;>
    · repeat first
        | rw [extract_hi (by decide)] | rw [extract_lo (by decide)] | rw [bit_hi (by decide)] | rw [bit_lo (by decide)]
      first | exact BitVec.extractLsb'_eq_self | exact getLsbD_bit1 _

@[simp] theorem ST.unpack_pack (f : ST) : ST.unpack f.pack = f := by
  cases f
  simp only [ST.unpack, ST.pack, bitOf, ST.mk.injEq]
  refine ⟨?_, ?_, ?_, ?_, ?_, ?_, ?_⟩ <;>
    · repeat first
        | rw [extract_hi (by decide)] | rw [extract_lo (by decide)] | rw [bit_hi (by decide)] | rw [bit_lo (by decide)]
      first | exact BitVec.extractLsb'_eq_self | exact getLsbD_bit1 _

@[simp] theorem AX.unpack_pack (f : AX) : AX.unpack f.pack = f := by
  cases f
  simp only [AX.unpack, AX.pack, bitOf, AX.mk.injEq]
  refine ⟨?_, ?_, ?_, ?_, ?_, ?_, ?_, ?_, ?_⟩ <;>
    · repeat first
        | rw [extract_hi (by decide)] | rw [extract_lo (by decide)] | rw [bit_hi (by decide)] | rw [bit_lo (by decide)]
      first | exact BitVec.extractLsb'_eq_self | exact getLsbD_bit1 _

@[simp] theorem V3.unpack_pack (f : V3) : V3.unpack f.pack = f := by
  cases f
  simp only [V3.unpack, V3.pack, bitOf, V3.mk.injEq]
  refine ⟨?_, ?_, ?_, ?_, ?_, ?_, ?_, ?_, ?_⟩ <;>
    · repeat first
        | rw [extract_hi (by decide)] | rw [extract_lo (by decide)] | rw [bit_hi (by decide)] | rw [bit_lo (by decide)]
      first | exact BitVec.extractLsb'_eq_self | exact getLsbD_bit1 _

@[simp] theorem VI.unpack_pack (f : VI) : VI.unpack f.pack = f := by
  cases f
  simp only [VI.unpack, VI.pack, bitOf, VI.mk.injEq]
  refine ⟨?_, ?_, ?_, ?_, ?_, ?_⟩ <;>
    · repeat first
        | rw [extract_hi (by decide)] | rw [extract_lo (by decide)] | rw [bit_hi (by decide)] | rw [bit_lo (by decide)]
      first | exact BitVec.extractLsb'_eq_self | exact getLsbD_bit1 _

@[simp] theorem VT.unpack_pack (f : VT) : VT.unpack f.pack = f := by
  cases f
  simp only [VT.unpack, VT.pack, bitOf, VT.mk.injEq]
  refine ⟨?_, ?_, ?_, ?_, ?_, ?_, ?_, ?_, ?_⟩ <;>
    · repeat first
        | rw [extract_hi (by decide)] | rw [extract_lo (by decide)] | rw [bit_hi (by decide)] | rw [bit_lo (by decide)]
      first | exact BitVec.extractLsb'_eq_self | exact getLsbD_bit1 _

@[simp] theorem VB.unpack_pack (f : VB) : VB.unpack f.pack = f := by
  cases f
  simp only [VB.unpack, VB.pack, bitOf, VB.mk.injEq]
  refine ⟨?_, ?_, ?_, ?_, ?_⟩ <;>
    · repeat first
        | rw [extract_hi (by decide)] | rw [extract_lo (by decide)] | rw [bit_hi (by decide)] | rw [bit_lo (by decide)]
      first | exact BitVec.extractLsb'_eq_self | exact getLsbD_bit1 _

@[simp] theorem MM.unpack_pack (f : MM) : MM.unpack f.pack = f := by
  cases f
  simp only [MM.unpack, MM.pack, bitOf, MM.mk.injEq]
  refine ⟨?_, ?_, ?_, ?_, ?_, ?_⟩ <;>
    · repeat first
        | rw [extract_hi (by decide)] | rw [extract_lo (by decide)] | rw [bit_hi (by decide)] | rw [bit_lo (by decide)]
      first | exact BitVec.extractLsb'_eq_self | exact getLsbD_bit1 _

@[simp] theorem MS.unpack_pack (f : MS) : MS.unpack f.pack = f := by
  cases f
  simp only [MS.unpack, MS.pack, bitOf, MS.mk.injEq]
  refine ⟨?_, ?_, ?_, ?_, ?_, ?_⟩ <;>
    · repeat first
        | rw [extract_hi (by decide)] | rw [extract_lo (by decide)] | rw [bit_hi (by decide)] | rw [bit_lo (by decide)]
      first | exact BitVec.extractLsb'_eq_self | exact getLsbD_bit1 _

@[simp] theorem MD.unpack_pack (f : MD) : MD.unpack f.pack = f := by
  cases f
  simp only [MD.unpack, MD.pack, bitOf, MD.mk.injEq]
  refine ⟨?_, ?_, ?_, ?_, ?_, ?_, ?_, ?_, ?_⟩ <;>
    · repeat first
        | rw [extract_hi (by decide)] | rw [extract_lo (by decide)] | rw [bit_hi (by decide)] | rw [bit_lo (by decide)]
      first | exact BitVec.extractLsb'_eq_self | exact getLsbD_bit1 _

@[simp] theorem PW.unpack_pack (f : PW) : PW.unpack f.pack = f := by
  cases f
  simp only [PW.unpack, PW.pack, PW.mk.injEq]
  refine ⟨?_, ?_, ?_, ?_, ?_⟩ <;>
    · repeat first
        | rw [extract_hi (by decide)] | rw [extract_lo (by decide)] | rw [bit_hi (by decide)] | rw [bit_lo (by decide)]
      first | exact BitVec.extractLsb'_eq_self | exact getLsbD_bit1 _

/-! ### The header -/

@[simp] theorem headerOf_joinWord (h : Header) (op : BitVec 8) (lit : Bool) (body : BitVec 39) : headerOf (joinWord h op lit body) = h := by
  cases h
  simp only [headerOf, joinWord, bitOf, Header.mk.injEq]
  refine ⟨?_, ?_, ?_, ?_⟩ <;>
    · repeat first
        | rw [extract_hi (by decide)] | rw [extract_lo (by decide)] | rw [bit_hi (by decide)] | rw [bit_lo (by decide)]
      first | exact BitVec.extractLsb'_eq_self | exact getLsbD_bit1 _

@[simp] theorem opOf_joinWord (h : Header) (op : BitVec 8) (lit : Bool) (body : BitVec 39) : opOf (joinWord h op lit body) = op := by
  unfold opOf joinWord
  repeat first | rw [extract_hi (by decide)] | rw [extract_lo (by decide)]
  exact BitVec.extractLsb'_eq_self

@[simp] theorem hasLit_joinWord (h : Header) (op : BitVec 8) (lit : Bool) (body : BitVec 39) : hasLit (joinWord h op lit body) = lit := by
  unfold hasLit joinWord bitOf
  repeat first | rw [bit_hi (by decide)] | rw [bit_lo (by decide)]
  exact getLsbD_bit1 _

@[simp] theorem bodyOf_joinWord (h : Header) (op : BitVec 8) (lit : Bool) (body : BitVec 39) : bodyOf (joinWord h op lit body) = body := by
  unfold bodyOf joinWord
  repeat rw [extract_lo (by decide)]
  exact BitVec.extractLsb'_eq_self

/-! ### Code tables -/

@[simp] theorem Width.ofCode_code (w : Width) : Width.ofCode w.code = w := by cases w <;> rfl

@[simp] theorem Src.ofCode_code (x : Src) : Src.ofCode x.code = x := by
  cases x <;>
    · unfold Src.ofCode Src.code bitOf
      rw [bit_hi (by decide), extract_lo (by decide)]
      simp

@[simp] theorem Src.code_eq_zero (x : Src) : x.code = 0 ↔ x = .belt 0 := by
  constructor
  · intro h
    rw [← Src.ofCode_code x, h]
    rfl
  · rintro rfl
    rfl

@[simp] theorem VSrc.ofCode_code (x : VSrc) : VSrc.ofCode x.code = some x := by
  cases x with
  | belt k =>
    have h1 : (VSrc.code (.belt k)).toNat = k.toNat := by unfold VSrc.code; rw [BitVec.toNat_append]; simp
    have h2 := k.isLt
    unfold VSrc.ofCode
    rw [if_pos (by omega)]
    unfold VSrc.code
    rw [extract_lo (by decide)]
    simp
  | named k =>
    have h1 : (VSrc.code (.named k)).toNat = 16 + k.toNat := by simp [VSrc.code]; omega
    have h2 := k.isLt
    unfold VSrc.ofCode
    rw [if_neg (by omega), if_pos (by omega), h1]
    simp
  | zero => rfl
  | lane => rfl

@[simp] theorem dstOf_denOf {n : Nat} (d : Option (BitVec n)) : dstOf (denOf d) (dnOf d) = some d := by
  cases d <;> simp [dstOf, denOf, dnOf]

@[simp] theorem TileRef.ofCode_code (t : TileRef) : TileRef.ofCode t.rg t.code = some t := by
  cases t with
  | tile n => rfl
  | ring n =>
    unfold TileRef.ofCode TileRef.code TileRef.rg
    rw [extract_hi (by decide), extract_lo (by decide)]
    simp

@[simp] theorem Cond.ofCode_code (x : Cond) : Cond.ofCode x.code = some x := by cases x <;> rfl

@[simp] theorem Cond.code_mod16 (x : Cond) : x.code % 16 = x.code := by cases x <;> rfl

@[simp] theorem Cond.toNat_code4 (x : Cond) : (BitVec.ofNat 4 x.code).toNat = x.code := by cases x <;> rfl

@[simp] theorem Cond.code_mod16384 (x : Cond) : x.code % 16384 = x.code := by cases x <;> rfl

@[simp] theorem Cond.toNat_code14 (x : Cond) : (BitVec.ofNat 14 x.code).toNat = x.code := by cases x <;> rfl

@[simp] theorem Cond.code_mod65536 (x : Cond) : x.code % 65536 = x.code := by cases x <;> rfl

@[simp] theorem Cond.toNat_code16 (x : Cond) : (BitVec.ofNat 16 x.code).toNat = x.code := by cases x <;> rfl

@[simp] theorem ShiftKind.ofCode_code (x : ShiftKind) : ShiftKind.ofCode x.code = some x := by cases x <;> rfl

@[simp] theorem ShiftKind.code_mod16 (x : ShiftKind) : x.code % 16 = x.code := by cases x <;> rfl

@[simp] theorem ShiftKind.toNat_code4 (x : ShiftKind) : (BitVec.ofNat 4 x.code).toNat = x.code := by cases x <;> rfl

@[simp] theorem BcCond.ofCode_code (x : BcCond) : BcCond.ofCode x.code = some x := by cases x <;> rfl

@[simp] theorem BcCond.code_mod16 (x : BcCond) : x.code % 16 = x.code := by cases x <;> rfl

@[simp] theorem BcCond.toNat_code4 (x : BcCond) : (BitVec.ofNat 4 x.code).toNat = x.code := by cases x <;> rfl

@[simp] theorem AopOp.ofCode_code (x : AopOp) : AopOp.ofCode x.code = some x := by cases x <;> rfl

@[simp] theorem AopOp.code_mod16 (x : AopOp) : x.code % 16 = x.code := by cases x <;> rfl

@[simp] theorem AopOp.toNat_code4 (x : AopOp) : (BitVec.ofNat 4 x.code).toNat = x.code := by cases x <;> rfl

@[simp] theorem GamoOp.ofCode_code (x : GamoOp) : GamoOp.ofCode x.code = some x := by cases x <;> rfl

@[simp] theorem GamoOp.code_mod16 (x : GamoOp) : x.code % 16 = x.code := by cases x <;> rfl

@[simp] theorem GamoOp.toNat_code4 (x : GamoOp) : (BitVec.ofNat 4 x.code).toNat = x.code := by cases x <;> rfl

@[simp] theorem Scope.ofCode_code (x : Scope) : Scope.ofCode x.code = some x := by cases x <;> rfl

@[simp] theorem Scope.code_mod16 (x : Scope) : x.code % 16 = x.code := by cases x <;> rfl

@[simp] theorem Scope.toNat_code4 (x : Scope) : (BitVec.ofNat 4 x.code).toNat = x.code := by cases x <;> rfl

@[simp] theorem Route.ofCode_code (x : Route) : Route.ofCode x.code = some x := by cases x <;> rfl

@[simp] theorem Route.code_mod4 (x : Route) : x.code % 4 = x.code := by cases x <;> rfl

@[simp] theorem Route.toNat_code2 (x : Route) : (BitVec.ofNat 2 x.code).toNat = x.code := by cases x <;> rfl

@[simp] theorem CopyDir.ofCode_code (x : CopyDir) : CopyDir.ofCode x.code = some x := by cases x <;> rfl

@[simp] theorem CopyDir.code_mod4 (x : CopyDir) : x.code % 4 = x.code := by cases x <;> rfl

@[simp] theorem CopyDir.toNat_code2 (x : CopyDir) : (BitVec.ofNat 2 x.code).toNat = x.code := by cases x <;> rfl

@[simp] theorem LaneTy.ofCode_code (x : LaneTy) : LaneTy.ofCode x.code = some x := by cases x <;> rfl

@[simp] theorem LaneTy.code_mod16 (x : LaneTy) : x.code % 16 = x.code := by cases x <;> rfl

@[simp] theorem LaneTy.toNat_code4 (x : LaneTy) : (BitVec.ofNat 4 x.code).toNat = x.code := by cases x <;> rfl

@[simp] theorem LaneTy.code_mod8 (x : LaneTy) : x.code % 8 = x.code := by cases x <;> rfl

@[simp] theorem LaneTy.toNat_code3 (x : LaneTy) : (BitVec.ofNat 3 x.code).toNat = x.code := by cases x <;> rfl

@[simp] theorem Rnd.ofCode_code (x : Rnd) : Rnd.ofCode x.code = some x := by cases x <;> rfl

@[simp] theorem Rnd.code_mod8 (x : Rnd) : x.code % 8 = x.code := by cases x <;> rfl

@[simp] theorem Rnd.toNat_code3 (x : Rnd) : (BitVec.ofNat 3 x.code).toNat = x.code := by cases x <;> rfl

@[simp] theorem Ov.ofCode_code (x : Ov) : Ov.ofCode x.code = some x := by cases x <;> rfl

@[simp] theorem Ov.code_mod4 (x : Ov) : x.code % 4 = x.code := by cases x <;> rfl

@[simp] theorem Ov.toNat_code2 (x : Ov) : (BitVec.ofNat 2 x.code).toNat = x.code := by cases x <;> rfl

@[simp] theorem EFmt.ofCode_code (x : EFmt) : EFmt.ofCode x.code = some x := by cases x <;> rfl

@[simp] theorem EFmt.code_mod16 (x : EFmt) : x.code % 16 = x.code := by cases x <;> rfl

@[simp] theorem EFmt.toNat_code4 (x : EFmt) : (BitVec.ofNat 4 x.code).toNat = x.code := by cases x <;> rfl

@[simp] theorem VCond.ofCode_code (x : VCond) : VCond.ofCode x.code = some x := by cases x <;> rfl

@[simp] theorem VCond.code_mod128 (x : VCond) : x.code % 128 = x.code := by cases x <;> rfl

@[simp] theorem VCond.toNat_code7 (x : VCond) : (BitVec.ofNat 7 x.code).toNat = x.code := by cases x <;> rfl

@[simp] theorem VCond.code_mod8 (x : VCond) : x.code % 8 = x.code := by cases x <;> rfl

@[simp] theorem VCond.toNat_code3 (x : VCond) : (BitVec.ofNat 3 x.code).toNat = x.code := by cases x <;> rfl

@[simp] theorem ViewItem.ofCode_code (x : ViewItem) : ViewItem.ofCode x.code = some x := by cases x <;> rfl

@[simp] theorem ViewItem.code_mod16384 (x : ViewItem) : x.code % 16384 = x.code := by cases x <;> rfl

@[simp] theorem ViewItem.toNat_code14 (x : ViewItem) : (BitVec.ofNat 14 x.code).toNat = x.code := by cases x <;> rfl

@[simp] theorem immOf_field (i : Imm) : immOf i.word i.field = some i := by cases i <;> rfl

@[simp] theorem opndOf_field (x : Opnd) : opndOf x.word x.field = some x := by cases x <;> simp [opndOf, Opnd.word, Opnd.field]

@[simp] theorem Width.code_w64 : Width.w64.code = 0#2 := rfl

@[simp] theorem Width.ofCode_zero : Width.ofCode 0#2 = .w64 := rfl

@[simp] theorem Rnd.code_rne : Rnd.rne.code = 0 := rfl

@[simp] theorem LaneTy.code_f32 : LaneTy.f32.code = 0 := rfl

@[simp] theorem VSrc.code_belt_zero : (VSrc.belt 0#4).code = 0#6 := rfl

@[simp] theorem VSrc.ofCode_zero : VSrc.ofCode 0#6 = some (.belt 0#4) := rfl

@[simp] theorem Src.code_belt_zero : (Src.belt 0#4).code = 0#5 := rfl

@[simp] theorem Src.ofCode_zero : Src.ofCode 0#5 = .belt 0#4 := rfl

@[simp] theorem denOf_none {n : Nat} : denOf (none : Option (BitVec n)) = false := rfl

@[simp] theorem dnOf_none {n : Nat} : dnOf (none : Option (BitVec n)) = 0#n := rfl

@[simp] theorem dstOf_false_zero {n : Nat} : dstOf false (0#n) = some none := by simp [dstOf]

@[simp] theorem TileRef.ofCode_false_zero : TileRef.ofCode false 0#8 = some (.tile 0#8) := rfl

@[simp] theorem TileRef.rg_tile (n : BitVec 8) : (TileRef.tile n).rg = false := rfl

@[simp] theorem TileRef.code_tile (n : BitVec 8) : (TileRef.tile n).code = n := rfl

@[simp] theorem LaneTy.ofCode_zero : LaneTy.ofCode 0 = some .f32 := rfl

@[simp] theorem Rnd.ofCode_zero : Rnd.ofCode 0 = some .rne := rfl

/-! ### Joined fields -/

@[simp] theorem AX.disp_of_extract (disp : BitVec 16) (sa sb : BitVec 5) (rg den : Bool) (dn f : BitVec 4) (m : BitVec 3) :
    AX.disp ⟨sa, sb, disp.extractLsb' 8 8, disp.extractLsb' 0 8, rg, den, dn, f, m⟩ = disp := by
  apply BitVec.eq_of_getLsbD_eq
  intro i hi
  show ((disp.extractLsb' 8 8) ++ (disp.extractLsb' 0 8)).getLsbD i = _
  rw [BitVec.getLsbD_append]
  split
  · simp; omega
  · simp only [BitVec.getLsbD_extractLsb']
    rw [show 8 + (i - 8) = i by omega]
    simp; omega

@[simp] theorem Width.ofCode_joined (s : Bool) (w : Width) :
    Width.ofCode (BitVec.extractLsb' 0 2 (bit1 s ++ w.code : BitVec 3)) = w := by cases s <;> cases w <;> rfl

@[simp] theorem sign_joined (s : Bool) (w : Width) : (bit1 s ++ w.code : BitVec 3)[2] = s := by cases s <;> cases w <;> rfl

@[simp] theorem joined_zero : (bit1 false ++ 0#2 : BitVec 3) = 0#3 := rfl

@[simp] theorem flag4_le (b : Bool) : (0#3 ++ bit1 b : BitVec 4).toNat ≤ 1 := by cases b <;> decide

@[simp] theorem Cond.high_code (c : Cond) : BitVec.extractLsb' 4 12 (BitVec.ofNat 16 c.code) = 0#12 := by cases c <;> rfl

@[simp] theorem VCond.high_code (c : VCond) : BitVec.extractLsb' 3 4 (BitVec.ofNat 7 c.code) = 0#4 := by cases c <;> rfl

@[simp] theorem Cond.code_lt (c : Cond) : c.code < 8 := by cases c <;> decide

@[simp] theorem imm14_lt (x : BitVec 14) : x.toNat < 16384 := x.isLt

@[simp] theorem imm14_of_bits5 (x : BitVec 5) : (0#9 ++ x : BitVec 14).toNat < 32 := by
  have := x.isLt
  rw [BitVec.toNat_append]
  simpa using this

@[simp] theorem imm14_of_bits3 (x : BitVec 3) : (0#11 ++ x : BitVec 14).toNat < 8 := by
  have := x.isLt
  rw [BitVec.toNat_append]
  simpa using this

@[simp] theorem imm14_of_bits2 (x : BitVec 2) : (0#12 ++ x : BitVec 14).toNat < 4 := by
  have := x.isLt
  rw [BitVec.toNat_append]
  simpa using this

@[simp] theorem grp_joined (g : Option (BitVec 4)) :
    (if (grpBit g)[0] = true then some (some (grpField g)) else if grpField g = 0#4 then some none else none) = some g := by
  cases g <;> simp [grpBit, grpField]

/-! ### Checks -/

@[simp] theorem need_true (e : Illegal) (r : Read) : need true e r = r := rfl

@[simp] theorem given_some {α : Type} (a : α) (e : Illegal) (k : α → Read) : given (some a) e k = k a := rfl

theorem accept_of {i : Instr} (h : wellFormed i = true) : accept i = .ok i := by simp [accept, need, h]

/-- A word that decodes in a stream's map decodes from the word its header, OP, LIT and body are joined into. -/
theorem decodeWord_joinWord (st : StreamId) (h : Header) (op : BitVec 8) (lit : Option Word) (body : BitVec 39) :
    decodeWord st (joinWord h op lit.isSome body) (lit.getD 0) = decode st op lit body := by
  cases lit <;> simp [decodeWord]

end Sys2Proof
end

