-- ==== Sys2Proof/Laws/Sparse.lean ====
section
/-! SUPPORT. Laws of sparse arrays: every operation keeps the canonical form; what is read after a write; two arrays in canonical form
that read alike are equal. -/

namespace Sys2Proof.Machine

variable {α : Type}

/-! ### Keys rising -/

/-- Keys strictly rising, as a relation between neighbours. -/
theorem srising_some_iff (b : Nat) (m : Sparse α) : srising (some b) m = true ↔ (∀ p ∈ m, b < p.1) ∧ srising none m = true := by
  induction m generalizing b with
  | nil => simp [srising]
  | cons p r ih =>
    obtain ⟨k, v⟩ := p
    simp only [srising, Bool.and_eq_true, decide_eq_true_eq, ih k, List.mem_cons, forall_eq_or_imp]
    constructor
    · rintro ⟨h1, h2, h3⟩
      exact ⟨⟨h1, fun p hp => Nat.lt_trans h1 (h2 p hp)⟩, h2, h3⟩
    · rintro ⟨⟨h1, _⟩, h2, h3⟩
      exact ⟨h1, h2, h3⟩

theorem srising_cons_iff (p : Nat × α) (m : Sparse α) :
    srising none (p :: m) = true ↔ (∀ q ∈ m, p.1 < q.1) ∧ srising none m = true := by
  obtain ⟨k, v⟩ := p
  exact srising_some_iff k m

theorem srising_append_iff (m n : Sparse α) :
    srising none (m ++ n) = true ↔ srising none m = true ∧ srising none n = true ∧ ∀ p ∈ m, ∀ q ∈ n, p.1 < q.1 := by
  induction m with
  | nil => simp [srising]
  | cons p r ih =>
    rw [List.cons_append, srising_cons_iff, srising_cons_iff, ih]
    constructor
    · rintro ⟨h1, h2, h3, h4⟩
      refine ⟨⟨fun q hq => h1 q (List.mem_append_left _ hq), h2⟩, h3, ?_⟩
      intro a ha b hb
      rcases List.mem_cons.1 ha with rfl | ha
      · exact h1 b (List.mem_append_right _ hb)
      · exact h4 a ha b hb
    · rintro ⟨⟨h1, h2⟩, h3, h4⟩
      refine ⟨?_, h2, h3, fun a ha b hb => h4 a (List.mem_cons_of_mem _ ha) b hb⟩
      intro q hq
      rcases List.mem_append.1 hq with hq | hq
      · exact h1 q hq
      · exact h4 p List.mem_cons_self q hq

theorem srising_filter (m : Sparse α) (f : Nat × α → Bool) (h : srising none m = true) : srising none (m.filter f) = true := by
  induction m with
  | nil => simp [srising]
  | cons p r ih =>
    rw [srising_cons_iff] at h
    by_cases hp : f p = true
    · rw [List.filter_cons_of_pos hp, srising_cons_iff]
      exact ⟨fun q hq => h.1 q ((List.mem_filter.1 hq).1), ih h.2⟩
    · rw [List.filter_cons_of_neg hp]
      exact ih h.2

/-! ### The canonical form -/

variable [DecidableEq α]

theorem swf_iff (d : α) (m : Sparse α) : swf d m = true ↔ srising none m = true ∧ ∀ p ∈ m, p.2 ≠ d := by
  simp [swf]

theorem swf_nil (d : α) : swf d ([] : Sparse α) = true := by simp [swf, srising]

theorem swf_tail {d : α} {p : Nat × α} {m : Sparse α} (h : swf d (p :: m) = true) : swf d m = true := by
  rw [swf_iff] at h ⊢
  exact ⟨((srising_cons_iff p m).1 h.1).2, fun q hq => h.2 q (List.mem_cons_of_mem _ hq)⟩

theorem swf_filter {d : α} {m : Sparse α} (f : Nat × α → Bool) (h : swf d m = true) : swf d (m.filter f) = true := by
  rw [swf_iff] at h ⊢
  exact ⟨srising_filter m f h.1, fun q hq => h.2 q ((List.mem_filter.1 hq).1)⟩

omit [DecidableEq α] in
theorem mem_serase {m : Sparse α} {n : Nat} {p : Nat × α} (h : p ∈ serase m n) : p ∈ m := by
  induction m with
  | nil => simp [serase] at h
  | cons q r ih =>
    obtain ⟨k, v⟩ := q
    simp only [serase] at h
    split at h
    · exact List.mem_cons_of_mem _ (ih h)
    · rcases List.mem_cons.1 h with rfl | h
      · exact List.mem_cons_self
      · exact List.mem_cons_of_mem _ (ih h)

omit [DecidableEq α] in
theorem srising_serase {m : Sparse α} (n : Nat) (h : srising none m = true) : srising none (serase m n) = true := by
  induction m with
  | nil => simp [serase, srising]
  | cons q r ih =>
    obtain ⟨k, v⟩ := q
    rw [srising_cons_iff] at h
    simp only [serase]
    split
    · exact ih h.2
    · rw [srising_cons_iff]
      exact ⟨fun p hp => h.1 p (mem_serase hp), ih h.2⟩

omit [DecidableEq α] in
theorem mem_sinsert {m : Sparse α} {n : Nat} {x : α} {p : Nat × α} (h : p ∈ sinsert m n x) : p = (n, x) ∨ p ∈ m := by
  induction m with
  | nil => simpa [sinsert] using h
  | cons q r ih =>
    obtain ⟨k, v⟩ := q
    simp only [sinsert] at h
    split at h
    · rcases List.mem_cons.1 h with h | h
      · exact .inl h
      · exact .inr h
    · split at h
      · rcases List.mem_cons.1 h with h | h
        · exact .inl h
        · exact .inr (List.mem_cons_of_mem _ h)
      · rcases List.mem_cons.1 h with rfl | h
        · exact .inr List.mem_cons_self
        · rcases ih h with h | h
          · exact .inl h
          · exact .inr (List.mem_cons_of_mem _ h)

omit [DecidableEq α] in
theorem srising_sinsert {m : Sparse α} (n : Nat) (x : α) (h : srising none m = true) : srising none (sinsert m n x) = true := by
  induction m with
  | nil => simp [sinsert, srising]
  | cons q r ih =>
    obtain ⟨k, v⟩ := q
    have h' := h
    rw [srising_cons_iff] at h
    simp only [sinsert]
    split
    · rename_i hn
      rw [srising_cons_iff]
      refine ⟨?_, h'⟩
      intro p hp
      rcases List.mem_cons.1 hp with rfl | hp
      · exact hn
      · exact Nat.lt_trans hn (h.1 p hp)
    · split
      · rename_i hn
        rw [srising_cons_iff]
        exact ⟨fun p hp => by rw [hn]; exact h.1 p hp, h.2⟩
      · rename_i h1 h2
        rw [srising_cons_iff]
        refine ⟨?_, ih h.2⟩
        intro p hp
        rcases mem_sinsert hp with rfl | hp
        · show k < n
          omega
        · exact h.1 p hp

/-- Writing one value keeps the canonical form. -/
theorem swf_sset {d : α} {m : Sparse α} (n : Nat) (x : α) (h : swf d m = true) : swf d (sset d m n x) = true := by
  rw [swf_iff] at h ⊢
  unfold sset
  split
  · exact ⟨srising_serase n h.1, fun p hp => h.2 p (mem_serase hp)⟩
  · rename_i hx
    refine ⟨srising_sinsert n x h.1, ?_⟩
    intro p hp
    rcases mem_sinsert hp with rfl | hp
    · exact hx
    · exact h.2 p hp

theorem sparseOf_keys {d : α} {k : Nat} {xs : List α} {p : Nat × α} (h : p ∈ sparseOf d k xs) :
    k ≤ p.1 ∧ p.1 < k + xs.length ∧ p.2 ≠ d := by
  induction xs generalizing k with
  | nil => simp [sparseOf] at h
  | cons x r ih =>
    simp only [sparseOf] at h
    split at h
    · obtain ⟨h1, h2, h3⟩ := ih h
      exact ⟨by omega, by simp only [List.length_cons]; omega, h3⟩
    · rename_i hx
      rcases List.mem_cons.1 h with rfl | h
      · exact ⟨Nat.le_refl _, by simp only [List.length_cons]; omega, hx⟩
      · obtain ⟨h1, h2, h3⟩ := ih h
        exact ⟨by omega, by simp only [List.length_cons]; omega, h3⟩

/-- A list of values as a sparse array is in canonical form. -/
theorem swf_sparseOf (d : α) (k : Nat) (xs : List α) : swf d (sparseOf d k xs) = true := by
  rw [swf_iff]
  refine ⟨?_, fun p hp => (sparseOf_keys hp).2.2⟩
  induction xs generalizing k with
  | nil => simp [sparseOf, srising]
  | cons x r ih =>
    simp only [sparseOf]
    split
    · exact ih (k + 1)
    · rw [srising_cons_iff]
      exact ⟨fun q hq => by have := (sparseOf_keys hq).1; show k < q.1; omega, ih (k + 1)⟩

/-- Writing a run of values keeps the canonical form. -/
theorem swf_sput {d : α} {m : Sparse α} (a : Nat) (xs : List α) (h : swf d m = true) : swf d (sput d m a xs) = true := by
  have h1 := (swf_iff d _).1 (swf_filter (fun c => decide (c.1 < a)) h)
  have h2 := (swf_iff d _).1 (swf_filter (fun c => decide (a + xs.length ≤ c.1)) h)
  have h3 := (swf_iff d _).1 (swf_sparseOf d a xs)
  rw [swf_iff]
  unfold sput
  refine ⟨?_, ?_⟩
  · rw [srising_append_iff, srising_append_iff]
    refine ⟨h1.1, ⟨h3.1, h2.1, ?_⟩, ?_⟩
    · intro p hp q hq
      have := (sparseOf_keys hp).2.1
      have := (List.mem_filter.1 hq).2
      simp at this
      omega
    · intro p hp q hq
      have hp := (List.mem_filter.1 hp).2
      simp at hp
      rcases List.mem_append.1 hq with hq | hq
      · have := (sparseOf_keys hq).1
        omega
      · have := (List.mem_filter.1 hq).2
        simp at this
        omega
  · intro p hp
    rcases List.mem_append.1 hp with hp | hp
    · exact h1.2 p hp
    · rcases List.mem_append.1 hp with hp | hp
      · exact h3.2 p hp
      · exact h2.2 p hp

/-! ### Reading -/

omit [DecidableEq α] in
theorem sget_of_lt {d : α} {m : Sparse α} {n : Nat} (h : ∀ p ∈ m, n < p.1) : sget d m n = d := by
  induction m with
  | nil => rfl
  | cons q r ih =>
    obtain ⟨k, v⟩ := q
    have hk := h (k, v) List.mem_cons_self
    simp only [sget]
    rw [if_neg (by simp at hk; omega)]
    exact ih fun p hp => h p (List.mem_cons_of_mem _ hp)

omit [DecidableEq α] in
theorem sget_serase (d : α) (m : Sparse α) (n k : Nat) : sget d (serase m n) k = if k = n then d else sget d m k := by
  induction m with
  | nil => simp [serase, sget]
  | cons q r ih =>
    obtain ⟨j, v⟩ := q
    simp only [serase]
    split
    · rename_i hn
      subst hn
      rw [ih]
      by_cases hk : k = n <;> simp [sget, hk]
    · rename_i hn
      simp only [sget, ih]
      by_cases hkj : k = j
      · subst hkj
        simp [Ne.symm hn]
      · simp [hkj]

omit [DecidableEq α] in
theorem sget_sinsert (d : α) (m : Sparse α) (n k : Nat) (x : α) : sget d (sinsert m n x) k = if k = n then x else sget d m k := by
  induction m with
  | nil => simp [sinsert, sget]
  | cons q r ih =>
    obtain ⟨j, v⟩ := q
    simp only [sinsert]
    split
    · simp [sget]
    · split
      · rename_i hn
        subst hn
        by_cases hk : k = n <;> simp [sget, hk]
      · rename_i h1 h2
        simp only [sget, ih]
        by_cases hkj : k = j
        · subst hkj
          simp [Ne.symm h2]
        · simp [hkj]

/-- What is read after a write. -/
theorem sget_sset (d : α) (m : Sparse α) (n k : Nat) (x : α) : sget d (sset d m n x) k = if k = n then x else sget d m k := by
  unfold sset
  split
  · rename_i hx
    rw [sget_serase, hx]
  · exact sget_sinsert d m n k x

omit [DecidableEq α] in
theorem sget_append {d : α} (m n : Sparse α) (k : Nat) (hm : ∀ p ∈ m, p.1 ≠ k) : sget d (m ++ n) k = sget d n k := by
  induction m with
  | nil => rfl
  | cons q r ih =>
    obtain ⟨j, v⟩ := q
    have hj := hm (j, v) List.mem_cons_self
    simp only [List.cons_append, sget]
    rw [if_neg (fun e => hj e.symm)]
    exact ih fun p hp => hm p (List.mem_cons_of_mem _ hp)

omit [DecidableEq α] in
theorem sget_append_left {d : α} (m n : Sparse α) (k : Nat) (hn : ∀ p ∈ n, p.1 ≠ k) : sget d (m ++ n) k = sget d m k := by
  induction m with
  | nil =>
    have := sget_append (d := d) n [] k hn
    simpa [sget] using this
  | cons q r ih =>
    obtain ⟨j, v⟩ := q
    simp only [List.cons_append, sget, ih]

omit [DecidableEq α] in
theorem sget_filter {d : α} (m : Sparse α) (f : Nat → Bool) (k : Nat) :
    sget d (m.filter fun c => f c.1) k = if f k then sget d m k else d := by
  induction m with
  | nil => simp [sget]
  | cons q r ih =>
    obtain ⟨j, v⟩ := q
    by_cases hj : f j = true
    · rw [List.filter_cons_of_pos (by simpa using hj)]
      simp only [sget, ih]
      by_cases hk : k = j
      · subst hk
        simp [hj]
      · simp [hk]
    · rw [List.filter_cons_of_neg (by simpa using hj), ih]
      by_cases hk : k = j
      · subst hk
        simp [hj]
      · simp [sget, hk]

theorem sget_sparseOf (d : α) (a : Nat) (xs : List α) (k : Nat) :
    sget d (sparseOf d a xs) k = if a ≤ k ∧ k < a + xs.length then xs.getD (k - a) d else d := by
  induction xs generalizing a with
  | nil => simp [sparseOf, sget]
  | cons x r ih =>
    have hcons : (if a ≤ k ∧ k < a + (x :: r).length then (x :: r).getD (k - a) d else d) =
        if k = a then x else if a + 1 ≤ k ∧ k < a + 1 + r.length then r.getD (k - (a + 1)) d else d := by
      by_cases hk : k = a
      · subst hk
        simp
      · by_cases h2 : a + 1 ≤ k ∧ k < a + 1 + r.length
        · have e : k - a = (k - (a + 1)) + 1 := by omega
          rw [if_pos (by simp only [List.length_cons]; omega), if_neg hk, if_pos h2, e]
          simp
        · rw [if_neg (by simp only [List.length_cons]; omega), if_neg hk, if_neg h2]
    rw [hcons]
    simp only [sparseOf]
    split
    · rename_i hx
      rw [ih (a + 1)]
      by_cases hk : k = a
      · subst hk
        rw [if_pos rfl, if_neg (by omega), hx]
      · rw [if_neg hk]
    · simp only [sget, ih (a + 1)]

/-- What is read after a run of values is written: inside the run its values, outside it what was there. -/
theorem sget_sput (d : α) (m : Sparse α) (a : Nat) (xs : List α) (k : Nat) :
    sget d (sput d m a xs) k = if a ≤ k ∧ k < a + xs.length then xs.getD (k - a) d else sget d m k := by
  unfold sput
  have hlo : ∀ p ∈ m.filter (fun c => decide (c.1 < a)), p.1 < a := fun p hp => by simpa using (List.mem_filter.1 hp).2
  have hhi : ∀ p ∈ m.filter (fun c => decide (a + xs.length ≤ c.1)), a + xs.length ≤ p.1 := fun p hp => by
    simpa using (List.mem_filter.1 hp).2
  have hmid : ∀ p ∈ sparseOf d a xs, a ≤ p.1 ∧ p.1 < a + xs.length := fun p hp => ⟨(sparseOf_keys hp).1, (sparseOf_keys hp).2.1⟩
  by_cases h1 : k < a
  · rw [sget_append_left _ _ _ (by
      intro p hp
      rcases List.mem_append.1 hp with hp | hp
      · have := (hmid p hp).1; omega
      · have := hhi p hp; omega)]
    rw [sget_filter m (fun c => decide (c < a)) k, if_pos (by simpa using h1), if_neg (by omega)]
  · rw [sget_append _ _ _ (by intro p hp; have := hlo p hp; omega)]
    by_cases h2 : k < a + xs.length
    · rw [sget_append_left _ _ _ (by intro p hp; have := hhi p hp; omega), sget_sparseOf,
        if_pos ⟨by omega, h2⟩, if_pos ⟨by omega, h2⟩]
    · rw [sget_append _ _ _ (by intro p hp; have := (hmid p hp).2; omega)]
      rw [sget_filter m (fun c => decide (a + xs.length ≤ c)) k, if_pos (by simp; omega), if_neg (by omega)]

/-- Two arrays in canonical form that read alike are equal. -/
theorem swf_ext {d : α} {m n : Sparse α} (hm : swf d m = true) (hn : swf d n = true) (h : ∀ k, sget d m k = sget d n k) : m = n := by
  induction m generalizing n with
  | nil =>
    cases n with
    | nil => rfl
    | cons q r =>
      obtain ⟨j, v⟩ := q
      have hv : v ≠ d := ((swf_iff d _).1 hn).2 (j, v) List.mem_cons_self
      have hj := h j
      simp [sget] at hj
      exact absurd hj.symm hv
  | cons p r ih =>
    obtain ⟨k, v⟩ := p
    have hv : v ≠ d := ((swf_iff d _).1 hm).2 (k, v) List.mem_cons_self
    have hmr := (srising_cons_iff _ _).1 ((swf_iff d _).1 hm).1
    cases n with
    | nil =>
      have hk := h k
      simp [sget] at hk
      exact absurd hk hv
    | cons q t =>
      obtain ⟨j, w⟩ := q
      have hw : w ≠ d := ((swf_iff d _).1 hn).2 (j, w) List.mem_cons_self
      have hnr := (srising_cons_iff _ _).1 ((swf_iff d _).1 hn).1
      have hkj : k = j := by
        rcases Nat.lt_trichotomy k j with hlt | heq | hgt
        · have hk := h k
          rw [sget_of_lt (m := (j, w) :: t) (by
            intro p hp
            rcases List.mem_cons.1 hp with rfl | hp
            · exact hlt
            · exact Nat.lt_trans hlt (hnr.1 p hp))] at hk
          simp [sget] at hk
          exact absurd hk hv
        · exact heq
        · have hj := h j
          rw [sget_of_lt (m := (k, v) :: r) (by
            intro p hp
            rcases List.mem_cons.1 hp with rfl | hp
            · exact hgt
            · exact Nat.lt_trans hgt (hmr.1 p hp))] at hj
          simp [sget] at hj
          exact absurd hj.symm hw
      subst hkj
      have hvw : v = w := by simpa [sget] using h k
      subst hvw
      congr 1
      refine ih (swf_tail hm) (swf_tail hn) ?_
      intro x
      by_cases hx : x = k
      · subst hx
        rw [sget_of_lt hmr.1, sget_of_lt hnr.1]
      · simpa [sget, hx] using h x

end Sys2Proof.Machine
end

