-- ==== Sys2Proof/Laws/Mem.lean ====
section
/-! SUPPORT. Laws of byte memories: every operation keeps the canonical form, and what is read after a write. -/

namespace Sys2Proof.Machine

theorem Mem.wf_iff (m : Mem) : m.wf = true ↔ swf 0 m.cells = true ∧ swf none m.marks = true := by
  simp [Mem.wf]

theorem Mem.wf_empty : ({} : Mem).wf = true := by decide

/-! ### Every operation keeps the canonical form -/

theorem Mem.wf_setByte {m : Mem} (a : Nat) (b : BitVec 8) (h : m.wf = true) : (m.setByte a b).wf = true := by
  rw [Mem.wf_iff] at h ⊢
  exact ⟨swf_sset a b h.1, h.2⟩

theorem Mem.wf_setMark {m : Mem} (u : Nat) (k : Mark) (h : m.wf = true) : (m.setMark u k).wf = true := by
  rw [Mem.wf_iff] at h ⊢
  exact ⟨h.1, swf_sset u k h.2⟩

theorem Mem.wf_write {m : Mem} (a : Nat) (bs : List (BitVec 8)) (h : m.wf = true) : (m.write a bs).wf = true := by
  rw [Mem.wf_iff] at h ⊢
  exact ⟨swf_sput a bs h.1, h.2⟩

theorem Mem.wf_merge {m : Mem} (a : Nat) (bs : List (Option (BitVec 8))) (h : m.wf = true) : (m.merge a bs).wf = true :=
  Mem.wf_write _ _ h

theorem Mem.wf_zero {m : Mem} (a n : Nat) (h : m.wf = true) : (m.zero a n).wf = true := by
  rw [Mem.wf_iff] at h ⊢
  exact ⟨swf_filter _ h.1, h.2⟩

theorem Mem.wf_clean {m : Mem} (u n : Nat) (h : m.wf = true) : (m.clean u n).wf = true := by
  rw [Mem.wf_iff] at h ⊢
  exact ⟨h.1, swf_filter _ h.2⟩

theorem Mem.wf_spWord {m : Mem} (u : Nat) (bs : List (Option (BitVec 8))) (k : Mark) (h : m.wf = true) :
    (m.spWord u bs k).wf = true := by
  unfold Mem.spWord
  split
  · exact h
  · split
    · split
      · exact Mem.wf_setMark _ _ (Mem.wf_zero _ _ h)
      · exact Mem.wf_setMark _ _ (Mem.wf_merge _ _ h)
    · exact h

theorem Mem.wf_spStore {m : Mem} (a : Nat) (bs : List (BitVec 8)) (k : Mark) (h : m.wf = true) : (m.spStore a bs k).wf = true :=
  Mem.wf_spWord _ _ _ h

theorem Mem.wf_spWords {m : Mem} (a : Nat) (ws : List (Word × Mark)) (h : m.wf = true) : (m.spWords a ws).wf = true := by
  induction ws generalizing m a with
  | nil => exact h
  | cons p r ih => exact ih (a + 8) (Mem.wf_spWord _ _ _ h)

theorem Mem.wf_spBytesAt {m : Mem} (a : Nat) (bs : List (BitVec 8 × Mark)) (h : m.wf = true) : (m.spBytesAt a bs).wf = true := by
  have fold : ∀ (l : List Nat) (f : Mem → Nat → Mem), (∀ x i, x.wf = true → (f x i).wf = true) → ∀ x : Mem, x.wf = true →
      (l.foldl f x).wf = true := by
    intro l f hf
    induction l with
    | nil => exact fun _ hx => hx
    | cons i r ih => exact fun x hx => ih _ (hf x i hx)
  exact fold _ _ (fun x i hx => Mem.wf_spWord _ _ _ hx) m h

theorem Mem.wf_setGran {m : Mem} (u : Nat) (bs : List (BitVec 8)) (k : Mark) (h : m.wf = true) : (m.setGran u bs k).wf = true :=
  Mem.wf_setMark _ _ (Mem.wf_write _ _ h)

theorem Mem.wf_lineWrite {m : Mem} (l : Nat) (bs : List (Option (BitVec 8))) (k : Mark) (n : Nat) (h : m.wf = true) :
    (m.lineWrite l bs k n).wf = true := by
  unfold Mem.lineWrite
  split
  · exact Mem.wf_setMark _ _ (Mem.wf_write _ _ h)
  · split
    · exact Mem.wf_setMark _ _ (Mem.wf_merge _ _ h)
    · split
      · exact Mem.wf_write _ _ h
      · exact Mem.wf_merge _ _ h

theorem Mem.wf_linePoison {m : Mem} (l : Nat) (t : Tag) (n : Nat) (h : m.wf = true) : (m.linePoison l t n).wf = true :=
  Mem.wf_setMark _ _ (Mem.wf_write _ _ h)

/-! ### Reading after writing -/

theorem Mem.byte_setByte (m : Mem) (a x : Nat) (b : BitVec 8) : (m.setByte a b).byte x = if x = a then b else m.byte x :=
  sget_sset 0 m.cells a x b

theorem Mem.mark_setMark (m : Mem) (u x : Nat) (k : Mark) : (m.setMark u k).mark x = if x = u then k else m.mark x :=
  sget_sset none m.marks u x k

@[simp] theorem Mem.byte_setMark (m : Mem) (u x : Nat) (k : Mark) : (m.setMark u k).byte x = m.byte x := rfl

@[simp] theorem Mem.mark_write (m : Mem) (a x : Nat) (bs : List (BitVec 8)) : (m.write a bs).mark x = m.mark x := rfl

@[simp] theorem Mem.mark_setByte (m : Mem) (a x : Nat) (b : BitVec 8) : (m.setByte a b).mark x = m.mark x := rfl

@[simp] theorem Mem.mark_zero (m : Mem) (a n x : Nat) : (m.zero a n).mark x = m.mark x := rfl

/-- A byte after a string is written: inside the string its byte, outside it what was there. -/
theorem Mem.byte_write (m : Mem) (a x : Nat) (bs : List (BitVec 8)) :
    (m.write a bs).byte x = if a ≤ x ∧ x < a + bs.length then bs.getD (x - a) 0 else m.byte x :=
  sget_sput 0 m.cells a bs x

theorem Mem.byte_write_outside {m : Mem} {a x : Nat} {bs : List (BitVec 8)} (h : x < a ∨ a + bs.length ≤ x) :
    (m.write a bs).byte x = m.byte x := by
  rw [Mem.byte_write, if_neg (by omega)]

theorem Mem.byte_zero (m : Mem) (a n x : Nat) : (m.zero a n).byte x = if a ≤ x ∧ x < a + n then 0 else m.byte x := by
  have h := sget_filter (d := (0 : BitVec 8)) m.cells (fun c => !(decide (a ≤ c) && decide (c < a + n))) x
  show sget 0 (m.cells.filter fun c => !(decide (a ≤ c.1) && decide (c.1 < a + n))) x = _
  rw [h]
  by_cases hx : a ≤ x ∧ x < a + n
  · simp [hx]
  · rw [if_pos (by simp; omega), if_neg hx]
    rfl

theorem sdense_eq {α : Type} (d : α) (n : Nat) : ∀ (k : Nat) (m : Sparse α), srising none m = true → (∀ p ∈ m, k ≤ p.1) →
    sdense d n k m = (List.range n).map fun i => sget d m (k + i) := by
  induction n with
  | zero => intro k m _ _; simp [sdense]
  | succ n ih =>
    intro k m hm hk
    rw [List.range_succ_eq_map]
    cases m with
    | nil =>
      simp only [sdense, List.map_cons, List.map_map, sget]
      rw [ih (k + 1) [] (by simp [srising]) (by simp)]
      simp [sget, Function.comp_def]
    | cons p r =>
      obtain ⟨j, v⟩ := p
      have hr := (srising_cons_iff _ _).1 hm
      have hj := hk (j, v) List.mem_cons_self
      simp only [sdense, List.map_cons, List.map_map, Nat.add_zero]
      split
      · rename_i e
        subst e
        rw [ih (j + 1) r hr.2 (fun p hp => hr.1 p hp)]
        congr 1
        · simp [sget]
        · apply List.map_congr_left
          intro i _
          simp only [Function.comp_def, sget]
          rw [if_neg (by omega), Nat.succ_eq_add_one, Nat.add_assoc, Nat.add_comm 1 i]
      · rename_i e
        have hjk : k < j := by simp at hj; omega
        rw [ih (k + 1) ((j, v) :: r) hm (fun p hp => by
          rcases List.mem_cons.1 hp with rfl | hp
          · exact hjk
          · exact Nat.lt_trans hjk (hr.1 p hp))]
        congr 1
        · rw [sget_of_lt]
          intro p hp
          rcases List.mem_cons.1 hp with rfl | hp
          · exact hjk
          · exact Nat.lt_trans hjk (hr.1 p hp)
        · apply List.map_congr_left
          intro i _
          simp only [Function.comp_def]
          rw [Nat.succ_eq_add_one, Nat.add_assoc, Nat.add_comm 1 i]

theorem sget_swin {α : Type} (d : α) (m : Sparse α) (a n x : Nat) (h : a ≤ x ∧ x < a + n) : sget d (swin m a n) x = sget d m x := by
  have e := sget_filter (d := d) m (fun c => decide (a ≤ c) && decide (c < a + n)) x
  show sget d (m.filter fun c => decide (a ≤ c.1) && decide (c.1 < a + n)) x = _
  rw [e, if_pos (by simp; exact h)]

/-- A run read at once is its values one by one. -/
theorem sread_eq {α : Type} (d : α) (m : Sparse α) (a n : Nat) : sread d m a n = (List.range n).map fun i => sget d m (a + i) := by
  have one : ∀ i ∈ List.range n, sget d (swin m a n) (a + i) = sget d m (a + i) := fun i hi =>
    sget_swin d m a n (a + i) (by have := List.mem_range.1 hi; omega)
  unfold sread
  by_cases h : srising none (swin m a n) = true
  · simp only [h, if_true]
    rw [sdense_eq d n a _ h (by
      intro p hp
      have := (List.mem_filter.1 hp).2
      simp at this
      exact this.1)]
    exact List.map_congr_left one
  · simp only [h, Bool.false_eq_true, if_false]
    exact List.map_congr_left one

/-- Reading n bytes is reading each. -/
theorem Mem.read_eq (m : Mem) (a n : Nat) : m.read a n = (List.range n).map fun i => m.byte (a + i) := sread_eq 0 m.cells a n

@[simp] theorem Mem.length_read (m : Mem) (a n : Nat) : (m.read a n).length = n := by simp [Mem.read_eq]

/-- A string read back where it was written. -/
theorem Mem.read_write (m : Mem) (a : Nat) (bs : List (BitVec 8)) : (m.write a bs).read a bs.length = bs := by
  rw [Mem.read_eq]
  apply List.ext_getElem
  · simp
  · intro i h1 h2
    simp only [List.getElem_map, List.getElem_range, Mem.byte_write]
    rw [if_pos (by omega), Nat.add_sub_cancel_left]
    simp [List.getD_eq_getElem?_getD, h2]

/-- A string read elsewhere than where one was written. -/
theorem Mem.read_write_of_disjoint {m : Mem} {a b n : Nat} {bs : List (BitVec 8)} (h : b + n ≤ a ∨ a + bs.length ≤ b) :
    (m.write a bs).read b n = m.read b n := by
  simp only [Mem.read_eq]
  apply List.map_congr_left
  intro i hi
  have := List.mem_range.1 hi
  exact Mem.byte_write_outside (by omega)

/-- Two memories in canonical form that read alike, bytes and marks, are equal. -/
theorem Mem.ext_read {m n : Mem} (hm : m.wf = true) (hn : n.wf = true) (hb : ∀ a, m.byte a = n.byte a) (hk : ∀ u, m.mark u = n.mark u) :
    m = n := by
  rw [Mem.wf_iff] at hm hn
  cases m
  cases n
  simp only [Mem.mk.injEq]
  exact ⟨swf_ext hm.1 hn.1 hb, swf_ext hm.2 hn.2 hk⟩

end Sys2Proof.Machine
end

