-- ==== Sys2Proof/Laws/PerInstr.lean ====
section
/-! SUPPORT. Statements made for every instruction, one lemma per constructor: the family RoundTrip, by which an instruction's words decode
to it. -/

namespace Sys2Proof.Laws.RoundTrip

/-- The words of a well-formed instruction decode to it. -/
def Statement (i : Instr) : Prop := DecodesBack i

theorem nop : Statement (.nop) := by
  intro hw
  refine ⟨by decide, fun st hst hdr => ?_⟩
  rw [decodeWord_joinWord]
  have e : ∀ l b, decode st 0x00 l b =
        need l.isNone .literal (need (b == 0) .reserved (.ok .nop)) := by
    intro l b
    rcases (by simpa [scalarStreams, allStreams] using hst : st = .c ∨ st = .a) with rfl | rfl <;> rfl
  rw [e]
  simp

theorem add (ws : WS) (x y : Src) (d : Dst) : Statement (.add ws x y d) := by
  intro hw
  refine ⟨by decide, fun st hst hdr => ?_⟩
  rw [decodeWord_joinWord]
  have e : ∀ l b, decode st 0x10 l b =
        let f := S3.unpack b
        s3Binary l f .add := by
    intro l b
    rcases (by simpa [scalarStreams, allStreams] using hst : st = .c ∨ st = .a) with rfl | rfl <;> rfl
  rw [e]
  simp only [S3.unpack_pack]
  simp [s3Binary, accept_of hw]

theorem sub (ws : WS) (x y : Src) (d : Dst) : Statement (.sub ws x y d) := by
  intro hw
  refine ⟨by decide, fun st hst hdr => ?_⟩
  rw [decodeWord_joinWord]
  have e : ∀ l b, decode st 0x11 l b =
        let f := S3.unpack b
        s3Binary l f .sub := by
    intro l b
    rcases (by simpa [scalarStreams, allStreams] using hst : st = .c ∨ st = .a) with rfl | rfl <;> rfl
  rw [e]
  simp only [S3.unpack_pack]
  simp [s3Binary, accept_of hw]

theorem mul (ws : WS) (x y : Src) (d : Dst) : Statement (.mul ws x y d) := by
  intro hw
  refine ⟨by decide, fun st hst hdr => ?_⟩
  rw [decodeWord_joinWord]
  have e : ∀ l b, decode st 0x12 l b =
        let f := S3.unpack b
        s3Binary l f .mul := by
    intro l b
    rcases (by simpa [scalarStreams, allStreams] using hst : st = .c ∨ st = .a) with rfl | rfl <;> rfl
  rw [e]
  simp only [S3.unpack_pack]
  simp [s3Binary, accept_of hw]

theorem mulh (ws : WS) (x y : Src) (d : Dst) : Statement (.mulh ws x y d) := by
  intro hw
  refine ⟨by decide, fun st hst hdr => ?_⟩
  rw [decodeWord_joinWord]
  have e : ∀ l b, decode st 0x13 l b =
        let f := S3.unpack b
        s3Binary l f .mulh := by
    intro l b
    rcases (by simpa [scalarStreams, allStreams] using hst : st = .c ∨ st = .a) with rfl | rfl <;> rfl
  rw [e]
  simp only [S3.unpack_pack]
  simp [s3Binary, accept_of hw]

theorem div (ws : WS) (x y : Src) (d : Dst) : Statement (.div ws x y d) := by
  intro hw
  refine ⟨by decide, fun st hst hdr => ?_⟩
  rw [decodeWord_joinWord]
  have e : ∀ l b, decode st 0x14 l b =
        let f := S3.unpack b
        s3Binary l f .div := by
    intro l b
    rcases (by simpa [scalarStreams, allStreams] using hst : st = .c ∨ st = .a) with rfl | rfl <;> rfl
  rw [e]
  simp only [S3.unpack_pack]
  simp [s3Binary, accept_of hw]

theorem rem (ws : WS) (x y : Src) (d : Dst) : Statement (.rem ws x y d) := by
  intro hw
  refine ⟨by decide, fun st hst hdr => ?_⟩
  rw [decodeWord_joinWord]
  have e : ∀ l b, decode st 0x15 l b =
        let f := S3.unpack b
        s3Binary l f .rem := by
    intro l b
    rcases (by simpa [scalarStreams, allStreams] using hst : st = .c ∨ st = .a) with rfl | rfl <;> rfl
  rw [e]
  simp only [S3.unpack_pack]
  simp [s3Binary, accept_of hw]

theorem and (ws : WS) (x y : Src) (d : Dst) : Statement (.and ws x y d) := by
  intro hw
  refine ⟨by decide, fun st hst hdr => ?_⟩
  rw [decodeWord_joinWord]
  have e : ∀ l b, decode st 0x16 l b =
        let f := S3.unpack b
        s3Binary l f .and := by
    intro l b
    rcases (by simpa [scalarStreams, allStreams] using hst : st = .c ∨ st = .a) with rfl | rfl <;> rfl
  rw [e]
  simp only [S3.unpack_pack]
  simp [s3Binary, accept_of hw]

theorem or (ws : WS) (x y : Src) (d : Dst) : Statement (.or ws x y d) := by
  intro hw
  refine ⟨by decide, fun st hst hdr => ?_⟩
  rw [decodeWord_joinWord]
  have e : ∀ l b, decode st 0x17 l b =
        let f := S3.unpack b
        s3Binary l f .or := by
    intro l b
    rcases (by simpa [scalarStreams, allStreams] using hst : st = .c ∨ st = .a) with rfl | rfl <;> rfl
  rw [e]
  simp only [S3.unpack_pack]
  simp [s3Binary, accept_of hw]

theorem xor (ws : WS) (x y : Src) (d : Dst) : Statement (.xor ws x y d) := by
  intro hw
  refine ⟨by decide, fun st hst hdr => ?_⟩
  rw [decodeWord_joinWord]
  have e : ∀ l b, decode st 0x18 l b =
        let f := S3.unpack b
        s3Binary l f .xor := by
    intro l b
    rcases (by simpa [scalarStreams, allStreams] using hst : st = .c ∨ st = .a) with rfl | rfl <;> rfl
  rw [e]
  simp only [S3.unpack_pack]
  simp [s3Binary, accept_of hw]

theorem andn (ws : WS) (x y : Src) (d : Dst) : Statement (.andn ws x y d) := by
  intro hw
  refine ⟨by decide, fun st hst hdr => ?_⟩
  rw [decodeWord_joinWord]
  have e : ∀ l b, decode st 0x19 l b =
        let f := S3.unpack b
        s3Binary l f .andn := by
    intro l b
    rcases (by simpa [scalarStreams, allStreams] using hst : st = .c ∨ st = .a) with rfl | rfl <;> rfl
  rw [e]
  simp only [S3.unpack_pack]
  simp [s3Binary, accept_of hw]

theorem shl (ws : WS) (x y : Src) (d : Dst) : Statement (.shl ws x y d) := by
  intro hw
  refine ⟨by decide, fun st hst hdr => ?_⟩
  rw [decodeWord_joinWord]
  have e : ∀ l b, decode st 0x1A l b =
        let f := S3.unpack b
        s3Binary l f .shl := by
    intro l b
    rcases (by simpa [scalarStreams, allStreams] using hst : st = .c ∨ st = .a) with rfl | rfl <;> rfl
  rw [e]
  simp only [S3.unpack_pack]
  simp [s3Binary, accept_of hw]

theorem shr (ws : WS) (x y : Src) (d : Dst) : Statement (.shr ws x y d) := by
  intro hw
  refine ⟨by decide, fun st hst hdr => ?_⟩
  rw [decodeWord_joinWord]
  have e : ∀ l b, decode st 0x1B l b =
        let f := S3.unpack b
        s3Binary l f .shr := by
    intro l b
    rcases (by simpa [scalarStreams, allStreams] using hst : st = .c ∨ st = .a) with rfl | rfl <;> rfl
  rw [e]
  simp only [S3.unpack_pack]
  simp [s3Binary, accept_of hw]

theorem sar (ws : WS) (x y : Src) (d : Dst) : Statement (.sar ws x y d) := by
  intro hw
  refine ⟨by decide, fun st hst hdr => ?_⟩
  rw [decodeWord_joinWord]
  have e : ∀ l b, decode st 0x1C l b =
        let f := S3.unpack b
        s3Binary l f .sar := by
    intro l b
    rcases (by simpa [scalarStreams, allStreams] using hst : st = .c ∨ st = .a) with rfl | rfl <;> rfl
  rw [e]
  simp only [S3.unpack_pack]
  simp [s3Binary, accept_of hw]

theorem rot (ws : WS) (x y : Src) (d : Dst) : Statement (.rot ws x y d) := by
  intro hw
  refine ⟨by decide, fun st hst hdr => ?_⟩
  rw [decodeWord_joinWord]
  have e : ∀ l b, decode st 0x1D l b =
        let f := S3.unpack b
        s3Binary l f .rot := by
    intro l b
    rcases (by simpa [scalarStreams, allStreams] using hst : st = .c ∨ st = .a) with rfl | rfl <;> rfl
  rw [e]
  simp only [S3.unpack_pack]
  simp [s3Binary, accept_of hw]

theorem min (ws : WS) (x y : Src) (d : Dst) : Statement (.min ws x y d) := by
  intro hw
  refine ⟨by decide, fun st hst hdr => ?_⟩
  rw [decodeWord_joinWord]
  have e : ∀ l b, decode st 0x1E l b =
        let f := S3.unpack b
        s3Binary l f .min := by
    intro l b
    rcases (by simpa [scalarStreams, allStreams] using hst : st = .c ∨ st = .a) with rfl | rfl <;> rfl
  rw [e]
  simp only [S3.unpack_pack]
  simp [s3Binary, accept_of hw]

theorem max (ws : WS) (x y : Src) (d : Dst) : Statement (.max ws x y d) := by
  intro hw
  refine ⟨by decide, fun st hst hdr => ?_⟩
  rw [decodeWord_joinWord]
  have e : ∀ l b, decode st 0x1F l b =
        let f := S3.unpack b
        s3Binary l f .max := by
    intro l b
    rcases (by simpa [scalarStreams, allStreams] using hst : st = .c ∨ st = .a) with rfl | rfl <;> rfl
  rw [e]
  simp only [S3.unpack_pack]
  simp [s3Binary, accept_of hw]

theorem cmp (c : Cond) (ws : WS) (x y : Src) (d : Dst) : Statement (.cmp c ws x y d) := by
  intro hw
  refine ⟨by decide, fun st hst hdr => ?_⟩
  rw [decodeWord_joinWord]
  have e : ∀ l b, decode st 0x20 l b =
        let f := S3.unpack b
        
        need l.isNone .literal <| need (f.sc == 0 && f.x.extractLsb' 4 12 == 0) .reserved <|
        given (Cond.ofCode (f.x.extractLsb' 0 4).toNat) .code fun c => given (dstOf f.den f.dn) .reserved fun d =>
        accept (.cmp c ⟨Width.ofCode f.w, f.s⟩ (Src.ofCode f.sa) (Src.ofCode f.sb) d) := by
    intro l b
    rcases (by simpa [scalarStreams, allStreams] using hst : st = .c ∨ st = .a) with rfl | rfl <;> rfl
  rw [e]
  simp only [S3.unpack_pack]
  repeat first
    | rw [extract_hi (by decide)] | rw [extract_lo (by decide)] | rw [bit_hi (by decide)] | rw [bit_lo (by decide)]
  simp [accept_of hw]

theorem sel (c x y : Src) (d : Dst) : Statement (.sel c x y d) := by
  intro hw
  refine ⟨by decide, fun st hst hdr => ?_⟩
  rw [decodeWord_joinWord]
  have e : ∀ l b, decode st 0x21 l b =
        let f := S3.unpack b
        s3Plain l f true true true true fun d => need (f.x == 0) .reserved
          (accept (.sel (Src.ofCode f.sa) (Src.ofCode f.sb) (Src.ofCode f.sc) d)) := by
    intro l b
    rcases (by simpa [scalarStreams, allStreams] using hst : st = .c ∨ st = .a) with rfl | rfl <;> rfl
  rw [e]
  simp only [noWS, S3.unpack_pack]
  simp [s3Plain, accept_of hw]

theorem clz (ws : WS) (x : Src) (d : Dst) : Statement (.clz ws x d) := by
  intro hw
  refine ⟨by decide, fun st hst hdr => ?_⟩
  rw [decodeWord_joinWord]
  have e : ∀ l b, decode st 0x22 l b =
        let f := S3.unpack b
        s3Unary l f .clz := by
    intro l b
    rcases (by simpa [scalarStreams, allStreams] using hst : st = .c ∨ st = .a) with rfl | rfl <;> rfl
  rw [e]
  simp only [S3.unpack_pack]
  simp [s3Unary, accept_of hw]

theorem popc (ws : WS) (x : Src) (d : Dst) : Statement (.popc ws x d) := by
  intro hw
  refine ⟨by decide, fun st hst hdr => ?_⟩
  rw [decodeWord_joinWord]
  have e : ∀ l b, decode st 0x23 l b =
        let f := S3.unpack b
        s3Unary l f .popc := by
    intro l b
    rcases (by simpa [scalarStreams, allStreams] using hst : st = .c ∨ st = .a) with rfl | rfl <;> rfl
  rw [e]
  simp only [S3.unpack_pack]
  simp [s3Unary, accept_of hw]

theorem bext (s : Bool) (x : Src) (pos len1 : BitVec 6) (d : Dst) : Statement (.bext s x pos len1 d) := by
  intro hw
  refine ⟨by decide, fun st hst hdr => ?_⟩
  rw [decodeWord_joinWord]
  have e : ∀ l b, decode st 0x24 l b =
        let f := S3.unpack b
        
        need l.isNone .literal <| need (f.sb == 0 && f.sc == 0 && f.w == 0 && f.x.extractLsb' 12 4 == 0) .reserved <|
        given (dstOf f.den f.dn) .reserved fun d =>
        accept (.bext f.s (Src.ofCode f.sa) (f.x.extractLsb' 6 6) (f.x.extractLsb' 0 6) d) := by
    intro l b
    rcases (by simpa [scalarStreams, allStreams] using hst : st = .c ∨ st = .a) with rfl | rfl <;> rfl
  rw [e]
  simp only [S3.unpack_pack]
  repeat first
    | rw [extract_hi (by decide)] | rw [extract_lo (by decide)] | rw [bit_hi (by decide)] | rw [bit_lo (by decide)]
  simp [accept_of hw]

theorem bins (x v sh : Src) (pos len1 : BitVec 6) (d : Dst) : Statement (.bins x v sh pos len1 d) := by
  intro hw
  refine ⟨by decide, fun st hst hdr => ?_⟩
  rw [decodeWord_joinWord]
  have e : ∀ l b, decode st 0x25 l b =
        let f := S3.unpack b
        s3Plain l f true true true true fun d => need (f.x.extractLsb' 12 4 == 0) .reserved
          (accept (.bins (Src.ofCode f.sa) (Src.ofCode f.sb) (Src.ofCode f.sc) (f.x.extractLsb' 6 6) (f.x.extractLsb' 0 6) d)) := by
    intro l b
    rcases (by simpa [scalarStreams, allStreams] using hst : st = .c ∨ st = .a) with rfl | rfl <;> rfl
  rw [e]
  simp only [noWS, S3.unpack_pack]
  repeat first
    | rw [extract_hi (by decide)] | rw [extract_lo (by decide)] | rw [bit_hi (by decide)] | rw [bit_lo (by decide)]
  simp [s3Plain, accept_of hw]

theorem ext (ws : WS) (x : Src) (d : Dst) : Statement (.ext ws x d) := by
  intro hw
  refine ⟨by decide, fun st hst hdr => ?_⟩
  rw [decodeWord_joinWord]
  have e : ∀ l b, decode st 0x26 l b =
        let f := S3.unpack b
        s3Unary l f .ext := by
    intro l b
    rcases (by simpa [scalarStreams, allStreams] using hst : st = .c ∨ st = .a) with rfl | rfl <;> rfl
  rw [e]
  simp only [S3.unpack_pack]
  simp [s3Unary, accept_of hw]

theorem lea (x y z : Src) (k : BitVec 3) (d : Dst) : Statement (.lea x y z k d) := by
  intro hw
  refine ⟨by decide, fun st hst hdr => ?_⟩
  rw [decodeWord_joinWord]
  have e : ∀ l b, decode st 0x27 l b =
        let f := S3.unpack b
        s3Plain l f true true true true fun d => need (f.x.extractLsb' 3 13 == 0) .reserved
          (accept (.lea (Src.ofCode f.sa) (Src.ofCode f.sb) (Src.ofCode f.sc) (f.x.extractLsb' 0 3) d)) := by
    intro l b
    rcases (by simpa [scalarStreams, allStreams] using hst : st = .c ∨ st = .a) with rfl | rfl <;> rfl
  rw [e]
  simp only [noWS, S3.unpack_pack]
  repeat first
    | rw [extract_hi (by decide)] | rw [extract_lo (by decide)] | rw [bit_hi (by decide)] | rw [bit_lo (by decide)]
  simp [s3Plain, accept_of hw]

theorem mov (x : Src) (d : Dst) : Statement (.mov x d) := by
  intro hw
  refine ⟨by decide, fun st hst hdr => ?_⟩
  rw [decodeWord_joinWord]
  have e : ∀ l b, decode st 0x28 l b =
        let f := S3.unpack b
        s3Plain l f true false false true fun d => need (f.x == 0) .reserved (accept (.mov (Src.ofCode f.sa) d)) := by
    intro l b
    rcases (by simpa [scalarStreams, allStreams] using hst : st = .c ∨ st = .a) with rfl | rfl <;> rfl
  rw [e]
  simp only [noWS, S3.unpack_pack]
  simp [s3Plain, accept_of hw]

theorem addi (ws : WS) (x : Src) (i : Imm) (d : Dst) : Statement (.addi ws x i d) := by
  intro hw
  refine ⟨by decide, fun st hst hdr => ?_⟩
  rw [decodeWord_joinWord]
  have e : ∀ l b, decode st 0x29 l b =
        let g := SI.unpack b
        siImm l g .addi := by
    intro l b
    rcases (by simpa [scalarStreams, allStreams] using hst : st = .c ∨ st = .a) with rfl | rfl <;> rfl
  rw [e]
  simp only [SI.unpack_pack]
  simp [siImm, accept_of hw]

theorem andi (ws : WS) (x : Src) (i : Imm) (d : Dst) : Statement (.andi ws x i d) := by
  intro hw
  refine ⟨by decide, fun st hst hdr => ?_⟩
  rw [decodeWord_joinWord]
  have e : ∀ l b, decode st 0x2A l b =
        let g := SI.unpack b
        siImm l g .andi := by
    intro l b
    rcases (by simpa [scalarStreams, allStreams] using hst : st = .c ∨ st = .a) with rfl | rfl <;> rfl
  rw [e]
  simp only [SI.unpack_pack]
  simp [siImm, accept_of hw]

theorem ori (ws : WS) (x : Src) (i : Imm) (d : Dst) : Statement (.ori ws x i d) := by
  intro hw
  refine ⟨by decide, fun st hst hdr => ?_⟩
  rw [decodeWord_joinWord]
  have e : ∀ l b, decode st 0x2B l b =
        let g := SI.unpack b
        siImm l g .ori := by
    intro l b
    rcases (by simpa [scalarStreams, allStreams] using hst : st = .c ∨ st = .a) with rfl | rfl <;> rfl
  rw [e]
  simp only [SI.unpack_pack]
  simp [siImm, accept_of hw]

theorem xori (ws : WS) (x : Src) (i : Imm) (d : Dst) : Statement (.xori ws x i d) := by
  intro hw
  refine ⟨by decide, fun st hst hdr => ?_⟩
  rw [decodeWord_joinWord]
  have e : ∀ l b, decode st 0x2C l b =
        let g := SI.unpack b
        siImm l g .xori := by
    intro l b
    rcases (by simpa [scalarStreams, allStreams] using hst : st = .c ∨ st = .a) with rfl | rfl <;> rfl
  rw [e]
  simp only [SI.unpack_pack]
  simp [siImm, accept_of hw]

theorem shi (k : ShiftKind) (ws : WS) (x : Src) (i : Imm) (d : Dst) : Statement (.shi k ws x i d) := by
  intro hw
  refine ⟨by decide, fun st hst hdr => ?_⟩
  rw [decodeWord_joinWord]
  have e : ∀ l b, decode st 0x2D l b =
        let g := SI.unpack b
        
        given (ShiftKind.ofCode g.cnd.toNat) .code fun k => given (immOf l g.imm) .reserved fun i =>
        given (dstOf g.den g.dn) .reserved fun d => accept (.shi k ⟨Width.ofCode g.w, g.s⟩ (Src.ofCode g.sa) i d) := by
    intro l b
    rcases (by simpa [scalarStreams, allStreams] using hst : st = .c ∨ st = .a) with rfl | rfl <;> rfl
  rw [e]
  simp only [SI.unpack_pack]
  simp [accept_of hw]

theorem cmpi (c : Cond) (ws : WS) (x : Src) (i : Imm) (d : Dst) : Statement (.cmpi c ws x i d) := by
  intro hw
  refine ⟨by decide, fun st hst hdr => ?_⟩
  rw [decodeWord_joinWord]
  have e : ∀ l b, decode st 0x2E l b =
        let g := SI.unpack b
        
        given (Cond.ofCode g.cnd.toNat) .code fun c => given (immOf l g.imm) .reserved fun i =>
        given (dstOf g.den g.dn) .reserved fun d => accept (.cmpi c ⟨Width.ofCode g.w, g.s⟩ (Src.ofCode g.sa) i d) := by
    intro l b
    rcases (by simpa [scalarStreams, allStreams] using hst : st = .c ∨ st = .a) with rfl | rfl <;> rfl
  rw [e]
  simp only [SI.unpack_pack]
  simp [accept_of hw]

theorem lit (ws : WS) (i : Imm) (d : Dst) : Statement (.lit ws i d) := by
  intro hw
  refine ⟨by decide, fun st hst hdr => ?_⟩
  rw [decodeWord_joinWord]
  have e : ∀ l b, decode st 0x2F l b =
        let g := SI.unpack b
        
        need (g.sa == 0 && g.cnd == 0) .reserved <| given (immOf l g.imm) .reserved fun i =>
        given (dstOf g.den g.dn) .reserved fun d => accept (.lit ⟨Width.ofCode g.w, g.s⟩ i d) := by
    intro l b
    rcases (by simpa [scalarStreams, allStreams] using hst : st = .c ∨ st = .a) with rfl | rfl <;> rfl
  rw [e]
  simp only [SI.unpack_pack]
  simp [accept_of hw]

theorem b (off : BitVec 24) : Statement (.b off) := by
  intro hw
  refine ⟨by decide, fun st hst hdr => ?_⟩
  rw [decodeWord_joinWord]
  have e : ∀ l b, decode st 0x40 l b =
        let f := SB.unpack b
        sbForm l f false false true (.ok (.b f.off)) := by
    intro l b
    rcases (by simpa [scalarStreams, allStreams] using hst : st = .c ∨ st = .a ∨ st = .v ∨ st = .m) with rfl | rfl | rfl | rfl <;> rfl
  rw [e]
  simp only [SB.unpack_pack]
  simp [sbForm]

theorem bc (c : BcCond) (x : Src) (off : BitVec 24) : Statement (.bc c x off) := by
  intro hw
  refine ⟨by decide, fun st hst hdr => ?_⟩
  rw [decodeWord_joinWord]
  have e : ∀ l b, decode st 0x41 l b =
        let f := SB.unpack b
        sbForm l f true true true (given (BcCond.ofCode f.k.toNat) .code fun c => .ok (.bc c (Src.ofCode f.sa) f.off)) := by
    intro l b
    rcases (by simpa [scalarStreams, allStreams] using hst : st = .c ∨ st = .a) with rfl | rfl <;> rfl
  rw [e]
  simp only [SB.unpack_pack]
  simp [sbForm]

theorem jmp (x : Src) : Statement (.jmp x) := by
  intro hw
  refine ⟨by decide, fun st hst hdr => ?_⟩
  rw [decodeWord_joinWord]
  have e : ∀ l b, decode st 0x44 l b =
        let f := SB.unpack b
        sbForm l f true false false (.ok (.jmp (Src.ofCode f.sa))) := by
    intro l b
    obtain rfl : st = .c := by simpa using hst
    rfl
  rw [e]
  simp only [SB.unpack_pack]
  simp [sbForm]

theorem call (off : BitVec 24) : Statement (.call off) := by
  intro hw
  refine ⟨by decide, fun st hst hdr => ?_⟩
  rw [decodeWord_joinWord]
  have e : ∀ l b, decode st 0x42 l b =
        let f := SB.unpack b
        sbForm l f false false true (.ok (.call f.off)) := by
    intro l b
    obtain rfl : st = .c := by simpa using hst
    rfl
  rw [e]
  simp only [SB.unpack_pack]
  simp [sbForm]

theorem ret : Statement (.ret) := by
  intro hw
  refine ⟨by decide, fun st hst hdr => ?_⟩
  rw [decodeWord_joinWord]
  have e : ∀ l b, decode st 0x43 l b =
        let f := SB.unpack b
        sbForm l f false false false (.ok .ret) := by
    intro l b
    obtain rfl : st = .c := by simpa using hst
    rfl
  rw [e]
  simp only [SB.unpack_pack]
  simp [sbForm]

theorem loop (k : BitVec 2) (off : BitVec 24) : Statement (.loop k off) := by
  intro hw
  refine ⟨by decide, fun st hst hdr => ?_⟩
  rw [decodeWord_joinWord]
  have e : ∀ l b, decode st 0x45 l b =
        let f := SB.unpack b
        sbForm l f false true true (need (f.k.extractLsb' 2 2 == 0) .reserved (.ok (.loop (f.k.extractLsb' 0 2) f.off))) := by
    intro l b
    rcases (by simpa [scalarStreams, allStreams] using hst : st = .c ∨ st = .a ∨ st = .v ∨ st = .m) with rfl | rfl | rfl | rfl <;> rfl
  rw [e]
  simp only [SB.unpack_pack]
  repeat first
    | rw [extract_hi (by decide)] | rw [extract_lo (by decide)] | rw [bit_hi (by decide)] | rw [bit_lo (by decide)]
  simp [sbForm]

theorem repImm (n : BitVec 13) : Statement (.repImm n) := by
  intro hw
  refine ⟨by decide, fun st hst hdr => ?_⟩
  rw [decodeWord_joinWord]
  have e : decode st 0x46 none (SB.pack ⟨0, 1, 0, 0#11 ++ n⟩) = decodeShared 0x46 none (SB.pack ⟨0, 1, 0, 0#11 ++ n⟩) := by
    have k : (SB.unpack (SB.pack ⟨0, 1, 0, 0#11 ++ n⟩)).k = 1 := by rw [SB.unpack_pack]
    rcases (by simpa [allStreams] using hst : st = .c ∨ st = .a ∨ st = .v ∨ st = .m) with rfl | rfl | rfl | rfl
    · show (if (SB.unpack _).k = 0 then _ else _) = _
      rw [k]
      rfl
    · show (if (SB.unpack _).k = 0 then _ else _) = _
      rw [k]
      rfl
    · rfl
    · rfl
  show decode st 0x46 none (SB.pack ⟨0, 1, 0, 0#11 ++ n⟩) = _
  rw [e]
  unfold decodeShared
  simp only [SB.unpack_pack]
  repeat first
    | rw [extract_hi (by decide)] | rw [extract_lo (by decide)]
  simp [sbForm, accept_of hw]

theorem repOperand (x : Src) : Statement (.repOperand x) := by
  intro hw
  refine ⟨by decide, fun st hst hdr => ?_⟩
  rw [decodeWord_joinWord]
  have e : ∀ l b, decode st 0x46 l b =
        let f := SB.unpack b
        
        if f.k = 0 then sbForm l f true false false (.ok (.repOperand (Src.ofCode f.sa))) else decodeShared 0x46 l b := by
    intro l b
    rcases (by simpa [scalarStreams, allStreams] using hst : st = .c ∨ st = .a) with rfl | rfl <;> rfl
  rw [e]
  simp only [SB.unpack_pack]
  simp [sbForm]

theorem go (ga gv gm : Bool) : Statement (.go ga gv gm) := by
  intro hw
  refine ⟨by decide, fun st hst hdr => ?_⟩
  rw [decodeWord_joinWord]
  have e : ∀ l b, decode st 0x47 l b =
        let f := SB.unpack b
        sbForm l f false true false
          (need (!bitOf f.k 3) .reserved (accept (.go (bitOf f.k 0) (bitOf f.k 1) (bitOf f.k 2)))) := by
    intro l b
    obtain rfl : st = .c := by simpa using hst
    rfl
  rw [e]
  simp only [SB.unpack_pack, bitOf]
  repeat first
    | rw [extract_hi (by decide)] | rw [extract_lo (by decide)] | rw [bit_hi (by decide)] | rw [bit_lo (by decide)]
  simp [sbForm, accept_of hw]

theorem stop : Statement (.stop) := by
  intro hw
  refine ⟨by decide, fun st hst hdr => ?_⟩
  rw [decodeWord_joinWord]
  have e : ∀ l b, decode st 0x48 l b =
        let f := SB.unpack b
        sbForm l f false false false (.ok .stop) := by
    intro l b
    rcases (by simpa [scalarStreams, allStreams] using hst : st = .c ∨ st = .a ∨ st = .v ∨ st = .m) with rfl | rfl | rfl | rfl <;> rfl
  rw [e]
  simp only [SB.unpack_pack]
  simp [sbForm]

theorem gpush (x : Src) (n : BitVec 4) : Statement (.gpush x n) := by
  intro hw
  refine ⟨by decide, fun st hst hdr => ?_⟩
  rw [decodeWord_joinWord]
  have e : ∀ l b, decode st 0x49 l b =
        let f := SB.unpack b
        sbForm l f true true false (accept (.gpush (Src.ofCode f.sa) f.k)) := by
    intro l b
    rcases (by simpa [scalarStreams, allStreams] using hst : st = .c ∨ st = .a) with rfl | rfl <;> rfl
  rw [e]
  simp only [SB.unpack_pack]
  simp [sbForm, accept_of hw]

theorem gflush (n : BitVec 4) : Statement (.gflush n) := by
  intro hw
  refine ⟨by decide, fun st hst hdr => ?_⟩
  rw [decodeWord_joinWord]
  have e : ∀ l b, decode st 0x4A l b =
        let f := SB.unpack b
        sbForm l f false true false (accept (.gflush f.k)) := by
    intro l b
    obtain rfl : st = .c := by simpa using hst
    rfl
  rw [e]
  simp only [SB.unpack_pack]
  simp [sbForm, accept_of hw]

theorem wtw (x : Opnd) (t : TileRef) : Statement (.wtw x t) := by
  intro hw
  refine ⟨by decide, fun st hst hdr => ?_⟩
  rw [decodeWord_joinWord]
  have e : ∀ l b, decode st 0x4B l b =
        let g := ST.unpack b
        
        need (!g.den && g.dn == 0 && !g.keep && g.z == 0) .reserved <| given (TileRef.ofCode g.rg g.tile) .reserved fun t =>
        given (opndOf l g.sa) .reserved fun x => .ok (.wtw x t) := by
    intro l b
    rcases (by simpa [scalarStreams, allStreams] using hst : st = .c ∨ st = .a) with rfl | rfl <;> rfl
  rw [e]
  simp only [ST.unpack_pack]
  simp

theorem rtw (keep : Bool) (t : TileRef) (d : Dst) : Statement (.rtw keep t d) := by
  intro hw
  refine ⟨by decide, fun st hst hdr => ?_⟩
  rw [decodeWord_joinWord]
  have e : ∀ l b, decode st 0x4C l b =
        let g := ST.unpack b
        
        need l.isNone .literal <| need (g.sa == 0 && g.z == 0) .reserved <| given (TileRef.ofCode g.rg g.tile) .reserved fun t =>
        given (dstOf g.den g.dn) .reserved fun d => accept (.rtw g.keep t d) := by
    intro l b
    rcases (by simpa [scalarStreams, allStreams] using hst : st = .c ∨ st = .a) with rfl | rfl <;> rfl
  rw [e]
  simp only [ST.unpack_pack]
  simp [accept_of hw]

theorem tstate (t : TileRef) (d : Dst) : Statement (.tstate t d) := by
  intro hw
  refine ⟨by decide, fun st hst hdr => ?_⟩
  rw [decodeWord_joinWord]
  have e : ∀ l b, decode st 0x4D l b =
        let g := ST.unpack b
        
        need l.isNone .literal <| need (g.sa == 0 && !g.keep && g.z == 0) .reserved <|
        given (TileRef.ofCode g.rg g.tile) .reserved fun t => given (dstOf g.den g.dn) .reserved fun d => .ok (.tstate t d) := by
    intro l b
    obtain rfl : st = .c := by simpa using hst
    rfl
  rw [e]
  simp only [ST.unpack_pack]
  simp

theorem lcyc (d : Dst) : Statement (.lcyc d) := by
  intro hw
  refine ⟨by decide, fun st hst hdr => ?_⟩
  rw [decodeWord_joinWord]
  have e : ∀ l b, decode st 0x4E l b =
        let h := S3.unpack b
        s3Plain l h false false false true fun d => need (h.x == 0) .reserved (.ok (.lcyc d)) := by
    intro l b
    obtain rfl : st = .c := by simpa using hst
    rfl
  rw [e]
  simp only [noWS, S3.unpack_pack]
  simp [s3Plain]

theorem self (d : Dst) : Statement (.self d) := by
  intro hw
  refine ⟨by decide, fun st hst hdr => ?_⟩
  rw [decodeWord_joinWord]
  have e : ∀ l b, decode st 0x4F l b =
        let h := S3.unpack b
        s3Plain l h false false false true fun d => need (h.x == 0) .reserved (.ok (.self d)) := by
    intro l b
    obtain rfl : st = .c := by simpa using hst
    rfl
  rw [e]
  simp only [noWS, S3.unpack_pack]
  simp [s3Plain]

theorem ld (ws : WS) (base idx : Src) (disp : BitVec 16) (d : Dst) : Statement (.ld ws base idx disp d) := by
  intro hw
  refine ⟨by decide, fun st hst hdr => ?_⟩
  rw [decodeWord_joinWord]
  have e : ∀ l b, decode st 0x50 l b =
        let f := AX.unpack b
        axMem l f true false fun ws d => accept (.ld ws (Src.ofCode f.sa) (Src.ofCode f.sb) f.disp d) := by
    intro l b
    obtain rfl : st = .c := by simpa using hst
    rfl
  rw [e]
  simp only [AX.unpack_pack]
  simp [axMem, accept_of hw]

theorem st (w : Width) (base val : Src) (disp : BitVec 16) : Statement (.st w base val disp) := by
  intro hw
  refine ⟨by decide, fun st hst hdr => ?_⟩
  rw [decodeWord_joinWord]
  have e : ∀ l b, decode st 0x51 l b =
        let f := AX.unpack b
        axMem l f false false fun ws _ => need (!ws.s) .reserved
          (accept (.st ws.w (Src.ofCode f.sa) (Src.ofCode f.sb) f.disp)) := by
    intro l b
    obtain rfl : st = .c := by simpa using hst
    rfl
  rw [e]
  simp only [AX.unpack_pack]
  simp [axMem, accept_of hw]

theorem ldx (ws : WS) (base idx : Src) (disp : BitVec 16) (d : Dst) : Statement (.ldx ws base idx disp d) := by
  intro hw
  refine ⟨by decide, fun st hst hdr => ?_⟩
  rw [decodeWord_joinWord]
  have e : ∀ l b, decode st 0x52 l b =
        let f := AX.unpack b
        axMem l f true false fun ws d => accept (.ldx ws (Src.ofCode f.sa) (Src.ofCode f.sb) f.disp d) := by
    intro l b
    obtain rfl : st = .c := by simpa using hst
    rfl
  rw [e]
  simp only [AX.unpack_pack]
  simp [axMem, accept_of hw]

theorem stx (w : Width) (base val : Src) (disp : BitVec 16) : Statement (.stx w base val disp) := by
  intro hw
  refine ⟨by decide, fun st hst hdr => ?_⟩
  rw [decodeWord_joinWord]
  have e : ∀ l b, decode st 0x53 l b =
        let f := AX.unpack b
        axMem l f false false fun ws _ => need (!ws.s) .reserved
          (accept (.stx ws.w (Src.ofCode f.sa) (Src.ofCode f.sb) f.disp)) := by
    intro l b
    obtain rfl : st = .c := by simpa using hst
    rfl
  rw [e]
  simp only [AX.unpack_pack]
  simp [axMem, accept_of hw]

theorem mark : Statement (.mark) := by
  intro hw
  refine ⟨by decide, fun st hst hdr => ?_⟩
  rw [decodeWord_joinWord]
  have e : ∀ l b, decode st 0x54 l b =
        need l.isNone .literal (need (b == 0) .reserved (.ok .mark)) := by
    intro l b
    obtain rfl : st = .c := by simpa using hst
    rfl
  rw [e]
  simp

theorem linv (base len : Src) (disp : BitVec 16) : Statement (.linv base len disp) := by
  intro hw
  refine ⟨by decide, fun st hst hdr => ?_⟩
  rw [decodeWord_joinWord]
  have e : ∀ l b, decode st 0x55 l b =
        let f := AX.unpack b
        axMem l f false false fun _ _ => need (f.m == 0) .reserved
          (accept (.linv (Src.ofCode f.sa) (Src.ofCode f.sb) f.disp)) := by
    intro l b
    obtain rfl : st = .c := by simpa using hst
    rfl
  rw [e]
  simp only [noWS, AX.unpack_pack]
  simp [axMem, accept_of hw]

theorem aop (op : AopOp) (ws : WS) (base val : Src) (disp : BitVec 16) (d : Dst) : Statement (.aop op ws base val disp d) := by
  intro hw
  refine ⟨by decide, fun st hst hdr => ?_⟩
  rw [decodeWord_joinWord]
  have e : ∀ l b, decode st 0x56 l b =
        let f := AX.unpack b
        axMem l f true true fun ws d => given (AopOp.ofCode f.f.toNat) .code fun o =>
          accept (.aop o ws (Src.ofCode f.sa) (Src.ofCode f.sb) f.disp d) := by
    intro l b
    obtain rfl : st = .c := by simpa using hst
    rfl
  rw [e]
  simp only [AX.unpack_pack]
  simp [axMem, accept_of hw]

theorem wadr (c : Cond) (ws : WS) (base val : Src) (disp : BitVec 16) (d : Dst) : Statement (.wadr c ws base val disp d) := by
  intro hw
  refine ⟨by decide, fun st hst hdr => ?_⟩
  rw [decodeWord_joinWord]
  have e : ∀ l b, decode st 0x57 l b =
        let f := AX.unpack b
        axMem l f true true fun ws d => given (Cond.ofCode f.f.toNat) .code fun c =>
          accept (.wadr c ws (Src.ofCode f.sa) (Src.ofCode f.sb) f.disp d) := by
    intro l b
    obtain rfl : st = .c := by simpa using hst
    rfl
  rw [e]
  simp only [AX.unpack_pack]
  simp [axMem, accept_of hw]

theorem ldA (ws : WS) (base idx : Src) (disp : BitVec 16) (d : Dst) : Statement (.ldA ws base idx disp d) := by
  intro hw
  refine ⟨by decide, fun st hst hdr => ?_⟩
  rw [decodeWord_joinWord]
  have e : ∀ l b, decode st 0x50 l b =
        let f := AX.unpack b
        axMem l f true false fun ws d => accept (.ldA ws (Src.ofCode f.sa) (Src.ofCode f.sb) f.disp d) := by
    intro l b
    obtain rfl : st = .a := by simpa using hst
    rfl
  rw [e]
  simp only [AX.unpack_pack]
  simp [axMem, accept_of hw]

theorem stA (w : Width) (base val : Src) (disp : BitVec 16) : Statement (.stA w base val disp) := by
  intro hw
  refine ⟨by decide, fun st hst hdr => ?_⟩
  rw [decodeWord_joinWord]
  have e : ∀ l b, decode st 0x51 l b =
        let f := AX.unpack b
        axMem l f false false fun ws _ => need (!ws.s) .reserved
          (accept (.stA ws.w (Src.ofCode f.sa) (Src.ofCode f.sb) f.disp)) := by
    intro l b
    obtain rfl : st = .a := by simpa using hst
    rfl
  rw [e]
  simp only [AX.unpack_pack]
  simp [axMem, accept_of hw]

theorem gjoin (key : Src) (d : Dst) : Statement (.gjoin key d) := by
  intro hw
  refine ⟨by decide, fun st hst hdr => ?_⟩
  rw [decodeWord_joinWord]
  have e : ∀ l b, decode st 0x60 l b =
        let h := S3.unpack b
        s3Plain l h true false false true fun d => need (h.x == 0) .reserved (.ok (.gjoin (Src.ofCode h.sa) d)) := by
    intro l b
    obtain rfl : st = .c := by simpa using hst
    rfl
  rw [e]
  simp only [noWS, S3.unpack_pack]
  simp [s3Plain]

theorem gleave (key : Src) (d : Dst) : Statement (.gleave key d) := by
  intro hw
  refine ⟨by decide, fun st hst hdr => ?_⟩
  rw [decodeWord_joinWord]
  have e : ∀ l b, decode st 0x61 l b =
        let h := S3.unpack b
        s3Plain l h true false false true fun d => need (h.x == 0) .reserved (.ok (.gleave (Src.ofCode h.sa) d)) := by
    intro l b
    obtain rfl : st = .c := by simpa using hst
    rfl
  rw [e]
  simp only [noWS, S3.unpack_pack]
  simp [s3Plain]

theorem gbar (key : Src) (d : Dst) : Statement (.gbar key d) := by
  intro hw
  refine ⟨by decide, fun st hst hdr => ?_⟩
  rw [decodeWord_joinWord]
  have e : ∀ l b, decode st 0x62 l b =
        let h := S3.unpack b
        s3Plain l h true false false true fun d => need (h.x == 0) .reserved (.ok (.gbar (Src.ofCode h.sa) d)) := by
    intro l b
    obtain rfl : st = .c := by simpa using hst
    rfl
  rw [e]
  simp only [noWS, S3.unpack_pack]
  simp [s3Plain]

theorem spawn (r q : Src) (d : Dst) : Statement (.spawn r q d) := by
  intro hw
  refine ⟨by decide, fun st hst hdr => ?_⟩
  rw [decodeWord_joinWord]
  have e : ∀ l b, decode st 0x68 l b =
        let h := S3.unpack b
        s3Plain l h true true false true fun d => need (h.x == 0) .reserved
          (.ok (.spawn (Src.ofCode h.sa) (Src.ofCode h.sb) d)) := by
    intro l b
    obtain rfl : st = .c := by simpa using hst
    rfl
  rw [e]
  simp only [noWS, S3.unpack_pack]
  simp [s3Plain]

theorem done : Statement (.done) := by
  intro hw
  refine ⟨by decide, fun st hst hdr => ?_⟩
  rw [decodeWord_joinWord]
  have e : ∀ l b, decode st 0x69 l b =
        need l.isNone .literal (need (b == 0) .reserved (.ok .done)) := by
    intro l b
    obtain rfl : st = .c := by simpa using hst
    rfl
  rw [e]
  simp

theorem grab (r : Src) (d : Dst) : Statement (.grab r d) := by
  intro hw
  refine ⟨by decide, fun st hst hdr => ?_⟩
  rw [decodeWord_joinWord]
  have e : ∀ l b, decode st 0x6A l b =
        let h := S3.unpack b
        s3Plain l h true false false true fun d => need (h.x == 0) .reserved (.ok (.grab (Src.ofCode h.sa) d)) := by
    intro l b
    obtain rfl : st = .c := by simpa using hst
    rfl
  rw [e]
  simp only [noWS, S3.unpack_pack]
  simp [s3Plain]

theorem rngset (ctl start stop : Src) : Statement (.rngset ctl start stop) := by
  intro hw
  refine ⟨by decide, fun st hst hdr => ?_⟩
  rw [decodeWord_joinWord]
  have e : ∀ l b, decode st 0x6B l b =
        let h := S3.unpack b
        s3Plain l h true true true false fun _ => need (h.x == 0) .reserved
          (.ok (.rngset (Src.ofCode h.sa) (Src.ofCode h.sb) (Src.ofCode h.sc))) := by
    intro l b
    obtain rfl : st = .c := by simpa using hst
    rfl
  rw [e]
  simp only [noWS, S3.unpack_pack]
  simp [s3Plain]

theorem yield (d : Dst) : Statement (.yield d) := by
  intro hw
  refine ⟨by decide, fun st hst hdr => ?_⟩
  rw [decodeWord_joinWord]
  have e : ∀ l b, decode st 0x6C l b =
        let h := S3.unpack b
        s3Plain l h false false false true fun d => need (h.x == 0) .reserved (.ok (.yield d)) := by
    intro l b
    obtain rfl : st = .c := by simpa using hst
    rfl
  rw [e]
  simp only [noWS, S3.unpack_pack]
  simp [s3Plain]

theorem ckpt (d : Dst) : Statement (.ckpt d) := by
  intro hw
  refine ⟨by decide, fun st hst hdr => ?_⟩
  rw [decodeWord_joinWord]
  have e : ∀ l b, decode st 0x6D l b =
        let h := S3.unpack b
        s3Plain l h false false false true fun d => need (h.x == 0) .reserved (.ok (.ckpt d)) := by
    intro l b
    obtain rfl : st = .c := by simpa using hst
    rfl
  rw [e]
  simp only [noWS, S3.unpack_pack]
  simp [s3Plain]

theorem fsplit (shape : BitVec 4) (list : Src) (d : Dst) : Statement (.fsplit shape list d) := by
  intro hw
  refine ⟨by decide, fun st hst hdr => ?_⟩
  rw [decodeWord_joinWord]
  have e : ∀ l b, decode st 0x70 l b =
        let h := S3.unpack b
        s3Plain l h true false false true fun d => need (h.x.extractLsb' 4 12 == 0) .reserved
          (accept (.fsplit (h.x.extractLsb' 0 4) (Src.ofCode h.sa) d)) := by
    intro l b
    obtain rfl : st = .c := by simpa using hst
    rfl
  rw [e]
  simp only [noWS, S3.unpack_pack]
  repeat first
    | rw [extract_hi (by decide)] | rw [extract_lo (by decide)] | rw [bit_hi (by decide)] | rw [bit_lo (by decide)]
  simp [s3Plain, accept_of hw]

theorem ffuse (try_ : Bool) (shape : BitVec 4) (d : Dst) : Statement (.ffuse try_ shape d) := by
  intro hw
  refine ⟨by decide, fun st hst hdr => ?_⟩
  rw [decodeWord_joinWord]
  have e : ∀ l b, decode st 0x71 l b =
        let h := S3.unpack b
        s3Plain l h false false false true fun d => need (h.x.extractLsb' 5 11 == 0) .reserved
          (accept (.ffuse (bitOf h.x 4) (h.x.extractLsb' 0 4) d)) := by
    intro l b
    obtain rfl : st = .c := by simpa using hst
    rfl
  rw [e]
  simp only [noWS, S3.unpack_pack, bitOf]
  repeat first
    | rw [extract_hi (by decide)] | rw [extract_lo (by decide)] | rw [bit_hi (by decide)] | rw [bit_lo (by decide)]
  simp [s3Plain, accept_of hw]

theorem fchain (west : Bool) (d : Dst) : Statement (.fchain west d) := by
  intro hw
  refine ⟨by decide, fun st hst hdr => ?_⟩
  rw [decodeWord_joinWord]
  have e : ∀ l b, decode st 0x72 l b =
        let h := S3.unpack b
        s3Plain l h false false false true fun d => need (h.x.extractLsb' 1 15 == 0) .reserved
          (.ok (.fchain (bitOf h.x 0) d)) := by
    intro l b
    obtain rfl : st = .c := by simpa using hst
    rfl
  rw [e]
  simp only [noWS, S3.unpack_pack, bitOf]
  repeat first
    | rw [extract_hi (by decide)] | rw [extract_lo (by decide)] | rw [bit_hi (by decide)] | rw [bit_lo (by decide)]
  simp [s3Plain]

theorem funchain (west : Bool) (d : Dst) : Statement (.funchain west d) := by
  intro hw
  refine ⟨by decide, fun st hst hdr => ?_⟩
  rw [decodeWord_joinWord]
  have e : ∀ l b, decode st 0x73 l b =
        let h := S3.unpack b
        s3Plain l h false false false true fun d => need (h.x.extractLsb' 1 15 == 0) .reserved
          (.ok (.funchain (bitOf h.x 0) d)) := by
    intro l b
    obtain rfl : st = .c := by simpa using hst
    rfl
  rw [e]
  simp only [noWS, S3.unpack_pack, bitOf]
  repeat first
    | rw [extract_hi (by decide)] | rw [extract_lo (by decide)] | rw [bit_hi (by decide)] | rw [bit_lo (by decide)]
  simp [s3Plain]

theorem fquery (d : Dst) : Statement (.fquery d) := by
  intro hw
  refine ⟨by decide, fun st hst hdr => ?_⟩
  rw [decodeWord_joinWord]
  have e : ∀ l b, decode st 0x74 l b =
        let h := S3.unpack b
        s3Plain l h false false false true fun d => need (h.x == 0) .reserved (.ok (.fquery d)) := by
    intro l b
    obtain rfl : st = .c := by simpa using hst
    rfl
  rw [e]
  simp only [noWS, S3.unpack_pack]
  simp [s3Plain]

theorem smopen (cfg hbase : Src) (d : Dst) : Statement (.smopen cfg hbase d) := by
  intro hw
  refine ⟨by decide, fun st hst hdr => ?_⟩
  rw [decodeWord_joinWord]
  have e : ∀ l b, decode st 0x78 l b =
        let f := AX.unpack b
        axForm l f true true false false true false false fun d => .ok (.smopen (Src.ofCode f.sa) (Src.ofCode f.sb) d) := by
    intro l b
    obtain rfl : st = .c := by simpa using hst
    rfl
  rw [e]
  simp only [AX.unpack_pack]
  simp [axForm]

theorem smapp (h list : Src) (d : Dst) : Statement (.smapp h list d) := by
  intro hw
  refine ⟨by decide, fun st hst hdr => ?_⟩
  rw [decodeWord_joinWord]
  have e : ∀ l b, decode st 0x79 l b =
        let f := AX.unpack b
        axForm l f true true false false true false false fun d => .ok (.smapp (Src.ofCode f.sa) (Src.ofCode f.sb) d) := by
    intro l b
    obtain rfl : st = .c := by simpa using hst
    rfl
  rw [e]
  simp only [AX.unpack_pack]
  simp [axForm]

theorem smprop (h : Src) (t : TileRef) (d1 : BitVec 4) (lmin : BitVec 3) (d : Dst) : Statement (.smprop h t d1 lmin d) := by
  intro hw
  refine ⟨by decide, fun st hst hdr => ?_⟩
  rw [decodeWord_joinWord]
  have e : ∀ l b, decode st 0x7A l b =
        let f := AX.unpack b
        axForm l f true false false true true true true fun d => given (TileRef.ofCode f.rg f.t) .reserved fun t =>
          accept (.smprop (Src.ofCode f.sa) t f.f f.m d) := by
    intro l b
    obtain rfl : st = .c := by simpa using hst
    rfl
  rw [e]
  simp only [AX.unpack_pack]
  simp [axForm, accept_of hw]

theorem smsave (h dva : Src) (d : Dst) : Statement (.smsave h dva d) := by
  intro hw
  refine ⟨by decide, fun st hst hdr => ?_⟩
  rw [decodeWord_joinWord]
  have e : ∀ l b, decode st 0x7B l b =
        let f := AX.unpack b
        axForm l f true true false false true false false fun d => .ok (.smsave (Src.ofCode f.sa) (Src.ofCode f.sb) d) := by
    intro l b
    obtain rfl : st = .c := by simpa using hst
    rfl
  rw [e]
  simp only [AX.unpack_pack]
  simp [axForm]

theorem smload (cfg hbase dva : Src) (d : Dst) : Statement (.smload cfg hbase dva d) := by
  intro hw
  refine ⟨by decide, fun st hst hdr => ?_⟩
  rw [decodeWord_joinWord]
  have e : ∀ l b, decode st 0x7C l b =
        let f := AX.unpack b
        axForm l f true true false true true false false fun d => need (!f.rg && f.t.extractLsb' 5 3 == 0) .reserved
          (.ok (.smload (Src.ofCode f.sa) (Src.ofCode f.sb) (Src.ofCode (f.t.extractLsb' 0 5)) d)) := by
    intro l b
    obtain rfl : st = .c := by simpa using hst
    rfl
  rw [e]
  simp only [AX.unpack_pack]
  repeat first
    | rw [extract_hi (by decide)] | rw [extract_lo (by decide)] | rw [bit_hi (by decide)] | rw [bit_lo (by decide)]
  simp [axForm]

theorem smclose (h : Src) (d : Dst) : Statement (.smclose h d) := by
  intro hw
  refine ⟨by decide, fun st hst hdr => ?_⟩
  rw [decodeWord_joinWord]
  have e : ∀ l b, decode st 0x7D l b =
        let f := AX.unpack b
        axForm l f true false false false true false false fun d => .ok (.smclose (Src.ofCode f.sa) d) := by
    intro l b
    obtain rfl : st = .c := by simpa using hst
    rfl
  rw [e]
  simp only [AX.unpack_pack]
  simp [axForm]

theorem draw (key ctr : Src) (d : Dst) : Statement (.draw key ctr d) := by
  intro hw
  refine ⟨by decide, fun st hst hdr => ?_⟩
  rw [decodeWord_joinWord]
  have e : ∀ l b, decode st 0x7E l b =
        let h := S3.unpack b
        s3Plain l h true true false true fun d => need (h.x == 0) .reserved
          (.ok (.draw (Src.ofCode h.sa) (Src.ofCode h.sb) d)) := by
    intro l b
    obtain rfl : st = .c := by simpa using hst
    rfl
  rw [e]
  simp only [noWS, S3.unpack_pack]
  simp [s3Plain]

theorem tacc (greedy : Bool) (desc dw : Src) (d : Dst) : Statement (.tacc greedy desc dw d) := by
  intro hw
  refine ⟨by decide, fun st hst hdr => ?_⟩
  rw [decodeWord_joinWord]
  have e : ∀ l b, decode st 0x7F l b =
        let f := AX.unpack b
        axForm l f true true false false true true false fun d => need (f.f.toNat ≤ 1) .code
          (.ok (.tacc (bitOf f.f 0) (Src.ofCode f.sa) (Src.ofCode f.sb) d)) := by
    intro l b
    obtain rfl : st = .c := by simpa using hst
    rfl
  rw [e]
  simp only [AX.unpack_pack, bitOf]
  repeat first
    | rw [extract_hi (by decide)] | rw [extract_lo (by decide)] | rw [bit_hi (by decide)] | rw [bit_lo (by decide)]
  simp [axForm]

theorem tsamp (greedy : Bool) (desc pos : Src) (d : Dst) : Statement (.tsamp greedy desc pos d) := by
  intro hw
  refine ⟨by decide, fun st hst hdr => ?_⟩
  rw [decodeWord_joinWord]
  have e : ∀ l b, decode st 0x80 l b =
        let f := AX.unpack b
        axForm l f true true false false true true false fun d => need (f.f.toNat ≤ 1) .code
          (.ok (.tsamp (bitOf f.f 0) (Src.ofCode f.sa) (Src.ofCode f.sb) d)) := by
    intro l b
    obtain rfl : st = .c := by simpa using hst
    rfl
  rw [e]
  simp only [AX.unpack_pack, bitOf]
  repeat first
    | rw [extract_hi (by decide)] | rw [extract_lo (by decide)] | rw [bit_hi (by decide)] | rw [bit_lo (by decide)]
  simp [axForm]

theorem trap (i : Imm) : Statement (.trap i) := by
  intro hw
  refine ⟨by decide, fun st hst hdr => ?_⟩
  rw [decodeWord_joinWord]
  have e : ∀ l b, decode st 0xF0 l b =
        let g := SI.unpack b
        need (g.sa == 0 && !g.den && g.dn == 0 && g.w == 0 && !g.s && g.cnd == 0) .reserved <|
          given (immOf l g.imm) .reserved fun i => .ok (.trap i) := by
    intro l b
    obtain rfl : st = .c := by simpa using hst
    rfl
  rw [e]
  simp only [noWS, SI.unpack_pack]
  simp

theorem brk (i : Imm) : Statement (.brk i) := by
  intro hw
  refine ⟨by decide, fun st hst hdr => ?_⟩
  rw [decodeWord_joinWord]
  have e : ∀ l b, decode st 0xF3 l b =
        let g := SI.unpack b
        need (g.sa == 0 && !g.den && g.dn == 0 && g.w == 0 && !g.s && g.cnd == 0) .reserved <|
          given (immOf l g.imm) .reserved fun i => .ok (.brk i) := by
    intro l b
    obtain rfl : st = .c := by simpa using hst
    rfl
  rw [e]
  simp only [noWS, SI.unpack_pack]
  simp

theorem sysr (r : RegNum) (d : Dst) : Statement (.sysr r d) := by
  intro _
  refine ⟨List.cons_ne_nil _ _, fun st hst hdr => ?_⟩
  obtain rfl : st = .c := by simpa using (show st ∈ [StreamId.c] from hst)
  rw [decodeWord_joinWord]
  have e : ∀ l b, decode .c 0xF1 l b =
      let g := SI.unpack b
      need (g.sa == 0 && g.w == 0 && !g.s && g.cnd == 0 && g.imm.extractLsb' 12 10 == 0) .reserved <|
      given (immOf l g.imm) .reserved fun i => given (dstOf g.den g.dn) .reserved fun d =>
      .ok (.sysr (match i with | .short v => .short (v.extractLsb' 0 12) | .lit v => .lit v) d) := fun _ _ => rfl
  rw [e]
  cases r <;>
    · simp only [SI.unpack_pack, RegNum.field, RegNum.word]
      repeat first
        | rw [extract_hi (by decide)] | rw [extract_lo (by decide)]
      simp [immOf, noWS]
      try (rw [extract_lo (by decide)]; simp)

theorem sysw (v : Src) (r : RegNum) : Statement (.sysw v r) := by
  intro hw
  refine ⟨List.cons_ne_nil _ _, fun st hst hdr => ?_⟩
  obtain rfl : st = .c := by simpa using (show st ∈ [StreamId.c] from hst)
  rw [decodeWord_joinWord]
  have e : ∀ l b, decode .c 0xF2 l b =
      let g := SI.unpack b
      need (!g.den && g.dn == 0 && g.w == 0 && !g.s && g.cnd == 0 && g.imm.extractLsb' 12 10 == 0) .reserved <|
      given (immOf l g.imm) .reserved fun i =>
      match i with
      | .short v => if v = 0x020 then .ok (.faultreq (Src.ofCode g.sa) false)
                    else .ok (.sysw (Src.ofCode g.sa) (.short (v.extractLsb' 0 12)))
      | .lit v => if v = 0x020 then .ok (.faultreq (Src.ofCode g.sa) true) else .ok (.sysw (Src.ofCode g.sa) (.lit v)) :=
    fun _ _ => rfl
  rw [e]
  simp only [wellFormed, Bool.and_eq_true, bne_iff_ne, ne_eq] at hw
  cases r with
  | short n =>
    have hn : ¬ (0#10 ++ n : BitVec 22) = 0x020 := by
      intro h
      apply hw.1
      have : (0#10 ++ n : BitVec 22).extractLsb' 0 12 = n := by
        rw [extract_lo (by decide)]
        exact BitVec.extractLsb'_eq_self
      rw [h] at this
      rw [← this]
      rfl
    simp only [SI.unpack_pack, RegNum.field, RegNum.word]
    rw [extract_hi (by decide)]
    have hx : BitVec.extractLsb' 0 12 (0#10 ++ n : BitVec 22) = n := by
      rw [extract_lo (by decide)]
      exact BitVec.extractLsb'_eq_self
    simp only [immOf, given_some, hn, if_false, hx]
    simp [noWS]
  | lit w =>
    have hn : ¬ w = 32#64 := fun h => hw.2 (by rw [h]; rfl)
    simp [RegNum.field, RegNum.word, immOf, noWS, hn]

theorem faultreq (v : Src) (viaLit : Bool) : Statement (.faultreq v viaLit) := by
  intro _
  refine ⟨List.cons_ne_nil _ _, fun st hst hdr => ?_⟩
  obtain rfl : st = .c := by simpa using (show st ∈ [StreamId.c] from hst)
  rw [decodeWord_joinWord]
  have e : ∀ l b, decode .c 0xF2 l b =
      let g := SI.unpack b
      need (!g.den && g.dn == 0 && g.w == 0 && !g.s && g.cnd == 0 && g.imm.extractLsb' 12 10 == 0) .reserved <|
      given (immOf l g.imm) .reserved fun i =>
      match i with
      | .short v => if v = 0x020 then .ok (.faultreq (Src.ofCode g.sa) false)
                    else .ok (.sysw (Src.ofCode g.sa) (.short (v.extractLsb' 0 12)))
      | .lit v => if v = 0x020 then .ok (.faultreq (Src.ofCode g.sa) true) else .ok (.sysw (Src.ofCode g.sa) (.lit v)) :=
    fun _ _ => rfl
  rw [e]
  cases viaLit <;> simp [immOf, noWS]

theorem ptst (strip : Bool) (x : Src) (l : Option Word) (d : Dst) : Statement (.ptst strip x l d) := by
  intro hw
  refine ⟨by decide, fun st hst hdr => ?_⟩
  rw [decodeWord_joinWord]
  have e : ∀ l b, decode st 0xF4 l b =
        let g := SI.unpack b
        need (g.imm == 0 && g.w == 0 && !g.s) .reserved <| need (g.cnd.toNat ≤ 1) .code <|
          given (dstOf g.den g.dn) .reserved fun d => .ok (.ptst (bitOf g.cnd 0) (Src.ofCode g.sa) l d) := by
    intro l b
    obtain rfl : st = .c := by simpa using hst
    rfl
  rw [e]
  simp only [noWS, SI.unpack_pack, bitOf]
  repeat first
    | rw [extract_hi (by decide)] | rw [extract_lo (by decide)] | rw [bit_hi (by decide)] | rw [bit_lo (by decide)]
  simp

theorem brec (r : BitVec 8) (addr : Src) : Statement (.brec r addr) := by
  intro hw
  refine ⟨by decide, fun st hst hdr => ?_⟩
  rw [decodeWord_joinWord]
  have e : ∀ l b, decode st 0x80 l b =
        let f := AX.unpack b
        axForm l f true false true false false false false fun _ => .ok (.brec f.r (Src.ofCode f.sa)) := by
    intro l b
    obtain rfl : st = .a := by simpa using hst
    rfl
  rw [e]
  simp only [AX.unpack_pack]
  simp [axForm]

theorem tld (g : Option (BitVec 4)) (sc : Bool) (r : BitVec 8) (t : TileRef) (off s : Src) : Statement (.tld g sc r t off s) := by
  intro hw
  refine ⟨by decide, fun st hst hdr => ?_⟩
  rw [decodeWord_joinWord]
  have e : ∀ l b, decode st 0x81 l b =
        let f := AX.unpack b
        let grp := (if bitOf (AX.unpack b).m 0 then some (some (AX.unpack b).f) else if (AX.unpack b).f = 0 then some none else none : Option (Option (BitVec 4)))
        axForm l f true true true true false true true fun _ => need (!bitOf f.m 2) .reserved <|
          given (TileRef.ofCode f.rg f.t) .reserved fun t => given grp .reserved fun g =>
          accept (.tld g (bitOf f.m 1) f.r t (Src.ofCode f.sa) (Src.ofCode f.sb)) := by
    intro l b
    obtain rfl : st = .a := by simpa using hst
    rfl
  rw [e]
  simp only [AX.unpack_pack, bitOf]
  repeat first
    | rw [extract_hi (by decide)] | rw [extract_lo (by decide)] | rw [bit_hi (by decide)] | rw [bit_lo (by decide)]
  simp [axForm, accept_of hw]

theorem tst (g : Option (BitVec 4)) (r : BitVec 8) (t : TileRef) (off : Src) : Statement (.tst g r t off) := by
  intro hw
  refine ⟨by decide, fun st hst hdr => ?_⟩
  rw [decodeWord_joinWord]
  have e : ∀ l b, decode st 0x82 l b =
        let f := AX.unpack b
        let grp := (if bitOf (AX.unpack b).m 0 then some (some (AX.unpack b).f) else if (AX.unpack b).f = 0 then some none else none : Option (Option (BitVec 4)))
        axForm l f true false true true false true true fun _ => need (!bitOf f.m 2 && !bitOf f.m 1) .reserved <|
          given (TileRef.ofCode f.rg f.t) .reserved fun t => given grp .reserved fun g =>
          accept (.tst g f.r t (Src.ofCode f.sa)) := by
    intro l b
    obtain rfl : st = .a := by simpa using hst
    rfl
  rw [e]
  simp only [AX.unpack_pack, bitOf]
  repeat first
    | rw [extract_hi (by decide)] | rw [extract_lo (by decide)] | rw [bit_hi (by decide)] | rw [bit_lo (by decide)]
  simp [axForm, accept_of hw]

theorem tgat (r : BitVec 8) (t : TileRef) (off x : Src) : Statement (.tgat r t off x) := by
  intro hw
  refine ⟨by decide, fun st hst hdr => ?_⟩
  rw [decodeWord_joinWord]
  have e : ∀ l b, decode st 0x83 l b =
        let f := AX.unpack b
        axForm l f true true true true false false false fun _ => given (TileRef.ofCode f.rg f.t) .reserved fun t =>
          .ok (.tgat f.r t (Src.ofCode f.sa) (Src.ofCode f.sb)) := by
    intro l b
    obtain rfl : st = .a := by simpa using hst
    rfl
  rw [e]
  simp only [AX.unpack_pack]
  simp [axForm]

theorem tsca (r : BitVec 8) (t : TileRef) (off x : Src) : Statement (.tsca r t off x) := by
  intro hw
  refine ⟨by decide, fun st hst hdr => ?_⟩
  rw [decodeWord_joinWord]
  have e : ∀ l b, decode st 0x84 l b =
        let f := AX.unpack b
        axForm l f true true true true false false false fun _ => given (TileRef.ofCode f.rg f.t) .reserved fun t =>
          .ok (.tsca f.r t (Src.ofCode f.sa) (Src.ofCode f.sb)) := by
    intro l b
    obtain rfl : st = .a := by simpa using hst
    rfl
  rw [e]
  simp only [AX.unpack_pack]
  simp [axForm]

theorem tcfg (clr : Bool) (n : BitVec 8) (desc : Src) : Statement (.tcfg clr n desc) := by
  intro hw
  refine ⟨by decide, fun st hst hdr => ?_⟩
  rw [decodeWord_joinWord]
  have e : ∀ l b, decode st 0x85 l b =
        let f := AX.unpack b
        axForm l f true false false true false false true fun _ =>
          need (!f.rg && f.m.extractLsb' 1 2 == 0) .reserved (accept (.tcfg (bitOf f.m 0) f.t (Src.ofCode f.sa))) := by
    intro l b
    obtain rfl : st = .a := by simpa using hst
    rfl
  rw [e]
  simp only [AX.unpack_pack, bitOf]
  repeat first
    | rw [extract_hi (by decide)] | rw [extract_lo (by decide)] | rw [bit_hi (by decide)] | rw [bit_lo (by decide)]
  simp [axForm, accept_of hw]

theorem rcfg (clr : Bool) (n : BitVec 5) (first : BitVec 8) (n1 : BitVec 4) : Statement (.rcfg clr n first n1) := by
  intro hw
  refine ⟨by decide, fun st hst hdr => ?_⟩
  rw [decodeWord_joinWord]
  have e : ∀ l b, decode st 0x86 l b =
        let f := AX.unpack b
        axForm l f false false true true false true true fun _ =>
          need (f.m.extractLsb' 1 2 == 0) .reserved <| need f.rg .code <| need (f.t.extractLsb' 5 3 == 0) .reserved
            (accept (.rcfg (bitOf f.m 0) (f.t.extractLsb' 0 5) f.r f.f)) := by
    intro l b
    obtain rfl : st = .a := by simpa using hst
    rfl
  rw [e]
  simp only [AX.unpack_pack, bitOf]
  repeat first
    | rw [extract_hi (by decide)] | rw [extract_lo (by decide)] | rw [bit_hi (by decide)] | rw [bit_lo (by decide)]
  simp [axForm, accept_of hw]

theorem tfree (t : TileRef) : Statement (.tfree t) := by
  intro hw
  refine ⟨by decide, fun st hst hdr => ?_⟩
  rw [decodeWord_joinWord]
  have e : ∀ l b, decode st 0x87 l b =
        let f := AX.unpack b
        axForm l f false false false true false false false fun _ => given (TileRef.ofCode f.rg f.t) .reserved fun t =>
          .ok (.tfree t) := by
    intro l b
    obtain rfl : st = .a := by simpa using hst
    rfl
  rw [e]
  simp only [AX.unpack_pack]
  simp [axForm]

theorem nset (hi : BitVec 3) (nest : BitVec 2) (level : BitVec 3) (count : Src) (strides : Opnd) : Statement (.nset hi nest level count strides) := by
  intro hw
  refine ⟨by decide, fun st hst hdr => ?_⟩
  rw [decodeWord_joinWord]
  have e : ∀ l b, decode st 0x88 l b =
        let f := AX.unpack b
        axForm none f true true true false false false false fun _ => given (opndOf l f.sb) .reserved fun y =>
          .ok (.nset (f.r.extractLsb' 5 3) (f.r.extractLsb' 3 2) (f.r.extractLsb' 0 3) (Src.ofCode f.sa) y) := by
    intro l b
    obtain rfl : st = .a := by simpa using hst
    rfl
  rw [e]
  simp only [AX.unpack_pack]
  repeat first
    | rw [extract_hi (by decide)] | rw [extract_lo (by decide)] | rw [bit_hi (by decide)] | rw [bit_lo (by decide)]
  simp [axForm]

theorem ncopy (dir : CopyDir) (k : BitVec 4) (nest : BitVec 2) (r : BitVec 8) (lbase gop : Src) : Statement (.ncopy dir k nest r lbase gop) := by
  intro hw
  refine ⟨by decide, fun st hst hdr => ?_⟩
  rw [decodeWord_joinWord]
  have e : ∀ l b, decode st 0x89 l b =
        let f := AX.unpack b
        axForm l f true true true true false true true fun _ =>
          need (!f.rg && f.t.extractLsb' 2 6 == 0 && !bitOf f.m 2) .reserved <|
          given (CopyDir.ofCode (f.m.extractLsb' 0 2).toNat) .code fun dir =>
          accept (.ncopy dir f.f (f.t.extractLsb' 0 2) f.r (Src.ofCode f.sa) (Src.ofCode f.sb)) := by
    intro l b
    obtain rfl : st = .a := by simpa using hst
    rfl
  rw [e]
  simp only [AX.unpack_pack, bitOf]
  repeat first
    | rw [extract_hi (by decide)] | rw [extract_lo (by decide)] | rw [bit_hi (by decide)] | rw [bit_lo (by decide)]
  simp [axForm, accept_of hw]

theorem tlsp (t : TileRef) (addr stride : Src) : Statement (.tlsp t addr stride) := by
  intro hw
  refine ⟨by decide, fun st hst hdr => ?_⟩
  rw [decodeWord_joinWord]
  have e : ∀ l b, decode st 0x8A l b =
        let f := AX.unpack b
        axForm l f true true false true false false false fun _ => given (TileRef.ofCode f.rg f.t) .reserved fun t =>
          .ok (.tlsp t (Src.ofCode f.sa) (Src.ofCode f.sb)) := by
    intro l b
    obtain rfl : st = .a := by simpa using hst
    rfl
  rw [e]
  simp only [AX.unpack_pack]
  simp [axForm]

theorem tssp (t : TileRef) (addr stride : Src) : Statement (.tssp t addr stride) := by
  intro hw
  refine ⟨by decide, fun st hst hdr => ?_⟩
  rw [decodeWord_joinWord]
  have e : ∀ l b, decode st 0x8B l b =
        let f := AX.unpack b
        axForm l f true true false true false false false fun _ => given (TileRef.ofCode f.rg f.t) .reserved fun t =>
          .ok (.tssp t (Src.ofCode f.sa) (Src.ofCode f.sb)) := by
    intro l b
    obtain rfl : st = .a := by simpa using hst
    rfl
  rw [e]
  simp only [AX.unpack_pack]
  simp [axForm]

theorem send (route : Route) (dst src : Src) : Statement (.send route dst src) := by
  intro hw
  refine ⟨by decide, fun st hst hdr => ?_⟩
  rw [decodeWord_joinWord]
  have e : ∀ l b, decode st 0x8C l b =
        let f := AX.unpack b
        axForm l f true true false false false false true fun _ => need (!bitOf f.m 2) .reserved <|
          given (Route.ofCode (f.m.extractLsb' 0 2).toNat) .code fun r => .ok (.send r (Src.ofCode f.sa) (Src.ofCode f.sb)) := by
    intro l b
    obtain rfl : st = .a := by simpa using hst
    rfl
  rw [e]
  simp only [AX.unpack_pack, bitOf]
  repeat first
    | rw [extract_hi (by decide)] | rw [extract_lo (by decide)] | rw [bit_hi (by decide)] | rw [bit_lo (by decide)]
  simp [axForm]

theorem sendf (route : Route) (dst : Src) (src : Opnd) (val : Src) : Statement (.sendf route dst src val) := by
  intro hw
  refine ⟨by decide, fun st hst hdr => ?_⟩
  rw [decodeWord_joinWord]
  have e : ∀ l b, decode st 0x8D l b =
        let f := AX.unpack b
        axForm none f true true false true false false true fun _ =>
          need (!bitOf f.m 2 && !f.rg && f.t.extractLsb' 5 3 == 0) .reserved <|
          given (Route.ofCode (f.m.extractLsb' 0 2).toNat) .code fun r => given (opndOf l f.sb) .reserved fun y =>
          .ok (.sendf r (Src.ofCode f.sa) y (Src.ofCode (f.t.extractLsb' 0 5))) := by
    intro l b
    obtain rfl : st = .a := by simpa using hst
    rfl
  rw [e]
  simp only [AX.unpack_pack, bitOf]
  repeat first
    | rw [extract_hi (by decide)] | rw [extract_lo (by decide)] | rw [bit_hi (by decide)] | rw [bit_lo (by decide)]
  simp [axForm]

theorem flag (route : Route) (dst : Src) (val : Opnd) : Statement (.flag route dst val) := by
  intro hw
  refine ⟨by decide, fun st hst hdr => ?_⟩
  rw [decodeWord_joinWord]
  have e : ∀ l b, decode st 0x8E l b =
        let f := AX.unpack b
        axForm none f true true false false false false true fun _ => need (!bitOf f.m 2) .reserved <|
          given (Route.ofCode (f.m.extractLsb' 0 2).toNat) .code fun r => given (opndOf l f.sb) .reserved fun y =>
          .ok (.flag r (Src.ofCode f.sa) y) := by
    intro l b
    obtain rfl : st = .a := by simpa using hst
    rfl
  rw [e]
  simp only [AX.unpack_pack, bitOf]
  repeat first
    | rw [extract_hi (by decide)] | rw [extract_lo (by decide)] | rw [bit_hi (by decide)] | rw [bit_lo (by decide)]
  simp [axForm]

theorem gamo (op : GamoOp) (ws : WS) (r : BitVec 8) (off : Src) (val : Opnd) (c : Src) (d : Dst) : Statement (.gamo op ws r off val c d) := by
  intro hw
  refine ⟨by decide, fun st hst hdr => ?_⟩
  rw [decodeWord_joinWord]
  have e : ∀ l b, decode st 0x8F l b =
        let f := AX.unpack b
        axForm none f true true true true true true true fun d =>
          need (!f.rg && f.t.extractLsb' 5 3 == 0) .reserved <|
          given (GamoOp.ofCode f.f.toNat) .code fun o => given (opndOf l f.sb) .reserved fun y =>
          accept (.gamo o ⟨Width.ofCode (f.m.extractLsb' 0 2), bitOf f.m 2⟩ f.r (Src.ofCode f.sa) y
            (Src.ofCode (f.t.extractLsb' 0 5)) d) := by
    intro l b
    obtain rfl : st = .a := by simpa using hst
    rfl
  rw [e]
  simp only [AX.unpack_pack, bitOf]
  repeat first
    | rw [extract_hi (by decide)] | rw [extract_lo (by decide)] | rw [bit_hi (by decide)] | rw [bit_lo (by decide)]
  simp [axForm, accept_of hw]

theorem fence (sc : Scope) (d : Dst) : Statement (.fence sc d) := by
  intro hw
  refine ⟨by decide, fun st hst hdr => ?_⟩
  rw [decodeWord_joinWord]
  have e : ∀ l b, decode st 0x90 l b =
        let f := AX.unpack b
        axForm l f false false false false true true false fun d => given (Scope.ofCode f.f.toNat) .code fun c =>
          .ok (.fence c d) := by
    intro l b
    obtain rfl : st = .a := by simpa using hst
    rfl
  rw [e]
  simp only [AX.unpack_pack]
  simp [axForm]

theorem pfch (r : BitVec 8) (off len : Src) : Statement (.pfch r off len) := by
  intro hw
  refine ⟨by decide, fun st hst hdr => ?_⟩
  rw [decodeWord_joinWord]
  have e : ∀ l b, decode st 0x91 l b =
        let f := AX.unpack b
        axForm l f true true true false false false false fun _ => .ok (.pfch f.r (Src.ofCode f.sa) (Src.ofCode f.sb)) := by
    intro l b
    obtain rfl : st = .a := by simpa using hst
    rfl
  rw [e]
  simp only [AX.unpack_pack]
  simp [axForm]

theorem fltopen (s : BitVec 3) (dsel : BitVec 4) (mode : Src) (cf : Opnd) : Statement (.fltopen s dsel mode cf) := by
  intro hw
  refine ⟨by decide, fun st hst hdr => ?_⟩
  rw [decodeWord_joinWord]
  have e : ∀ l b, decode st 0x92 l b =
        let f := AX.unpack b
        axForm none f true true true false false false false fun _ => need (!bitOf f.r 7) .reserved <|
          given (opndOf l f.sb) .reserved fun y =>
          accept (.fltopen (f.r.extractLsb' 0 3) (f.r.extractLsb' 3 4) (Src.ofCode f.sa) y) := by
    intro l b
    obtain rfl : st = .a := by simpa using hst
    rfl
  rw [e]
  simp only [AX.unpack_pack, bitOf]
  repeat first
    | rw [extract_hi (by decide)] | rw [extract_lo (by decide)] | rw [bit_hi (by decide)] | rw [bit_lo (by decide)]
  simp [axForm, accept_of hw]

theorem fltclose (s : BitVec 3) (dsel : BitVec 4) (dst : Src) : Statement (.fltclose s dsel dst) := by
  intro hw
  refine ⟨by decide, fun st hst hdr => ?_⟩
  rw [decodeWord_joinWord]
  have e : ∀ l b, decode st 0x93 l b =
        let f := AX.unpack b
        axForm l f true false true false false false false fun _ => need (!bitOf f.r 7) .reserved
          (accept (.fltclose (f.r.extractLsb' 0 3) (f.r.extractLsb' 3 4) (Src.ofCode f.sa))) := by
    intro l b
    obtain rfl : st = .a := by simpa using hst
    rfl
  rw [e]
  simp only [AX.unpack_pack, bitOf]
  repeat first
    | rw [extract_hi (by decide)] | rw [extract_lo (by decide)] | rw [bit_hi (by decide)] | rw [bit_lo (by decide)]
  simp [axForm, accept_of hw]

theorem vadd (t : LaneTy) (rnd : Rnd) (mk : Bool) (x y : VSrc) (d : VDst) : Statement (.vadd t rnd mk x y d) := by
  intro hw
  refine ⟨by decide, fun st hst hdr => ?_⟩
  rw [decodeWord_joinWord]
  have e : ∀ l b, decode st 0x10 l b =
        let f := V3.unpack b
        v3Form l f true false true true false fun t r a b _ d => accept (.vadd t r f.mk' a b d) := by
    intro l b
    obtain rfl : st = .v := by simpa using hst
    rfl
  rw [e]
  simp only [vz, V3.unpack_pack]
  simp [v3Form, accept_of hw]

theorem vsub (t : LaneTy) (rnd : Rnd) (mk : Bool) (x y : VSrc) (d : VDst) : Statement (.vsub t rnd mk x y d) := by
  intro hw
  refine ⟨by decide, fun st hst hdr => ?_⟩
  rw [decodeWord_joinWord]
  have e : ∀ l b, decode st 0x11 l b =
        let f := V3.unpack b
        v3Form l f true false true true false fun t r a b _ d => accept (.vsub t r f.mk' a b d) := by
    intro l b
    obtain rfl : st = .v := by simpa using hst
    rfl
  rw [e]
  simp only [vz, V3.unpack_pack]
  simp [v3Form, accept_of hw]

theorem vmul (t : LaneTy) (rnd : Rnd) (mk : Bool) (x y : VSrc) (d : VDst) : Statement (.vmul t rnd mk x y d) := by
  intro hw
  refine ⟨by decide, fun st hst hdr => ?_⟩
  rw [decodeWord_joinWord]
  have e : ∀ l b, decode st 0x12 l b =
        let f := V3.unpack b
        v3Form l f true false true true false fun t r a b _ d => accept (.vmul t r f.mk' a b d) := by
    intro l b
    obtain rfl : st = .v := by simpa using hst
    rfl
  rw [e]
  simp only [vz, V3.unpack_pack]
  simp [v3Form, accept_of hw]

theorem vfma (t : LaneTy) (rnd : Rnd) (mk : Bool) (x y z : VSrc) (d : VDst) : Statement (.vfma t rnd mk x y z d) := by
  intro hw
  refine ⟨by decide, fun st hst hdr => ?_⟩
  rw [decodeWord_joinWord]
  have e : ∀ l b, decode st 0x13 l b =
        let f := V3.unpack b
        v3Form l f true true true true false fun t r a b c d => accept (.vfma t r f.mk' a b c d) := by
    intro l b
    obtain rfl : st = .v := by simpa using hst
    rfl
  rw [e]
  simp only [V3.unpack_pack]
  simp [v3Form, accept_of hw]

theorem vfms (t : LaneTy) (rnd : Rnd) (mk : Bool) (x y z : VSrc) (d : VDst) : Statement (.vfms t rnd mk x y z d) := by
  intro hw
  refine ⟨by decide, fun st hst hdr => ?_⟩
  rw [decodeWord_joinWord]
  have e : ∀ l b, decode st 0x14 l b =
        let f := V3.unpack b
        v3Form l f true true true true false fun t r a b c d => accept (.vfms t r f.mk' a b c d) := by
    intro l b
    obtain rfl : st = .v := by simpa using hst
    rfl
  rw [e]
  simp only [V3.unpack_pack]
  simp [v3Form, accept_of hw]

theorem vmin (t : LaneTy) (mk : Bool) (x y : VSrc) (d : VDst) : Statement (.vmin t mk x y d) := by
  intro hw
  refine ⟨by decide, fun st hst hdr => ?_⟩
  rw [decodeWord_joinWord]
  have e : ∀ l b, decode st 0x15 l b =
        let f := V3.unpack b
        v3Form l f true false false true false fun t _ a b _ d => accept (.vmin t f.mk' a b d) := by
    intro l b
    obtain rfl : st = .v := by simpa using hst
    rfl
  rw [e]
  simp only [vz, V3.unpack_pack]
  simp [v3Form, accept_of hw]

theorem vmax (t : LaneTy) (mk : Bool) (x y : VSrc) (d : VDst) : Statement (.vmax t mk x y d) := by
  intro hw
  refine ⟨by decide, fun st hst hdr => ?_⟩
  rw [decodeWord_joinWord]
  have e : ∀ l b, decode st 0x16 l b =
        let f := V3.unpack b
        v3Form l f true false false true false fun t _ a b _ d => accept (.vmax t f.mk' a b d) := by
    intro l b
    obtain rfl : st = .v := by simpa using hst
    rfl
  rw [e]
  simp only [vz, V3.unpack_pack]
  simp [v3Form, accept_of hw]

theorem vabs (t : LaneTy) (mk : Bool) (x : VSrc) (d : VDst) : Statement (.vabs t mk x d) := by
  intro hw
  refine ⟨by decide, fun st hst hdr => ?_⟩
  rw [decodeWord_joinWord]
  have e : ∀ l b, decode st 0x17 l b =
        let f := V3.unpack b
        v3Form l f false false false true false fun t _ a _ _ d => accept (.vabs t f.mk' a d) := by
    intro l b
    obtain rfl : st = .v := by simpa using hst
    rfl
  rw [e]
  simp only [vz, V3.unpack_pack]
  simp [v3Form, accept_of hw]

theorem vneg (t : LaneTy) (mk : Bool) (x : VSrc) (d : VDst) : Statement (.vneg t mk x d) := by
  intro hw
  refine ⟨by decide, fun st hst hdr => ?_⟩
  rw [decodeWord_joinWord]
  have e : ∀ l b, decode st 0x18 l b =
        let f := V3.unpack b
        v3Form l f false false false true false fun t _ a _ _ d => accept (.vneg t f.mk' a d) := by
    intro l b
    obtain rfl : st = .v := by simpa using hst
    rfl
  rw [e]
  simp only [vz, V3.unpack_pack]
  simp [v3Form, accept_of hw]

theorem vand (t : LaneTy) (mk : Bool) (x y : VSrc) (d : VDst) : Statement (.vand t mk x y d) := by
  intro hw
  refine ⟨by decide, fun st hst hdr => ?_⟩
  rw [decodeWord_joinWord]
  have e : ∀ l b, decode st 0x19 l b =
        let f := V3.unpack b
        v3Form l f true false false true false fun t _ a b _ d => accept (.vand t f.mk' a b d) := by
    intro l b
    obtain rfl : st = .v := by simpa using hst
    rfl
  rw [e]
  simp only [vz, V3.unpack_pack]
  simp [v3Form, accept_of hw]

theorem vor (t : LaneTy) (mk : Bool) (x y : VSrc) (d : VDst) : Statement (.vor t mk x y d) := by
  intro hw
  refine ⟨by decide, fun st hst hdr => ?_⟩
  rw [decodeWord_joinWord]
  have e : ∀ l b, decode st 0x1A l b =
        let f := V3.unpack b
        v3Form l f true false false true false fun t _ a b _ d => accept (.vor t f.mk' a b d) := by
    intro l b
    obtain rfl : st = .v := by simpa using hst
    rfl
  rw [e]
  simp only [vz, V3.unpack_pack]
  simp [v3Form, accept_of hw]

theorem vxor (t : LaneTy) (mk : Bool) (x y : VSrc) (d : VDst) : Statement (.vxor t mk x y d) := by
  intro hw
  refine ⟨by decide, fun st hst hdr => ?_⟩
  rw [decodeWord_joinWord]
  have e : ∀ l b, decode st 0x1B l b =
        let f := V3.unpack b
        v3Form l f true false false true false fun t _ a b _ d => accept (.vxor t f.mk' a b d) := by
    intro l b
    obtain rfl : st = .v := by simpa using hst
    rfl
  rw [e]
  simp only [vz, V3.unpack_pack]
  simp [v3Form, accept_of hw]

theorem vshl (t : LaneTy) (mk : Bool) (x y : VSrc) (d : VDst) : Statement (.vshl t mk x y d) := by
  intro hw
  refine ⟨by decide, fun st hst hdr => ?_⟩
  rw [decodeWord_joinWord]
  have e : ∀ l b, decode st 0x1C l b =
        let f := V3.unpack b
        v3Form l f true false false true false fun t _ a b _ d => accept (.vshl t f.mk' a b d) := by
    intro l b
    obtain rfl : st = .v := by simpa using hst
    rfl
  rw [e]
  simp only [vz, V3.unpack_pack]
  simp [v3Form, accept_of hw]

theorem vshr (t : LaneTy) (mk : Bool) (x y : VSrc) (d : VDst) : Statement (.vshr t mk x y d) := by
  intro hw
  refine ⟨by decide, fun st hst hdr => ?_⟩
  rw [decodeWord_joinWord]
  have e : ∀ l b, decode st 0x1D l b =
        let f := V3.unpack b
        v3Form l f true false false true false fun t _ a b _ d => accept (.vshr t f.mk' a b d) := by
    intro l b
    obtain rfl : st = .v := by simpa using hst
    rfl
  rw [e]
  simp only [vz, V3.unpack_pack]
  simp [v3Form, accept_of hw]

theorem vsar (t : LaneTy) (mk : Bool) (x y : VSrc) (d : VDst) : Statement (.vsar t mk x y d) := by
  intro hw
  refine ⟨by decide, fun st hst hdr => ?_⟩
  rw [decodeWord_joinWord]
  have e : ∀ l b, decode st 0x1E l b =
        let f := V3.unpack b
        v3Form l f true false false true false fun t _ a b _ d => accept (.vsar t f.mk' a b d) := by
    intro l b
    obtain rfl : st = .v := by simpa using hst
    rfl
  rw [e]
  simp only [vz, V3.unpack_pack]
  simp [v3Form, accept_of hw]

theorem vcmp (c : VCond) (t : LaneTy) (mk : Bool) (x y : VSrc) (d : VDst) : Statement (.vcmp c t mk x y d) := by
  intro hw
  refine ⟨by decide, fun st hst hdr => ?_⟩
  rw [decodeWord_joinWord]
  have e : ∀ l b, decode st 0x1F l b =
        let f := V3.unpack b
        v3Form l f true false false true true fun t _ a b _ d =>
          need (f.x.extractLsb' 3 4 == 0) .reserved <| given (VCond.ofCode (f.x.extractLsb' 0 3).toNat) .code fun c =>
          accept (.vcmp c t f.mk' a b d) := by
    intro l b
    obtain rfl : st = .v := by simpa using hst
    rfl
  rw [e]
  simp only [vz, V3.unpack_pack]
  repeat first
    | rw [extract_hi (by decide)] | rw [extract_lo (by decide)] | rw [bit_hi (by decide)] | rw [bit_lo (by decide)]
  simp [v3Form, accept_of hw]

theorem vsel (t : LaneTy) (mk : Bool) (x y z : VSrc) (d : VDst) : Statement (.vsel t mk x y z d) := by
  intro hw
  refine ⟨by decide, fun st hst hdr => ?_⟩
  rw [decodeWord_joinWord]
  have e : ∀ l b, decode st 0x20 l b =
        let f := V3.unpack b
        v3Form l f true true false true false fun t _ a b c d => accept (.vsel t f.mk' a b c d) := by
    intro l b
    obtain rfl : st = .v := by simpa using hst
    rfl
  rw [e]
  simp only [V3.unpack_pack]
  simp [v3Form, accept_of hw]

theorem vrcp (t : LaneTy) (rnd : Rnd) (mk : Bool) (x : VSrc) (d : VDst) : Statement (.vrcp t rnd mk x d) := by
  intro hw
  refine ⟨by decide, fun st hst hdr => ?_⟩
  rw [decodeWord_joinWord]
  have e : ∀ l b, decode st 0x21 l b =
        let f := V3.unpack b
        v3Form l f false false true true false fun t r a _ _ d => accept (.vrcp t r f.mk' a d) := by
    intro l b
    obtain rfl : st = .v := by simpa using hst
    rfl
  rw [e]
  simp only [vz, V3.unpack_pack]
  simp [v3Form, accept_of hw]

theorem vrsq (t : LaneTy) (rnd : Rnd) (mk : Bool) (x : VSrc) (d : VDst) : Statement (.vrsq t rnd mk x d) := by
  intro hw
  refine ⟨by decide, fun st hst hdr => ?_⟩
  rw [decodeWord_joinWord]
  have e : ∀ l b, decode st 0x22 l b =
        let f := V3.unpack b
        v3Form l f false false true true false fun t r a _ _ d => accept (.vrsq t r f.mk' a d) := by
    intro l b
    obtain rfl : st = .v := by simpa using hst
    rfl
  rw [e]
  simp only [vz, V3.unpack_pack]
  simp [v3Form, accept_of hw]

theorem vexp2 (t : LaneTy) (rnd : Rnd) (mk : Bool) (x : VSrc) (d : VDst) : Statement (.vexp2 t rnd mk x d) := by
  intro hw
  refine ⟨by decide, fun st hst hdr => ?_⟩
  rw [decodeWord_joinWord]
  have e : ∀ l b, decode st 0x23 l b =
        let f := V3.unpack b
        v3Form l f false false true true false fun t r a _ _ d => accept (.vexp2 t r f.mk' a d) := by
    intro l b
    obtain rfl : st = .v := by simpa using hst
    rfl
  rw [e]
  simp only [vz, V3.unpack_pack]
  simp [v3Form, accept_of hw]

theorem vlog2 (t : LaneTy) (rnd : Rnd) (mk : Bool) (x : VSrc) (d : VDst) : Statement (.vlog2 t rnd mk x d) := by
  intro hw
  refine ⟨by decide, fun st hst hdr => ?_⟩
  rw [decodeWord_joinWord]
  have e : ∀ l b, decode st 0x24 l b =
        let f := V3.unpack b
        v3Form l f false false true true false fun t r a _ _ d => accept (.vlog2 t r f.mk' a d) := by
    intro l b
    obtain rfl : st = .v := by simpa using hst
    rfl
  rw [e]
  simp only [vz, V3.unpack_pack]
  simp [v3Form, accept_of hw]

theorem vclamp (t : LaneTy) (mk : Bool) (x y z : VSrc) (d : VDst) : Statement (.vclamp t mk x y z d) := by
  intro hw
  refine ⟨by decide, fun st hst hdr => ?_⟩
  rw [decodeWord_joinWord]
  have e : ∀ l b, decode st 0x25 l b =
        let f := V3.unpack b
        v3Form l f true true false true false fun t _ a b c d => accept (.vclamp t f.mk' a b c d) := by
    intro l b
    obtain rfl : st = .v := by simpa using hst
    rfl
  rw [e]
  simp only [V3.unpack_pack]
  simp [v3Form, accept_of hw]

theorem vmov (mk : Bool) (x : VSrc) (d : VDst) : Statement (.vmov mk x d) := by
  intro hw
  refine ⟨by decide, fun st hst hdr => ?_⟩
  rw [decodeWord_joinWord]
  have e : ∀ l b, decode st 0x26 l b =
        let f := V3.unpack b
        v3Form l f false false false true false fun t _ a _ _ d => need (t == .f32) .reserved (accept (.vmov f.mk' a d)) := by
    intro l b
    obtain rfl : st = .v := by simpa using hst
    rfl
  rw [e]
  simp only [vz, V3.unpack_pack]
  simp [v3Form, accept_of hw]

theorem vlit (mk : Bool) (i : Imm) (d : VDst) : Statement (.vlit mk i d) := by
  intro hw
  refine ⟨by decide, fun st hst hdr => ?_⟩
  rw [decodeWord_joinWord]
  have e : ∀ l b, decode st 0x27 l b =
        let g := VI.unpack b
        need (g.a == 0 && g.t == 0) .reserved <| given (immOf l g.imm) .reserved fun i =>
          given (dstOf g.den g.dn) .reserved fun d => .ok (.vlit g.mk' i d) := by
    intro l b
    obtain rfl : st = .v := by simpa using hst
    rfl
  rw [e]
  simp only [VI.unpack_pack]
  simp

theorem vaddi (t : LaneTy) (mk : Bool) (x : VSrc) (i : Imm) (d : VDst) : Statement (.vaddi t mk x i d) := by
  intro hw
  refine ⟨by decide, fun st hst hdr => ?_⟩
  rw [decodeWord_joinWord]
  have e : ∀ l b, decode st 0x2B l b =
        let g := VI.unpack b
        given (LaneTy.ofCode g.t.toNat) .code fun t => given (VSrc.ofCode g.a) .specifier fun a =>
          given (immOf l g.imm) .reserved fun i => given (dstOf g.den g.dn) .reserved fun d => accept (.vaddi t g.mk' a i d) := by
    intro l b
    obtain rfl : st = .v := by simpa using hst
    rfl
  rw [e]
  simp only [VI.unpack_pack]
  simp [accept_of hw]

theorem vdot4 (t : LaneTy) (mk : Bool) (x y z : VSrc) (d : VDst) : Statement (.vdot4 t mk x y z d) := by
  intro hw
  refine ⟨by decide, fun st hst hdr => ?_⟩
  rw [decodeWord_joinWord]
  have e : ∀ l b, decode st 0x28 l b =
        let f := V3.unpack b
        v3Form l f true true false true false fun t _ a b c d => accept (.vdot4 t f.mk' a b c d) := by
    intro l b
    obtain rfl : st = .v := by simpa using hst
    rfl
  rw [e]
  simp only [V3.unpack_pack]
  simp [v3Form, accept_of hw]

theorem vrsh (t : LaneTy) (mk : Bool) (x y : VSrc) (d : VDst) : Statement (.vrsh t mk x y d) := by
  intro hw
  refine ⟨by decide, fun st hst hdr => ?_⟩
  rw [decodeWord_joinWord]
  have e : ∀ l b, decode st 0x29 l b =
        let f := V3.unpack b
        v3Form l f true false false true false fun t _ a b _ d => accept (.vrsh t f.mk' a b d) := by
    intro l b
    obtain rfl : st = .v := by simpa using hst
    rfl
  rw [e]
  simp only [vz, V3.unpack_pack]
  simp [v3Form, accept_of hw]

theorem vmulq (mk : Bool) (x y : VSrc) (d : VDst) : Statement (.vmulq mk x y d) := by
  intro hw
  refine ⟨by decide, fun st hst hdr => ?_⟩
  rw [decodeWord_joinWord]
  have e : ∀ l b, decode st 0x2A l b =
        let f := V3.unpack b
        v3Form l f true false false true false fun t _ a b _ d => need (t == .s32) .code (accept (.vmulq f.mk' a b d)) := by
    intro l b
    obtain rfl : st = .v := by simpa using hst
    rfl
  rw [e]
  simp only [vz, V3.unpack_pack]
  simp [v3Form, accept_of hw]

theorem vredadd (t : LaneTy) (rnd : Rnd) (mk : Bool) (x : VSrc) (d : VDst) : Statement (.vredadd t rnd mk x d) := by
  intro hw
  refine ⟨by decide, fun st hst hdr => ?_⟩
  rw [decodeWord_joinWord]
  have e : ∀ l b, decode st 0x30 l b =
        let f := V3.unpack b
        v3Form l f false false true true false fun t r a _ _ d => accept (.vredadd t r f.mk' a d) := by
    intro l b
    obtain rfl : st = .v := by simpa using hst
    rfl
  rw [e]
  simp only [vz, V3.unpack_pack]
  simp [v3Form, accept_of hw]

theorem vredmax (t : LaneTy) (mk : Bool) (x : VSrc) (d : VDst) : Statement (.vredmax t mk x d) := by
  intro hw
  refine ⟨by decide, fun st hst hdr => ?_⟩
  rw [decodeWord_joinWord]
  have e : ∀ l b, decode st 0x31 l b =
        let f := V3.unpack b
        v3Form l f false false false true false fun t _ a _ _ d => accept (.vredmax t f.mk' a d) := by
    intro l b
    obtain rfl : st = .v := by simpa using hst
    rfl
  rw [e]
  simp only [vz, V3.unpack_pack]
  simp [v3Form, accept_of hw]

theorem vredmin (t : LaneTy) (mk : Bool) (x : VSrc) (d : VDst) : Statement (.vredmin t mk x d) := by
  intro hw
  refine ⟨by decide, fun st hst hdr => ?_⟩
  rw [decodeWord_joinWord]
  have e : ∀ l b, decode st 0x32 l b =
        let f := V3.unpack b
        v3Form l f false false false true false fun t _ a _ _ d => accept (.vredmin t f.mk' a d) := by
    intro l b
    obtain rfl : st = .v := by simpa using hst
    rfl
  rw [e]
  simp only [vz, V3.unpack_pack]
  simp [v3Form, accept_of hw]

theorem vscan (t : LaneTy) (rnd : Rnd) (mk : Bool) (x : VSrc) (d : VDst) : Statement (.vscan t rnd mk x d) := by
  intro hw
  refine ⟨by decide, fun st hst hdr => ?_⟩
  rw [decodeWord_joinWord]
  have e : ∀ l b, decode st 0x33 l b =
        let f := V3.unpack b
        v3Form l f false false true true false fun t r a _ _ d => accept (.vscan t r f.mk' a d) := by
    intro l b
    obtain rfl : st = .v := by simpa using hst
    rfl
  rw [e]
  simp only [vz, V3.unpack_pack]
  simp [v3Form, accept_of hw]

theorem vperm (mk : Bool) (x y : VSrc) (d : VDst) : Statement (.vperm mk x y d) := by
  intro hw
  refine ⟨by decide, fun st hst hdr => ?_⟩
  rw [decodeWord_joinWord]
  have e : ∀ l b, decode st 0x34 l b =
        let f := V3.unpack b
        v3Form l f true false false true false fun t _ a b _ d => need (t == .f32) .reserved (accept (.vperm f.mk' a b d)) := by
    intro l b
    obtain rfl : st = .v := by simpa using hst
    rfl
  rw [e]
  simp only [vz, V3.unpack_pack]
  simp [v3Form, accept_of hw]

theorem vrot (mk : Bool) (x y : VSrc) (d : VDst) : Statement (.vrot mk x y d) := by
  intro hw
  refine ⟨by decide, fun st hst hdr => ?_⟩
  rw [decodeWord_joinWord]
  have e : ∀ l b, decode st 0x35 l b =
        let f := V3.unpack b
        v3Form l f true false false true false fun t _ a b _ d => need (t == .f32) .reserved (accept (.vrot f.mk' a b d)) := by
    intro l b
    obtain rfl : st = .v := by simpa using hst
    rfl
  rw [e]
  simp only [vz, V3.unpack_pack]
  simp [v3Form, accept_of hw]

theorem vbcast (mk : Bool) (x y : VSrc) (d : VDst) : Statement (.vbcast mk x y d) := by
  intro hw
  refine ⟨by decide, fun st hst hdr => ?_⟩
  rw [decodeWord_joinWord]
  have e : ∀ l b, decode st 0x36 l b =
        let f := V3.unpack b
        v3Form l f true false false true false fun t _ a b _ d => need (t == .f32) .reserved
          (accept (.vbcast f.mk' a b d)) := by
    intro l b
    obtain rfl : st = .v := by simpa using hst
    rfl
  rw [e]
  simp only [vz, V3.unpack_pack]
  simp [v3Form, accept_of hw]

theorem vargmax (t : LaneTy) (mk : Bool) (x : VSrc) (d : VDst) : Statement (.vargmax t mk x d) := by
  intro hw
  refine ⟨by decide, fun st hst hdr => ?_⟩
  rw [decodeWord_joinWord]
  have e : ∀ l b, decode st 0x37 l b =
        let f := V3.unpack b
        v3Form l f false false false true false fun t _ a _ _ d => accept (.vargmax t f.mk' a d) := by
    intro l b
    obtain rfl : st = .v := by simpa using hst
    rfl
  rw [e]
  simp only [vz, V3.unpack_pack]
  simp [v3Form, accept_of hw]

theorem iset (n : BitVec 3) (arg : IsetArg) : Statement (.iset n arg) := by
  intro hw
  have hf : ∀ x i, arg = .vec x i → i.field = 0#22 := by
    rintro x i rfl
    have hi : i.isZeroOrLit = true := hw
    cases i with
    | short v => simpa [Imm.isZeroOrLit, Imm.field] using hi
    | lit v => rfl
  have e : ∀ l b, decode .v 0x4C l b =
      let g := VI.unpack b
      need (!g.den && g.dn.extractLsb' 3 2 == 0 && !g.mk') .reserved <|
      match g.t.toNat with
      | 0 => need (g.a == 0) .reserved <| given (immOf l g.imm) .reserved fun i => .ok (.iset (g.dn.extractLsb' 0 3) (.val i))
      | 1 => need (g.a == 0) .reserved <| given (immOf l g.imm) .reserved fun i => .ok (.iset (g.dn.extractLsb' 0 3) (.step i))
      | 2 => need (g.a == 0) .reserved <| given (immOf l g.imm) .reserved fun i => .ok (.iset (g.dn.extractLsb' 0 3) (.lim i))
      | 3 => need (g.imm == 0) .reserved <| given (VSrc.ofCode g.a) .specifier fun a => given (immOf l g.imm) .reserved fun i =>
          .ok (.iset (g.dn.extractLsb' 0 3) (.vec a i))
      | _ => .error .code := fun _ _ => rfl
  cases arg <;>
    · refine ⟨by decide, fun st hst hdr => ?_⟩
      obtain rfl : st = .v := by simpa using hst
      rw [decodeWord_joinWord, e]
      simp only [VI.unpack_pack]
      repeat first
        | rw [extract_hi (by decide)] | rw [extract_lo (by decide)]
      first
        | (simp; done)
        | (rename_i x i
           have h0 := hf x i rfl
           have h1 : immOf i.word 0#22 = some i := by rw [← h0]; exact immOf_field i
           simp [h0, h1])

theorem iadd (n : BitVec 3) (i : Imm) : Statement (.iadd n i) := by
  intro hw
  refine ⟨by decide, fun st hst hdr => ?_⟩
  rw [decodeWord_joinWord]
  have e : ∀ l b, decode st 0x4D l b =
        let g := VI.unpack b
        
        need (!g.den && g.dn.extractLsb' 3 2 == 0 && !g.mk' && g.t == 0 && g.a == 0) .reserved <|
        given (immOf l g.imm) .reserved fun i => .ok (.iadd (g.dn.extractLsb' 0 3) i) := by
    intro l b
    obtain rfl : st = .v := by simpa using hst
    rfl
  rw [e]
  simp only [VI.unpack_pack]
  repeat first
    | rw [extract_hi (by decide)] | rw [extract_lo (by decide)] | rw [bit_hi (by decide)] | rw [bit_lo (by decide)]
  simp

theorem vmpush (x : VSrc) : Statement (.vmpush x) := by
  intro hw
  refine ⟨by decide, fun st hst hdr => ?_⟩
  rw [decodeWord_joinWord]
  have e : ∀ l b, decode st 0x50 l b =
        let h := VB.unpack b
        vbForm l h true false false fun a _ => .ok (.vmpush a) := by
    intro l b
    obtain rfl : st = .v := by simpa using hst
    rfl
  rw [e]
  simp only [VB.unpack_pack]
  simp [vbForm]

theorem vminv : Statement (.vminv) := by
  intro hw
  refine ⟨by decide, fun st hst hdr => ?_⟩
  rw [decodeWord_joinWord]
  have e : ∀ l b, decode st 0x51 l b =
        let h := VB.unpack b
        vbForm l h false false false fun _ _ => .ok .vminv := by
    intro l b
    obtain rfl : st = .v := by simpa using hst
    rfl
  rw [e]
  simp only [vz, VB.unpack_pack]
  simp [vbForm]

theorem vmpop : Statement (.vmpop) := by
  intro hw
  refine ⟨by decide, fun st hst hdr => ?_⟩
  rw [decodeWord_joinWord]
  have e : ∀ l b, decode st 0x52 l b =
        let h := VB.unpack b
        vbForm l h false false false fun _ _ => .ok .vmpop := by
    intro l b
    obtain rfl : st = .v := by simpa using hst
    rfl
  rw [e]
  simp only [vz, VB.unpack_pack]
  simp [vbForm]

theorem vmget (d : VDst) : Statement (.vmget d) := by
  intro hw
  refine ⟨by decide, fun st hst hdr => ?_⟩
  rw [decodeWord_joinWord]
  have e : ∀ l b, decode st 0x55 l b =
        let h := VB.unpack b
        vbForm l h false true false fun _ d => .ok (.vmget d) := by
    intro l b
    obtain rfl : st = .v := by simpa using hst
    rfl
  rw [e]
  simp only [vz, VB.unpack_pack]
  simp [vbForm]

theorem vbnone (off : BitVec 24) : Statement (.vbnone off) := by
  intro hw
  refine ⟨by decide, fun st hst hdr => ?_⟩
  rw [decodeWord_joinWord]
  have e : ∀ l b, decode st 0x53 l b =
        let h := VB.unpack b
        vbForm l h false false true fun _ _ => .ok (.vbnone h.off) := by
    intro l b
    obtain rfl : st = .v := by simpa using hst
    rfl
  rw [e]
  simp only [vz, VB.unpack_pack]
  simp [vbForm]

theorem vbany (off : BitVec 24) : Statement (.vbany off) := by
  intro hw
  refine ⟨by decide, fun st hst hdr => ?_⟩
  rw [decodeWord_joinWord]
  have e : ∀ l b, decode st 0x54 l b =
        let h := VB.unpack b
        vbForm l h false false true fun _ _ => .ok (.vbany h.off) := by
    intro l b
    obtain rfl : st = .v := by simpa using hst
    rfl
  rw [e]
  simp only [vz, VB.unpack_pack]
  simp [vbForm]

theorem vld (a : VAddr) (d : VDst) : Statement (.vld a d) := by
  intro hw
  refine ⟨by decide, fun st hst hdr => ?_⟩
  rw [decodeWord_joinWord]
  have e : ∀ l b, decode st 0x58 l b =
        let u := VT.unpack b
        vtForm l u false true false fun _ ad _ d => .ok (.vld ad d) := by
    intro l b
    obtain rfl : st = .v := by simpa using hst
    rfl
  rw [e]
  simp only [vz, VT.unpack_pack]
  simp [vtForm]

theorem vst (x : VSrc) (a : VAddr) : Statement (.vst x a) := by
  intro hw
  refine ⟨by decide, fun st hst hdr => ?_⟩
  rw [decodeWord_joinWord]
  have e : ∀ l b, decode st 0x59 l b =
        let u := VT.unpack b
        vtForm l u true false false fun a ad _ _ => .ok (.vst a ad) := by
    intro l b
    obtain rfl : st = .v := by simpa using hst
    rfl
  rw [e]
  simp only [VT.unpack_pack]
  simp [vtForm]

theorem vldx (x : VSrc) (a : VAddr) (d : VDst) : Statement (.vldx x a d) := by
  intro hw
  refine ⟨by decide, fun st hst hdr => ?_⟩
  rw [decodeWord_joinWord]
  have e : ∀ l b, decode st 0x5C l b =
        let u := VT.unpack b
        vtForm l u true true false fun a ad _ d => .ok (.vldx a ad d) := by
    intro l b
    obtain rfl : st = .v := by simpa using hst
    rfl
  rw [e]
  simp only [VT.unpack_pack]
  simp [vtForm]

theorem vldt (t : TileRef) (a : VAddr) (d : VDst) : Statement (.vldt t a d) := by
  intro hw
  refine ⟨by decide, fun st hst hdr => ?_⟩
  rw [decodeWord_joinWord]
  have e : ∀ l b, decode st 0x5A l b =
        let u := VT.unpack b
        vtForm l u false true true fun _ ad t d => .ok (.vldt t ad d) := by
    intro l b
    obtain rfl : st = .v := by simpa using hst
    rfl
  rw [e]
  simp only [vz, VT.unpack_pack]
  simp [vtForm]

theorem vstt (x : VSrc) (t : TileRef) (a : VAddr) : Statement (.vstt x t a) := by
  intro hw
  refine ⟨by decide, fun st hst hdr => ?_⟩
  rw [decodeWord_joinWord]
  have e : ∀ l b, decode st 0x5B l b =
        let u := VT.unpack b
        vtForm l u true false true fun a ad t _ => .ok (.vstt a t ad) := by
    intro l b
    obtain rfl : st = .v := by simpa using hst
    rfl
  rw [e]
  simp only [VT.unpack_pack]
  simp [vtForm]

theorem vcvt (dt st : LaneTy) (rnd : Rnd) (mk h : Bool) (x y : VSrc) (d : VDst) : Statement (.vcvt dt st rnd mk h x y d) := by
  intro hw
  refine ⟨by decide, fun st hst hdr => ?_⟩
  rw [decodeWord_joinWord]
  have e : ∀ l b, decode st 0x60 l b =
        let f := V3.unpack b
        v3Form l f true false true true true fun t r a b _ d =>
          need (!bitOf f.x 3 && f.x.extractLsb' 5 2 == 0) .reserved <| given (LaneTy.ofCode (f.x.extractLsb' 0 3).toNat) .code fun s =>
          accept (.vcvt t s r f.mk' (bitOf f.x 4) a b d) := by
    intro l b
    obtain rfl : st = .v := by simpa using hst
    rfl
  rw [e]
  simp only [vz, V3.unpack_pack, bitOf]
  repeat first
    | rw [extract_hi (by decide)] | rw [extract_lo (by decide)] | rw [bit_hi (by decide)] | rw [bit_lo (by decide)]
  simp [v3Form, accept_of hw]

theorem vqnt (fmt : EFmt) (t : LaneTy) (rnd : Rnd) (ov : Ov) (mk : Bool) (x y : VSrc) (d : VDst) : Statement (.vqnt fmt t rnd ov mk x y d) := by
  intro hw
  refine ⟨by decide, fun st hst hdr => ?_⟩
  rw [decodeWord_joinWord]
  have e : ∀ l b, decode st 0x61 l b =
        let f := V3.unpack b
        v3Form l f true false true true true fun t r a b _ d => need (!bitOf f.x 6) .reserved <|
          given (EFmt.ofCode (f.x.extractLsb' 0 4).toNat) .code fun e => given (Ov.ofCode (f.x.extractLsb' 4 2).toNat) .code fun o =>
          accept (.vqnt e t r o f.mk' a b d) := by
    intro l b
    obtain rfl : st = .v := by simpa using hst
    rfl
  rw [e]
  simp only [vz, V3.unpack_pack, bitOf]
  repeat first
    | rw [extract_hi (by decide)] | rw [extract_lo (by decide)] | rw [bit_hi (by decide)] | rw [bit_lo (by decide)]
  simp [v3Form, accept_of hw]

theorem vdeq (fmt : EFmt) (t : LaneTy) (rnd : Rnd) (mk : Bool) (x y : VSrc) (d : VDst) : Statement (.vdeq fmt t rnd mk x y d) := by
  intro hw
  refine ⟨by decide, fun st hst hdr => ?_⟩
  rw [decodeWord_joinWord]
  have e : ∀ l b, decode st 0x62 l b =
        let f := V3.unpack b
        v3Form l f true false true true true fun t r a b _ d => need (f.x.extractLsb' 4 3 == 0) .reserved <|
          given (EFmt.ofCode (f.x.extractLsb' 0 4).toNat) .code fun e => accept (.vdeq e t r f.mk' a b d) := by
    intro l b
    obtain rfl : st = .v := by simpa using hst
    rfl
  rw [e]
  simp only [vz, V3.unpack_pack]
  repeat first
    | rw [extract_hi (by decide)] | rw [extract_lo (by decide)] | rw [bit_hi (by decide)] | rw [bit_lo (by decide)]
  simp [v3Form, accept_of hw]

theorem vbsc (fmt : EFmt) (t : LaneTy) (x : VSrc) (d : VDst) : Statement (.vbsc fmt t x d) := by
  intro hw
  refine ⟨by decide, fun st hst hdr => ?_⟩
  rw [decodeWord_joinWord]
  have e : ∀ l b, decode st 0x63 l b =
        let f := V3.unpack b
        v3Form l f false false false false true fun t _ a _ _ d => need (f.x.extractLsb' 4 3 == 0) .reserved <|
          given (EFmt.ofCode (f.x.extractLsb' 0 4).toNat) .code fun e => accept (.vbsc e t a d) := by
    intro l b
    obtain rfl : st = .v := by simpa using hst
    rfl
  rw [e]
  simp only [vz, V3.unpack_pack]
  repeat first
    | rw [extract_hi (by decide)] | rw [extract_lo (by decide)] | rw [bit_hi (by decide)] | rw [bit_lo (by decide)]
  simp [v3Form, accept_of hw]

theorem vsce (toE8 mk : Bool) (x : VSrc) (d : VDst) : Statement (.vsce toE8 mk x d) := by
  intro hw
  refine ⟨by decide, fun st hst hdr => ?_⟩
  rw [decodeWord_joinWord]
  have e : ∀ l b, decode st 0x64 l b =
        let f := V3.unpack b
        v3Form l f false false false true true fun t _ a _ _ d => need (f.x.extractLsb' 4 3 == 0 && t == .s8) .reserved <|
          match (f.x.extractLsb' 0 4).toNat with
          | 0xC => .ok (.vsce true f.mk' a d)
          | 0x6 => .ok (.vsce false f.mk' a d)
          | _ => .error .code := by
    intro l b
    obtain rfl : st = .v := by simpa using hst
    rfl
  rw [e]
  cases toE8 <;>
    · simp only [vz, V3.unpack_pack]
      repeat first
        | rw [extract_hi (by decide)] | rw [extract_lo (by decide)] | rw [bit_hi (by decide)] | rw [bit_lo (by decide)]
      simp [v3Form]

theorem vpak (fmt : EFmt) (half : Bool) (g : BitVec 3) (x y : VSrc) (d : VDst) : Statement (.vpak fmt half g x y d) := by
  intro hw
  refine ⟨by decide, fun st hst hdr => ?_⟩
  rw [decodeWord_joinWord]
  have e : ∀ l b, decode st 0x65 l b =
        let f := V3.unpack b
        v3Form l f true false false false true fun t _ a b _ d =>
          given (EFmt.ofCode (f.x.extractLsb' 0 4).toNat) .code fun e => need (t == .z32 || t == .z16) .code
            (accept (.vpak e (t == .z16) (f.x.extractLsb' 4 3) a b d)) := by
    intro l b
    obtain rfl : st = .v := by simpa using hst
    rfl
  rw [e]
  cases half <;>
    · simp only [vz, V3.unpack_pack]
      repeat first
        | rw [extract_hi (by decide)] | rw [extract_lo (by decide)] | rw [bit_hi (by decide)] | rw [bit_lo (by decide)]
      simp [show (LaneTy.z32 == LaneTy.z16) = false from rfl, v3Form, accept_of hw]

theorem vupk (fmt : EFmt) (half : Bool) (g : BitVec 3) (x : VSrc) (d : VDst) : Statement (.vupk fmt half g x d) := by
  intro hw
  refine ⟨by decide, fun st hst hdr => ?_⟩
  rw [decodeWord_joinWord]
  have e : ∀ l b, decode st 0x66 l b =
        let f := V3.unpack b
        v3Form l f false false false false true fun t _ a _ _ d =>
          given (EFmt.ofCode (f.x.extractLsb' 0 4).toNat) .code fun e => need (t == .z32 || t == .z16) .code
            (accept (.vupk e (t == .z16) (f.x.extractLsb' 4 3) a d)) := by
    intro l b
    obtain rfl : st = .v := by simpa using hst
    rfl
  rw [e]
  cases half <;>
    · simp only [vz, V3.unpack_pack]
      repeat first
        | rw [extract_hi (by decide)] | rw [extract_lo (by decide)] | rw [bit_hi (by decide)] | rw [bit_lo (by decide)]
      simp [show (LaneTy.z32 == LaneTy.z16) = false from rfl, v3Form, accept_of hw]

theorem vdph (n : BitVec 5) : Statement (.vdph n) := by
  intro hw
  refine ⟨by decide, fun st hst hdr => ?_⟩
  rw [decodeWord_joinWord]
  have e : ∀ l b, decode st 0x67 l b =
        let g := VI.unpack b
        need l.isNone .literal <|
          need (g.a == 0 && !g.den && g.dn == 0 && g.t == 0 && !g.mk' && g.imm.extractLsb' 5 17 == 0) .reserved
            (.ok (.vdph (g.imm.extractLsb' 0 5))) := by
    intro l b
    obtain rfl : st = .v := by simpa using hst
    rfl
  rw [e]
  simp only [VI.unpack_pack]
  repeat first
    | rw [extract_hi (by decide)] | rw [extract_lo (by decide)] | rw [bit_hi (by decide)] | rw [bit_lo (by decide)]
  simp

theorem vmirror (n : BitVec 5) (on : Bool) : Statement (.vmirror n on) := by
  intro hw
  refine ⟨by decide, fun st hst hdr => ?_⟩
  rw [decodeWord_joinWord]
  have e : ∀ l b, decode st 0x70 l b =
        let g := VI.unpack b
        need l.isNone .literal <|
          need (g.a == 0 && !g.den && g.t == 0 && !g.mk' && g.imm.extractLsb' 1 21 == 0) .reserved
            (.ok (.vmirror g.dn (bitOf g.imm 0))) := by
    intro l b
    obtain rfl : st = .v := by simpa using hst
    rfl
  rw [e]
  simp only [VI.unpack_pack, bitOf]
  repeat first
    | rw [extract_hi (by decide)] | rw [extract_lo (by decide)] | rw [bit_hi (by decide)] | rw [bit_lo (by decide)]
  simp

theorem mma (p : Bool) (fa fb : EFmt) (ra rb : BitVec 5) : Statement (.mma p fa fb ra rb) := by
  intro hw
  refine ⟨by decide, fun st hst hdr => ?_⟩
  rw [decodeWord_joinWord]
  have e : ∀ l b, decode st 0x10 l b =
        let f := MM.unpack b
        need l.isNone .literal <| need (f.z == 0) .reserved <|
          given (EFmt.ofCode f.fa.toNat) .code fun fa => given (EFmt.ofCode f.fb.toNat) .code fun fb =>
          accept (.mma f.p fa fb f.ra f.rb) := by
    intro l b
    obtain rfl : st = .m := by simpa using hst
    rfl
  rw [e]
  simp only [MM.unpack_pack]
  simp [accept_of hw]

theorem sacc (p : Bool) (acc : BitVec 2) (rsa rsb : BitVec 5) : Statement (.sacc p acc rsa rsb) := by
  intro hw
  refine ⟨by decide, fun st hst hdr => ?_⟩
  rw [decodeWord_joinWord]
  have e : ∀ l b, decode st 0x11 l b =
        let g := MS.unpack b
        need l.isNone .literal <| need (g.z == 0) .reserved <|
          (if g.i then accept (.saccI g.p g.acc g.rsa g.rsb) else accept (.sacc g.p g.acc g.rsa g.rsb)) := by
    intro l b
    obtain rfl : st = .m := by simpa using hst
    rfl
  rw [e]
  simp only [MS.unpack_pack]
  simp [accept_of hw]

theorem saccI (p : Bool) (acc : BitVec 2) (rsa rsb : BitVec 5) : Statement (.saccI p acc rsa rsb) := by
  intro hw
  refine ⟨by decide, fun st hst hdr => ?_⟩
  rw [decodeWord_joinWord]
  have e : ∀ l b, decode st 0x11 l b =
        let g := MS.unpack b
        need l.isNone .literal <| need (g.z == 0) .reserved <|
          (if g.i then accept (.saccI g.p g.acc g.rsa g.rsb) else accept (.sacc g.p g.acc g.rsa g.rsb)) := by
    intro l b
    obtain rfl : st = .m := by simpa using hst
    rfl
  rw [e]
  simp only [MS.unpack_pack]
  simp [accept_of hw]

theorem macz (acc : BitVec 2) : Statement (.macz acc) := by
  intro hw
  refine ⟨by decide, fun st hst hdr => ?_⟩
  rw [decodeWord_joinWord]
  have e : ∀ l b, decode st 0x12 l b =
        let g := MS.unpack b
        need l.isNone .literal <| need (!g.p && g.rsa == 0 && g.rsb == 0 && !g.i && g.z == 0) .reserved
          (.ok (.macz g.acc)) := by
    intro l b
    obtain rfl : st = .m := by simpa using hst
    rfl
  rw [e]
  simp only [MS.unpack_pack]
  simp

theorem mdrain (acc : BitVec 2) (t : TileRef) (ch : Bool) (fmt : EFmt) (rnd : Rnd) (ov : Ov) (int clr : Bool) (dsh : BitVec 6) : Statement (.mdrain acc t ch fmt rnd ov int clr dsh) := by
  intro hw
  refine ⟨by decide, fun st hst hdr => ?_⟩
  rw [decodeWord_joinWord]
  have e : ∀ l b, decode st 0x13 l b =
        let h := MD.unpack b
        need l.isNone .literal <| need (h.z == 0) .reserved <|
          given (TileRef.ofCode h.rg h.tile) .reserved fun t => given (EFmt.ofCode h.fmt.toNat) .code fun e =>
          given (Rnd.ofCode h.rnd.toNat) .code fun r => given (Ov.ofCode h.ov.toNat) .code fun o =>
          accept (.mdrain h.acc t h.ch e r o (bitOf h.x 0) (bitOf h.x 1) (h.x.extractLsb' 2 6)) := by
    intro l b
    obtain rfl : st = .m := by simpa using hst
    rfl
  rw [e]
  simp only [MD.unpack_pack, bitOf]
  repeat first
    | rw [extract_hi (by decide)] | rw [extract_lo (by decide)] | rw [bit_hi (by decide)] | rw [bit_lo (by decide)]
  simp [accept_of hw]

theorem mload (acc : BitVec 2) (t : TileRef) (fmt : EFmt) : Statement (.mload acc t fmt) := by
  intro hw
  refine ⟨by decide, fun st hst hdr => ?_⟩
  rw [decodeWord_joinWord]
  have e : ∀ l b, decode st 0x14 l b =
        let h := MD.unpack b
        need l.isNone .literal <| need (!h.ch && h.rnd == 0 && h.ov == 0 && h.x == 0 && h.z == 0) .reserved <|
          given (TileRef.ofCode h.rg h.tile) .reserved fun t => given (EFmt.ofCode h.fmt.toNat) .code fun e =>
          accept (.mload h.acc t e) := by
    intro l b
    obtain rfl : st = .m := by simpa using hst
    rfl
  rw [e]
  simp only [MD.unpack_pack]
  simp [accept_of hw]

theorem mchk (t : TileRef) : Statement (.mchk t) := by
  intro hw
  refine ⟨by decide, fun st hst hdr => ?_⟩
  rw [decodeWord_joinWord]
  have e : ∀ l b, decode st 0x15 l b =
        let h := MD.unpack b
        need l.isNone .literal <|
          need (h.acc == 0 && !h.ch && h.fmt == 0 && h.rnd == 0 && h.ov == 0 && h.x == 0 && h.z == 0) .reserved <|
          given (TileRef.ofCode h.rg h.tile) .reserved fun t => .ok (.mchk t) := by
    intro l b
    obtain rfl : st = .m := by simpa using hst
    rfl
  rw [e]
  simp only [MD.unpack_pack]
  simp

theorem pview (item : ViewItem) (d a b : BitVec 4) : Statement (.pview item d a b) := by
  intro _
  show decodePolicy (PW.pack _) = _
  unfold decodePolicy
  rw [PW.unpack_pack]
  simp only
  repeat first
    | rw [extract_hi (by decide)] | rw [extract_lo (by decide)]
  simp []

theorem pli (d : BitVec 4) (imm : BitVec 14) : Statement (.pli d imm) := by
  intro _
  show decodePolicy (PW.pack _) = _
  unfold decodePolicy
  rw [PW.unpack_pack]
  simp only
  repeat first
    | rw [extract_hi (by decide)] | rw [extract_lo (by decide)]
  simp [pwForm]

theorem padd (d a b : BitVec 4) : Statement (.padd d a b) := by
  intro _
  show decodePolicy (PW.pack _) = _
  unfold decodePolicy
  rw [PW.unpack_pack]
  simp only
  repeat first
    | rw [extract_hi (by decide)] | rw [extract_lo (by decide)]
  simp [pwForm]

theorem psub (d a b : BitVec 4) : Statement (.psub d a b) := by
  intro _
  show decodePolicy (PW.pack _) = _
  unfold decodePolicy
  rw [PW.unpack_pack]
  simp only
  repeat first
    | rw [extract_hi (by decide)] | rw [extract_lo (by decide)]
  simp [pwForm]

theorem pand (d a b : BitVec 4) : Statement (.pand d a b) := by
  intro _
  show decodePolicy (PW.pack _) = _
  unfold decodePolicy
  rw [PW.unpack_pack]
  simp only
  repeat first
    | rw [extract_hi (by decide)] | rw [extract_lo (by decide)]
  simp [pwForm]

theorem por (d a b : BitVec 4) : Statement (.por d a b) := by
  intro _
  show decodePolicy (PW.pack _) = _
  unfold decodePolicy
  rw [PW.unpack_pack]
  simp only
  repeat first
    | rw [extract_hi (by decide)] | rw [extract_lo (by decide)]
  simp [pwForm]

theorem pshl (d a : BitVec 4) (n : BitVec 5) : Statement (.pshl d a n) := by
  intro _
  show decodePolicy (PW.pack _) = _
  unfold decodePolicy
  rw [PW.unpack_pack]
  simp only
  repeat first
    | rw [extract_hi (by decide)] | rw [extract_lo (by decide)]
  simp [pwForm]

theorem pshr (d a : BitVec 4) (n : BitVec 5) : Statement (.pshr d a n) := by
  intro _
  show decodePolicy (PW.pack _) = _
  unfold decodePolicy
  rw [PW.unpack_pack]
  simp only
  repeat first
    | rw [extract_hi (by decide)] | rw [extract_lo (by decide)]
  simp [pwForm]

theorem pmin (d a b : BitVec 4) : Statement (.pmin d a b) := by
  intro _
  show decodePolicy (PW.pack _) = _
  unfold decodePolicy
  rw [PW.unpack_pack]
  simp only
  repeat first
    | rw [extract_hi (by decide)] | rw [extract_lo (by decide)]
  simp [pwForm]

theorem pmax (d a b : BitVec 4) : Statement (.pmax d a b) := by
  intro _
  show decodePolicy (PW.pack _) = _
  unfold decodePolicy
  rw [PW.unpack_pack]
  simp only
  repeat first
    | rw [extract_hi (by decide)] | rw [extract_lo (by decide)]
  simp [pwForm]

theorem pcmp (c : Cond) (d a b : BitVec 4) : Statement (.pcmp c d a b) := by
  intro _
  show decodePolicy (PW.pack _) = _
  unfold decodePolicy
  rw [PW.unpack_pack]
  simp only
  repeat first
    | rw [extract_hi (by decide)] | rw [extract_lo (by decide)]
  simp [pwForm]

theorem psel (d a b : BitVec 4) : Statement (.psel d a b) := by
  intro _
  show decodePolicy (PW.pack _) = _
  unfold decodePolicy
  rw [PW.unpack_pack]
  simp only
  repeat first
    | rw [extract_hi (by decide)] | rw [extract_lo (by decide)]
  simp [pwForm]

theorem pbf (a : BitVec 4) (off : BitVec 14) : Statement (.pbf a off) := by
  intro _
  show decodePolicy (PW.pack _) = _
  unfold decodePolicy
  rw [PW.unpack_pack]
  simp only
  repeat first
    | rw [extract_hi (by decide)] | rw [extract_lo (by decide)]
  simp [pwForm]

theorem pjf (off : BitVec 14) : Statement (.pjf off) := by
  intro _
  show decodePolicy (PW.pack _) = _
  unfold decodePolicy
  rw [PW.unpack_pack]
  simp only
  repeat first
    | rw [extract_hi (by decide)] | rw [extract_lo (by decide)]
  simp [pwForm]

theorem qloop (d : BitVec 4) (off : BitVec 14) : Statement (.qloop d off) := by
  intro _
  show decodePolicy (PW.pack _) = _
  unfold decodePolicy
  rw [PW.unpack_pack]
  simp only
  repeat first
    | rw [extract_hi (by decide)] | rw [extract_lo (by decide)]
  simp [pwForm]

theorem qnext (d : BitVec 4) (off : BitVec 14) : Statement (.qnext d off) := by
  intro _
  show decodePolicy (PW.pack _) = _
  unfold decodePolicy
  rw [PW.unpack_pack]
  simp only
  repeat first
    | rw [extract_hi (by decide)] | rw [extract_lo (by decide)]
  simp [pwForm]

theorem probe (a : BitVec 4) (k : BitVec 2) : Statement (.probe a k) := by
  intro _
  show decodePolicy (PW.pack _) = _
  unfold decodePolicy
  rw [PW.unpack_pack]
  simp only
  repeat first
    | rw [extract_hi (by decide)] | rw [extract_lo (by decide)]
  simp [pwForm]
  rw [extract_lo (by decide)]
  exact BitVec.extractLsb'_eq_self

theorem pickDisp (a b : BitVec 4) : Statement (.pickDisp a b) := by
  intro _
  show decodePolicy (PW.pack _) = _
  unfold decodePolicy
  rw [PW.unpack_pack]
  simp only
  repeat first
    | rw [extract_hi (by decide)] | rw [extract_lo (by decide)]
  simp [pwForm]

theorem pickGrant (a : BitVec 4) : Statement (.pickGrant a) := by
  intro _
  show decodePolicy (PW.pack _) = _
  unfold decodePolicy
  rw [PW.unpack_pack]
  simp only
  repeat first
    | rw [extract_hi (by decide)] | rw [extract_lo (by decide)]
  simp [pwForm]

theorem pickFail (a : BitVec 4) : Statement (.pickFail a) := by
  intro _
  show decodePolicy (PW.pack _) = _
  unfold decodePolicy
  rw [PW.unpack_pack]
  simp only
  repeat first
    | rw [extract_hi (by decide)] | rw [extract_lo (by decide)]
  simp [pwForm]

theorem pickGrantall : Statement (.pickGrantall) := by
  intro _
  show decodePolicy (PW.pack _) = _
  unfold decodePolicy
  rw [PW.unpack_pack]
  simp only
  repeat first
    | rw [extract_hi (by decide)] | rw [extract_lo (by decide)]
  simp [pwForm]

theorem ppre (a : BitVec 4) : Statement (.ppre a) := by
  intro _
  show decodePolicy (PW.pack _) = _
  unfold decodePolicy
  rw [PW.unpack_pack]
  simp only
  repeat first
    | rw [extract_hi (by decide)] | rw [extract_lo (by decide)]
  simp [pwForm]

theorem pfaultResume : Statement (.pfaultResume) := by
  intro _
  show decodePolicy (PW.pack _) = _
  unfold decodePolicy
  rw [PW.unpack_pack]
  simp only
  repeat first
    | rw [extract_hi (by decide)] | rw [extract_lo (by decide)]
  simp [pwForm]

theorem pfaultRetry : Statement (.pfaultRetry) := by
  intro _
  show decodePolicy (PW.pack _) = _
  unfold decodePolicy
  rw [PW.unpack_pack]
  simp only
  repeat first
    | rw [extract_hi (by decide)] | rw [extract_lo (by decide)]
  simp [pwForm]

theorem pfaultPark : Statement (.pfaultPark) := by
  intro _
  show decodePolicy (PW.pack _) = _
  unfold decodePolicy
  rw [PW.unpack_pack]
  simp only
  repeat first
    | rw [extract_hi (by decide)] | rw [extract_lo (by decide)]
  simp [pwForm]

theorem pfaultKill : Statement (.pfaultKill) := by
  intro _
  show decodePolicy (PW.pack _) = _
  unfold decodePolicy
  rw [PW.unpack_pack]
  simp only
  repeat first
    | rw [extract_hi (by decide)] | rw [extract_lo (by decide)]
  simp [pwForm]

theorem pfaultRollback : Statement (.pfaultRollback) := by
  intro _
  show decodePolicy (PW.pack _) = _
  unfold decodePolicy
  rw [PW.unpack_pack]
  simp only
  repeat first
    | rw [extract_hi (by decide)] | rw [extract_lo (by decide)]
  simp [pwForm]

theorem pfaultHandler (a : BitVec 4) (s : BitVec 2) : Statement (.pfaultHandler a s) := by
  intro _
  show decodePolicy (PW.pack _) = _
  unfold decodePolicy
  rw [PW.unpack_pack]
  have h : ∀ s : BitVec 2, s = 0 ∨ s = 1 ∨ s = 2 ∨ s = 3 := by decide
  rcases h s with rfl | rfl | rfl | rfl <;> simp [pwForm] <;> rfl

theorem pget (d : BitVec 4) (k : BitVec 3) : Statement (.pget d k) := by
  intro _
  show decodePolicy (PW.pack _) = _
  unfold decodePolicy
  rw [PW.unpack_pack]
  simp only
  repeat first
    | rw [extract_hi (by decide)] | rw [extract_lo (by decide)]
  simp [pwForm]
  rw [extract_lo (by decide)]
  exact BitVec.extractLsb'_eq_self

theorem pkeep (a : BitVec 4) (k : BitVec 3) : Statement (.pkeep a k) := by
  intro _
  show decodePolicy (PW.pack _) = _
  unfold decodePolicy
  rw [PW.unpack_pack]
  simp only
  repeat first
    | rw [extract_hi (by decide)] | rw [extract_lo (by decide)]
  simp [pwForm]
  rw [extract_lo (by decide)]
  exact BitVec.extractLsb'_eq_self

theorem pend : Statement (.pend) := by
  intro _
  show decodePolicy (PW.pack _) = _
  unfold decodePolicy
  rw [PW.unpack_pack]
  simp only
  repeat first
    | rw [extract_hi (by decide)] | rw [extract_lo (by decide)]
  simp [pwForm]

theorem dispatchDecision (p : Nat) : Statement (.dispatchDecision p) := fun _ => rfl

theorem preemptDecision (p : Nat) : Statement (.preemptDecision p) := fun _ => rfl

theorem faultDecision (p : Nat) : Statement (.faultDecision p) := fun _ => rfl

theorem decisionOverrun (p : Nat) : Statement (.decisionOverrun p) := fun _ => rfl

theorem probeAnswer (p k : Nat) (present : Bool) : Statement (.probeAnswer p k present) := fun _ => rfl

theorem preemption (tid : Nat) : Statement (.preemption tid) := fun _ => rfl

theorem contextStoreComplete (tid : Nat) : Statement (.contextStoreComplete tid) := fun _ => rfl

theorem sliceExpiry (tid : Nat) : Statement (.sliceExpiry tid) := fun _ => rfl

theorem watchdogWait (tid : Nat) (st : StreamId) : Statement (.watchdogWait tid st) := fun _ => rfl

theorem kmaxOverrun (tid : Nat) : Statement (.kmaxOverrun tid) := fun _ => rfl

theorem loopKernelStep (tid : Nat) : Statement (.loopKernelStep tid) := fun _ => rfl

theorem autoCheckpoint (tid : Nat) : Statement (.autoCheckpoint tid) := fun _ => rfl

theorem barrierEpisodeComplete (p g : Nat) : Statement (.barrierEpisodeComplete p g) := fun _ => rfl

theorem drainPoint (tid : Nat) : Statement (.drainPoint tid) := fun _ => rfl

theorem mmaPassRetire (tid : Nat) : Statement (.mmaPassRetire tid) := fun _ => rfl

theorem standInCheck (tid : Nat) (panes : List PaneCheck) : Statement (.standInCheck tid panes) := fun _ => rfl

theorem saccFoldComplete (tid : Nat) : Statement (.saccFoldComplete tid) := fun _ => rfl

theorem mdrainComplete (tid : Nat) : Statement (.mdrainComplete tid) := fun _ => rfl

theorem chainDelivery (tid : Nat) : Statement (.chainDelivery tid) := fun _ => rfl

theorem mloadComplete (tid : Nat) : Statement (.mloadComplete tid) := fun _ => rfl

theorem accessCommandComplete (tid id : Nat) : Statement (.accessCommandComplete tid id) := fun _ => rfl

theorem pageWalkComplete (walker ctx page : Nat) : Statement (.pageWalkComplete walker ctx page) := fun _ => rfl

theorem fenceComplete (tid id : Nat) : Statement (.fenceComplete tid id) := fun _ => rfl

theorem gamoReturn (tid id : Nat) : Statement (.gamoReturn tid id) := fun _ => rfl

theorem writeTimeout (tid : Nat) (what : Unacked) : Statement (.writeTimeout tid what) := fun _ => rfl

theorem packetPlace (pkt : Nat) : Statement (.packetPlace pkt) := fun _ => rfl

theorem permitReturn (port cls : Nat) : Statement (.permitReturn port cls) := fun _ => rfl

theorem packetDelivery (pkt : Nat) (peerAdmits : Bool) : Statement (.packetDelivery pkt peerAdmits) := fun _ => rfl

theorem filterLineArrival (die k : Nat) : Statement (.filterLineArrival die k) := fun _ => rfl

theorem commandComplete (page : CmdPage) : Statement (.commandComplete page) := fun _ => rfl

theorem notify (p q : Nat) (t : BitVec 32) : Statement (.notify p q t) := fun _ => rfl

theorem qcfgWrite (p q : Nat) (v : Word) : Statement (.qcfgWrite p q v) := fun _ => rfl

theorem pload (p : Nat) (v : Word) : Statement (.pload p v) := fun _ => rfl

theorem policySel (p : Nat) (v : Word) : Statement (.policySel p v) := fun _ => rfl

theorem clcfgWrite (c : Nat) (v : Word) : Statement (.clcfgWrite c v) := fun _ => rfl

theorem clcfgApply (c : Nat) : Statement (.clcfgApply c) := fun _ => rfl

theorem intcauseWrite (p : Nat) (v : Word) : Statement (.intcauseWrite p v) := fun _ => rfl

theorem intvecWrite (p : Nat) (v : Word) : Statement (.intvecWrite p v) := fun _ => rfl

theorem devstatWrite (v : Word) : Statement (.devstatWrite v) := fun _ => rfl

theorem bootGo (core : Nat) (v : Word) : Statement (.bootGo core v) := fun _ => rfl

theorem registerWrite (addr : Nat) (v : Word) : Statement (.registerWrite addr v) := fun _ => rfl

theorem quiesce (p : Nat) : Statement (.quiesce p) := fun _ => rfl

theorem release (p : Nat) : Statement (.release p) := fun _ => rfl

theorem image (p : Nat) (stamp : Word) : Statement (.image p stamp) := fun _ => rfl

theorem partitionReset (p : Nat) : Statement (.partitionReset p) := fun _ => rfl

theorem rollback (p : Nat) : Statement (.rollback p) := fun _ => rfl

theorem decide (p : Nat) : Statement (.decide p) := fun _ => rfl

theorem kill (p : Nat) : Statement (.kill p) := fun _ => rfl

theorem tlbinv (p : Nat) : Statement (.tlbinv p) := fun _ => rfl

theorem restore (p : Nat) : Statement (.restore p) := fun _ => rfl

theorem deviceQuiesce : Statement (.deviceQuiesce) := fun _ => rfl

theorem deviceRelease : Statement (.deviceRelease) := fun _ => rfl

theorem deviceImage (stamp : Word) : Statement (.deviceImage stamp) := fun _ => rfl

theorem coreReset : Statement (.coreReset) := fun _ => rfl

theorem dieReset : Statement (.dieReset) := fun _ => rfl

theorem deviceReset : Statement (.deviceReset) := fun _ => rfl

theorem retire : Statement (.retire) := fun _ => rfl

theorem phaseFailure (rail phases : Nat) : Statement (.phaseFailure rail phases) := fun _ => rfl

theorem powerControllerCheck (rail imeas : Nat) (low10us : Bool) : Statement (.powerControllerCheck rail imeas low10us) := fun _ => rfl

theorem thermalCadenceUpdate (cluster : Nat) (temps : List Int) : Statement (.thermalCadenceUpdate cluster temps) := fun _ => rfl

theorem sensorTestStep (s : Sensor) (reading : Int) (stuck : Bool) : Statement (.sensorTestStep s reading stuck) := fun _ => rfl

theorem thermalWarning (s : Sensor) (reading : Int) : Statement (.thermalWarning s reading) := fun _ => rfl

theorem hardTrip : Statement (.hardTrip) := fun _ => rfl

theorem permitAudit (port : Nat) : Statement (.permitAudit port) := fun _ => rfl

theorem linkCrcError (l : LinkId) (r : LinkRetry) : Statement (.linkCrcError l r) := fun _ => rfl

theorem hbmUncorrectableRead (pa : Nat) (retryGood : Bool) (row : Nat) : Statement (.hbmUncorrectableRead pa retryGood row) := fun _ => rfl

theorem proxyInvalidation (line : Nat) : Statement (.proxyInvalidation line) := fun _ => rfl

theorem peerPackageAccess (acc : PeerAccess) : Statement (.peerPackageAccess acc) := fun _ => rfl

theorem flashRewriteDone : Statement (.flashRewriteDone) := fun _ => rfl

theorem powerUp : Statement (.powerUp) := fun _ => rfl

end Sys2Proof.Laws.RoundTrip
end

