-- ==== Sys2Proof/Tests/Slice0.lean ====
section
/-! SUPPORT. Tests of the definitions: an ill-formed term for each check of WellFormed; words written out from the encoding tables of
spec/02_encoding.md; for every statement of Certificates that has hypotheses, a small state and operands that meet them; results of single
steps taken from the examples that the spec works. -/

namespace Sys2Proof.Tests

open Sys2Proof Sys2Proof.Machine

set_option maxRecDepth 20000

/-! ### What WellFormed refuses -/

theorem test_wf_refuses_scalar :
    wellFormed (.bext false (.belt 0) 40 24 none) = false ∧ wellFormed (.bins (.belt 0) (.belt 1) (.belt 2) 63 1 none) = false ∧
    wellFormed (.ext ⟨.w64, true⟩ (.belt 0) none) = false ∧ wellFormed (.lea (.belt 0) (.belt 1) (.belt 2) 7 none) = false := by decide

theorem test_wf_refuses_control :
    wellFormed (.repImm 0) = false ∧ wellFormed (.repImm 4097) = false ∧ wellFormed (.go false false false) = false ∧
    wellFormed (.gpush (.belt 0) 0) = false ∧ wellFormed (.gflush 0) = false ∧ wellFormed (.rtw true (.ring 3) none) = false := by decide

theorem test_wf_refuses_scratchpad_and_system :
    wellFormed (.aop .add ⟨.w16, true⟩ (.belt 0) (.belt 1) 0 none) = false ∧
    wellFormed (.aop .cas ⟨.w64, true⟩ (.belt 0) (.belt 1) 0 none) = false ∧
    wellFormed (.wadr .eq ⟨.w8, true⟩ (.belt 0) (.belt 1) 0 none) = false ∧ wellFormed (.fsplit 12 (.belt 0) none) = false ∧
    wellFormed (.ffuse true 3 none) = false ∧ wellFormed (.sysw (.belt 0) (.short 0x020)) = false ∧
    wellFormed (.sysw (.belt 0) (.lit 0x020)) = false ∧ wellFormed (.smprop (.belt 0) (.tile 3) 0 6 none) = false := by decide

theorem test_wf_refuses_access :
    wellFormed (.tld (some 9) false 0 (.tile 1) (.belt 0) (.belt 0)) = false ∧
    wellFormed (.tld none false 0 (.tile 1) (.belt 0) (.belt 1)) = false ∧
    wellFormed (.tst (some 9) 0 (.tile 1) (.belt 0)) = false ∧ wellFormed (.tcfg true 1 (.belt 1)) = false ∧
    wellFormed (.rcfg true 1 1 0) = false ∧ wellFormed (.rcfg true 1 0 1) = false ∧
    wellFormed (.ncopy .gl 2 0 0 (.belt 0) (.belt 1)) = false ∧ wellFormed (.ncopy .gl 13 0 0 (.belt 0) (.belt 1)) = false ∧
    wellFormed (.ncopy .ll 3 0 1 (.belt 0) (.belt 1)) = false ∧
    wellFormed (.gamo .add ⟨.w16, false⟩ 0 (.belt 0) (.lit 1) (.belt 0) none) = false ∧
    wellFormed (.gamo .add ⟨.w64, false⟩ 0 (.belt 0) (.lit 1) (.belt 1) none) = false ∧
    wellFormed (.fltopen 0 9 (.belt 0) (.lit 0)) = false ∧ wellFormed (.fltclose 0 9 (.belt 0)) = false := by decide

theorem test_wf_refuses_vector :
    wellFormed (.vadd .f32 .dth false .zero .zero none) = false ∧ wellFormed (.vsub .s32 .rtz false .zero .zero none) = false ∧
    wellFormed (.vfma .s32 .rne false .zero .zero .zero none) = false ∧ wellFormed (.vfms .f32 .dth false .zero .zero .zero none) = false ∧
    wellFormed (.vshl .f32 false .zero .zero none) = false ∧ wellFormed (.vshr .bf16 false .zero .zero none) = false ∧
    wellFormed (.vcmp .un .s16 false .zero .zero none) = false ∧ wellFormed (.vrcp .z8 .rne false .zero none) = false ∧
    wellFormed (.vaddi .f32 false .zero (.short 0) none) = false ∧ wellFormed (.vdot4 .s16 false .zero .zero .zero none) = false ∧
    wellFormed (.vrsh .f32 false .zero .zero none) = false ∧ wellFormed (.vredadd .z8 .rup false .zero none) = false ∧
    wellFormed (.vscan .bf16 .rne false .zero none) = false ∧ wellFormed (.vargmax .s8 false .zero none) = false := by decide

theorem test_wf_refuses_conversions :
    wellFormed (.vcvt .s32 .bf16 .rne false false .zero (.belt 0) none) = false ∧
    wellFormed (.vcvt .s32 .f32 .rne false true .zero (.belt 0) none) = false ∧
    wellFormed (.vcvt .s32 .f32 .rne false false .zero (.belt 1) none) = false ∧
    wellFormed (.vcvt .s16 .s32 .rtz false false .zero (.belt 1) none) = false ∧
    wellFormed (.vqnt .i8 .f32 .rne .sat false .zero .zero none) = false ∧ wellFormed (.vqnt .scl .f32 .rne .dflt false .zero .zero none) = false ∧
    wellFormed (.vqnt .e5m2 .f32 .rne .nan false .zero .zero none) = false ∧ wellFormed (.vdeq .e4m3 .f32 .dth false .zero .zero none) = false ∧
    wellFormed (.vbsc .e4m3 .s32 .zero none) = false ∧ wellFormed (.vpak .e4m3 false 4 .zero .zero none) = false ∧
    wellFormed (.vupk .bf16 false 0 .zero none) = false := by decide

theorem test_wf_refuses_matrix :
    wellFormed (.mma false .e4m3 .i8 0 1) = false ∧ wellFormed (.mma false .e4m3 .e4m3 1 1) = false ∧
    wellFormed (.sacc false 0 2 2) = false ∧ wellFormed (.saccI false 0 2 2) = false ∧
    wellFormed (.mdrain 0 (.tile 1) false .e5m2 .rne .nan false false 0) = false ∧
    wellFormed (.mdrain 0 (.tile 1) false .i32 .dth .dflt false false 0) = false ∧
    wellFormed (.mdrain 0 (.tile 1) false .i32 .rne .dflt true false 1) = false ∧
    wellFormed (.mdrain 0 (.tile 1) false .a36 .rne .dflt false false 1) = false ∧
    wellFormed (.mdrain 0 (.tile 1) true .e4m3 .rne .dflt false false 0) = false ∧ wellFormed (.mload 0 (.tile 1) .bf16) = false := by decide

theorem test_wf_refuses_events :
    wellFormed (.dispatchDecision 16) = false ∧ wellFormed (.notify 0 32 0) = false ∧ wellFormed (.clcfgApply 32) = false ∧
    wellFormed (.bootGo 128 0) = false ∧ wellFormed (.permitReturn 16 0) = false ∧ wellFormed (.permitReturn 0 4) = false ∧
    wellFormed (.permitAudit 16) = false ∧ wellFormed (.filterLineArrival 8 0) = false ∧ wellFormed (.phaseFailure 4 1) = false := by decide

/-! ### Decoding words -/

/-- Words of S3, OP 0x00 and 0x10 to 0x28 (R22, R29), written out field by field from the tables of spec/02_encoding.md. -/
theorem test_decode_scalar :
    decodeWord .c 0x0000000000000000 0 = .ok .nop ∧
    decodeWord .a 0x00001003F0000000 0 = .ok (.add ⟨.w64, false⟩ (.belt 0) (.named 15) (some 0)) ∧
    decodeWord .c 0x00001107D1400000 0 = .ok (.sub ⟨.w32, false⟩ (.belt 1) (.named 14) (some 1)) ∧
    decodeWord .a 0x0000120BB2800000 0 = .ok (.mul ⟨.w16, false⟩ (.belt 2) (.named 13) (some 2)) ∧
    decodeWord .c 0x0000130F93C00000 0 = .ok (.mulh ⟨.w8, false⟩ (.belt 3) (.named 12) (some 3)) ∧
    decodeWord .a 0x0000141374200000 0 = .ok (.div ⟨.w64, true⟩ (.belt 4) (.named 11) (some 4)) ∧
    decodeWord .c 0x0000151755600000 0 = .ok (.rem ⟨.w32, true⟩ (.belt 5) (.named 10) (some 5)) ∧
    decodeWord .a 0x0000161B36A00000 0 = .ok (.and ⟨.w16, true⟩ (.belt 6) (.named 9) (some 6)) ∧
    decodeWord .c 0x0000171F17E00000 0 = .ok (.or ⟨.w8, true⟩ (.belt 7) (.named 8) (some 7)) ∧
    decodeWord .a 0x00001822F8000000 0 = .ok (.xor ⟨.w64, false⟩ (.belt 8) (.named 7) (some 8)) ∧
    decodeWord .c 0x00001926D9400000 0 = .ok (.andn ⟨.w32, false⟩ (.belt 9) (.named 6) (some 9)) ∧
    decodeWord .a 0x00001A2ABA800000 0 = .ok (.shl ⟨.w16, false⟩ (.belt 10) (.named 5) (some 10)) ∧
    decodeWord .c 0x00001B2E9BC00000 0 = .ok (.shr ⟨.w8, false⟩ (.belt 11) (.named 4) (some 11)) ∧
    decodeWord .a 0x00001C327C200000 0 = .ok (.sar ⟨.w64, true⟩ (.belt 12) (.named 3) (some 12)) ∧
    decodeWord .c 0x00001D365D600000 0 = .ok (.rot ⟨.w32, true⟩ (.belt 13) (.named 2) (some 13)) ∧
    decodeWord .a 0x00001E3A3EA00000 0 = .ok (.min ⟨.w16, true⟩ (.belt 14) (.named 1) (some 14)) ∧
    decodeWord .c 0x00001F3E1FE00000 0 = .ok (.max ⟨.w8, true⟩ (.belt 15) (.named 0) (some 15)) ∧
    decodeWord .c 0x0000200440600005 0 = .ok (.cmp .ge ⟨.w32, true⟩ (.belt 1) (.belt 2) none) ∧
    decodeWord .c 0x0000210654030000 0 = .ok (.sel (.belt 1) (.named 2) (.belt 3) (some 4)) ∧
    decodeWord .a 0x0000227C10C00000 0 = .ok (.clz ⟨.w8, false⟩ (.named 15) (some 0)) ∧
    decodeWord .c 0x0000231C00200000 0 = .ok (.popc ⟨.w64, true⟩ (.belt 7) none) ∧
    decodeWord .c 0x0000240C19200A17 0 = .ok (.bext true (.belt 3) 40 23 (some 9)) ∧
    decodeWord .c 0x0000250C80050207 0 = .ok (.bins (.belt 3) (.belt 4) (.belt 5) 8 7 none) ∧
    decodeWord .c 0x0000260C11A00000 0 = .ok (.ext ⟨.w16, true⟩ (.belt 3) (some 1)) :=
  ⟨rfl, rfl, rfl, rfl, rfl, rfl, rfl, rfl, rfl, rfl, rfl, rfl, rfl, rfl, rfl, rfl, rfl, rfl, rfl, rfl, rfl, rfl, rfl, rfl⟩

/-- More words of S3, OP 0x00 and 0x10 to 0x28 (R22, R29). -/
theorem test_decode_scalar_2 :
    decodeWord .c 0x00002740201F0006 0 = .ok (.lea (.named 0) (.belt 1) (.named 15) 6 none) ∧
    decodeWord .c 0x0000280015000000 0 = .ok (.mov (.belt 0) (some 5)) :=
  ⟨rfl, rfl⟩

/-- Words of SI, OP 0x29 to 0x2F, short and literal (R21, R22), written out field by field from the tables of spec/02_encoding.md. -/
theorem test_decode_scalar_immediate :
    decodeWord .c 0x0000290A643FFFFE 0 = .ok (.addi ⟨.w64, true⟩ (.belt 2) (.short (-2)) (some 3)) ∧
    decodeWord .c 0x00002A0E6C3FFFFD 0 = .ok (.andi ⟨.w32, true⟩ (.belt 3) (.short (-3)) (some 3)) ∧
    decodeWord .c 0x00002B12743FFFFC 0 = .ok (.ori ⟨.w16, true⟩ (.belt 4) (.short (-4)) (some 3)) ∧
    decodeWord .c 0x00002C167C3FFFFB 0 = .ok (.xori ⟨.w8, true⟩ (.belt 5) (.short (-5)) (some 3)) ∧
    decodeWord .a 0x00002D0410C00009 0 = .ok (.shi .rot ⟨.w16, false⟩ (.belt 1) (.short 9) none) ∧
    decodeWord .c 0x00002E04049FFFFF 0 = .ok (.cmpi .lt ⟨.w64, true⟩ (.belt 1) (.short 0x1FFFFF) none) ∧
    decodeWord .c 0x00002F8244000000 0x123456789abc = .ok (.lit ⟨.w64, true⟩ (.lit 0x123456789ABC) (some 2)) :=
  ⟨rfl, rfl, rfl, rfl, rfl, rfl, rfl⟩

/-- Words of SB and ST, OP 0x40 to 0x4F (R24, R76 to R79), written out field by field from the tables of spec/02_encoding.md. -/
theorem test_decode_control :
    decodeWord .c 0x0000400000FFFFFD 0 = .ok (.b (-3)) ∧
    decodeWord .c 0x00004500C0FFFFFB 0 = .ok (.loop 3 (-5)) ∧
    decodeWord .c 0x0000460040001000 0 = .ok (.repImm 4096) ∧
    decodeWord .c 0x0000480000000000 0 = .ok .stop ∧
    decodeWord .a 0x0000400000FFFFFD 0 = .ok (.b (-3)) ∧
    decodeWord .a 0x00004500C0FFFFFB 0 = .ok (.loop 3 (-5)) ∧
    decodeWord .a 0x0000460040001000 0 = .ok (.repImm 4096) ∧
    decodeWord .a 0x0000480000000000 0 = .ok .stop ∧
    decodeWord .v 0x0000400000FFFFFD 0 = .ok (.b (-3)) ∧
    decodeWord .v 0x00004500C0FFFFFB 0 = .ok (.loop 3 (-5)) ∧
    decodeWord .v 0x0000460040001000 0 = .ok (.repImm 4096) ∧
    decodeWord .v 0x0000480000000000 0 = .ok .stop ∧
    decodeWord .m 0x0000400000FFFFFD 0 = .ok (.b (-3)) ∧
    decodeWord .m 0x00004500C0FFFFFB 0 = .ok (.loop 3 (-5)) ∧
    decodeWord .m 0x0000460040001000 0 = .ok (.repImm 4096) ∧
    decodeWord .m 0x0000480000000000 0 = .ok .stop ∧
    decodeWord .a 0x00004150C0000007 0 = .ok (.bc .nneg (.named 4) 7) ∧
    decodeWord .c 0x0000420000000064 0 = .ok (.call 100) ∧
    decodeWord .c 0x0000430000000000 0 = .ok .ret ∧
    decodeWord .c 0x0000442400000000 0 = .ok (.jmp (.belt 9)) ∧
    decodeWord .a 0x0000462400000000 0 = .ok (.repOperand (.belt 9)) ∧
    decodeWord .c 0x0000470140000000 0 = .ok (.go true false true) ∧
    decodeWord .a 0x00004907C0000000 0 = .ok (.gpush (.belt 1) 15) ∧
    decodeWord .c 0x00004A0040000000 0 = .ok (.gflush 1) :=
  ⟨rfl, rfl, rfl, rfl, rfl, rfl, rfl, rfl, rfl, rfl, rfl, rfl, rfl, rfl, rfl, rfl, rfl, rfl, rfl, rfl, rfl, rfl, rfl, rfl⟩

/-- More words of SB and ST, OP 0x40 to 0x4F (R24, R76 to R79). -/
theorem test_decode_control_2 :
    decodeWord .c 0x00004B8002800000 0x7 = .ok (.wtw (.lit 7) (.tile 20)) ∧
    decodeWord .a 0x00004B0803F00000 0 = .ok (.wtw (.reg (.belt 2)) (.ring 31)) ∧
    decodeWord .c 0x00004C0240680000 0 = .ok (.rtw true (.tile 3) (some 2)) ∧
    decodeWord .c 0x00004D0000700000 0 = .ok (.tstate (.ring 3) none) ∧
    decodeWord .c 0x00004E0012000000 0 = .ok (.lcyc (some 2)) ∧
    decodeWord .c 0x00004F0000000000 0 = .ok (.self none) :=
  ⟨rfl, rfl, rfl, rfl, rfl, rfl⟩

/-- Words of AX with DISP at [28:13], OP 0x50 to 0x57 (R89 to R95, R99), written out field by field from the tables of spec/02_encoding.md. -/
theorem test_decode_scratchpad :
    decodeWord .c 0x0000504E00080A81 0 = .ok (.ld ⟨.w32, false⟩ (.named 3) (.named 0) 0x40 (some 5)) ∧
    decodeWord .c 0x000051483FFF0003 0 = .ok (.st .w8 (.named 2) (.belt 1) (-8)) ∧
    decodeWord .c 0x0000520440006004 0 = .ok (.ldx ⟨.w64, true⟩ (.belt 1) (.belt 2) 3 none) ∧
    decodeWord .c 0x0000530440006002 0 = .ok (.stx .w16 (.belt 1) (.belt 2) 3) ∧
    decodeWord .c 0x0000540000000000 0 = .ok .mark ∧
    decodeWord .c 0x0000550440080000 0 = .ok (.linv (.belt 1) (.belt 2) 64) ∧
    decodeWord .c 0x0000565000000B14 0 = .ok (.aop .cas ⟨.w64, true⟩ (.named 4) (.belt 0) 0 (some 6)) ∧
    decodeWord .c 0x0000575000020009 0 = .ok (.wadr .ne ⟨.w32, false⟩ (.named 4) (.belt 0) 16 none) ∧
    decodeWord .a 0x0000500A3FFFE007 0 = .ok (.ldA ⟨.w8, true⟩ (.belt 2) (.named 1) (-1) none) ∧
    decodeWord .a 0x0000510A20010000 0 = .ok (.stA .w64 (.belt 2) (.named 1) 8) :=
  ⟨rfl, rfl, rfl, rfl, rfl, rfl, rfl, rfl, rfl, rfl⟩

/-- Words of S3, OP 0x60 to 0x74 (R232, R248 to R252, R179 to R188, R318), written out field by field from the tables of spec/02_encoding.md. -/
theorem test_decode_tasks :
    decodeWord .c 0x0000601410000000 0 = .ok (.gjoin (.belt 5) (some 0)) ∧
    decodeWord .c 0x0000611411000000 0 = .ok (.gleave (.belt 5) (some 1)) ∧
    decodeWord .c 0x0000621412000000 0 = .ok (.gbar (.belt 5) (some 2)) ∧
    decodeWord .c 0x0000684E95000000 0 = .ok (.spawn (.named 3) (.named 4) (some 5)) ∧
    decodeWord .c 0x0000690000000000 0 = .ok .done ∧
    decodeWord .c 0x00006A1012000000 0 = .ok (.grab (.belt 4) (some 2)) ∧
    decodeWord .c 0x00006B10A0060000 0 = .ok (.rngset (.belt 4) (.belt 5) (.belt 6)) ∧
    decodeWord .c 0x00006C0017000000 0 = .ok (.yield (some 7)) ∧
    decodeWord .c 0x00006D0000000000 0 = .ok (.ckpt none) ∧
    decodeWord .c 0x0000704C14000000 0 = .ok (.fsplit 0 (.named 3) (some 4)) ∧
    decodeWord .c 0x0000710015000015 0 = .ok (.ffuse true 5 (some 5)) ∧
    decodeWord .c 0x0000720013000001 0 = .ok (.fchain true (some 3)) ∧
    decodeWord .c 0x0000730000000000 0 = .ok (.funchain false none) ∧
    decodeWord .c 0x0000740012000000 0 = .ok (.fquery (some 2)) :=
  ⟨rfl, rfl, rfl, rfl, rfl, rfl, rfl, rfl, rfl, rfl, rfl, rfl, rfl, rfl⟩

/-- Words of AX and S3, OP 0x78 to 0x80 in the C stream (R283 to R298), written out field by field from the tables of spec/02_encoding.md. -/
theorem test_decode_tokens :
    decodeWord .c 0x0000780440000980 0 = .ok (.smopen (.belt 1) (.belt 2) (some 3)) ∧
    decodeWord .c 0x0000790440000000 0 = .ok (.smapp (.belt 1) (.belt 2) none) ∧
    decodeWord .c 0x00007A040001307D 0 = .ok (.smprop (.belt 1) (.ring 9) 15 5 none) ∧
    decodeWord .c 0x00007B0440000000 0 = .ok (.smsave (.belt 1) (.belt 2) none) ∧
    decodeWord .c 0x00007C0440026000 0 = .ok (.smload (.belt 1) (.belt 2) (.named 3) none) ∧
    decodeWord .c 0x00007D0400000980 0 = .ok (.smclose (.belt 1) (some 3)) ∧
    decodeWord .c 0x00007E0453000000 0 = .ok (.draw (.belt 1) (.belt 2) (some 3)) ∧
    decodeWord .c 0x00007F0440000008 0 = .ok (.tacc true (.belt 1) (.belt 2) none) ∧
    decodeWord .c 0x0000800440000980 0 = .ok (.tsamp false (.belt 1) (.belt 2) (some 3)) :=
  ⟨rfl, rfl, rfl, rfl, rfl, rfl, rfl, rfl, rfl⟩

/-- Words of SI, OP 0xF0 to 0xF4 (R301, R307, R310), written out field by field from the tables of spec/02_encoding.md. -/
theorem test_decode_system :
    decodeWord .c 0x0000F000003FFFFF 0 = .ok (.trap (.short (-1))) ∧
    decodeWord .c 0x0000F10240000084 0 = .ok (.sysr (.short 0x084) (some 2)) ∧
    decodeWord .c 0x0000F18000000000 0x1000 = .ok (.sysr (.lit 0x1000) none) ∧
    decodeWord .c 0x0000F25000000084 0 = .ok (.sysw (.named 4) (.short 0x084)) ∧
    decodeWord .c 0x0000F25000000020 0 = .ok (.faultreq (.named 4) false) ∧
    decodeWord .c 0x0000F2D000000000 0x20 = .ok (.faultreq (.named 4) true) ∧
    decodeWord .c 0x0000F38000000000 0x8000000000000000 = .ok (.brk (.lit 0x8000000000000000)) ∧
    decodeWord .c 0x0000F40E20400000 0 = .ok (.ptst true (.belt 3) none (some 1)) ∧
    decodeWord .c 0x0000F48C00000000 0x5 = .ok (.ptst false (.belt 3) (some 5) none) :=
  ⟨rfl, rfl, rfl, rfl, rfl, rfl, rfl, rfl, rfl⟩

/-- Words of AX, OP 0x80 to 0x8B in the A stream (R193 to R207), written out field by field from the tables of spec/02_encoding.md. -/
theorem test_decode_access :
    decodeWord .a 0x0000805000200000 0 = .ok (.brec 1 (.named 4)) ∧
    decodeWord .a 0x0000814260200002 0 = .ok (.tld none true 1 (.tile 0) (.named 0) (.named 3)) ∧
    decodeWord .a 0x000081067FFFE041 0 = .ok (.tld (some 8) false 255 (.tile 255) (.belt 1) (.named 3)) ∧
    decodeWord .a 0x0000820400407001 0 = .ok (.tst (some 0) 2 (.ring 3) (.belt 1)) ∧
    decodeWord .a 0x0000830440408000 0 = .ok (.tgat 2 (.tile 4) (.belt 1) (.belt 2)) ∧
    decodeWord .a 0x0000840440408000 0 = .ok (.tsca 2 (.tile 4) (.belt 1) (.belt 2)) ∧
    decodeWord .a 0x0000855400010000 0 = .ok (.tcfg false 8 (.named 5)) ∧
    decodeWord .a 0x0000850000010001 0 = .ok (.tcfg true 8 (.belt 0)) ∧
    decodeWord .a 0x000086000140B018 0 = .ok (.rcfg false 5 10 3) ∧
    decodeWord .a 0x000087000000A000 0 = .ok (.tfree (.tile 5)) ∧
    decodeWord .a 0x0000888402A00000 0x400000004 = .ok (.nset 0 2 5 (.belt 1) (.lit 0x400000004)) ∧
    decodeWord .a 0x000088045DC00000 0 = .ok (.nset 7 1 6 (.belt 1) (.reg (.belt 2))) ∧
    decodeWord .a 0x0000890440E06061 0 = .ok (.ncopy .lg 12 3 7 (.belt 1) (.belt 2)) ∧
    decodeWord .a 0x00008A5200010000 0 = .ok (.tlsp (.tile 8) (.named 4) (.named 0)) ∧
    decodeWord .a 0x00008B5020011000 0 = .ok (.tssp (.ring 8) (.named 4) (.belt 1)) :=
  ⟨rfl, rfl, rfl, rfl, rfl, rfl, rfl, rfl, rfl, rfl, rfl, rfl, rfl, rfl, rfl⟩

/-- Words of AX, OP 0x8C to 0x93 (R210, R221, R226, R227, R291), written out field by field from the tables of spec/02_encoding.md. -/
theorem test_decode_messages :
    decodeWord .a 0x00008C0440000001 0 = .ok (.send .cw (.belt 1) (.belt 2)) ∧
    decodeWord .a 0x00008D52A002C000 0 = .ok (.sendf .short (.named 4) (.reg (.named 5)) (.named 6)) ∧
    decodeWord .a 0x00008ED000000002 0x1 = .ok (.flag .ccw (.named 4) (.lit 1)) ∧
    decodeWord .a 0x00008F0441206895 0 = .ok (.gamo .cas ⟨.w32, true⟩ 9 (.belt 1) (.reg (.belt 2)) (.belt 3) (some 1)) ∧
    decodeWord .a 0x0000900000000B88 0 = .ok (.fence .dev (some 7)) ∧
    decodeWord .a 0x0000910440600000 0 = .ok (.pfch 3 (.belt 1) (.belt 2)) ∧
    decodeWord .a 0x00009252A8400000 0 = .ok (.fltopen 2 8 (.named 4) (.reg (.named 5))) ∧
    decodeWord .a 0x0000935001400000 0 = .ok (.fltclose 2 1 (.named 4)) :=
  ⟨rfl, rfl, rfl, rfl, rfl, rfl, rfl, rfl⟩

/-- Words of V3, OP 0x10 to 0x1F (R25, R139), written out field by field from the tables of spec/02_encoding.md. -/
theorem test_decode_vector :
    decodeWord .v 0x00001028001F8180 0 = .ok (.vadd .f32 .rtz true (.named 4) (.belt 0) (some 31)) ∧
    decodeWord .v 0x0000112A081F0A80 0 = .ok (.vsub .bf16 .rdn true (.named 5) (.belt 1) (some 30)) ∧
    decodeWord .v 0x0000122C101E8380 0 = .ok (.vmul .f32 .rup true (.named 6) (.belt 2) (some 29)) ∧
    decodeWord .v 0x000013208E200A00 0 = .ok (.vfma .bf16 .rdn false (.named 0) (.named 1) .lane none) ∧
    decodeWord .v 0x000014208E108000 0 = .ok (.vfms .f32 .rne false (.named 0) (.named 1) .zero (some 1)) ∧
    decodeWord .v 0x0000150B78002880 0 = .ok (.vmin .z16 true (.belt 5) (.named 31) none) ∧
    decodeWord .v 0x0000160D78003080 0 = .ok (.vmax .s8 true (.belt 6) (.named 31) none) ∧
    decodeWord .v 0x0000191378000880 0 = .ok (.vand .bf16 true (.belt 9) (.named 31) none) ∧
    decodeWord .v 0x00001A1578001080 0 = .ok (.vor .s32 true (.belt 10) (.named 31) none) ∧
    decodeWord .v 0x00001B1778001880 0 = .ok (.vxor .z32 true (.belt 11) (.named 31) none) ∧
    decodeWord .v 0x0000170E00112800 0 = .ok (.vabs .z16 false (.belt 7) (some 2)) ∧
    decodeWord .v 0x0000181000113000 0 = .ok (.vneg .s8 false (.belt 8) (some 2)) ∧
    decodeWord .v 0x00001C1880001080 0 = .ok (.vshl .s32 true (.belt 12) (.named 0) none) ∧
    decodeWord .v 0x00001D1A80001880 0 = .ok (.vshr .z32 true (.belt 13) (.named 0) none) ∧
    decodeWord .v 0x00001E1C80002080 0 = .ok (.vsar .s16 true (.belt 14) (.named 0) none) ∧
    decodeWord .v 0x00001F2980000806 0 = .ok (.vcmp .un .bf16 false (.named 4) .zero none) :=
  ⟨rfl, rfl, rfl, rfl, rfl, rfl, rfl, rfl, rfl, rfl, rfl, rfl, rfl, rfl, rfl, rfl⟩

/-- Words of V3 and VI, OP 0x20 to 0x37 (R140 to R146), written out field by field from the tables of spec/02_encoding.md. -/
theorem test_decode_vector_more :
    decodeWord .v 0x0000200008402880 0 = .ok (.vsel .z16 true (.belt 0) (.belt 1) (.belt 2) none) ∧
    decodeWord .v 0x0000210000100000 0 = .ok (.vrcp .f32 .rne false (.belt 0) (some 0)) ∧
    decodeWord .v 0x0000220200108900 0 = .ok (.vrsq .bf16 .rtz false (.belt 1) (some 1)) ∧
    decodeWord .v 0x0000230400110200 0 = .ok (.vexp2 .f32 .rdn false (.belt 2) (some 2)) ∧
    decodeWord .v 0x0000240600118B00 0 = .ok (.vlog2 .bf16 .rup false (.belt 3) (some 3)) ∧
    decodeWord .v 0x0000250008401000 0 = .ok (.vclamp .s32 false (.belt 0) (.belt 1) (.belt 2) none) ∧
    decodeWord .v 0x0000266200148080 0 = .ok (.vmov true .lane (some 9)) ∧
    decodeWord .v 0x0000278140000000 0x3e000000 = .ok (.vlit false (.lit 0x3E000000) (some 8)) ∧
    decodeWord .v 0x00002B62013FFFE0 0 = .ok (.vaddi .s32 false .lane (.short (-32)) none) ∧
    decodeWord .v 0x0000280008403800 0 = .ok (.vdot4 .z8 false (.belt 0) (.belt 1) (.belt 2) none) ∧
    decodeWord .v 0x0000290008003000 0 = .ok (.vrsh .s8 false (.belt 0) (.belt 1) none) ∧
    decodeWord .v 0x00002A0008001000 0 = .ok (.vmulq false (.belt 0) (.belt 1) none) ∧
    decodeWord .v 0x0000300600000B00 0 = .ok (.vredadd .bf16 .rup false (.belt 3) none) ∧
    decodeWord .v 0x0000310600002080 0 = .ok (.vredmax .s16 true (.belt 3) none) ∧
    decodeWord .v 0x0000320600002800 0 = .ok (.vredmin .z16 false (.belt 3) none) ∧
    decodeWord .v 0x0000330600118100 0 = .ok (.vscan .f32 .rtz false (.belt 3) (some 3)) ∧
    decodeWord .v 0x0000340620000080 0 = .ok (.vperm true (.belt 3) (.belt 4) none) ∧
    decodeWord .v 0x0000350620000080 0 = .ok (.vrot true (.belt 3) (.belt 4) none) ∧
    decodeWord .v 0x0000360620000080 0 = .ok (.vbcast true (.belt 3) (.belt 4) none) ∧
    decodeWord .v 0x0000370600001800 0 = .ok (.vargmax .z32 false (.belt 3) none) :=
  ⟨rfl, rfl, rfl, rfl, rfl, rfl, rfl, rfl, rfl, rfl, rfl, rfl, rfl, rfl, rfl, rfl, rfl, rfl, rfl, rfl⟩

/-- Words of VI and VB, OP 0x4C to 0x55, 0x67 and 0x70 (R128, R134, R136 to R138), written out field by field from the tables of spec/02_encoding.md. -/
theorem test_decode_vector_state :
    decodeWord .v 0x00004C0008000400 0 = .ok (.iset 1 (.val (.short 0x400))) ∧
    decodeWord .v 0x00004C8010800000 0xffffffff = .ok (.iset 2 (.step (.lit 0xFFFFFFFF))) ∧
    decodeWord .v 0x00004C0039000040 0 = .ok (.iset 7 (.lim (.short 64))) ∧
    decodeWord .v 0x00004C2839800000 0 = .ok (.iset 7 (.vec (.named 4) (.short 0))) ∧
    decodeWord .v 0x00004D00383FFFFC 0 = .ok (.iadd 7 (.short (-4))) ∧
    decodeWord .v 0x0000500A00000000 0 = .ok (.vmpush (.belt 5)) ∧
    decodeWord .v 0x0000510000000000 0 = .ok .vminv ∧
    decodeWord .v 0x0000520000000000 0 = .ok .vmpop ∧
    decodeWord .v 0x0000530000000002 0 = .ok (.vbnone 2) ∧
    decodeWord .v 0x0000540000FFFFFE 0 = .ok (.vbany (-2)) ∧
    decodeWord .v 0x0000550130000000 0 = .ok (.vmget (some 6)) ∧
    decodeWord .v 0x0000670000000005 0 = .ok (.vdph 5) ∧
    decodeWord .v 0x0000700040000001 0 = .ok (.vmirror 8 true) :=
  ⟨rfl, rfl, rfl, rfl, rfl, rfl, rfl, rfl, rfl, rfl, rfl, rfl, rfl⟩

/-- Words of VT, OP 0x58 to 0x5C (R148, R149), written out field by field from the tables of spec/02_encoding.md. -/
theorem test_decode_vector_memory :
    decodeWord .v 0x00005800B2800008 0 = .ok (.vld ⟨2, true, false, 8⟩ (some 5)) ∧
    decodeWord .v 0x00005929C0003FFF 0 = .ok (.vst (.named 4) ⟨7, false, true, -1⟩) ∧
    decodeWord .v 0x00005A004004C000 0 = .ok (.vldt (.ring 9) ⟨1, false, false, 0⟩ none) ∧
    decodeWord .v 0x00005B02607F0000 0 = .ok (.vstt (.belt 1) (.tile 254) ⟨1, true, false, 0⟩) ∧
    decodeWord .v 0x00005C62D0000000 0 = .ok (.vldx .lane ⟨3, false, false, 0⟩ (some 0)) :=
  ⟨rfl, rfl, rfl, rfl, rfl⟩

/-- Words of V3, OP 0x60 to 0x66 (R121 to R127), written out field by field from the tables of spec/02_encoding.md. -/
theorem test_decode_conversions :
    decodeWord .v 0x0000600000120002 0 = .ok (.vcvt .f32 .s32 .rne false false (.belt 0) (.belt 0) (some 4)) ∧
    decodeWord .v 0x0000600210000B80 0 = .ok (.vcvt .bf16 .f32 .rup true false (.belt 1) (.belt 2) none) ∧
    decodeWord .v 0x0000600200001014 0 = .ok (.vcvt .s32 .s16 .rne false true (.belt 1) (.belt 0) none) ∧
    decodeWord .v 0x00006128C8160400 0 = .ok (.vqnt .e4m3 .f32 .dth .dflt false (.named 4) (.named 9) (some 12)) ∧
    decodeWord .v 0x00006128C8000811 0 = .ok (.vqnt .e5m2 .bf16 .rne .sat false (.named 4) (.named 9) none) ∧
    decodeWord .v 0x00006228C8000105 0 = .ok (.vdeq .i8 .f32 .rtz false (.named 4) (.named 9) none) ∧
    decodeWord .v 0x0000632800148004 0 = .ok (.vbsc .e2m1 .f32 (.named 4) (some 9)) ∧
    decodeWord .v 0x000064220011300C 0 = .ok (.vsce true false (.named 1) (some 2)) ∧
    decodeWord .v 0x0000642200003086 0 = .ok (.vsce false true (.named 1) none) ∧
    decodeWord .v 0x0000650098119820 0 = .ok (.vpak .e4m3 false 2 (.belt 0) (.named 3) (some 3)) ∧
    decodeWord .v 0x0000660000002814 0 = .ok (.vupk .e2m1 true 1 (.belt 0) none) :=
  ⟨rfl, rfl, rfl, rfl, rfl, rfl, rfl, rfl, rfl, rfl, rfl⟩

/-- Words of MM, MS and MD, OP 0x10 to 0x15 in the M stream (R27, R157 to R167), written out field by field from the tables of spec/02_encoding.md. -/
theorem test_decode_matrix :
    decodeWord .m 0x0000104040100000 0 = .ok (.mma true .e4m3 .e5m2 0 1) ∧
    decodeWord .m 0x000010113FE00000 0 = .ok (.mma false .e2m1 .e2m1 31 30) ∧
    decodeWord .m 0x0000116190000000 0 = .ok (.sacc true 2 3 4) ∧
    decodeWord .m 0x0000111192000000 0 = .ok (.saccI false 1 3 4) ∧
    decodeWord .m 0x0000121000000000 0 = .ok (.macz 1) ∧
    decodeWord .m 0x0000130383800000 0 = .ok (.mdrain 0 (.tile 28) false .bf16 .rne .dflt false false 0) ∧
    decodeWord .m 0x00001360B84BE800 0 = .ok (.mdrain 3 (.ring 5) true .e4m3 .dth .nan false true 0x3E) ∧
    decodeWord .m 0x00001320A5000400 0 = .ok (.mdrain 1 (.tile 5) false .i32 .rne .dflt true false 0) ∧
    decodeWord .m 0x00001440E4800000 0 = .ok (.mload 2 (.tile 7) .a36) ∧
    decodeWord .m 0x00001500F0000000 0 = .ok (.mchk (.ring 7)) :=
  ⟨rfl, rfl, rfl, rfl, rfl, rfl, rfl, rfl, rfl, rfl⟩

/-- Policy words, written out from R30 and the table of 13 R266. -/
theorem test_decode_policy :
    decodePolicy 0x0448C018 = .ok (.pview .qkey 1 2 3) ∧
    decodePolicy 0x0440003E = .ok (.pview .fallback 1 0 0) ∧
    decodePolicy 0x08802000 = .ok (.pli 2 (-8192)) ∧
    decodePolicy 0x0D158000 = .ok (.padd 4 5 6) ∧
    decodePolicy 0x11158000 = .ok (.psub 4 5 6) ∧
    decodePolicy 0x15158000 = .ok (.pand 4 5 6) ∧
    decodePolicy 0x19158000 = .ok (.por 4 5 6) ∧
    decodePolicy 0x1D14001F = .ok (.pshl 4 5 31) ∧
    decodePolicy 0x21140001 = .ok (.pshr 4 5 1) ∧
    decodePolicy 0x2448C000 = .ok (.pmin 1 2 3) ∧
    decodePolicy 0x2848C000 = .ok (.pmax 1 2 3) ∧
    decodePolicy 0x2C48C004 = .ok (.pcmp .gt 1 2 3) ∧
    decodePolicy 0x3048C000 = .ok (.psel 1 2 3) ∧
    decodePolicy 0x3408000D = .ok (.pbf 2 13) ∧
    decodePolicy 0x38000005 = .ok (.pjf 5) ∧
    decodePolicy 0x3C400003 = .ok (.qloop 1 3) ∧
    decodePolicy 0x40400002 = .ok (.qnext 1 2) :=
  ⟨rfl, rfl, rfl, rfl, rfl, rfl, rfl, rfl, rfl, rfl, rfl, rfl, rfl, rfl, rfl, rfl, rfl⟩

/-- Policy words, written out from R30 and the table of 13 R266. -/
theorem test_decode_policy_2 :
    decodePolicy 0x44040003 = .ok (.probe 1 3) ∧
    decodePolicy 0x48158000 = .ok (.pickDisp 5 6) ∧
    decodePolicy 0x48140001 = .ok (.pickGrant 5) ∧
    decodePolicy 0x48140002 = .ok (.pickFail 5) ∧
    decodePolicy 0x48000003 = .ok .pickGrantall ∧
    decodePolicy 0x4C140000 = .ok (.ppre 5) ∧
    decodePolicy 0x50000000 = .ok .pfaultResume ∧
    decodePolicy 0x50000001 = .ok .pfaultRetry ∧
    decodePolicy 0x50000002 = .ok .pfaultPark ∧
    decodePolicy 0x50000003 = .ok .pfaultKill ∧
    decodePolicy 0x50000004 = .ok .pfaultRollback ∧
    decodePolicy 0x501C001D = .ok (.pfaultHandler 7 3) ∧
    decodePolicy 0x55800007 = .ok (.pget 6 7) ∧
    decodePolicy 0x58180002 = .ok (.pkeep 6 2) ∧
    decodePolicy 0x5C000000 = .ok .pend :=
  ⟨rfl, rfl, rfl, rfl, rfl, rfl, rfl, rfl, rfl, rfl, rfl, rfl, rfl, rfl, rfl⟩

/-- Words that no stream may run: OP 0x01; a nop with a body bit; a literal on add; the reserved vector operand 50; a float shift; DN without DEN. -/
theorem test_decode_refuses :
    decodeWord .c 0x0000010000000000 0 = .error .opcode ∧ decodeWord .c 0x0000000000000001 0 = .error .reserved ∧
    decodeWord .c 0x0000108000200000 0 = .error .literal ∧ decodeWord .v 0x0000106400000000 0 = .error .specifier ∧
    decodeWord .v 0x00001C0000000000 0 = .error .code ∧ decodeWord .c 0x0000100001200000 0 = .error .reserved ∧
    decodeWord .m 0x0000160000000000 0 = .error .opcode ∧ decodePolicy 0 = .error .opcode ∧ decodePolicy 0x60000000 = .error .opcode :=
  ⟨rfl, rfl, rfl, rfl, rfl, rfl, rfl, rfl, rfl⟩

/-! ### States to meet the hypotheses -/

/-- Values on a belt: numbers at the edges of ranges, a poisoned one at age 2, one that is not there at age 3. -/
def regs : Scalar :=
  { belt := [.ofWord 5, .ofWord (-3), { mark := some 9 }, { wait := some 7 }, .ofWord 0, .ofWord 4096, .ofWord 4097, .ofWord 65536, .ofWord 64,
      .ofWord 0x600000000001, .ofWord 8, .ofWord 256, .ofWord 0xBFFFF8, .ofWord 0xC00000, .ofWord 0x20, Val.empty] }

def strm : Strm := { run := .running, pc := 4, words := 16 }

/-- A running thread of partition 3 on core 0. -/
def thread : Thread :=
  { tid := 1, life := { part := 3, ctx := 5, slot := 2 }, sc := strm, sa := strm, sv := strm, sm := strm, c := { regs := regs },
    a := { regs := regs } }

/-- The issue of word 4. -/
def word4 (sid : StreamId) : Issue := { tid := 1, sid := sid, pc := 4, next := 5 }

/-- Cycle 100 of a machine with one thread, which is issuing. -/
def during (sid : StreamId) (th : Thread) : State := { State.reset with now := 100, cur := .stream (word4 sid), threads := [th] }

/-- The same cycle, before a turn. -/
def before (a : Agent) (th : Thread) (ws : Sparse (Word × Bool)) : State :=
  { State.reset with now := 100, turns := [a], threads := [th], cores := setAt State.reset.cores 0 { imem := ws } }

theorem issues_during (sid : StreamId) (th : Thread) (h : th.tid = 1) : Issues (during sid th) (word4 sid) th :=
  ⟨rfl, by simp [State.thread?, during, word4, h]⟩

theorem noLatent_during (sid : StreamId) (th : Thread) : NoLatent (during sid th) := by
  intro c
  show ((List.replicate 128 ({} : Core)).getD c {}).spBad = []
  rw [List.getD_eq_getElem?_getD, List.getElem?_replicate]
  split <;> rfl

/-! ### The hypotheses of the statements are met -/

/-- A bext at the edge of its check meets the hypothesis of EncodedInstructionDecodesBack. -/
theorem test_meets_EncodedInstructionDecodesBack : wellFormed (.bext true (.belt 0) 40 23 none) = true := by decide

/-- A word with a literal at the end of its window, run because its guard, the poppable slot 2, sees the value it wants. -/
def guarded : Thread :=
  { thread with sc := { strm with words := 6 }, guards := setAt (List.replicate 16 []) 2 [{ val := false, at_ := 99 }] }

theorem test_meets_StepRunsTheStreamInstructionDecoded :
    let th := guarded
    let s := before (.stream 1 .c) th [(4, (0x000B2F8004000000, false)), (5, (7, true))]
    let w := (s.fetch th 4).1
    HeadsTurn s 1 .c [] th ∧ th.sc.inWindow 4 = true ∧ (s.fetch th 4).2 = false ∧
    th.sc.hold.getD (th.sc.idleRef + 1 + (headerOf w).idle.toNat) ≤ s.now ∧ hasLit w = true ∧ th.sc.inWindow 5 = true ∧ th.sc.repCount = 0 ∧
    (headerOf w).gsl = 2 ∧ th.guardValue s.now .c 2 = some false ∧ false ≠ (headerOf w).gnot := by
  refine ⟨⟨rfl, rfl, rfl, rfl, rfl, nofun, fun h => by cases h⟩, ?_, ?_, ?_, ?_, ?_, ?_, ?_, ?_, ?_⟩ <;> first | rfl | decide

/-- The instruction at that word, under the one repetition left. -/
theorem test_meets_StepRunsTheStreamInstructionDecoded_2 :
    decodeWord .c 0x000B2F8004000000 7 = .ok (.lit ⟨.w64, true⟩ (.lit 7) none) ∧
    repForbids .c (.lit ⟨.w64, true⟩ (.lit 7) none) = false := ⟨rfl, rfl⟩

/-- A loop task's stream inside a step, between the ends of its kernel, meets the loop unit's clause. -/
theorem test_meets_StepRunsTheStreamInstructionDecoded_3 :
    let th : Thread := { thread with sc := { strm with subs := [(0, 0), (4, 2), (0, 0)] }, loop := { s := 2, n := 1, t := 2, inStep := true, ks := 100 } }
    th.takesPart .c = true ∧ th.loop.finished = false ∧ HeadsTurn (before (.stream 1 .c) th []) 1 .c [] th :=
  ⟨rfl, rfl, rfl, rfl, rfl, rfl, rfl, nofun, fun _ _ => ⟨rfl, nofun, fun _ => ⟨by decide, by decide⟩⟩⟩

theorem test_meets_StepRunsEventsAndPolicies :
    (let s := before (.event (.notify 3 0 1)) thread []
     s.turns = [.event (.notify 3 0 1)] ∧ s.dev.power = true) ∧
    (let d : Decision := { trigger := { hook := .dispatch, cause := 0 }, snap := {}, image := [0x5C000000], cycles := 255 }
     let s := ({ State.reset with turns := [.policy 3] } : State).modPart 3 fun p => { p with pol := { p.pol with running := some d } }
     s.turns = [.policy 3] ∧ (s.part 3).pol.running = some d ∧ d.image ≠ [] ∧ d.cycles < 256 ∧
       decodePolicy (d.image.getD d.pc 0) = .ok .pend) := by
  refine ⟨⟨rfl, rfl⟩, rfl, rfl, ?_, ?_, rfl⟩ <;> decide

/-- An illegal word at the head; a word that its guard turns off; a head past the window, one that is tagged, one whose literal is. -/
theorem test_meets_IllegalAndGuardedOffWords :
    (let s := before (.stream 1 .c) thread [(4, (0x0000010000000000, false))]
     let w := (s.fetch thread 4).1
     HeadsTurn s 1 .c [] thread ∧ thread.life.trapping = false ∧ thread.life.waitingTrap = none ∧
     (s.fetch thread 4).2 = false ∧ thread.sc.hold.getD (thread.sc.idleRef + 1 + (headerOf w).idle.toNat) ≤ s.now ∧ hasLit w = false ∧
     decodeWord .c w 0 = .error .opcode) ∧
    (let s := before (.stream 1 .c) thread [(4, (0x0002100000200000, false))]
     let w := (s.fetch thread 4).1
     hasLit w = false ∧ decodeWord .c w 0 = .ok (.add ⟨.w64, true⟩ (.belt 0) (.belt 0) none) ∧
     thread.guardValue s.now .c (headerOf w).gsl = some (headerOf w).gnot) ∧
    (let s := before (.stream 1 .c) thread [(4, (0x8000000000000000 ||| 0x100000000000, true)), (6, (0x2F8004000000, false))]
     (s.fetch thread 4).2 = true ∧ hasLit (s.fetch thread 6).1 = true ∧ ({ strm with pc := 6, words := 7 } : Strm).inWindow 7 = false ∧
     ({ strm with pc := 16 } : Strm).inWindow 16 = false) := by
  refine ⟨⟨⟨rfl, rfl, rfl, rfl, rfl, nofun, fun h => by cases h⟩, ?_, ?_, ?_, ?_, ?_, ?_⟩, ⟨?_, ?_, ?_⟩, ?_, ?_, ?_, ?_⟩ <;> first | rfl | decide

/-- The clauses of IssueAdvancesTheStream: the last repetition, two left, and a pop behind a value already gone. -/
theorem test_meets_IssueAdvancesTheStream :
    let gs : List GuardVal := [{ val := true, at_ := 98, gone := some 99 }, { val := false, at_ := 99 }]
    ({ strm with repCount := 1 } : Strm).repCount ≤ 1 ∧ 1 < ({ strm with repCount := 2 } : Strm).repCount ∧
    thread.isStageGuard 15 = false ∧ gs = [{ val := true, at_ := 98, gone := some 99 }] ++ { val := false, at_ := 99 } :: [] ∧
    (∀ x ∈ [({ val := true, at_ := 98, gone := some 99 } : GuardVal)], x.seen 100 = false) ∧
    ({ val := false, at_ := 99 } : GuardVal).seen 100 = true := by
  refine ⟨?_, ?_, ?_, ?_, ?_, ?_⟩ <;> first | rfl | decide

/-- Reset meets the invariant, and its step is a next state. -/
theorem test_meets_StepKeepsMemoryCanonical : State.reset.mem.wf = true ∧ step State.reset = .next State.reset.tick := ⟨rfl, rfl⟩

/-- Operands that are there, in the C and in the A stream, at their edges. -/
theorem test_meets_ScalarIntegerAndBitwiseResults :
    Issues (during .c thread) (word4 .c) thread ∧ Issues (during .a thread) (word4 .a) thread ∧
    (thread.src (word4 .c) (.belt 0)).There ∧ (thread.src (word4 .c) (.belt 2)).There ∧ (thread.src (word4 .a) (.belt 4)).There ∧
    (thread.src (word4 .a) (.belt 15)).There ∧ (thread.src (word4 .c) (.named 0)).There :=
  ⟨issues_during _ _ rfl, issues_during _ _ rfl, rfl, rfl, rfl, rfl, rfl⟩

theorem test_meets_ScalarImmediateResults :
    Issues (during .c thread) (word4 .c) thread ∧ (thread.src (word4 .c) (.belt 1)).There ∧
    (∀ i : Imm, i = .short (-2097152) → i = .short (-2097152) ∨ i = .lit 0) := ⟨issues_during _ _ rfl, rfl, fun _ h => .inl h⟩

/-- A field that ends at bit 63, and one of a single bit. -/
theorem test_meets_ScalarOtherResults :
    Issues (during .a thread) (word4 .a) thread ∧ (thread.src (word4 .a) (.belt 2)).There ∧ (thread.src (word4 .a) (.belt 4)).There ∧
    (thread.src (word4 .a) (.belt 0)).There ∧ (0 : BitVec 6).toNat + (63 : BitVec 6).toNat + 1 ≤ 64 ∧
    (63 : BitVec 6).toNat + (0 : BitVec 6).toNat + 1 ≤ 64 := ⟨issues_during _ _ rfl, rfl, rfl, rfl, by decide, by decide⟩

theorem test_meets_ScalarOperands :
    Issues (during .c thread) (word4 .c) thread ∧ ¬ (thread.src (word4 .c) (.belt 3)).There ∧ (thread.src (word4 .c) (.belt 2)).There ∧
    meetAll [none, some 9, some 4] = some 4 ∧ (regs.belt.getD 15 Val.empty).void = true :=
  ⟨issues_during _ _ rfl, (by intro h; cases h), rfl, rfl, rfl⟩

/-- A scalar and a control instruction that answer next states. -/
theorem test_meets_ScalarAndControlFrame :
    (∃ t, exec (.add ⟨.w64, true⟩ (.belt 0) (.belt 1) (some 3)) (during .c thread) = .next t) ∧
    (∃ t, exec (.loop 0 0) (during .a thread) = .next t) := ⟨⟨_, rfl⟩, ⟨_, rfl⟩⟩

/-! #### Control -/

/-- A return stack of one address and one of sixteen. -/
def called : Thread := { thread with c := { regs := regs, stack := [15] } }
def calledFull : Thread := { thread with c := { regs := regs, stack := List.replicate 16 0 } }

/-- A target at the end of the window; the conditions at 5, 0, the most negative number; the word's counter at two and at one. -/
theorem test_meets_BranchesGoOrTrap :
    (∀ n, n = 0 ∨ n = 15 → MayLand (during .c thread) thread (word4 .c) n) ∧ (4 : Int) + (11 : BitVec 24).toInt = (15 : Nat) ∧
    (4 : Int) + (-4 : BitVec 24).toInt = (0 : Nat) ∧ (thread.src (word4 .c) (.belt 0)).Clean ∧
    BcCond.Holds .pos (thread.src (word4 .c) (.belt 0)).bits ∧ ¬ BcCond.Holds .neg (thread.src (word4 .c) (.belt 4)).bits ∧
    BcCond.Holds .neg 0x8000000000000000 ∧ called.c.stack = 15 :: [] ∧ called.c.stack.length < 16 ∧
    MayLand (during .c called) called (word4 .c) 15 ∧ 1 < (2 : Word).toNat % 2 ^ 32 ∧ (1 : Word).toNat % 2 ^ 32 ≤ 1 := by
  refine ⟨?_, by decide, by decide, ⟨rfl, rfl⟩, ?_, ?_, ?_, rfl, by decide,
    ⟨by decide, rfl, fun h => by cases h⟩,
    by decide, by decide⟩
  · rintro n (rfl | rfl) <;> exact ⟨by decide, rfl, fun h => by cases h⟩
  · show (0 : Int) < (thread.src (word4 .c) (.belt 0)).bits.toInt
    decide
  · show ¬ (thread.src (word4 .c) (.belt 4)).bits.toInt < 0
    decide
  · show (0x8000000000000000 : Word).toInt < 0
    decide

/-- A target one word past the window, one below word 0, a jmp at 65,536, the full and the empty return stack, a poisoned condition. -/
theorem test_meets_BranchesGoOrTrap_2 :
    ¬ MayLand (during .c thread) thread (word4 .c) 16 ∧ (4 : Int) + (12 : BitVec 24).toInt = (16 : Nat) ∧
    (4 : Int) + (-5 : BitVec 24).toInt < 0 ∧ (thread.src (word4 .c) (.belt 7)).Clean ∧
    65536 ≤ (thread.src (word4 .c) (.belt 7)).bits.toNat ∧ 16 ≤ calledFull.c.stack.length ∧ thread.c.stack = [] ∧
    (thread.src (word4 .c) (.belt 2)).There ∧ (thread.src (word4 .c) (.belt 2)).mark = some 9 := by
  refine ⟨fun h => ?_, by decide, by decide, ⟨rfl, rfl⟩, by decide, by decide, rfl, rfl, rfl⟩
  have := h.1
  revert this
  decide

/-- Counts 1, 4,096 and 0 of a rep, one above 4,096; and a repeated word whose literal would be the kernel's end. -/
theorem test_meets_RepeatSetsTheRepeatState :
    thread.inKernel .c = false ∧ (thread.src (word4 .c) (.belt 5)).Clean ∧ (thread.src (word4 .c) (.belt 5)).bits.toNat ≤ 4096 ∧
    1 ≤ (thread.src (word4 .c) (.belt 5)).bits.toNat ∧ (thread.src (word4 .c) (.belt 4)).Clean ∧ (thread.src (word4 .c) (.belt 4)).bits = 0 ∧
    (thread.src (word4 .c) (.belt 6)).Clean ∧ 4096 < (thread.src (word4 .c) (.belt 6)).bits.toNat ∧ (4096 : BitVec 13).toNat ≤ 4096 ∧
    (let th : Thread := { thread with sc := { strm with subs := [(0, 0), (2, 5), (0, 0)] }, loop := { s := 2, n := 1, t := 2, inStep := true } }
     th.inKernel .c = true ∧ bitOf (0x8000000000 : Word) 39 = true ∧ 5 + 1 + 1 = th.sc.kernel.1 + th.sc.kernel.2) := by
  refine ⟨rfl, ⟨rfl, rfl⟩, by decide, by decide, ⟨rfl, rfl⟩, rfl, ⟨rfl, rfl⟩, by decide, by decide, rfl, rfl, rfl⟩

def idleOthers : Thread :=
  { thread with sa := { strm with run := .notStarted }, sv := { strm with run := .stopped 100 }, sm := { strm with run := .notStarted, words := 0 } }

theorem test_meets_GoAndStop :
    Issues (during .c idleOthers) (word4 .c) idleOthers ∧ idleOthers.inKernel .c = false ∧ idleOthers.sa.words ≠ 0 ∧ idleOthers.sv.words ≠ 0 ∧
    idleOthers.sm.words = 0 ∧ idleOthers.sa.idleAt 100 = true ∧ idleOthers.sv.idleAt 100 = true ∧ idleOthers.sm.idleAt 100 = true ∧
    idleOthers.sv.idleAt 99 = false ∧ thread.sa.idleAt 100 = false ∧ (word4 .a).sid ≠ .c := by
  refine ⟨issues_during _ _ rfl, ?_, ?_, ?_, ?_, ?_, ?_, ?_, ?_, ?_, ?_⟩ <;> first | rfl | decide

/-- A slot of seven values; an earlier store; a loop task's guard 8; a poisoned value. -/
theorem test_meets_GuardFifos :
    let seven : List GuardVal := List.replicate 7 { val := true, at_ := 99 }
    let loop : Thread := { thread with loop := { s := 2, n := 1, t := 2 } }
    thread.isStageGuard 15 = false ∧ (thread.src (word4 .c) (.belt 0)).Clean ∧ thread.storesDone .c = true ∧
    (seven.filter fun g => g.gone.isNone).length < 8 ∧
    ({ thread with c := { regs := regs, queue := [.store true .w64 0 (.ofWord 1)] } } : Thread).storesDone .c = false ∧
    loop.isStageGuard 8 = true ∧ loop.isStageGuard 7 = false ∧ (thread.src (word4 .c) (.belt 2)).mark = some 9 := by
  refine ⟨rfl, ⟨rfl, rfl⟩, rfl, by decide, rfl, rfl, rfl, rfl⟩

/-! #### Tiles, scratchpad, commands -/

/-- Tiles of one row of one unit: 1 FREE, 2 FULL, 3 FULL from the next cycle, 5 FILLING; 10 and 11, FULL and FREE, are ring 5; 20 is FULL.
Records: 1 and 5 valid with an extent of one granule, faulting and clamping out of it; 2 of one E4M3 block; 0 not valid. -/
def tiled : Thread :=
  { thread with
    tiles := [(1, some { desc := 0 }), (2, some { desc := 1, st := .full, since := 100 }), (3, some { desc := 2, st := .full, since := 101 }),
      (5, some { desc := 5, st := .filling, since := 90 }), (10, some { desc := 10, st := .full, ring := some 5 }),
      (11, some { desc := 11, ring := some 5 }), (20, some { desc := 20, st := .full, since := 100 })]
    rings := [(5, some { first := 10, n := 2, tail := 1 })]
    a := { regs := regs, recs := [(1, [0xB000000000010000, 64, 0, 0xF03F000000000000]), (2, [0x10000, 64, 0, 0xF01F000000000000]),
      (5, [0xB400000000010000, 64, 0, 0xF03F000000000000])] } }

theorem test_meets_WordTilesAndTileStates :
    tiled.tile? 1 = some { desc := 0 } ∧ tiled.tile? 3 = some { desc := 2, st := .full, since := 101 } ∧
    tiled.tile? 254 = none ∧ tiled.ring? 100 31 = none ∧
    tiled.writer 100 (.tile 1) = .ok ⟨1, none⟩ 0 ∧ tiled.writer 100 (.tile 3) = .wait ∧ tiled.writer 100 (.tile 255) = .null ∧
    tiled.ring? 100 5 = some { first := 10, n := 2, tail := 1 } ∧ tiled.writer 100 (.ring 5) = .ok ⟨11, some 5⟩ 11 ∧
    tiled.consumer 100 (.tile 2) = .ok ⟨2, none⟩ 1 ∧ tiled.consumer 100 (.tile 3) = .wait ∧
    tiled.consumer 100 (.ring 5) = .ok ⟨10, some 5⟩ 10 ∧ (tiled.src (word4 .c) (.belt 2)).There ∧ tiled.storesDone .c = true :=
  ⟨rfl, rfl, rfl, rfl, rfl, rfl, rfl, rfl, rfl, rfl, rfl, rfl, rfl, rfl⟩

/-- Fifteen and sixteen accesses of a kind in the queue. -/
def queued (n : Nat) (x : CAccess) : Thread := { thread with c := { regs := regs, queue := List.replicate n x } }

/-- The last legal address of a pane and the first beyond; one that is misaligned; a poisoned base; a length of one byte. -/
theorem test_meets_MemoryInstructionsEnterTrapOrWait :
    LegalAt thread 0xBFFFF8 8 ∧ ¬ LegalAt thread 0xC00000 1 ∧ ¬ LegalAt thread 5 2 ∧ ¬ LegalAt thread (2 ^ 24) 1 ∧
    (thread.src (word4 .c) (.belt 12)).Clean ∧ (thread.src (word4 .c) (.belt 4)).Clean ∧ (thread.src (word4 .c) (.belt 2)).There ∧
    (queued 15 (.load true ⟨.w64, true⟩ 0 1)).loads < 16 ∧ (queued 15 (.store true .w64 0 {})).stores < 16 ∧
    16 ≤ (queued 16 (.load true ⟨.w64, true⟩ 0 1)).loads ∧ 16 ≤ (queued 16 (.store true .w64 0 {})).stores ∧
    (thread.src (word4 .c) (.belt 0)).bits ≠ 0 ∧ meet (thread.src (word4 .c) (.belt 2)).mark (thread.src (word4 .c) (.belt 0)).mark = some 9 ∧
    (AopOp.add : AopOp) ≠ .cas ∧ (thread.src (word4 .c) (.belt 2)).mark = some 9 ∧ (thread.src (word4 .c) (.named 3)).There ∧
    ¬ (thread.src (word4 .c) (.belt 3)).There := by
  refine ⟨⟨?_, ?_, ?_, ?_⟩, fun h => absurd h.2.2.1 ?_, fun h => absurd h.2.2.2 ?_, fun h => absurd h.2.1 ?_, ⟨rfl, rfl⟩, ⟨rfl, rfl⟩, rfl,
    ?_, ?_, ?_, ?_, ?_, rfl, ?_, rfl, rfl, fun h => by cases h⟩ <;> decide

/-- A wadr that finds its condition met and one that does not; a latched one; accesses that block an access and do not. -/
theorem test_meets_WaitOnAddressAndAccessOrder :
    Issues (during .c thread) (word4 .c) thread ∧ (thread.src (word4 .c) (.belt 4)).Clean ∧ (thread.src (word4 .c) (.belt 0)).Clean ∧
    LegalAt thread 0 8 ∧ thread.sc.latched = false ∧ thread.c.queue = [] ∧ ((during .c thread).pad thread 0).mark 0 = none ∧
    ((during .c thread).pad thread 0).read 0 8 = List.replicate 8 0 ∧
    (queued 2 (.load true ⟨.w64, true⟩ 0 1)).c.queue[1]? = some (.load true ⟨.w64, true⟩ 0 1) ∧
    (∃ y ∈ (queued 2 (.load true ⟨.w64, true⟩ 0 1)).c.queue.take 1, y = .load true ⟨.w64, true⟩ 0 1) ∧
    (queued 1 .mark).c.queue[0]? = some .mark ∧ (queued 1 .mark).c.queue.take 0 = [] :=
  ⟨issues_during _ _ rfl, ⟨rfl, rfl⟩, ⟨rfl, rfl⟩, ⟨by decide, by decide, by decide, by decide⟩, rfl, rfl, rfl, rfl, rfl,
    ⟨_, .head _, rfl⟩, rfl, rfl⟩

theorem test_meets_ScratchpadAccessesPerformed :
    let th := queued 1 (.aop .cas ⟨.w32, false⟩ 0xBFFFFC (.ofWord 1) (.ofWord 0) 3)
    let s := during .c th
    s.thread? 1 = some th ∧ th.c.queue[0]? = some (.aop .cas ⟨.w32, false⟩ 0xBFFFFC (.ofWord 1) (.ofWord 0) 3) ∧
    (CAccess.aop .cas ⟨.w32, false⟩ 0xBFFFFC (.ofWord 1) (.ofWord 0) 3).permitted (th.c.queue.take 0) = true ∧
    LegalAt th 0xBFFFFC 4 ∧ th.coreOf (0xBFFFFC / 2 ^ 24) < s.cores.length ∧ (s.pad th 0xBFFFFC).mark (0xBFFFFC / 8) = none :=
  ⟨rfl, rfl, rfl, ⟨by decide, by decide, by decide, by decide⟩, by decide, rfl⟩

/-- A line of the L1, of numbers from n on. -/
def l1Line (n : Nat) (bad : Bool) : L1Line :=
  { line := n, bytes := (List.range 64).map (BitVec.ofNat 8 <| · + n), marks := List.replicate 8 none, bad := bad }

/-- A load of the last word of line 63 of a pane that holds that line with a wrong parity, and eight others of its set; a load that hits; a linv,
stores through and around the L1, an aop whose value is poisoned, each at the head of the queue. -/
theorem test_meets_ScratchpadAccessesPerformed_2 :
    let at_ := fun x : CAccess => (during .c (queued 1 x)).modCore 0 fun c =>
      { c with l1 := l1Line 63 true :: (List.range 8).map fun i => l1Line (127 + 64 * i) false }
    LegalAt thread 4088 8 ∧ LegalAt thread 8184 8 ∧ thread.life.rect.lead < (at_ .mark).cores.length ∧ (∀ x : CAccess, NoLatent (at_ x)) ∧
    (∀ x : CAccess, x.permitted ((queued 1 x).c.queue.take 0) = true) ∧ (∀ x, (queued 1 x).c.queue[0]? = some x) ∧
    (((at_ .mark).core 0).l1.find? fun y => y.line == 4088 / 64 && !y.bad) = none ∧
    (((at_ .mark).core 0).l1.find? fun y => y.line == 8184 / 64 && !y.bad) = some (l1Line 127 false) ∧
    l1Line 63 true ∈ ((at_ .mark).core 0).l1 ∧ (l1Line 63 true).line = 4088 / 64 ∧ (l1Line 63 true).bytes.length = 64 ∧
    (l1Line 63 true).marks.getD (4088 % 64 / 8) none = none ∧ (Val.ofWord 1).mark = none ∧
    meet (meet none (some 9)) (if AopOp.add = AopOp.cas then (Val.ofWord 0).mark else none) = some 9 := by
  refine ⟨⟨?_, ?_, ?_, ?_⟩, ⟨?_, ?_, ?_, ?_⟩, ?_, fun x => ?_, fun x => ?_, fun _ => rfl, rfl, rfl, ?_, rfl, rfl, rfl, rfl, rfl⟩
  case refine_10 =>
    intro c
    rcases c with _ | c
    · rfl
    · exact noLatent_during .c (queued 1 x) (c + 1)
  case refine_11 => cases x <;> rfl
  case refine_12 => exact .head _
  all_goals decide

theorem test_meets_ScratchpadFrame :
    (∃ t, exec (.st .w64 (.belt 4) (.belt 2) 0) (during .c thread) = .next t) ∧ NoLatent (during .c thread) :=
  ⟨⟨_, rfl⟩, noLatent_during _ _⟩

/-- Tiles and records that a load and a store suit, at the last granule of the extent; a scale tile; an index tile. -/
theorem test_meets_AccessAndCopyCommandsIssue :
    let s := during .a tiled
    let k := word4 .a
    Issues s k tiled ∧ tiled.a.cmds.length < 64 ∧ (tiled.src k (.belt 4)).Clean ∧ (tiled.src k (.belt 14)).Clean ∧
    recV (tiled.record 1) = true ∧ Suits tiled 100 (tiled.record 1) (.tile 1) 0 ∧ boundOk (tiled.record 1) 0 = true ∧
    rowsOk { cmdOf k (.tld none false 1 (.tile 1) (.belt 4) (.belt 0)) (.ofWord 0) {} {} with brec := tiled.record 1 } 1 = true ∧
    recFmt (tiled.record 2) ≤ 5 ∧ recRow (tiled.record 2) % blockBytes (recFmt (tiled.record 2)) = 0 ∧ (20 : Nat) ≤ 254 ∧
    tiled.tile? 20 = some { desc := 20, st := .full, since := 100 } ∧ (1 : Nat) ≤ leadSize tiled.life.rect 20 ∧
    (s.leadBytes tiled 20 64).2 = none ∧ indexDist 20 = true ∧
    spRowsOk tiled.life.rect 0 0xBFFFC0 0 = true ∧ (0xBFFFC0 : Word).toNat % 64 = 0 ∧ (256 : Nat) ≤ 256 := by
  refine ⟨issues_during _ _ rfl, by decide, ⟨rfl, rfl⟩, ⟨rfl, rfl⟩, rfl, ⟨rfl, .inl rfl, by decide⟩, rfl, rfl, ?_, ?_, ?_, rfl, ?_, rfl, ?_,
    ?_, ?_, ?_⟩ <;> decide

/-- A copy of the last block of a pane; a nest of no block, one of 2^48 and one beyond. -/
theorem test_meets_AccessAndCopyCommandsIssue_2 :
    let ls := fun a b : BitVec 32 => ([{ c := a }, { c := b }] : List Level)
    nestProduct (tiled.a.nests.getD 3 []) = 1 ∧ nestOk 1 8 Level.src (tiled.a.nests.getD 3 []).reverse 0xBFFFF8 = true ∧
    nestOk 1 8 Level.src (tiled.a.nests.getD 3 []).reverse 0xC00000 = false ∧ nestProduct (ls 0 5) = 0 ∧
    nestProduct (ls 0x1000000 0x1000000) = 2 ^ 48 ∧ 2 ^ 48 < nestProduct (ls 0x1000001 0x1000000) ∧
    0 ≤ (56 : Int) + nestMin Level.src (tiled.a.nests.getD 3 []) ∧
    (56 : Int) + nestMax Level.src (tiled.a.nests.getD 3 []) + 8 ≤ recExtent (tiled.record 1) := by decide

/-- A payload that ends at the scratchpad's end; a flag there; a result block there; a mode word of K 64; an atomic's last word. -/
theorem test_meets_MessagesIssue :
    Issues (during .a tiled) (word4 .a) tiled ∧ (tiled.src (word4 .a) (.belt 0)).Clean ∧ MaySend tiled 0xBFFFF8 0xBFFFF8 8 ∧
    sendLen 0x0000000800BFFFF8 = 8 ∧ sendSrc 0x0000000800BFFFF8 = 0xBFFFF8 ∧ sendLen 0x0000000000BFFFF8 = 0 ∧ dstFlagw 0xBFFFF8 = 0 ∧
    fieldNat (0x0000000800BFFFF8 : Word) 31 28 = 0 ∧ 8 * dstFlagw 0x00BFFFF800BFFFF8 ≤ 0xBFFFF8 ∧ dstOff 0xBFFDC0 % 64 = 0 ∧
    dstOff 0xBFFDC0 + 544 ≤ 0xC00000 ∧ fieldNat (0x4000000000000000 : Word) 62 56 = 64 ∧ fieldNat (0x4000000000000000 : Word) 54 48 = 0 ∧
    byteVa (tiled.record 1) 56 = .at_ 0x10038 ∧ 0x10038 % 8 = 0 ∧ recBchk (tiled.record 5) = 1 ∧ ¬ ((64 : Int) < recExtent (tiled.record 5)) ∧
    fieldNat (0 : Word) 30 23 ≠ 255 := by
  refine ⟨issues_during _ _ rfl, ⟨rfl, rfl⟩, ⟨?_, ?_, ?_, ?_, ?_, ?_⟩, ?_, ?_, ?_, ?_, ?_, ?_, ?_, ?_, ?_, ?_, ?_, ?_, ?_, ?_, ?_⟩ <;> decide

/-- Sixty-four commands. -/
def full : Thread := { tiled with a := { tiled.a with cmds := List.replicate 64 (cmdOf (word4 .a) .stop {} {} {}) } }

theorem test_meets_CommandsThatDoNotIssue :
    recV (tiled.record 0) = false ∧ tiled.descOf 100 (.tile 254) = none ∧ tiled.descOf 100 (.tile 1) = some 0 ∧
    (tiled.src (word4 .a) (.belt 0)).bits.toNat % 64 ≠ 0 ∧ dstFlagw 0x0000080000000000 ≠ 0 ∧ 64 ≤ full.a.cmds.length ∧
    meet (tiled.src (word4 .a) (.belt 2)).mark none = some 9 ∧ Suits tiled 100 (tiled.record 1) (.tile 5) 5 ∧
    tiled.writer 100 (.tile 5) = .wait ∧ ¬ MaySend tiled 0xC00000 0 8 ∧ (tiled.src (word4 .a) (.belt 2)).mark = some 9 ∧
    (TileRef.tile 254) ≠ .tile 255 := by
  refine ⟨rfl, rfl, rfl, by decide, by decide, by decide, rfl, ⟨rfl, .inl rfl, by decide⟩, rfl, fun h => absurd h.2.2.1 (by decide), rfl, by decide⟩

theorem test_meets_RecordsTilesAndNests :
    Issues (during .a tiled) (word4 .a) tiled ∧ (tiled.src (word4 .a) (.belt 4)).Clean ∧ LegalAt tiled 0xBFFFE0 32 ∧
    ¬ LegalAt tiled 8 32 ∧ tiled.rangeHeld tiled.a.cmds [(0, 32)] = false ∧
    recOk (((during .a tiled).spWords tiled 0 4).map (·.1)) = true ∧ descOk tiled.life.rect 0 = true ∧
    descOk tiled.life.rect 0x2000000000 = false ∧ trTiles tiled.life.record ≤ 254 ∧
    tiled.tile? 1 = some { desc := 0 } ∧ ({ desc := 0 } : Tile).busy 100 = false ∧ tiled.ring? 100 31 = none ∧
    tiled.joinable 31 ((List.range 1).map (1 + ·)) = true ∧ tiled.ring? 100 5 = some { first := 10, n := 2, tail := 1 } ∧
    ({ desc := 10, st := .full, ring := some 5 } : Tile).busy 100 = false ∧ (5 : BitVec 3).toNat ≤ 5 ∧ 5 < (6 : BitVec 3).toNat := by
  refine ⟨issues_during _ _ rfl, ⟨rfl, rfl⟩, ⟨by decide, by decide, by decide, by decide⟩, fun h => absurd h.2.2.2 (by decide), rfl, rfl, rfl, rfl,
    by decide, rfl, rfl, rfl, rfl, rfl, rfl, by decide, by decide⟩

/-- A load and a store of one granule at a page that the TLB holds. -/
def moving (i : Instr) (t : Taken) : Cmd :=
  { cmdOf (word4 .a) i (.ofWord 0) {} {} with id := 1, brec := tiled.record 1, taken := some t, total := 1 }

def movingTh (c : Cmd) : Thread := { tiled with a := { tiled.a with cmds := [c] } }

def movingSt (c : Cmd) : State :=
  (during .a (movingTh c)).modDie 0 fun d => { d with tlb := [⟨3, some 5, 1, 1, true, true, true⟩] }

theorem test_meets_TileElementsMoveTheirBytes :
    let c := moving (.tld none false 1 (.tile 5) (.belt 4) (.belt 0)) ⟨5, none⟩
    let th := movingTh c
    let s := movingSt c
    s.thread? 1 = some th ∧ th.cmd? 1 = some c ∧ th.engineOn c = true ∧ s.cmdFree th c = true ∧ s.missing th c 0 = none ∧
    s.logWaits th c = false ∧ s.hostBad = [] ∧ s.cmdPhys th c 0 = (List.range 64).map (fun i => some (0x10000 + i)) ∧ (s.homeOf 0x400).isForeign = false ∧
    th.coreOf 0 < s.cores.length := by
  refine ⟨rfl, rfl, rfl, ?_, ?_, rfl, rfl, ?_, rfl, ?_⟩ <;> decide

theorem test_meets_TileElementsMoveTheirBytes_2 :
    let c := moving (.tst none 1 (.tile 2) (.belt 4)) ⟨2, none⟩
    let th := movingTh c
    let s := movingSt c
    s.thread? 1 = some th ∧ th.cmd? 1 = some c ∧ th.engineOn c = true ∧ s.cmdFree th c = true ∧ s.missing th c 0 = none ∧
    (s.tileGran th 1 0 0).2 = none ∧ s.mem.mark 0x400 = none ∧ ((s.cmdPhys th c 0).filterMap fun q => q).length = 64 := by
  refine ⟨rfl, rfl, rfl, ?_, ?_, rfl, rfl, ?_⟩ <;> decide

theorem test_meets_CommandFrame :
    (∃ t, exec (.tfree (.tile 1)) (during .a tiled) = .next t) ∧ (∃ t, exec (.fence .dev none) (during .a tiled) = .next t) ∧
    NoLatent (during .a tiled) := ⟨⟨_, rfl⟩, ⟨_, rfl⟩, noLatent_during _ _⟩

/-- Tables at 1 MiB that map the first addresses to themselves: a level 0 entry to a table at 0x110000 whose entry 0 is a leaf. -/
def tables : Mem := { cells := [(0x100000, 3), (0x100002, 0x11), (0x110000, 0x1D)] }

/-- The same for both stages of partition 3 and CTX 5. -/
def mapped (s : State) : State :=
  ({ s with mem := tables } : State).modPart 3 fun p =>
    { p with
      set := { p.set with proot := 0x100000, nslot := 4, slotlog := 30, ctxtab := [(0, (0x8000000000000005, 0x100000))] }
      queues := setAt p.queues 0 { cfg := 0x8000000000000000 } }

/-! #### Groups, tasks, fragments -/

/-- Words that carry no mark, by a check that evaluates over the list itself. -/
theorem none_of_all {l : List (Word × Mark)} (h : (l.all fun w => w.2.isNone) = true) : ∀ w ∈ l, w.2 = none := by
  intro w hw
  have := List.all_eq_true.1 h w hw
  exact Option.isNone_iff_eq_none.1 this

/-- A group of key 5 that thread 1 is in or not, its episode open or not. -/
def grouped (g : Group) : State := (during .c thread).modPart 3 fun p => p.setGroup 255 (some g)

/-- The clauses of GroupInstructions: a group found at the last index with the thread outside it; inside it, with no episode open; with one that
awaits it; and with one that does not. No group; a free entry; a status latched. -/
theorem test_meets_GroupInstructions :
    Issues (grouped { key := 5, members := [2] }) (word4 .c) thread ∧ (thread.src (word4 .c) (.belt 0)).Clean ∧
    (thread.src (word4 .c) (.belt 0)).bits ≠ 0 ∧
    ((grouped { key := 5, members := [2] }).part 3).findGroup 5 = some (255, { key := 5, members := [2] }) ∧ 1 ∉ [2] ∧ 1 ∈ [2, 1] ∧
    thread.life.keys.length < 16 ∧ 16 ≤ ({ thread with life := { thread.life with keys := List.replicate 16 9 } } : Thread).life.keys.length ∧
    thread.c.pending = .none ∧ thread.sc.latched = false ∧ thread.c.queue = [] ∧ ((during .c thread).part 3).findGroup 5 = none ∧
    ((during .c thread).part 3).freeGroup = some 0 ∧ ({ regs := regs, pending := .barDone 7 } : CState).pending = .barDone 7 := by
  refine ⟨⟨rfl, rfl⟩, ⟨rfl, rfl⟩, ?_, rfl, ?_, ?_, ?_, ?_, rfl, rfl, rfl, rfl, rfl, rfl⟩ <;> decide

/-- A full table. -/
theorem test_meets_GroupInstructions_2 :
    let p : Part := { groups := (List.range 256).map fun i => (i, some { key := 9, members := [2] }) }
    p.findGroup 5 = none ∧ p.freeGroup = none := by decide

/-- The last range register and the first number beyond; a control word of P 1 and M 1, and one of P 0; an access not performed. -/
theorem test_meets_RangesYieldAndCheckpoint :
    Issues (during .c thread) (word4 .c) thread ∧ (thread.src (word4 .c) (.belt 0)).Clean ∧ (63 : Nat) < 64 ∧ ¬ ((64 : Nat) < 64) ∧
    (thread.src (word4 .c) (.belt 8)).bits.toNat = 64 ∧
    ¬ (fieldNat (0x000000000100013F : Word) 23 8 = 0 ∨ fieldNat (0x000000000100013F : Word) 47 24 = 0 ∨
      fieldNat (0x000000000100013F : Word) 7 6 ≠ 0 ∨ fieldNat (0x000000000100013F : Word) 63 48 ≠ 0 ∨ 2 ^ 40 ≤ (5 : Nat) ∨ 2 ^ 40 ≤ (5 : Nat)) ∧
    fieldNat (0x000000000100003F : Word) 23 8 = 0 ∧ thread.c.queue = [] ∧ (queued 1 .mark).c.queue ≠ [] ∧ thread.inKernel .c = false ∧
    thread.sc.latched = false ∧ thread.c.pending = .none := by
  refine ⟨issues_during _ _ rfl, ⟨rfl, rfl⟩, ?_, ?_, rfl, ?_, ?_, rfl, ?_, rfl, rfl, rfl⟩ <;> decide

/-- An enabled queue of 16 slots with room, a full one, and one of the host; a good record and a bad one; another CTX. -/
theorem test_meets_SpawnEnqueuesOrRefuses :
    let z : Queue := { cfg := 0x8000000000000000, head := 1, tail := 16 }
    let r : List Word := [0, 0, 0, 0, 0, 0, 0, 0]
    LegalAt thread 0xBFFFC0 64 ∧ ¬ LegalAt thread 32 64 ∧ NoLatent (during .c thread) ∧
    (∀ w ∈ (during .c thread).spWords thread 0 8, w.2 = none) ∧ ((during .c thread).spWords thread 0 8).map (·.1) = r ∧ recordOk r = true ∧
    recordOk [1, 0, 0, 0, 0, 0, 0, 0] = false ∧ trCtx [0, 0, 0, 0, 0, 6, 0, 0] ≠ 0 ∧ trCtx [0, 0, 0, 0, 0, 6, 0, 0] ≠ thread.life.ctx ∧
    ¬ (31 < (31 : Nat) ∨ z.en = false ∨ z.host = true) ∧ z.depth < z.size ∧ ¬ ({ z with tail := 17 } : Queue).depth < z.size ∧
    ({ z with cfg := 0x8000000000000020 } : Queue).host = true := by
  refine ⟨⟨?_, ?_, ?_, ?_⟩, fun h => absurd h.2.2.2 ?_, noLatent_during _ _, none_of_all rfl, rfl, rfl, rfl, ?_, ?_, ?_, ?_, ?_, ?_⟩ <;> decide

/-- A partition whose stage maps the intermediate page that holds its queue takes the record. -/
theorem test_meets_SpawnEnqueuesOrRefuses_2 :
    ((mapped (during .c thread)).enqueueRecord 3 0 [0, 0, 0, 0, 0, 5, 0, 0]).isSome = true := by decide

theorem test_meets_DoneEndsTheThread :
    let th : Thread := { idleOthers with life := { thread.life with record := [0, 0, 0x10038, 0, 0, 0, 0, 0] } }
    let s : State := { (during .c th).modDie 0 fun d => { d with tlb := [⟨3, some 5, 1, 1, true, true, true⟩] } with mem := { cells := [(0x10038, 1)] } }
    Issues s (word4 .c) th ∧ th.inKernel .c = false ∧ s.drained177 th = true ∧ (during .c thread).drained177 thread = false ∧
    trCont th.life.record = 0 ∧ trJoin th.life.record ≠ 0 ∧ trJoin thread.life.record = 0 ∧ (0x10038 : Nat) % 8 = 0 ∧
    s.tlbGet 0 3 5 0x10038 .atomic = some 0x10038 ∧ s.mem.mark (0x10038 / 64) = none ∧ s.physWord 0x10038 ≠ 0 := by
  refine ⟨⟨rfl, rfl⟩, rfl, rfl, rfl, rfl, ?_, rfl, rfl, rfl, rfl, ?_⟩ <;> decide

/-- A fragment at the die's west edge; one with a partner on its east; one with a link; the drain point; a fuse to 2 by 2 of panes that the
partition has, and a bar; a split of two panes with its list. -/
def pair : Thread := { idleOthers with life := { thread.life with rect := { lcols := 1 } } }

def owner : State :=
  { during .c pair with
    clusters := State.reset.clusters.map fun c => { c with asn := true, part := 3 }
    parts := State.reset.parts.map fun p => { p with set := { p.set with slotlog := 30, nslot := 4 } } }

theorem test_meets_FragmentInstructions :
    let o : Thread := { thread with tid := 2, life := { thread.life with rect := { ccol := 2, lcols := 1 }, offerW := true } }
    let s : State := { during .c pair with threads := [pair, o] }
    Issues s (word4 .c) pair ∧ pair.isLoop = false ∧ pair.c.pending = .none ∧ pair.life.chainE = none ∧ pair.life.rect.ccol = 0 ∧
    s.partner pair false = some o ∧ s.thread? 2 = some o ∧ linkable pair o = true ∧ ¬ (pair.life.rect.ccol + pair.life.rect.cols = 4) ∧
    o.sm.idleAt 100 = false ∧ pair.sm.idleAt 100 = true ∧ pair.m.ops = [] ∧ (pair.life.chainW.bind s.thread?) = none ∧
    s.drained177 pair = true ∧ (during .c thread).drained177 thread = false := by
  refine ⟨⟨rfl, rfl⟩, rfl, rfl, rfl, rfl, rfl, rfl, rfl, ?_, rfl, rfl, rfl, rfl, rfl, rfl⟩
  decide

theorem test_meets_FragmentInstructions_2 :
    let target := fuseTarget pair.life.rect 5
    owner.drained177 pair = true ∧ ¬ (1 < pair.life.rect.lrows ∨ 5 % 4 < pair.life.rect.lcols ∨ 5 = pair.life.rect.shape) ∧
    1 = pair.life.rect.shape ∧ pair.linked = false ∧ pair.bpHeld = false ∧ (∀ c ∈ target.cores, owner.ownPane 3 c = true) ∧
    saveLen (target.rows * target.cols) pair.life.record [] pair.life.handles.length ≤ owner.slotSize 3 ∧
    (owner.modCores [0, 1, 4, 5] fun c => { c with lease := .leased 1 }).fuseReady pair target = true ∧
    (owner.modCores [0, 1, 4, 5] fun c => { c with lease := .leased 9 }).fuseReady pair target = false ∧
    ((during .c pair).ownPane 3 0 = false) := by
  refine ⟨rfl, ?_, rfl, rfl, rfl, ?_, ?_, rfl, rfl, rfl⟩ <;> decide

/-- A split into single panes whose list, at 0, lets the other pane go; and one that starts a child from the record at 0x40. -/
theorem test_meets_FragmentInstructions_3 :
    (0 : Nat) ≤ pair.life.rect.lrows ∧ (subRects pair.life.rect 0).length = 1 ∧ (pair.src (word4 .c) (.belt 4)).Clean ∧ LegalAt pair 0 8 ∧
    NoLatent (during .c pair) ∧ (∀ w ∈ owner.spWords pair 0 1, w.2 = none) ∧ entryOk pair.panes 0 = true ∧ entryStarts 0 = false ∧
    entryOk pair.panes 0x8000000000000040 = true ∧ entryStarts 0x8000000000000040 = true ∧
    (∀ w ∈ owner.spWords pair 0x40 8, w.2 = none) ∧ recordOk ((owner.spWords pair 0x40 8).map (·.1)) = true ∧
    trCtx ((owner.spWords pair 0x40 8).map (·.1)) = 0 ∧ 1 ≤ (owner.freeSlots 3 1).length ∧ ((during .c pair).freeSlots 3 1).length < 1 := by
  refine ⟨?_, rfl, ⟨rfl, rfl⟩, ⟨?_, ?_, ?_, ?_⟩, noLatent_during _ _, none_of_all rfl, rfl, rfl, rfl, rfl, none_of_all rfl, rfl, rfl, ?_, ?_⟩ <;> decide

/-! #### Token units -/

/-- A config word of HLOG 12 and a quota of 2^21 is accepted; a quota of 0 is not; a partition of small slots refuses. -/
theorem test_meets_SuffixSlotsOpenAndClose :
    (∃ o, owner.openSlot pair 0x080C000000200000 0 = .ok 0 0 o) ∧ owner.openSlot pair 0x080C000000000000 0 = .bad ∧
    (during .c pair).openSlot pair 0x080C000000200000 0 = .refused 2 ∧ owner.current pair 0 = false ∧ pair.c.queue = [] ∧
    (owner.modDie 0 fun d => d.setSlot 7 { isOpen := true, gen := 2, part := 3, ctx := 5 }).current pair 0x200000007 = true := by
  refine ⟨⟨_, rfl⟩, rfl, rfl, rfl, rfl, rfl⟩

/-- An open slot of three tokens and HLOG 0 whose ring is at 0. -/
def opened : State :=
  (mapped (during .c pair)).modDie 0 fun d =>
    d.setSlot 7 { isOpen := true, gen := 2, part := 3, ctx := 5, npos := 3, quota := 4 }

/-- smapp of two tokens at 0, at position 3; smprop whose ring page translates; smsave to a mapped address. -/
theorem test_meets_SuffixSlotsUsed :
    let o := (opened.die 0).slot 7
    let s1 := opened.advance (word4 .c)
    opened.current pair 0x200000007 = true ∧ fieldNat (0x0000000200000000 : Word) 31 28 = 0 ∧
    fieldNat (0x0000000200000000 : Word) 63 32 ≤ 256 ∧ legal32 pair.panes 0 2 = true ∧
    (opened.words32 pair 0 2).2 = none ∧ (∀ t ∈ (opened.words32 pair 0 2).1, t < 2 ^ 24) ∧ o.npos + 2 ≤ 2 ^ 40 ∧
    (s1.ringFault 0 o (lastPos (o.npos + 2) (min (o.npos + 2) 34))).2 = none ∧ 0 < opened.dies.length ∧
    (s1.ringFault 0 o (propReads o (fun _ _ => none) (fun p => s1.ringTok 0 0 7 o p) 1 4)).2 = none ∧ ¬ (o.npos < 2) ∧
    (let u := (s1.ringFault 0 o (lastPos o.npos (min o.npos o.hcap))).1
     (s1.ringFault 0 o (lastPos o.npos (min o.npos o.hcap))).2 = none ∧ (u.probeVirt 0 3 5 0x20000 (u.dump 0 0 7).length .wr).2 = none) := by
  refine ⟨rfl, rfl, ?_, rfl, rfl, ?_, ?_, rfl, ?_, rfl, ?_, rfl, rfl⟩ <;> decide

/-- The dump of an empty slot of quota 4, with the CRC-32 that any implementation of the polynomial gives it. -/
def emptyDump : List (BitVec 8) :=
  [1, 0, 80, 77, 85, 68, 77, 83] ++ List.replicate 24 0 ++ [4] ++ List.replicate 15 0 ++ [0xD1, 0xC5, 0xDB, 0xA1] ++ List.replicate 12 0

theorem test_meets_SuffixSlotsUsed_2 :
    word8 emptyDump 0 = 0x534D44554D500001 ∧ dumpLen emptyDump = 64 ∧
    dumpOk emptyDump { isOpen := true, gen := 2, part := 3, ctx := 5, quota := 4 } [] = true ∧
    (∃ o, (mapped (during .c pair)).openSlot pair 0x0800000000000004 0 = .ok 0 0 o) ∧
    (let s1 := ({ mapped (during .c pair) with mem := { cells := (emptyDump.zipIdx.map fun p => (0x20000 + p.2, p.1)).filter fun p => p.2 != 0 } } : State)
     s1.mem.read 0x20000 64 = emptyDump) := by
  refine ⟨rfl, rfl, ?_, ⟨_, rfl⟩, rfl⟩
  decide

/-! #### Sampling, traps, system registers -/

/-- A descriptor at 0 of one shard at 0x40, whose block is done and empty, or is not done. -/
def sampling (done : Bool) : State :=
  let m : Mem := { cells := [(12, 1), (16, 0x40)] ++ if done then [(0x47, 0x80)] else [] }
  { during .c thread with cores := setAt State.reset.cores 0 { sp := m } }

theorem test_meets_DrawsAndSamples :
    let ds := ((sampling true).sampleWords thread 0 8).2.map (·.1)
    (thread.src (word4 .c) (.belt 4)).Clean ∧ (thread.src (word4 .c) (.belt 2)).There ∧ LegalAt thread 0 64 ∧ thread.c.queue = [] ∧
    (∀ q ∈ ((sampling true).sampleWords thread 0 8).2, q.2 = none) ∧ descOk296 ds = true ∧ (List.range 1).map (shardWord ds) = [0x40] ∧
    legal32 thread.panes (fieldNat (ds.getD 6 0) 27 0) (fieldNat (ds.getD 1 0) 47 40) = true ∧
    (sampling true).readAll thread [(0x40, 2)] = (sampling true, .ok [[0, 2 ^ 31]]) ∧
    (sampling false).readAll thread [(0x40, 2)] = (sampling false, .ok [[0, 0]]) ∧
    (sampling true).readAll thread [(0, 0), (0x48, 6)] = (sampling true, .ok [[], [0, 0, 0, 0, 0, 0]]) ∧ ¬ LegalAt thread 8 64 := by
  refine ⟨⟨rfl, rfl⟩, rfl, ⟨?_, ?_, ?_, ?_⟩, rfl, none_of_all rfl, rfl, rfl, rfl, rfl, rfl, rfl, fun h => absurd h.2.2.2 ?_⟩ <;> decide

/-- The life of a thread in each of the states a trap can find it in; a kernel. -/
theorem test_meets_TrapsTakenAndRaised :
    (thread.life.trapping = false ∧ thread.life.phase = .running) ∧
    (({ thread.life with phase := .saving 3 99 } : Life).phase = .saving 3 99 ∧ (3 : Nat) ≠ 2) ∧
    ({ thread.life with phase := .saving 2 99 } : Life).trapping = false ∧ ({ thread.life with trapping := true } : Life).trapping = true ∧
    thread.inKernel .c = false ∧
    ({ thread with sc := { strm with subs := [(0, 0), (2, 5), (0, 0)] }, loop := { s := 2, n := 1, t := 2, inStep := true } } : Thread).inKernel .c
      = true := by
  refine ⟨⟨rfl, rfl⟩, ⟨rfl, ?_⟩, rfl, rfl, rfl, rfl⟩
  decide

/-- Register numbers at the ends of the ranges: the last counter of M, the last window of pane 15, none. -/
theorem test_meets_SystemRegistersRead :
    Issues (during .c thread) (word4 .c) thread ∧ (RegNum.short 0x04F).num = 0x04C + 3 ∧ (RegNum.short 0x17F).num = 0x100 + 8 * 15 + 7 ∧
    thread.panes ≤ 15 ∧ 0 < thread.panes ∧ 0x180 ≤ (RegNum.lit 0x180).num ∧ (RegNum.short 0x00F).num < 0x010 ∧
    (RegNum.short 0x088).num = 0x088 := by
  refine ⟨issues_during _ _ rfl, ?_, ?_, ?_, ?_, ?_, ?_, ?_⟩ <;> decide

theorem test_meets_SystemRegistersWritten :
    Issues (during .c idleOthers) (word4 .c) idleOthers ∧ (idleOthers.src (word4 .c) (.belt 4)).Clean ∧
    (StreamId.m, 0x04C) ∈ [(StreamId.c, 0x040), (.a, 0x044), (.v, 0x048), (.m, 0x04C)] ∧ idleOthers.sm.idleAt 100 = true ∧
    thread.sm.idleAt 100 = false ∧ (0x0000FFFFFFFFFFFF : Word).toNat < 2 ^ 48 ∧ 2 ^ 48 ≤ (0x0001000000000000 : Word).toNat ∧
    (255 : Word).toNat < 2 ^ 8 ∧ 2 ^ 8 ≤ (256 : Word).toNat ∧ (31 : Word).toNat < 2 ^ 5 ∧ 2 ^ 5 ≤ (32 : Word).toNat ∧
    fieldNat (0 : Word) 44 36 = 0 ∧ fieldNat (0x0000001000000000 : Word) 44 36 ≠ 0 := by
  refine ⟨issues_during _ _ rfl, ⟨rfl, rfl⟩, ?_, ?_, ?_, ?_, ?_, ?_, ?_, ?_, ?_, ?_, ?_⟩ <;> decide

theorem test_meets_PoisonTestAndFaultRequest :
    let p : Thread := { thread with tid := 2, life := { thread.life with slot := 5, phase := .parked } }
    let s : State := { during .c thread with threads := [thread, p] }
    Issues s (word4 .c) thread ∧ (thread.src (word4 .c) (.belt 0)).Clean ∧ fieldNat (5 : Word) 63 16 = 0 ∧
    (s.threads.find? fun t => t.life.phase == .parked && t.life.part == 3 && t.life.ctx == 5 && t.life.slot == 5) = some p ∧
    (∀ t ∈ (during .c thread).threads, t.life.phase ≠ .parked) ∧ thread.a.cmds = [] ∧ writesAfar (.send .cw (.belt 0) (.belt 0)) = true ∧
    fieldNat (thread.src (word4 .c) (.belt 7)).bits 63 16 ≠ 0 ∧ (regs.belt.getD 15 Val.empty).void = true ∧
    regs.isVoid (.belt 2) = false ∧ (none : Option Word).getD 0 = 0 ∧ (some (5 : Word)).getD 0 ≠ 0 := by
  refine ⟨⟨rfl, rfl⟩, ⟨rfl, rfl⟩, rfl, rfl, ?_, rfl, rfl, ?_, rfl, rfl, rfl, ?_⟩ <;> decide

/-! #### Vectors -/

/-- A vector belt whose second vector waits for a load; a register with a poisoned lane and a set one; one mask whose last lane is off. -/
def lanes : Thread :=
  { thread with
    v := {
      belt := [{ lanes := List.replicate 64 { bits := 1 } }, { lanes := List.replicate 64 {}, wait := some 7 }]
      file := setAt (List.replicate 32 {}) 31 { lanes := { bits := 0, mark := some 9 } :: List.replicate 63 { bits := 5 } }
      masks := [List.replicate 63 true ++ [false]] } }

/-- Vector operands that are there, with and without a bank conflict, at the last register; one that is not. -/
theorem test_meets_VectorLaneResults :
    Issues (during .v lanes) (word4 .v) lanes ∧
    VGo (during .v lanes) (word4 .v) lanes [.named 31] (lanes.v.active lanes.lanes true) (some 31) 0 ∧
    VGo (during .v lanes) (word4 .v) lanes [.belt 0, .named 31] (lanes.v.active lanes.lanes false) none 0 ∧
    VGo (during .v lanes) (word4 .v) lanes [.named 0, .named 4, .named 8] (lanes.v.active lanes.lanes false) none 2 ∧
    VGo (during .v lanes) (word4 .v) lanes [] (lanes.v.active lanes.lanes true) (some 0) 0 ∧
    ¬ VGo (during .v lanes) (word4 .v) lanes [.belt 1] (lanes.v.active lanes.lanes true) none 0 ∧
    (viBits (.lit 0xFFFFFFFF)).isSome = true ∧ (viBits (.short (-2097152))).isSome = true ∧ (2 : Nat) ^ 32 ≤ (0x100000000 : Word).toNat ∧
    vcvtTakesB .s8 .f32 = true ∧ vcvtTakesB .f32 .s8 = false := by
  refine ⟨issues_during _ _ rfl, ⟨rfl, rfl, by decide⟩, ⟨rfl, rfl, by decide⟩, ⟨rfl, rfl, by decide⟩, ⟨rfl, rfl, by decide⟩,
    (fun h => by cases h.1), ?_, ?_, ?_, ?_, ?_⟩ <;> decide

/-- The last element of a lane of bytes; a code of the largest and of the least number. -/
theorem test_meets_ElementArithmetic :
    laneFloat .s8 = false ∧ 3 < 32 / LaneBits .s8 ∧ (0xFF7FFFFF : Nat) < 2 ^ Fmt.f32.width ∧
    (∃ m e, decodeNum .f32 0xFF7FFFFF = .fin true m e) ∧ (∃ m e, decodeNum .f32 1 = .fin false m e) :=
  ⟨rfl, by decide, by decide, ⟨_, _, rfl⟩, ⟨_, _, rfl⟩⟩

theorem test_meets_VectorWholeResults :
    VGo (during .v lanes) (word4 .v) lanes [.named 31] (lanes.v.active lanes.lanes false) none 0 ∧
    VGo (during .v lanes) (word4 .v) lanes [.named 31, .belt 0] (lanes.v.active lanes.lanes true) (some 1) 0 ∧
    (lanes.v.active lanes.lanes true)[62]? = some true ∧ (lanes.v.active lanes.lanes true)[63]? = some false ∧
    62 < (lanes.v.read lanes.lanes (.named 31)).length ∧ 0 < lanes.panes :=
  ⟨⟨rfl, rfl, by decide⟩, ⟨rfl, rfl, by decide⟩, rfl, rfl, by decide, by decide⟩

/-- A full mask stack; no mask; a lane whose first is poisoned. -/
theorem test_meets_VectorControl :
    Issues (during .v lanes) (word4 .v) lanes ∧ (viBits (.short 1)).isSome = true ∧ lanes.v.pending (during .v lanes).now (.belt 0) = false ∧
    ((lanes.v.read lanes.lanes (.belt 0)).getD 0 {}).mark = none ∧ ((lanes.v.read lanes.lanes (.named 31)).getD 0 {}).mark = some 9 ∧
    VGo (during .v lanes) (word4 .v) lanes [.belt 0] (lanes.v.top lanes.lanes) none 0 ∧ lanes.v.masks.length < 16 ∧
    (∀ y ∈ activeOf (lanes.v.top lanes.lanes) (lanes.v.read lanes.lanes (.belt 0)), y.mark = none) ∧
    16 ≤ ({ lanes.v with masks := List.replicate 16 [] } : VState).masks.length ∧ thread.v.masks = [] ∧ lanes.sv.repCount = 0 ∧
    (∃ y ∈ lanes.v.top lanes.lanes, y = true) ∧
    (∀ y ∈ ({ lanes.v with masks := [List.replicate 64 false] } : VState).top 64, y = false) ∧
    ((4 : BitVec 16).toNat : Int) + (-4 : BitVec 24).toInt = (0 : Nat) ∧ MayLand (during .v lanes) lanes (word4 .v) 0 := by
  refine ⟨issues_during _ _ rfl, rfl, rfl, rfl, rfl, ⟨rfl, rfl, by decide⟩, ?_, ?_, ?_, rfl, rfl, ⟨true, ?_, rfl⟩, ?_, ?_,
    ⟨rfl, rfl, (by intro h; cases h)⟩⟩ <;> decide

/-- The last base of a load, with the offsets at either side of it; a part of five units. -/
def parts : Thread :=
  { lanes with
    tiles := [(1, some { desc := 0x04000000 }), (2, some { desc := 0x04000005, st := .full, since := 100 })]
    v := { lanes.v with idx := setAt lanes.v.idx 7 { val := 0xBFFF00 } } }

theorem test_meets_VectorAccessesIssueAndPerform :
    (let o := parts.v.offset ⟨7, true, true, 0⟩
     VGo (during .v parts) (word4 .v) parts [] (parts.v.active parts.lanes true) (some 0) 0 ∧ 0 ≤ o ∧ o ≤ 0xBFFF00 ∧ o % 4 = 0) ∧
    ¬ (parts.v.offset ⟨7, true, true, 1⟩ ≤ 0xBFFF00) ∧ ¬ (0 ≤ parts.v.offset ⟨0, true, true, -1⟩) ∧
    parts.descOf 100 (.tile 2) = some 0x04000005 ∧ parts.consumer 100 (.tile 2) = .ok ⟨2, none⟩ 0x04000005 ∧
    parts.vsttTake 100 (.tile 1) = .ok ⟨1, none⟩ 0x04000000 ∧ 64 * partUnits parts.life.rect 0x04000000 = 320 ∧
    (316 : Int) < 64 * (partUnits parts.life.rect 0x04000000 : Int) ∧ parts.v.queue = [] ∧
    (∀ p ∈ partPanes parts.life.rect 0x04000000, parts.coreOf p < (during .v parts).cores.length) ∧
    (∀ p ∈ partPanes parts.life.rect 0x04000000, ∀ q ∈ partPanes parts.life.rect 0x04000000, parts.coreOf p = parts.coreOf q → p = q) ∧
    (partPanes parts.life.rect 0x04000000).Nodup ∧ parts.v.offset ⟨0, true, true, 0⟩ % 4 = 0 ∧
    (∀ y ∈ activeOf (parts.v.active parts.lanes false) (parts.v.read parts.lanes (.belt 0)), y.mark = none) := by
  refine ⟨⟨⟨rfl, rfl, ?_⟩, ?_, ?_, ?_⟩, ?_, ?_, rfl, rfl, rfl, ?_, ?_, rfl, ?_, ?_, ?_, ?_, ?_⟩ <;> decide

/-- A load of the last word of a pane and a store of a lane at the first at the head of a V queue. -/
theorem test_meets_VectorAccessesIssueAndPerform_2 :
    let l : Thread := { thread with v := { thread.v with queue := [.load [some 0xBFFFFC, none] 7] } }
    let w : Thread := { thread with v := { thread.v with queue := [.store 0xBFFF00 (List.replicate 64 true) (List.replicate 64 {})] } }
    (during .v l).thread? 1 = some l ∧ NoLatent (during .v l) ∧ l.v.queue = .load [some 0xBFFFFC, none] 7 :: [] ∧ l.lanes ≤ 64 * 16 ∧
    (∀ (i a : Nat), ([some 0xBFFFFC, none] : List (Option Nat))[i]? = some (some a) → a < 2 ^ 24) ∧
    (during .v w).thread? 1 = some w ∧ w.lanes = (List.replicate 64 true).length ∧ (0xBFFF00 : Nat) % 4 = 0 ∧
    (∀ y ∈ (List.replicate 64 {} : List Lane), y.mark = none) ∧ w.panes = 1 ∧ w.coreOf 0 < (during .v w).cores.length := by
  refine ⟨rfl, noLatent_during _ _, rfl, by decide, ?_, rfl, rfl, rfl, by decide, rfl, by decide⟩
  intro i a h
  rcases i with _ | _ | i <;> simp at h
  subst h
  decide

theorem test_meets_VectorFrame :
    (∃ t, exec (.vmov true (.named 31) (some 31)) (during .v lanes) = .next t) ∧ (∃ t, exec .vmpop (during .v lanes) = .next t) ∧
    (∃ t, exec (.vst (.belt 0) ⟨7, true, true, 0⟩) (during .v parts) = .next t) := ⟨⟨_, rfl⟩, ⟨_, rfl⟩, ⟨_, rfl⟩⟩

/-! #### The matrix field -/

/-- A one-pane thread with operand rings 0 and 1, scale rings 2 and 3, a tile to drain as bf16 and one to load as binary32. -/
def field : Thread :=
  { thread with
    tiles := [(30, some { desc := 0x3F0000, st := .full, since := 100, ring := some 0 }),
      (31, some { desc := 0x3F0040, st := .full, since := 100, ring := some 1 }), (32, some { desc := 0x80, st := .full, since := 100, ring := some 2 }),
      (33, some { desc := 0x81, st := .full, since := 100, ring := some 3 }), (40, some { desc := 0x013F0100 }),
      (41, some { desc := 0x033F0200, st := .full, since := 100 }), (42, some { desc := 0x90 })]
    rings := [(0, some { first := 30, n := 1 }), (1, some { first := 31, n := 1 }), (2, some { first := 32, n := 1 }),
      (3, some { first := 33, n := 1 })] }

theorem placed_one (sid : StreamId) (th : Thread) (h : th.panes = 1) (hc : th.coreOf 0 = 0) : Placed (during sid th) th :=
  ⟨(fun p hp => by have : p = 0 := by omega
                   subst this; rw [hc]; show 0 < State.reset.cores.length; decide), fun p q hp hq _ => by omega⟩

/-- The parity empty, and held; the bank done; the east neighbour with an A ring. -/
theorem test_meets_MatrixInstructionsIssue :
    Placed (during .m field) field ∧ field.descOf 100 (.ring 0) = some 0x3F0000 ∧ field.descOf 100 (.ring 1) = some 0x3F0040 ∧
    field.consumer 100 (.ring 0) = .ok ⟨30, some 0⟩ 0x3F0000 ∧ field.consumer 100 (.ring 1) = .ok ⟨31, some 1⟩ 0x3F0040 ∧
    field.m.held.getD (parIx true) false = false ∧ descRows 0x3F0000 = 64 * field.life.rect.rows ∧ descUlen 0x3F0000 = 1 ∧
    field.m.fieldFree 100 = true ∧ ((during .m field).core 0).bp.length = 2 ∧ descRows 0x80 = 1 ∧ descUlen 0x80 = field.life.rect.rows ∧
    ({ field.m with held := [false, true] } : MState).held.getD (parIx true) false = true ∧ field.m.bankLoaded 100 3 = true ∧
    field.consumer 100 (.ring 2) = .ok ⟨32, some 2⟩ 0x80 ∧ field.consumer 100 (.ring 3) = .ok ⟨33, some 3⟩ 0x81 ∧
    field.m.bankDone 100 3 = true := by
  refine ⟨placed_one _ _ rfl rfl, ?_, ?_, ?_, ?_, ?_, ?_, ?_, ?_, ?_, ?_, ?_, ?_, ?_, ?_, ?_, ?_⟩ <;> first | rfl | decide

theorem test_meets_MatrixInstructionsIssue_2 :
    let o : Thread := { field with tid := 2, rings := [(0, some { first := 30, n := 1 })], tiles := [(30, some { desc := 0x3F0000, ring := some 0 })] }
    let th : Thread := { field with life := { field.life with chainE := some 2 } }
    field.consumer 100 (.tile 41) = .ok ⟨41, none⟩ 0x033F0200 ∧ descUlen 0x033F0200 = drainUnits .f32 * field.life.rect.cols ∧
    field.writer 100 (.tile 40) = .ok ⟨40, none⟩ 0x013F0100 ∧ descUlen 0x013F0100 = drainUnits .bf16 * field.life.rect.cols ∧
    field.writer 100 (.tile 42) = .ok ⟨42, none⟩ 0x90 ∧ field.m.passesIn = [] ∧ field.m.ops = [] ∧ (during .m field).eastOf field = none ∧
    (let s : State := { during .m th with threads := [th, o] }
     s.eastOf th = some o ∧ o.descOf 100 (.ring 0) = some 0x3F0000 ∧ o.writer 100 (.ring 0) = .ok ⟨30, some 0⟩ 0x3F0000 ∧
     o.tid ≠ 1 ∧ s.thread? 2 = some o ∧ 0 < o.panes) := by
  refine ⟨?_, ?_, ?_, ?_, ?_, ?_, ?_, ?_, ?_, ?_, ?_, ?_, ?_, ?_⟩ <;> first | rfl | decide

/-- A pass that may retire, one whose check concludes in this cycle, a fold, a drain and a load that are due, a chained drain's delivery. -/
theorem test_meets_MatrixOperationsComplete :
    let q : Pass := { id := 1, par := false, a := ⟨30, some 0⟩, b := ⟨31, some 1⟩, inj := 8, at_ := 83, left := 0, spacing := 1 }
    let f : Fold := { id := 2, passId := 1, int := true, acc := 3, rs := ⟨32, some 2⟩, cs := ⟨33, some 3⟩, part := [[]], due := some 100 }
    let w := fun ops : List MOp => ({ field with m := { field.m with ops := ops } } : Thread)
    (during .m (w [.fold f])).thread? 1 = some (w [.fold f]) ∧ passReady [] (w [.pass { q with concluded := true }]).m.passesIn = some { q with concluded := true } ∧
    foldReady 100 field.m.bankAt [] [.fold f] = some f ∧ f.acc < 4 ∧ ((during .m field).core 0).acc.length = 4 ∧
    (w [.drain ⟨3, ⟨40, none⟩, 100, 0, true⟩]).m.ops.find? (fun o => match o with | .drain d => d.due ≤ 100 | _ => false) =
      some (.drain ⟨3, ⟨40, none⟩, 100, 0, true⟩) ∧
    (w [.load ⟨3, 0, ⟨41, none⟩, 100⟩]).m.ops.find? (fun o => match o with | .load l => l.due ≤ 100 | _ => false) =
      some (.load ⟨3, 0, ⟨41, none⟩, 100⟩) ∧
    (w [.chain ⟨3, 0, [[([], none)]], some (⟨30, some 0⟩, 100), 0, false⟩]).m.nextChain 100 =
      some ⟨3, 0, [[([], none)]], some (⟨30, some 0⟩, 100), 0, false⟩ ∧
    (w [.pass q]).m.passesIn = [q] ∧ q.at_ + q.spacing + 4 * (field.life.rect.rows + field.life.rect.cols) + 8 ≤ 100 ∧
    q.left = 0 ∧ q.attempt = 1 ∧ (0 : Nat) < field.panes ∧ ((during .m field).core (field.coreOf 0)).mapped = none := by
  refine ⟨?_, ?_, ?_, ?_, ?_, ?_, ?_, ?_, ?_, ?_, ?_, ?_, ?_, ?_⟩ <;> first | rfl | decide

theorem test_meets_MatrixOperationsComplete_2 :
    Issues (during .m field) (word4 .m) field ∧ (word4 .m).tid = 1 ∧ field.life.phase = .running ∧ field.life.trapping = false ∧
    (∃ t u, exec (.sacc false 0 2 3) (during .m field) = .next t ∧ t.thread? 1 = some u) := ⟨issues_during _ _ rfl, rfl, rfl, rfl, _, _, rfl, rfl⟩

/-! #### Policies -/

/-- A partition that decides: a fault decision after 255 cycles, with one probe, two queues enabled in its snapshot. -/
def decision (h : Hook) (n : Nat) : Decision :=
  { trigger := { hook := h, cause := 0, tid := 1 }
    snap := { queues := [{}, { cfg := 0x80000000 }] ++ List.replicate 30 {} }
    probes := [{ queue := 1, entry := 3, answered := false, hit := false }], loops := [(3, 1)]
    regs := [0, 1] ++ List.replicate 14 7, pc := 4, cycles := n, image := [0x5C000000] }

def deciding3 (e : Decision) (th : Thread) : State :=
  ({ during .c th with cur := .policy 3 } : State).modPart 3 fun p => { p with pol := { p.pol with running := some e } }

/-- Queue 1 alone is enabled; a loop that has come to it; the view of an entry that waits for its probe. -/
theorem test_meets_PolicyInstructions :
    let e := decision .fault 255
    let s := deciding3 e thread
    s.cur = .policy 3 ∧ (s.part 3).pol.running = some e ∧ ¬ ((e.snap.queues.getD 0 {}).en = true) ∧ (e.snap.queues.getD 1 {}).en = true ∧
    ¬ ((e.snap.queues.getD 31 {}).en = true) ∧ e.regs.getD (0 : BitVec 4).toNat 0 = 0 ∧ e.regs.getD (1 : BitVec 4).toNat 0 ≠ 0 ∧
    e.loops.find? (fun x => x.1 == e.pc - (0 : BitVec 14).toNat - 1) = some (e.pc - (0 : BitVec 14).toNat - 1, 1) ∧
    e.view .entry3 1 0 = none ∧ e.view .entry2 1 0 ≠ none ∧ (e.probes.filter fun x => !x.answered).length < 32 ∧
    32 ≤ (({ e with probes := (List.range 32).map fun q => { queue := q, entry := 0, answered := false, hit := false } } : Decision).probes.filter fun x => !x.answered).length := by
  refine ⟨rfl, rfl, ?_, rfl, ?_, rfl, ?_, rfl, rfl, ?_, ?_, ?_⟩ <;> decide

theorem test_meets_PolicyOutputs :
    let th : Thread := { thread with life := { thread.life with phase := .trapped } }
    (deciding3 (decision .dispatch 0) thread).cur = .policy 3 ∧ (decision .preempt 0).trigger.hook ≠ .dispatch ∧
    (let e : Decision := { decision .fault 0 with action := some .rollback }
     let s := deciding3 e th
     (s.part 3).pol.running = some e ∧ s.thread? e.trigger.tid = some th ∧ th.life.phase = .trapped ∧ th.life.part < s.parts.length ∧
       th.life.ckpt.isOpen = false) := by
  refine ⟨rfl, ?_, rfl, rfl, rfl, ?_, rfl⟩ <;> decide

/-- A dispatch that waits behind a preemption, and that behind a fault; a decision whose 256 cycles are over. -/
theorem test_meets_Decisions :
    let f : Trigger := { hook := .fault, cause := 0, tid := 1 }
    let r : Trigger := { hook := .preempt, cause := 1, tid := 1 }
    let d : Trigger := { hook := .dispatch, cause := 0 }
    let oldest := fun (l : List Trigger) (x : Trigger) => l.find? (fun y => y.hook == x.hook) = some x
    oldest [d, r, f] f ∧ oldest [d, r] r ∧ (∀ y ∈ [d, r], y.hook ≠ .fault) ∧ oldest [d] d ∧ (∀ y ∈ [d], y.hook ≠ .preempt) ∧
    (∀ q, q < 32 → ((during .c thread).queue 3 q).en = true → ((during .c thread).queue 3 q).depth = 0) ∧
    ((during .c thread).part 3).quiesced = false ∧ ((during .c thread).part 3).pol.running = none ∧
    0 < (decision .fault 256).probes.length ∧ (decision .fault 256).image ≠ [] ∧ 256 ≤ (decision .fault 256).cycles ∧
    (decision .fault 255).cycles < 256 := by
  refine ⟨rfl, rfl, ?_, rfl, ?_, ?_, rfl, rfl, ?_, ?_, ?_, ?_⟩ <;> decide

/-! #### Events -/

/-- A thread whose saving began in the cycle before, with nothing in flight, and one with an access in its queue. -/
def saving (t : Thread) : Thread := { t with life := { t.life with phase := .saving 0 99 } }

theorem test_meets_ThreadEvents :
    (during .c { thread with life := { thread.life with asked := some 3 } }).thread? 1 =
      some { thread with life := { thread.life with asked := some 3 } } ∧ thread.loop.inStep = false ∧ thread.life.chainE = none ∧
    (during .c (saving thread)).atBoundary (saving thread) 0 99 = true ∧
    (during .c (saving (queued 1 .mark))).atBoundary (saving (queued 1 .mark)) 0 99 = false ∧ 0 < (saving thread).panes ∧
    (let l : Life := { thread.life with sliceLen := 50, sliceAt := 50 }
     l.sliceLen ≠ 0 ∧ l.sliceAt + l.sliceLen ≤ 100) ∧
    (let w : Thread := { thread with sc := { strm with wdog := some 99 } }
     w.sc.wdog = some 99 ∧ (during .c w).countedAt w w.sc + 99 ≤ 100 ∧ (during .c w).now < (during .c w).countedAt w w.sc + 100) := by
  refine ⟨rfl, rfl, rfl, rfl, rfl, ?_, ⟨?_, ?_⟩, rfl, ?_, ?_⟩ <;> decide

/-- The pool takes a context. -/
theorem test_meets_ThreadEvents_2 : PoolTakes (during .c (saving thread)) (saving thread) 0 99 := by
  have h : ∀ (s : State) (th : Thread), 1 < (s.csa th 0 99).length := by
    intro s th
    simp only [State.csa, List.length_append]
    have : ∀ v, (leBytes 4 v).length = 4 := fun v => rfl
    simp only [this]
    omega
  simp only [PoolTakes, State.writeCsa]
  split
  · simp
  · rename_i h1
    exact absurd (h _ _) (by exact h1)

/-- A loop task's step that has taken KMAX cycles and one that all have ended; a count of 2^20 cycles; a barrier that all await. -/
theorem test_meets_ThreadEvents_3 :
    let subs : List (Nat × Nat) := [(0, 0), (4, 2), (0, 0)]
    let l : Thread := { thread with sc := { strm with subs := subs }, loop := { s := 2, n := 1, t := 2, inStep := true, ks := 50, kmax := 50 } }
    let a : Thread := { l with loop := { l.loop with inStep := false, arrived := [true, false, false, false] } }
    let g : Group := { key := 5, members := [1], isOpen := true, awaited := [1], arrived := [1] }
    l.laggard = some .c ∧ l.loop.ks + l.loop.kmax ≤ 100 ∧ a.isLoop = true ∧ a.loop.finished = false ∧ a.allArrived = true ∧
    (0 : Nat) + 1 * 2 ^ 20 ≤ 2 ^ 20 ∧ ((grouped g).part 3).group? 255 = some g ∧ (∀ m ∈ g.awaited, m ∈ g.arrived) ∧ 1 ∈ g.arrived ∧
    (∃ m ∈ ({ g with arrived := [] } : Group).awaited, m ∉ ([] : List Nat)) := by
  refine ⟨rfl, ?_, rfl, rfl, rfl, ?_, rfl, ?_, ?_, ⟨1, ?_, ?_⟩⟩ <;> decide

/-- An fsplit at the head of a stream whose fragment has drained. -/
theorem test_meets_ThreadEvents_4 :
    let s : State := { before (.event (.drainPoint 1)) idleOthers [(4, (0x0000704C14000000, false))] with turns := [] }
    s.drained177 idleOthers = true ∧ (∃ u, s.beginStream 1 .c = .run (.fsplit 0 (.named 3) (some 4)) u ∧
      ∃ w, exec (.fsplit 0 (.named 3) (some 4)) u = .next w) := by
  refine ⟨rfl, _, rfl, ?_⟩
  exact ⟨_, rfl⟩

/-- A command of which nothing is left, one with its old value, a fence behind nothing; and a command that waits for its page. -/
theorem test_meets_CommandEvents :
    let c := { moving (.tld none false 1 (.tile 5) (.belt 4) (.belt 0)) ⟨5, none⟩ with elem := 1 }
    let g := { moving (.gamo .add ⟨.w64, true⟩ 1 (.belt 4) (.reg (.belt 0)) (.belt 0) none) ⟨0, none⟩ with got := some (.ofWord 7) }
    let f := moving (.fence .dev none) ⟨0, none⟩
    (movingSt c).thread? 1 = some (movingTh c) ∧ (movingTh c).cmd? 1 = some c ∧ c.id = 1 ∧ c.parked = false ∧ c.elem = c.total ∧
    c.packets = [] ∧ c.got = none ∧ (∀ d ∈ (movingSt c).dies, d.lines = []) ∧ (movingTh g).cmd? 1 = some g ∧ g.got = some (.ofWord 7) ∧
    f.instr = .fence .dev none ∧ (movingTh f).cmdsBefore 1 = [] ∧
    ({ movingTh f with a := { (movingTh f).a with cmds := [{ c with id := 0 }, f] } } : Thread).cmdsBefore 1 ≠ [] := by
  refine ⟨rfl, rfl, rfl, rfl, rfl, rfl, rfl, ?_, rfl, rfl, rfl, rfl, ?_⟩ <;> decide

/-- A page that both stages map, and one that they do not; a write begun; a packet out. -/
theorem test_meets_CommandEvents_2 :
    let c := { moving (.tst none 1 (.tile 2) (.belt 4)) ⟨2, none⟩ with walking := true, elem := 0 }
    let p : Packet :=
      { id := 1, src := 0, tid := 1, cmd := 1, part := 3, pkg := 0, die := 0, core := 1, off := 0, data := [(7, none)], srcDie := 0, exitStop := 0,
        cw := true, forced := false }
    let s : State := { (mapped (movingSt c)).modDie 0 fun d => { d with tlb := [], walks := [⟨3, 5, 1⟩] } with packets := [p] }
    s.threads = [movingTh c] ∧ s.missing (movingTh c) c 0 = some 0x10000 ∧ (⟨3, 5, 0x10000 / 65536⟩ : Walk) ∈ (s.die 0).walks ∧
    (∃ l, s.walkBoth 3 5 0x10000 .wr = .ok l) ∧ (∃ f, (movingSt c).walkBoth 3 5 0x10000 .wr = .error f) ∧ c.need ≠ .rd ∧ (movingTh c).life.part < 16 ∧
    (s.packets.find? fun p => p.tid == 1 && p.src == s.dev.pkg.toNat && !p.lost) = some p := by
  refine ⟨rfl, ?_, ?_, ⟨_, rfl⟩, ⟨_, rfl⟩, ?_, ?_, rfl⟩ <;> decide

/-- A packet of 2 flits, by where it is; ports with all places, and with none. -/
def packet (w : Where) : Packet :=
  { id := 1, src := 0, tid := 1, cmd := 1, part := 3, pkg := 0, die := 1, core := 15, off := 0xBFFF80, data := List.replicate 16 (7, none), srcDie := 7,
    exitStop := 1, cw := true, forced := false, wher := w }

def sent (w : Where) (wins : List Word) : State :=
  { owner with packets := [packet w], cores := setAt owner.cores 31 { wins := wins } }

theorem test_meets_PacketAndFilterEvents :
    (packet (.port 7 true)).stop? = some 7 ∧ (packet (.port 7 true)).inRing = true ∧ crosses 7 true = true ∧
    portIx (nextStop 7 true) true < (sent (.port 7 true) []).ports.length ∧ ((sent (.port 7 true) []).port 0).dead = false ∧
    (∀ q ∈ (sent (.port 7 true) []).packets, goesBefore q (packet (.port 7 true)) = false) ∧
    (∃ h foot, placeIn ((sent (.port 7 true) []).port 0).have_ (packet (.port 7 true)).flits true false = some (h, foot)) ∧
    placeIn {} 2 true false = none ∧
    (sent .core [0xE00000000000FFFF ||| 0xFFFFFFFFC0000]).admits 31 0 3 0xBFFF80 (8 * (packet .core).data.length) = true ∧
    (sent .core []).admits 31 0 3 0xBFFF80 (8 * (packet .core).data.length) = false ∧ 31 < (sent .core []).cores.length ∧
    (packet .core).pkg = (sent .core []).dev.pkg.toNat ∧ (sent .core []).thread? 1 = some pair ∧
    isNan32 0x7FC00000 = true ∧ isNan32 0x7F800000 = false := by
  refine ⟨rfl, rfl, rfl, ?_, rfl, ?_, ⟨_, _, rfl⟩, rfl, ?_, rfl, ?_, rfl, rfl, rfl, rfl⟩ <;> decide

theorem test_meets_PacketAndFilterEvents_2 :
    let l : FilterLine := ⟨1, 1, 7, 3, 5, [(0, 0x3F800000)], none⟩
    let s := (during .c thread).modDie 7 fun d => { d with lines := [l], filters := setAt d.filters 7 { isOpen := true, part := 3, ctx := 5, k := 1 } }
    (s.die 7).lines[0]? = some l ∧ l.session < (s.die 7).filters.length ∧ ((s.die 7).filter 7).openFor 3 5 = true ∧
    ((s.die 7).filter 7).openFor 3 6 = false ∧ 7 < s.dies.length ∧
    (let p : Port := { have_ := {}, owed := [⟨1, 1⟩, ⟨1, 0⟩] }
     p.owed = [⟨1, 1⟩] ++ ⟨1, 0⟩ :: []) := by
  refine ⟨rfl, ?_, rfl, rfl, ?_, rfl⟩ <;> decide

theorem test_meets_PolicyInstructions_2 :
    (0x2C000006 : BitVec 32).extractLsb' 26 6 = 0x0B ∧ 6 ≤ ((0x2C000006 : BitVec 32).extractLsb' 0 3).toNat ∧
    decodePolicy 0x2C000006 = .error .code := ⟨rfl, by decide, rfl⟩

/-! #### The host -/

/-- A code image of 256 bytes with no stream, whose CRC-32 any implementation of the polynomial gives. -/
def emptyImage : List (BitVec 8) :=
  [0x4C, 0x44, 0x54, 0x48, 0x49, 0x4D, 0x47, 0x31, 1, 0, 0, 0, 0, 1, 0, 0, 0xE9, 0x12, 0xC6, 0xD5] ++ List.replicate 236 0

def withBytes (s : State) (a : Nat) (b : List (BitVec 8)) : State :=
  let new := (b.zipIdx.map fun p => (a + p.2, p.1)).filter fun p => p.2 != 0
  { s with mem := { s.mem with cells := new ++ s.mem.cells } }

/-- A partition with a slot for one policy word, pend, and a load command for it in slot 1; its cluster 0, whose cores are idle. -/
def hosted : State := (mapped owner).modPol 3 fun p => { p with window := [[], [0x5C000000]], slots := [[], [0x5C000000]] }

theorem test_meets_HostWrites :
    (hosted.part 3).queues.length = 32 ∧ (31 : Nat) < 32 ∧ hosted.resetting 3 = false ∧
    (let x := hosted.queue 3 0
     ((16 : BitVec 32) - x.tail).toNat ≤ x.size ∧ ((16 : BitVec 32) - x.head).toNat ≤ x.size ∧ x.size < ((17 : BitVec 32) - x.tail).toNat) ∧
    fieldNat (0x10001 : Word) 9 0 = 1 ∧ 512 < fieldNat (0x3FF : Word) 9 0 ∧ policyCode [0x5C000000] 1 0 = 0 ∧ policyCode [0] 0 1 ≠ 0 ∧
    (hosted.part 3).pol.slots.getD 0 [] = [] ∧ (hosted.part 3).pol.slots.getD 1 [] ≠ [] ∧ (hosted.part 3).pol.running = none ∧
    (∀ k ∈ coresIn 31, (hosted.core k).lease = .unleased ∧ ∀ n, n < 16 → hosted.inFuse n k = false ∧ hosted.inReserve n k = false) ∧
    bitOf (0x8000000000000000 : Word) 63 = true ∧ (hosted.core 127).boot.state ≠ 1 ∧ hosted.partOf 127 = some 3 ∧
    (hosted.core 127).disabled = false ∧ hosted.freeSlot 3 = some 0 ∧ (1 : Nat) % 8 ≠ 0 := by
  refine ⟨?_, ?_, ?_, ⟨?_, ?_, ?_⟩, ?_, ?_, ?_, ?_, ?_, ?_, ?_, ?_, ?_, ?_, ?_, ?_, ?_, ?_⟩ <;> first | rfl | decide

/-- The image at 0x20000 is taken for one pane. -/
theorem test_meets_HostWrites_2 :
    ((withBytes hosted 0x20000 emptyImage).takeImage 7 3 5 0x20000 1).2.toOption = some emptyImage := by decide +kernel

theorem test_meets_PartitionCommands :
    let c : CmdPageSt := { busy := true, op := 1 }
    let th : Thread := { thread with life := { thread.life with phase := .parked } }
    let s := (during .c th).modPart 3 fun p => { p with set := { p.set with nslot := 3 }, cmd := { arg0 := 2 } }
    (s.part 3).cmd.busy = false ∧ c.busy = true ∧ (s.part 3).cmd.arg0.toNat < (s.part 3).set.nslot ∧ (s.part 2).set.nslot ≤ (s.part 2).cmd.arg0.toNat ∧
    s.threads.find? (fun th => th.life.part == 3 && th.life.slot == 2) = some th ∧ th.life.phase = .parked ∧ th.life.ckpt.isOpen = false ∧
    ((hosted.modPart 3 fun p => { p with set := { p.set with nslot := 1 } }).threads.find? fun th => th.life.part == 3 && th.life.slot == 0) = none ∧
    s.atCut 3 = false ∧ (s.modPart 3 fun p => { p with quiesced := true }).atCut 3 = true ∧ c.op = 1 := by
  refine ⟨rfl, rfl, ?_, ?_, rfl, rfl, rfl, rfl, rfl, rfl, rfl⟩ <;> decide

/-- A partition at its cut, with a thread that has an open checkpoint. -/
def atRest : State :=
  let th : Thread := { thread with life := { thread.life with phase := .saved, ckpt := { isOpen := true } } }
  (mapped (during .c th)).modPart 3 fun p => { p with quiesced := true, cmd := { arg0 := 2, arg1 := 8 } }

theorem test_meets_ImagesAndRollback :
    (atRest.part 3).cmd.busy = false ∧ atRest.atCut 3 = true ∧ (atRest.part 3).cmd.arg0.toNat < (atRest.part 3).set.nslot ∧
    (∃ th, atRest.threads.find? (fun x => x.life.part == 3 && x.life.slot == 2) = some th ∧ th.life.ckpt.isOpen = true ∧ th.life.phase = .saved) := by
  refine ⟨rfl, rfl, ?_, ⟨_, rfl, rfl, rfl⟩⟩
  decide

/-- A partition at its cut that has no thread gives an image, which a buffer of no byte does not hold, and one of 2^20 bytes does. -/
def still : State := (mapped owner).modPart 3 fun p => { p with quiesced := true, cmd := { arg0 := 0x20000, arg1 := 272 } }

theorem test_meets_ImagesAndRollback_2 :
    let s : State := { still with threads := [] }
    ((s.devImage [3] false false 0).map fun b => !b.isEmpty && (s.writePool 3 0x40000 b).isSome) = some true := by decide +kernel

/-- An image that holds the marks of partition 3 alone. -/
def marks3 : List (BitVec 8) :=
  wordBytes (wordFields [(0x444556494D47, 16), (1, 0)]) ++ wordBytes 272 ++ List.replicate 16 0 ++ wordBytes 272 ++ List.replicate 48 0 ++
  wordBytes 256 ++ List.replicate 156 0 ++ leBytes 4 0x444F4E45 ++ wordBytes (wordFields [(0x50415254424B, 16), (1, 0)]) ++ wordBytes 3

theorem test_meets_ImagesAndRollback_3 :
    let s : State := withBytes { still with threads := [] } 0x20000 marks3
    s.readPool 3 0x20000 272 = some (marks3, none) ∧ (s.restoreBlock 3 marks3).1 = 0 := by decide +kernel

/-! #### The device -/

theorem test_meets_DeviceCommands :
    let arg := fun k : Word => ({ State.reset with dev := { State.reset.dev with cmd := { arg0 := k } } } : State)
    (arg 127).dev.cmd.busy = false ∧ (127 : Word).toNat < 128 ∧ 128 ≤ (128 : Word).toNat ∧ ((arg 127).core 127).lease = .unleased ∧
    ((arg 0).modCore 0 fun c => { c with lease := .leased 1 }).core 0 = ({ lease := .leased 1 } : Core) ∧ (7 : Word).toNat < 8 ∧
    7 < (arg 7).dies.length ∧ (arg 7).cores.length = 128 ∧ (arg 0).atCut 0 = false ∧
    (∀ p, p < 16 → ({ State.reset with parts := State.reset.parts.map fun q => { q with quiesced := true } } : State).atCut p = true) := by
  refine ⟨rfl, ?_, ?_, rfl, rfl, ?_, ?_, rfl, rfl, ?_⟩ <;> decide

/-- A device at its cut, where every partition is quiesced, gives an image. -/
theorem test_meets_DeviceCommands_2 :
    let s : State := { State.reset with
      parts := State.reset.parts.map fun q => { q with quiesced := true }
      clusters := setAt State.reset.clusters 0 { asn := true, part := 3 } }
    ((s.devImage s.liveParts true false 0).map fun b => !b.isEmpty) = some true := by decide +kernel

/-- Readings at the ends of their ranges; a port whose permits are out of balance; a line homed here, and one in another package. -/
theorem test_meets_DeviceEvents :
    (∃ c : Cluster, c.temps = [105, 105, 105] ∧ c.failed = [false, false, false]) ∧ (∃ c : Cluster, c.temps = [150, 150, 150] ∧ c.failed = [true, true, true]) ∧
    (State.reset.cluster 31).failed.length = 3 ∧ (State.reset.cluster 31).failed.getD 2 true = false ∧ ¬ ((-40 : Int) < -40 ∨ (150 : Int) < 150) ∧
    (State.reset.rail 3).failed.length = 6 ∧ (State.reset.rail 3).groups.length = 6 ∧ 3 < State.reset.rails.length ∧
    (State.reset.port 15).dead = false ∧ (State.reset.port 15).owed = [] ∧ (State.reset.port 15).have_.add (State.reset.heldIn 15) = fullPort ∧
    (let p : Port := { have_ := ⟨15, 4, 4, 4⟩ }
     let s : State := { State.reset with ports := setAt State.reset.ports 15 p }
     (s.port 15).owed = [] ∧ (s.port 15).have_.add (s.heldIn 15) ≠ fullPort) ∧
    (∃ d, State.reset.homeOf (0x1000 / 64) = .die d) ∧ State.reset.mem.mark (0x1000 / 64) = none ∧ (0x1038 : Nat) % 64 + 8 ≤ 64 ∧
    (¬ ∃ d, ({ State.reset with homes := [⟨0, 4096, .package 1⟩] } : State).homeOf 0 = .die d) ∧
    ({ State.reset with dev := { State.reset.dev with flashBusy := true } } : State).dev.flashBusy = true ∧ State.reset.dev.power = true := by
  refine ⟨⟨⟨false, 0, 0, none, 1, [105, 105, 105], [false, false, false], []⟩, rfl, rfl⟩, ⟨⟨false, 0, 0, none, 1, [150, 150, 150], [true, true, true], []⟩, rfl, rfl⟩, rfl, rfl, ?_, rfl, rfl, ?_, rfl,
    rfl, rfl, ⟨rfl, ?_⟩, ⟨_, rfl⟩, rfl, ?_, fun h => ?_, rfl, rfl⟩
  · decide
  · decide
  · decide
  · decide
  · obtain ⟨d, h⟩ := h
    cases h

/-- A sensor with no neighbour that reads. -/
theorem test_meets_DeviceEvents_2 :
    let c : Cluster := { failed := [false, true, true] }
    let all := State.reset.clusters.map fun c => { c with failed := [true, true, true] }
    ({ State.reset with clusters := setAt all 0 c } : State).nearTemps 0 0 = [] := by decide

/-! #### Further clauses -/

/-- A full slot of which the instruction pops one value and then has room, and one that stays full; a fence of the A stream under way. -/
theorem test_meets_GuardFifos_2 :
    let eight : List GuardVal := List.replicate 8 { val := true, at_ := 99 }
    let f := cmdOf (word4 .a) (.fence .dev none) {} {} {}
    let popped : Thread := { thread with guards := setAt thread.guards 2 eight }
    ¬ ((eight.filter fun g => g.gone.isNone).length < 8) ∧ f.isFence = true ∧
    (((popped.advance { word4 .c with gsl := 2, gpop := true } 100).guards.getD 2 []).filter fun g => g.gone.isNone).length < 8 ∧
    ¬ ((((popped.advance (word4 .c) 100).guards.getD 2 []).filter fun g => g.gone.isNone).length < 8) ∧ thread.a.cmds = [] := by
  refine ⟨?_, rfl, ?_, ?_, rfl⟩ <;> decide

/-- A checkpoint asked for inside a step, by a stream that takes no part in it; a yield refused; a result latched. -/
theorem test_meets_RangesYieldAndCheckpoint_2 :
    (let th : Thread := { thread with loop := { s := 2, n := 1, t := 2, inStep := true } }
     th.loop.inStep = true ∧ th.inKernel .c = false) ∧ thread.loop.inStep = false ∧
    (let th : Thread := { thread with c := { regs := regs, pending := .yieldDenied } }
     th.sc.latched = false ∧ th.c.pending = .yieldDenied) ∧ ({ strm with latched := true } : Strm).latched = true := ⟨⟨rfl, rfl⟩, rfl, ⟨rfl, rfl⟩, rfl⟩

/-- A task with a counter, at 0x10038, and a continuation in a partition whose first queue is enabled. -/
def ending (join cont : Word) (cells : Sparse (BitVec 8)) (marks : Sparse Mark) : Thread × State :=
  let th : Thread := { idleOthers with life := { thread.life with record := [0, 0, join, cont, 0, 0, 0, 0] } }
  let s := (mapped (during .c th)).modDie 0 fun d => { d with tlb := [⟨3, some 5, 1, 1, true, true, true⟩] }
  (th, { s with mem := { cells := cells ++ s.mem.cells, marks := marks } })

/-- A counter of 0, of 1, poisoned, and one at an address that does not translate. -/
theorem test_meets_DoneEndsTheThread_2 :
    (let (th, s) := ending 0x10038 0 [] []
     s.fenceWaits th .dev = false ∧ s.tlbGet 0 3 5 0x10038 .atomic = some 0x10038 ∧ s.physWord 0x10038 = 0 ∧ trCont th.life.record = 0 ∧
       3 < s.parts.length) ∧
    (let s := (ending 0x10038 0 [] [(0x400, some 9)]).2
     s.mem.mark (0x10038 / 64) = some 9) ∧
    (let s := (ending 0x100000000000 0 [] []).2
     ∃ s1 f, s.xlate 0 3 5 0x100000000000 .atomic = (s1, .error f)) ∧
    ({ during .c idleOthers with late := [{ tid := 1, part := 3, line := 0x400, bytes := [], mark := none }] } : State).fenceWaits idleOthers .dev = true := by
  refine ⟨⟨rfl, rfl, rfl, rfl, ?_⟩, rfl, ⟨_, _, rfl⟩, rfl⟩
  decide

/-- A continuation that is read, with a counter of 1 and with none; one that is poisoned; one that does not translate; one not well-formed. -/
theorem test_meets_DoneEndsTheThread_3 :
    (let (th, s) := ending 0 0x10040 [] []
     ∃ s1 bs, s.readVirt 0 3 5 0x10040 64 = (s1, .ok (bs, none)) ∧ recordOk (wordsOf bs) = true ∧ (s.queue 3 0).en = true ∧
       (s.queue 3 0).host = false ∧ trCont th.life.record ≠ 0 ∧ (s.queue 3 0).depth < (s.queue 3 0).size ∧
       (s1.enqueueRecord 3 (trCq th.life.record) (Record.withCtx (wordsOf bs) 5)).isSome = true) ∧
    (let s := (ending 0x10038 0x10040 [(0x10038, 1)] []).2
     ∃ s1 bs, s.readVirt 0 3 5 0x10040 64 = (s1, .ok (bs, none)) ∧ s1.tlbGet 0 3 5 0x10038 .atomic = some 0x10038 ∧ s1.physWord 0x10038 = 1) ∧
    (let s := (ending 0 0x10040 [] [(0x401, some 9)]).2
     ∃ s1 bs, s.readVirt 0 3 5 0x10040 64 = (s1, .ok (bs, some 9))) ∧
    (let s := (ending 0 0x100000000040 [] []).2
     ∃ s1 f, s.readVirt 0 3 5 0x100000000040 64 = (s1, .error (f, 0x100000000040))) ∧
    (let s := (ending 0 0x10040 [(0x1006F, 0xF0)] []).2
     ∃ s1 bs, s.readVirt 0 3 5 0x10040 64 = (s1, .ok (bs, none)) ∧ recordOk (wordsOf bs) = false) := by
  refine ⟨⟨_, _, rfl, rfl, rfl, rfl, ?_, ?_, ?_⟩, ⟨_, _, rfl, rfl, rfl⟩, ⟨_, _, rfl⟩, ⟨_, _, rfl⟩, _, _, rfl, rfl⟩ <;> decide

/-- A thread that loses a column of panes, with a vector register whose lanes are its lanes; a pane from the allocator and one held. -/
theorem test_meets_FragmentInstructions_4 :
    let th : Thread := { pair with v := { pair.v with file := setAt pair.v.file 3 { lanes := List.replicate 128 { bits := 7 } } } }
    let s := ({ owner with threads := [th] } : State).modCore 1 fun c => { c with lease := .held 1 }
    (th.v.file[3]?.map fun x => x.lanes.length) = some th.lanes ∧ ({} : Rect).cores[0]? = some (th.coreOf 0) ∧ 0 < th.panes ∧
    s.thread? th.tid = some th ∧ 1 < s.cores.length ∧ 1 ∈ (rectOf 1 0 0 0).cores ∧ (s.core 1).lease ≠ .unleased ∧ (s.core 0).lease = .unleased ∧
    (s.core 0).lastCtx ≠ some th.life.ctx ∧ 2 ∉ (rectOf 1 0 0 0).cores ∧ ¬ (2 = th.life.rect.lead ∨ 2 = (rectOf 1 0 0 0).lead) ∧
    (rectOf 1 0 0 0).lead < s.cores.length := by
  refine ⟨rfl, rfl, ?_, rfl, ?_, ?_, ?_, rfl, ?_, ?_, ?_, ?_⟩ <;> decide

/-- The three kinds of entry of a split's list, with threads below the next identity. -/
theorem test_meets_FragmentInstructions_5 :
    (∀ t ∈ ({ owner with nextId := 2 } : State).threads, t.tid < ({ owner with nextId := 2 } : State).nextId) ∧
    ([0, 0, 0, 0, 0, 0, 0, 0] : Record).length = 8 ∧ entryKind 0 = 0 ∧ (∃ e, entryKind e = 1) ∧ ∃ e, entryKind e = 2 := by
  refine ⟨?_, rfl, rfl, ⟨0x4000000000000000, ?_⟩, ⟨0x8000000000000000, ?_⟩⟩ <;> decide

theorem sget_fill (v : SmmSlot) : ∀ n i, i < n → sget ({} : SmmSlot) ((List.range n).map fun k => (k, v)) i = v
  | 0, i, h => absurd h (Nat.not_lt_zero i)
  | n + 1, i, h => by
    rw [List.range_succ, List.map_append]
    by_cases hi : i < n
    · rw [sget_append_left _ _ _ (by simp; omega)]
      exact sget_fill v n i hi
    · rw [sget_append _ _ _ (by simp; omega)]
      have : i = n := by omega
      subst this
      simp [sget]

/-- A die that has every slot open; one that has slot 0 open; a quota of no slot; an entry quota that one more passes. -/
theorem test_meets_SuffixSlotsOpenAndClose_2 :
    (let s := owner.modDie 0 fun d => { d with smm := (List.range 4096).map fun k => (k, { isOpen := true }) }
     ∀ i, i < 4096 → ((s.die 0).slot i).isOpen = true) ∧
    (let s := owner.modDie 0 fun d => { d with smm := [(0, { isOpen := true, part := 3, quota := 0x200000 })] }
     ((s.die 0).slot 1).isOpen = false ∧ (∀ j, j < 1 → ((s.die 0).slot j).isOpen = true) ∧
     ((s.die 0).smm.filter fun o => o.2.isOpen && o.2.part == 3).length = 1) ∧
    fieldNat (0x0000000000000001 : Word) 12 0 ≤ 1 ∧ fieldNat (0x0000200000000002 : Word) 45 24 < 0x200000 + 1 ∧
    ¬ (fieldNat (0x0000200001000002 : Word) 45 24 < 0x200000 + 1) ∧
    fieldNat (0x080C000000200000 : Word) 63 60 = 0 ∧ ¬ (8 < fieldNat (0x080C000000200000 : Word) 59 56) ∧
    ¬ (12 < fieldNat (0x080C000000200000 : Word) 51 48) ∧ 12 < fieldNat (0x080D000000200000 : Word) 51 48 ∧
    0x200000 < fieldNat (0x080C000000200001 : Word) 23 0 ∧ (32 : Word).toNat % 64 ≠ 0 := by
  refine ⟨?_, ⟨?_, ?_, ?_⟩, ?_, ?_, ?_, ?_, ?_, ?_, ?_, ?_, ?_⟩
  case refine_1 => exact fun i h => congrArg SmmSlot.isOpen (sget_fill _ 4096 i h)
  all_goals decide

/-- smprop into a tile that is FREE. -/
theorem test_meets_SuffixSlotsUsed_3 : tiled.writer 100 (.tile 1) = .ok ⟨1, none⟩ 0 := rfl

/-- Two traps of one cycle, of streams C and A in either order; a trap that waits for the streams, which run on, or all wait. -/
theorem test_meets_TrapsTakenAndRaised_2 :
    (let l : Life := { thread.life with trapping := true, trapAt := some 100, fault := { strm := .a, code := 6, detail := 0 } }
     l.trapAt = some 100 ∧ streamNum .c < streamNum l.fault.strm ∧ ¬ (streamNum .m < streamNum l.fault.strm)) ∧
    (let w : Life := { thread.life with waitingTrap := some { strm := .a, code := 4, detail := 0 } }
     w.trapping = false ∧ w.phase = .running) ∧ thread.waits 100 .c = false ∧
    (idleOthers.waits 100 .v = true ∧ idleOthers.waits 100 .m = true) := by
  refine ⟨⟨rfl, ?_, ?_⟩, ⟨rfl, rfl⟩, rfl, rfl, rfl⟩ <;> decide

/-- Numbers that no register has, at the ends of the gaps; one that is written, with a poisoned value. -/
theorem test_meets_SystemRegisters_2 :
    (∀ n ∈ [0x011, 0x03F, 0x050, 0x07F, 0x089, 0x0FF, 0x180], (0x010 < n ∧ n < 0x040) ∨ (0x04F < n ∧ n < 0x080) ∨ (0x088 < n ∧ n < 0x100) ∨ 0x17F < n) ∧
    (RegNum.short 0x089).num = 0x089 ∧ (RegNum.short 0x088).num ∈ [0x080, 0x081, 0x082, 0x083, 0x084, 0x086, 0x088] ∧
    (thread.src (word4 .c) (.belt 2)).There ∧ (thread.src (word4 .c) (.belt 2)).mark = some 9 := by
  refine ⟨?_, ?_, ?_, rfl, rfl⟩ <;> decide

/-- The codes of 1, 2 and 4 as numbers scaled by powers of two; a NaN; a negative number; the integer -2^31 as binary32. -/
theorem test_meets_ElementArithmetic_2 :
    let num := fun q : Nat => decodeNum .f32 q
    (num 0x3F800000).scaled (-23) = some (2 ^ 23) ∧ (num 0x3F800000).scaled (-23) = some (1 * 2 ^ 23) ∧
    (num 0x40000000).scaled (1 - 23) = some (2 ^ 23) ∧ (num 0x40000000).scaled (-22) = some (2 ^ 23) ∧
    (num 0x3F000000).scaled (-24) = some (2 ^ 23) ∧ (2 : Int) ^ 23 * 2 ^ 23 = 2 ^ 46 ∧ (num 0xCF000000).scaled (-0) = some (-(2 ^ 31) * 2 ^ 0) ∧
    decodeNum .f32 0x7F800001 = .nan ∧ (∃ m e, decodeNum .f32 0x80000001 = .fin true m e ∧ m ≠ 0) ∧ laneFloat .bf16 = true ∧
    laneFloat .z8 = false := by
  refine ⟨?_, ?_, ?_, ?_, ?_, ?_, ?_, ?_, ⟨_, _, rfl, ?_⟩, rfl, rfl⟩ <;> decide

/-- A due flag of this cycle and one of the next. -/
theorem test_meets_VectorLaneResults_2 :
    let th : Thread := { thread with dues := [{ at_ := 100, sid := .v, flags := 0x80 }, { at_ := 101, sid := .v, flags := 1 }] }
    (∃ d ∈ th.dues, d.at_ ≤ 100 ∧ d.flags.getLsbD 7 = true) ∧ (th.dues.filter fun d => decide (100 < d.at_)).length = 1 ∧
    ({ thread with dues := [{ at_ := 104, sid := .v, phase := true }] } : Thread).phaseDue .v = true ∧ thread.phaseDue .v = false :=
  ⟨⟨_, .head _, by decide, by decide⟩, by decide, rfl, rfl⟩

/-- Fifteen masks and an active poisoned lane; a literal that iset takes. -/
theorem test_meets_VectorControl_2 :
    ({ lanes.v with masks := List.replicate 15 (List.replicate 64 true) } : VState).masks.length < 16 ∧
    meetAll ((activeOf (lanes.v.top lanes.lanes) (lanes.v.read lanes.lanes (.named 31))).map (·.mark)) = some 9 ∧ viBits (.lit 5) = some 5 := by
  refine ⟨?_, ?_, ?_⟩ <;> decide

/-- A ring's head that a vldt reads; flags that a vstt awaits; a store behind whose end nothing is left; offset lanes that go beyond a pane. -/
theorem test_meets_VectorAccessesIssueAndPerform_3 :
    tiled.consumer 100 (.ring 5) = .ok ⟨10, some 5⟩ 10 ∧
    ({ parts with dues := [{ at_ := 104, sid := .v, flags := 1 }] } : Thread).flagsOwed 100 .v = true ∧ parts.flagsOwed 100 .v = false ∧
    64 * partUnits parts.life.rect 0x04000000 ≤ 64 + 256 ∧ ¬ ((0xBFFFFC : Int) + 4 * (1 : BitVec 32).toInt ≤ 0xBFFFFC) ∧
    (∃ t, ({ bits := 0, mark := some t } : Lane).mark ≠ none) ∧
    meetAll ((activeOf (parts.v.active parts.lanes false) (parts.v.read parts.lanes (.named 31))).map (·.mark)) = some 9 := by
  refine ⟨rfl, rfl, rfl, ?_, ?_, ⟨9, ?_⟩, ?_⟩ <;> decide

/-- A fold that is still to raise its flags; an east neighbour whose ring has no FREE tail; the cycle of a pass's retirement. -/
theorem test_meets_MatrixInstructionsIssue_3 :
    (let f : Fold := { id := 2, passId := 1, int := true, acc := 3, rs := ⟨32, some 2⟩, cs := ⟨33, some 3⟩, part := [[]], due := none }
     ({ field.m with ops := [.fold f] } : MState).flagsToCome = true) ∧ field.m.flagsToCome = false ∧
    field.writer 100 (.ring 0) = .wait ∧ ({ field.m with passAt := some 100 } : MState).passAt = some 100 ∧ field.m.passAt ≠ some 100 := by
  refine ⟨rfl, rfl, rfl, rfl, ?_⟩
  decide

/-- A probe that the decision waits for, unanswered and answered; one asked before. -/
theorem test_meets_PolicyInstructions_3 :
    (let e : Decision := { decision .fault 0 with probeWait := some 0 }
     e.probeWait = some 0 ∧ ¬ (∀ x, e.probes[0]? = some x → x.answered = true)) ∧
    (let e : Decision := { decision .fault 0 with probeWait := some 0, probes := [{ queue := 1, entry := 3, answered := true, hit := false }] }
     ∀ x, e.probes[0]? = some x → x.answered = true) ∧
    (∃ x ∈ (decision .fault 0).probes, x.queue = 1 ∧ x.entry = 3) := by
  refine ⟨⟨rfl, fun h => ?_⟩, fun x h => ?_, ⟨_, .head _, rfl, rfl⟩⟩
  · have := h _ rfl
    cases this
  · cases h
    rfl

/-- A fault decision on a trapped thread that each action leaves to its own effect, in a partition that takes a handler's record. -/
theorem test_meets_PolicyOutputs_2 :
    let th : Thread := { thread with life := { thread.life with phase := .trapped } }
    let at_ := fun a : FaultAct => mapped (deciding3 { decision .fault 0 with action := some a } th)
    (∀ a, (at_ a).cur = .policy 3) ∧ (at_ .kill).thread? 1 = some th ∧ th.life.part < (at_ .kill).parts.length ∧
    (∀ i j g h, ((at_ .kill).part 3).group? i = some g → ((at_ .kill).part 3).group? j = some h → g.key = h.key → i = j) ∧
    (let s := at_ (.handler 0 3)
     let x := s.queue 3 0
     let rec0 := Record.withCtx (setAt ((s.part 3).pol.handlers.getD 3 []) 1 (BitVec.ofNat 64 (s.slotBase 3 2 false))) 5
     x.en = true ∧ x.depth < x.size ∧ recordOk ((s.part 3).pol.handlers.getD 3 []) = true ∧
       (s.writePool 3 (x.slot x.tail) (Record.bytes rec0)).isSome = true ∧ (s.queue 3 31).en = false) := by
  refine ⟨fun _ => rfl, rfl, ?_, fun i j g h hg => ?_, ?_, ?_, rfl, ?_, rfl⟩
  · decide
  · cases hg
  all_goals decide

/-- A preempt decision whose victim runs at the handle it names; a waiting fuse request that is failed, and granted while it is ready. -/
theorem test_meets_PolicyOutputs_3 :
    (let s := deciding3 { decision .preempt 0 with victim := some 0 } thread
     s.atHandle 3 0 = some thread ∧ s.thread? thread.tid = some thread) ∧
    (let th : Thread := { pair with c := { pair.c with pending := .fuseAsked } }
     let f : FuseReq := { tid := 1, target := rectOf 5 0 0 0 }
     let e : Decision := { decision .dispatch 0 with reqs := [f], picks := [.grant 0, .fail 0] }
     let s := (({ owner with threads := [th], cur := .policy 3 } : State).modCores [0, 1] fun c => { c with lease := .leased 1 }).modPart 3 fun p =>
       { p with fuses := [f], pol := { p.pol with running := some e } }
     f ∈ s.waitingFuses 3 ∧ s.thread? 1 = some th ∧ lastDisp e.picks = none ∧ (∀ g ∈ (s.part 3).fuses, g.tid = f.tid → g = f) ∧
       s.fuseReady th f.target = true ∧ e.reqs[0]? = some f) := by
  refine ⟨⟨rfl, rfl⟩, ?_, rfl, rfl, ?_, ?_, rfl⟩ <;> decide

/-- A queue with one record in a partition that has panes; a placement of the model's choosing, and an exact one. -/
theorem test_meets_PolicyOutputs_4 :
    let e : Decision := { decision .dispatch 0 with picks := [.disp 0 0] }
    let s := ({ mapped owner with threads := [], cur := .policy 3 } : State).modPart 3 fun p =>
      { p with queues := modAt p.queues 0 fun q => { q with tail := 1 }, pol := { p.pol with running := some e } }
    (s.queue 3 0).en = true ∧ (s.queue 3 0).resumes = [] ∧ (s.queue 3 0).depth = 1 ∧ ((s.wellFormedAt 3 0 (s.queue 3 0).head).map fun r =>
      decide (trSmin r = 0 ∧ trSpref r = 0)) = some true ∧ (∃ n, s.freeSlot 3 = some n) ∧ (∃ rc, s.placeAuto 3 (some 0) 0 0 = some rc) ∧
    (0x4000 : Nat) / 2048 = 8 ∧ (0x2000 : Nat) / 2048 = 4 ∧ s.rectFree 3 (some 0) (rectOf 0 0 0 0) = true ∧ ¬ (31 < (0 : BitVec 32).toNat) := by
  refine ⟨rfl, rfl, rfl, ?_, ⟨_, rfl⟩, Option.isSome_iff_exists.1 ?_, rfl, rfl, ?_, ?_⟩ <;> decide +kernel

/-- A disabled queue; one whose first record is malformed. -/
theorem test_meets_Decisions_2 :
    let s := ({ mapped owner with mem := { tables with cells := [(0, 1)] ++ tables.cells } } : State).modPart 3 fun p =>
      { p with queues := modAt p.queues 0 fun q => { q with tail := 1 } }
    (s.queue 3 1).en = false ∧ (s.queue 3 0).depth = 1 ∧ s.wellFormedAt 3 0 (s.queue 3 0).head = none := by
  refine ⟨rfl, rfl, ?_⟩
  decide

/-- A loop task whose A stream has not come to its kernel's end; a step that is not the last, one that is, and one of no stream. -/
theorem test_meets_ThreadEvents_5 :
    let subs : List (Nat × Nat) := [(0, 0), (4, 2), (0, 0)]
    let l : Thread := { thread with
      sc := { strm with subs := subs }, sa := { strm with subs := subs }
      loop := { s := 2, n := 1, t := 2, inStep := true, ks := 50, kmax := 50, arrived := [true, false, false, false] } }
    l.laggard = some .a ∧ l.loop.ks + l.loop.kmax ≤ 100 ∧ [StreamId.c, .a, .v, .m].any l.takesPart = true ∧
    [StreamId.c, .a, .v, .m].any thread.takesPart = false ∧ l.loop.step < l.loop.t ∧ ¬ (({ l.loop with step := 2 } : LoopUnit).step < 2) ∧
    ({ thread with c := { regs := regs, pending := .ckptAsked } } : Thread).c.pending = .ckptAsked := by
  refine ⟨rfl, ?_, rfl, rfl, ?_, ?_, rfl⟩ <;> decide

/-- A ffuse, that may go on without its panes or not, at the head of a C stream that has drained. -/
theorem test_meets_ThreadEvents_6 :
    let th : Thread := { pair with sc := { strm with hold := some 0 } }
    let s := ({ owner with turns := [], threads := [th] } : State).modCore 0 fun c => { c with imem := [(4, (0x0000710015000015, false))] }
    s.drained177 th = true ∧ th.isLoop = false ∧ ¬ FuseBarred th 5 ∧ FuseOwn s th (fuseTarget th.life.rect 5) ∧
    (∃ k, HeadOfC s th k (.ffuse true 5 (some 5))) ∧ s.fuseReady th (fuseTarget th.life.rect 5) = true := by
  refine ⟨rfl, rfl, ?_, ?_, ⟨_, ?_, ?_, ?_, ?_, ?_, ?_, ?_, ?_, ?_, ?_, ?_, rfl⟩, rfl⟩
  case refine_1 =>
    unfold FuseBarred
    decide
  case refine_2 =>
    unfold FuseOwn
    decide
  all_goals first | rfl | decide

/-- A write of thread 1 that nobody has seen yet, in this package; one whose thread has no fellow. -/
theorem test_meets_CommandEvents_3 :
    let w : LateWrite := { tid := 1, part := 3, line := 0x400, bytes := [], mark := none }
    let s : State := { during .c thread with late := [w] }
    w ∈ s.late ∧ w.tid = thread.tid ∧ s.homedHere w.line = true ∧ s.hasFellow thread = false ∧ (during .c thread).late = [] := by
  refine ⟨.head _, rfl, ?_, ?_, rfl⟩ <;> decide

/-- The bounds of placing: as many flits as free places, and one more, by the main ring and over the Footbridge. -/
theorem test_meets_PacketAndFilterEvents_3 :
    let v : Slots := ⟨2, 1, 0, 1⟩
    placeIn v 2 false false = some ({ sh := 2 }, false) ∧ placeIn v 3 false false = some ({ sh := 2, ma := 1 }, false) ∧
    placeIn v 3 true false = some ({ sh := 2, fb := 1 }, true) ∧ placeIn v 4 false false = none ∧
    ((sent (.port 7 true) []).port 0).placedAt ≠ some 100 ∧ ({ placedAt := some 100 } : Port).placedAt = some 100 ∧
    (packet .source).wher = .source ∧ goesBefore { packet (.port 7 true) with id := 0 } (packet (.port 7 true)) = true ∧
    (let p : Port := { owed := [⟨1, 1⟩, ⟨1, 0⟩] }
     p.owed = ⟨1, 1⟩ :: [⟨1, 0⟩] ∧ (1 : Nat) ≠ 0 ∧ ∀ x ∈ ([⟨1, 0⟩] : List Owed), x.pkt = 1) := by
  refine ⟨rfl, rfl, rfl, rfl, ?_, rfl, rfl, rfl, rfl, ?_, ?_⟩ <;> decide

/-- A partition that is being reset; a decision that runs; a reserved SZ; a thread of a lower class than a queue's. -/
theorem test_meets_HostWrites_3 :
    (let s := hosted.modPart 3 fun p => { p with cmd := { busy := true, op := 4 } }
     s.resetting 3 = true) ∧ ¬ (fieldNat (0x8C00000000000000 : Word) 59 56 < 12) ∧ fieldNat (0x8B00000000000000 : Word) 59 56 < 12 ∧
    ((deciding3 (decision .fault 0) thread).part 3).pol.running ≠ none ∧
    (let s := ({ hosted with threads := [thread] } : State).modPart 3 fun p =>
       { p with queues := (modAt p.queues 0 fun _ => { cfg := 0x8000000000000000 ||| 0x10000000 }) }
     ∃ th ∈ s.threads, th.life.part = 3 ∧ th.isRunning = true) ∧ (7 : BitVec 3) ≠ 0 := by
  refine ⟨rfl, ?_, ?_, ?_, ⟨_, .head _, rfl, rfl⟩, ?_⟩ <;> decide

/-- A TLBINV under way, over one page. -/
theorem test_meets_PartitionCommands_2 :
    let c : CmdPageSt := { busy := true, op := 8, inv := some (0x1000005, 0x1000000000010000) }
    c.inv = some (0x1000005, 0x1000000000010000) ∧ bitOf (0x1000005 : Word) 24 = true ∧ fieldNat (0x1000000000010000 : Word) 55 0 = 65536 ∧
    fieldNat (0x1000000000010000 : Word) 63 56 = 16 ∧ c.op ≠ 1 := by
  refine ⟨rfl, rfl, rfl, rfl, ?_⟩
  decide

/-- A thread with an open interval, of whose log no line is twice. -/
theorem test_meets_ImagesAndRollback_4 :
    let u : List UndoLine := [{ line := 5, bytes := List.replicate 64 7, mark := some 3 }, { line := 6, bytes := List.replicate 64 0, mark := none }]
    (∀ e ∈ u, e.bytes.length = 64) ∧ ∀ e ∈ u, ∀ f ∈ u, f.line = e.line → f = e := by
  refine ⟨?_, ?_⟩ <;> decide

/-- A quiesce that runs while a partition is not at its cut; ports and spare rows that the flash holds. -/
theorem test_meets_DeviceCommands_3 :
    let f : Flash := { State.reset.flash with ports := [7], rows := [(3, 0x400)] }
    f.ports.contains 7 = true ∧ f.ports.contains 6 = false ∧ (f.rows.filter (·.1 == 3)).map (·.2) = [0x400] ∧ 7 < State.reset.ports.length ∧
    ({ busy := true, op := 7 } : CmdPageSt).op ≠ 1 := by
  refine ⟨rfl, rfl, rfl, ?_, ?_⟩ <;> decide

/-- One current sensor out of range and the highest of the others; a link with two lanes used; a peer with a copy of a line and one without. -/
theorem test_meets_DeviceEvents_3 :
    let groups : List Int := [-1, 100, 250, 0, 0, 0]
    groups.getD 0 0 < 0 ∧ groups[2]? = some 250 ∧ (∀ i, i < 6 → i ≠ 0 → 0 ≤ groups.getD i 0 ∧ groups.getD i 0 ≤ 250) ∧
    (∀ i, i < 6 → ([true, false, false, false, false, false] : List Bool).getD i false = decide (i = 0)) ∧
    2 ≤ (([4, 4] : List Nat).filter (· == 4)).length ∧ ([4] : List Nat).length < 2 ∧
    (let y : PeerProxy := { pkg := 1, line := 64, bytes := [], mark := none }
     ([y] : List PeerProxy).find? (fun z => z.pkg == 1 && z.line == 64) = some y ∧
       (State.reset.peers.find? fun z => z.pkg == 1 && z.line == 64) = none) ∧
    ({ State.reset with homes := [⟨0, 4096, .package 2⟩] } : State).homeOf 63 = .package 2 ∧
    ({ State.reset with homes := [⟨0, 4096, .host⟩] } : State).homeOf 63 = .host := by
  refine ⟨?_, rfl, ?_, ?_, ?_, ?_, ⟨rfl, rfl⟩, rfl, rfl⟩ <;> decide

/-- A result whose latency has not passed; a load that has not returned. -/
theorem test_meets_VectorLaneResults_3 :
    ({ lanes.v with belt := [{ at_ := 101 }] } : VState).waits 100 [.belt 0, .zero] (lanes.v.active lanes.lanes true) none = true ∧
    ({ lanes.v with belt := [{ at_ := 100 }] } : VState).waits 100 [.belt 0, .zero] (lanes.v.active lanes.lanes true) none = false ∧
    lanes.v.waits 100 [.belt 1, .zero] (lanes.v.active lanes.lanes true) none = true ∧ (31 : BitVec 5).toNat < lanes.v.file.length := by
  refine ⟨?_, ?_, ?_, ?_⟩ <;> decide

/-! #### Clauses on what several agents do in one cycle -/

/-- A V stream whose guard a gpush of the C stream that waits is still to pop in this cycle; one whose turn was put behind; an empty slot. -/
theorem test_meets_StepRunsTheStreamInstructionDecoded_4 :
    let th : Thread := { thread with sc := { strm with peek := some (100, true, 2) } }
    let s : State := { during .v th with turns := [.stream 1 .c] }
    s.headKept th .v 2 = true ∧ s.headKept th .v 3 = false ∧ s.headKept { th with sv := { strm with behind := some 100 } } .v 2 = false ∧
    (during .v th).headKept th .v 2 = false ∧ th.guardValue 100 .v 2 = none := ⟨rfl, rfl, rfl, rfl, rfl⟩

/-- A ring as it stood at the cycle's start, and one whose head has moved before. -/
theorem test_meets_WordTilesAndTileStates_2 :
    tiled.ring? 100 5 = some { first := 10, n := 2, tail := 1 } ∧ ({ first := 10, n := 2, tail := 1 } : Ring).headSince ≤ 100 ∧
    ({ first := 10, n := 2, tail := 1 } : Ring).head < 2 ∧ ¬ (({ first := 10, n := 2, headSince := 101, headWas := 1 } : Ring).headSince ≤ 100) := by
  refine ⟨rfl, ?_, ?_, ?_⟩ <;> decide

/-- A wadr that has not read yet, and one whose word stands as it read it. -/
theorem test_meets_WaitOnAddressAndAccessOrder_2 :
    let s := during .c thread
    let word : Polled := { since := thread.sc.idleRef, unit := 0, word := s.spWords thread 0 1 }
    thread.c.polled ≠ some word ∧ ({ thread with c := { thread.c with polled := some word } } : Thread).c.polled = some word := by
  refine ⟨?_, rfl⟩
  decide

/-- A partner whose own fchain stands at its head, and one that is at another instruction. -/
theorem test_meets_FragmentInstructions_6 :
    let o : Thread := { idleOthers with tid := 2, life := { thread.life with rect := { ccol := 2, lcols := 1 }, offerW := true } }
    let at_ := fun w : Word => ({ during .c pair with threads := [pair, o] } : State).modCore (o.coreOf 0) fun c => { c with imem := [(4, (w, false))] }
    (at_ 0x0000720015000001).headInstr o .c = some (.fchain true (some 5)) ∧ (at_ 0).headInstr o .c = some .nop ∧
    (at_ 0).partner pair false = some o ∧ pair.life.chainE = none := by
  refine ⟨?_, ?_, ?_, ?_⟩ <;> first | rfl | decide

/-- A word of a block that has been read ahead, and none; a block that may be read ahead. -/
theorem test_meets_DrawsAndSamples_2 :
    ({ thread with sc := { strm with early := [(0x40, (7, none))] } } : Thread).early? 0x40 = some (7, none) ∧ thread.sc.early = [] ∧
    legal32 thread.panes 0x40 2 = true := ⟨rfl, rfl, rfl⟩

theorem noLatent_sampling (b : Bool) : NoLatent (sampling b) := by
  intro c
  simp only [State.core, sampling, getD_setAt]
  split
  · rfl
  · exact noLatent_during .c thread c

/-- The streams that do not run wait on nothing that comes from elsewhere; a barrier comes from elsewhere. -/
theorem test_meets_TrapsTakenAndRaised_3 :
    let still_ : Thread := { idleOthers with sc := { strm with wdog := some 9, wait := .tile } }
    still_.allStuck 100 none = true ∧ ({ still_ with sc := { still_.sc with wait := .gbar } } : Thread).allStuck 100 none = false ∧
    thread.allStuck 100 none = false := ⟨rfl, rfl, rfl⟩

/-- No command writes afar and every write has been seen; a command that writes; a write that nobody has seen. -/
theorem test_meets_PoisonTestAndFaultRequest_2 :
    (thread.src (word4 .c) (.belt 8)).Clean ∧ fieldNat (thread.src (word4 .c) (.belt 8)).bits 63 16 = 0 ∧
    (∀ c ∈ thread.a.cmds, writesAfar c.instr = false) ∧ (during .c thread).fenceWaits thread .dev = false ∧
    writesAfar (.tst none 1 (.tile 2) (.belt 4)) = true ∧
    ({ during .c thread with late := [{ tid := 1, part := 3, line := 0x400, bytes := [], mark := none }] } : State).fenceWaits thread .dev = true ∧
    fieldNat (thread.src (word4 .c) (.belt 1)).bits 63 16 ≠ 0 := by
  refine ⟨⟨rfl, rfl⟩, ?_, List.forall_mem_nil _, rfl, rfl, rfl, ?_⟩ <;> decide

/-- An access of two chunks in one bank. -/
theorem test_meets_VectorAccessesIssueAndPerform_4 :
    ¬ (vldxCycles 1 (some 0 :: some 1024 :: List.replicate 62 none) ≤ 1) ∧ vldxCycles 1 (some 0 :: some 4 :: List.replicate 62 none) ≤ 1 := by
  refine ⟨?_, ?_⟩ <;> decide

/-- A ring that is not configured and one of another geometry; a tile that is neither; an east neighbour with such a ring; blocks yet to begin. -/
theorem test_meets_MatrixInstructionsIssue_4 :
    field.descOf 100 (.ring 9) = none ∧ field.descOf 100 (.ring 2) = some 0x80 ∧ descRows 0x80 ≠ 64 * field.life.rect.rows ∧
    descRows 0x3F0000 ≠ 1 ∧ ({ field.m with held := [false, true] } : MState).held.getD (parIx true) false = true ∧
    field.m.held.getD (parIx true) false = false ∧ field.descOf 100 (.tile 42) = some 0x90 ∧ descRows 0x90 ≠ 64 * field.life.rect.rows ∧
    field.descOf 100 (.tile 99) = none ∧ field.writer 100 (.tile 99) = .bad ∧
    (let o : Thread := { field with tid := 2 }
     let th : Thread := { field with life := { field.life with chainE := some 2 } }
     ({ during .m th with threads := [th, o] } : State).eastOf th = some o ∧ o.descOf 100 (.ring 9) = none) ∧
    ({ field.m with ops := [.chain ⟨3, 0, [[([], none)], [([], none)]], some (⟨30, some 0⟩, 100), 0, false⟩] } : MState).chainBusy = true ∧
    field.m.chainBusy = false := by
  refine ⟨?_, ?_, ?_, ?_, ?_, ?_, ?_, ?_, ?_, ?_, ?_, ?_, ?_⟩ <;> first | rfl | decide

/-- Of two chained drains the one whose delivery ends; a pass whose check is due behind one whose check is not. -/
theorem test_meets_MatrixOperationsComplete_3 :
    let c : ChainOut := ⟨3, 0, [[([], none)]], some (⟨30, some 0⟩, 100), 0, false⟩
    let q : Pass := { id := 1, par := false, a := ⟨30, some 0⟩, b := ⟨31, some 1⟩, inj := 8, at_ := 83, left := 0, spacing := 1 }
    ({ field.m with ops := [.chain { c with going := some (⟨30, some 0⟩, 101) }, .chain c] } : MState).nextChain 100 = some c ∧
    ({ field with m := { field.m with ops := [.pass { q with at_ := 90 }, .pass q] } } : Thread).m.passesIn.find? (fun q =>
      !q.concluded && q.left == 0 && decide (q.at_ + q.spacing + 4 * (field.life.rect.rows + field.life.rect.cols) + 8 ≤ 100)) = some q := by
  refine ⟨?_, ?_⟩ <;> first | rfl | decide

/-- A grant whose panes are unleased, and one of which a pane is another thread's. -/
theorem test_meets_PolicyOutputs_5 :
    owner.fuseFree pair (fuseTarget pair.life.rect 5) = true ∧
    (owner.modCores [0] fun c => { c with lease := .leased 9 }).fuseFree pair (fuseTarget pair.life.rect 5) = false ∧
    (∀ n : BitVec 32, (some (Verdict.grant 0)) ≠ some (.fail n)) := by
  refine ⟨rfl, rfl, fun n h => ?_⟩
  cases h

/-- A thread in a chain whose partner runs, outside a step and inside one; a checkpoint at its boundary; a saved member of a barrier. -/
theorem test_meets_ThreadEvents_7 :
    let o : Thread := { idleOthers with tid := 2, life := { thread.life with rect := { ccol := 2, lcols := 1 }, chainW := some 1 } }
    let th : Thread := { pair with life := { pair.life with chainE := some 2, asked := some 0 } }
    let s : State := { during .c th with threads := [th, o] }
    let stored : Thread := { idleOthers with life := { idleOthers.life with phase := .saving 2 99 } }
    s.thread? 1 = some th ∧ s.thread? 2 = some o ∧ th.loop.inStep = false ∧ th.life.mate = false ∧ th.life.chainW = none ∧ o.loop.inStep = false ∧
    o.life.phase = .running ∧ ({ o with loop := { s := 2, n := 1, t := 2, inStep := true } } : Thread).loop.inStep = true ∧
    (during .c stored).atBoundary stored 2 99 = true ∧ ({ strm with wait := .gbar } : Strm).wait = .gbar := by
  refine ⟨rfl, rfl, rfl, rfl, rfl, rfl, rfl, rfl, rfl, rfl⟩

/-- Two threads on a die of which each has a command that waits for one page, which both stages map, or do not. -/
theorem test_meets_CommandEvents_4 :
    let c := { moving (.tst none 1 (.tile 2) (.belt 4)) ⟨2, none⟩ with walking := true, elem := 0 }
    let x := movingTh c
    let y : Thread := { movingTh { c with id := 4 } with tid := 2 }
    let bare : State := { (movingSt c).modDie 0 fun d => { d with tlb := [], walks := [⟨3, 5, 1⟩] } with threads := [x, y] }
    let s := mapped bare
    (⟨3, (5 : BitVec 24).toNat, 1⟩ : Walk) ∈ (s.die 0).walks ∧ s.waitsOn x c = some 0x10000 ∧ s.waitsOn y { c with id := 4 } = some 0x10000 ∧
    s.thread? 2 = some y ∧ (y.a.cmds.map (·.id)).Nodup ∧ (∃ l, s.walkBoth 3 5 0x10000 c.need = .ok l) ∧
    (∃ f, bare.walkBoth 3 5 0x10000 c.need = .error f) ∧ x.life.phase.active = true := by
  refine ⟨?_, ?_, ?_, rfl, ?_, ⟨_, rfl⟩, ⟨_, rfl⟩, rfl⟩ <;> first | rfl | decide

/-- Readings of which one differs from its neighbours by more than 15; sensors of which one failed out of range and one was stuck. -/
theorem test_meets_DeviceEvents_4 :
    let c : Cluster := { temps := [60, 60, 60] }
    let s : State := { State.reset with clusters := List.replicate 32 c }
    s.nearTemps 0 0 = [60, 60, 60, 60, 60, 60, 60, 60] ∧ 15 * 8 < ((8 : Int) * 76 - 480).natAbs ∧ ¬ (15 * 8 < ((8 : Int) * 75 - 480).natAbs) ∧
    (let f : Cluster := { c with failed := [true, true, false], outs := [true, false, false] }
     f.failed ≠ [true, true, true] ∧ f.failed.getD 0 false = true ∧ f.outs.getD 0 false = true ∧ f.outs.getD 1 false = false ∧
     (s.modCluster 0 fun _ => f).nearTemps 0 0 = [60, 60, 60, 60, 60, 60, 60] ∧ (65 : Int) - 5 ∈ ([60, 60] : List Int)) ∧
    0 / 4 < s.dies.length ∧ ({} : Cluster).outs.length = 3 ∧ ({} : Rail).outs.length = 6 := by
  refine ⟨?_, ?_, ?_, ⟨?_, ?_, ?_, ?_, ?_, ?_⟩, ?_, ?_, ?_⟩ <;> first | rfl | decide

/-- A line with room, a retired line that a range homes on a die, and a line of host memory. -/
theorem test_meets_DeviceEvents_5 :
    let s : State := { State.reset with homes := [⟨0, 128, .die 0⟩, ⟨128, 64, .host⟩] }
    let worn := s.modDie 0 fun d => { d with retired := [1] }
    State.reset.held 64 = true ∧ s.namedHome 1 = some (.die 0) ∧ s.held 1 = true ∧ worn.namedHome 1 = some (.die 0) ∧ (1 : Nat) ∈ (worn.die 0).retired ∧
    worn.held 1 = false ∧ worn.homeOf 1 = .die 0 ∧ s.held 2 = true := by
  refine ⟨?_, ?_, ?_, ?_, ?_, ?_, ?_, ?_⟩ <;> decide

/-- A queue with a resume entry in a partition that has panes for its thread, by the machine's choice and in an exact place. -/
theorem test_meets_PolicyOutputs_6 :
    let old : Thread := { idleOthers with life := { idleOthers.life with phase := .saved } }
    let e : Decision := { decision .dispatch 0 with picks := [.disp 0 0] }
    let s := ({ mapped owner with threads := [old], cur := .policy 3 } : State).modPart 3 fun p =>
      { p with queues := modAt p.queues 0 fun q => { q with resumes := [{ tid := 1 }] }, pol := { p.pol with running := some e } }
    (s.queue 3 0).en = true ∧ (s.queue 3 0).resumes = { tid := 1 } :: [] ∧ s.thread? 1 = some old ∧ old.life.part = 3 ∧
    (∃ rc, s.placeShape 3 none old.life.rect.shape = some rc) ∧ s.rectFree 3 none (rectOf 0 0 0 0) = true := by
  refine ⟨rfl, rfl, rfl, rfl, Option.isSome_iff_exists.1 ?_, ?_⟩ <;> decide +kernel

end Sys2Proof.Tests
end

section
/-! SUPPORT. The refutation of O49: an sacc that traps while the trap of a parked command waits freezes its thread with that older trap. -/

namespace Sys2Proof.Machine

open Sys2Proof

/-! ### The trap of a parked command that waits -/

/-- The trap that waits is older, so it becomes the primary one, whatever traps now (10 R214; 15 R303). -/
theorem Thread.takeTrap_waiting {th : Thread} (now : Nat) (f : FaultRec) {old : FaultRec} (htrap : th.life.trapping = false)
    (hphase : th.life.phase = .running) (hwait : th.life.waitingTrap = some old) :
    (th.takeTrap now f).life.trapping = true ∧ (th.takeTrap now f).life.fault = old := by
  simp [Thread.takeTrap, Thread.firstTrap, Thread.secondTrap, Thread.modLife, htrap, hphase, hwait]

/-- An sacc whose row scales are named by no configured ring traps ILLEGAL (08 R158). -/
theorem sacc_traps_of_no_ring {s : State} {k : Issue} {th : Thread} (hi : Issues s k th) (p : Bool) (acc : BitVec 2) (ra rb : BitVec 5)
    (hring : th.descOf s.now (.ring ra) = none) : Traps s (.sacc p acc ra rb) k th illegal := by
  have hexec : exec (.sacc p acc ra rb) s = startFold false p acc ra rb s := rfl
  unfold startFold at hexec
  exact traps_of_trap hi hexec (by simp only [hring])

/-- Such an sacc, in a thread in which the trap of a parked command waits: the fault record is the parked command's. -/
theorem sacc_takes_waiting_trap {s : State} {k : Issue} {th : Thread} {old : FaultRec} (hi : Issues s k th) (p : Bool) (acc : BitVec 2)
    (ra rb : BitVec 5) (hring : th.descOf s.now (.ring ra) = none) (htrap : th.life.trapping = false) (hphase : th.life.phase = .running)
    (hwait : th.life.waitingTrap = some old) :
    ∃ t u, exec (.sacc p acc ra rb) s = .next t ∧ t.thread? k.tid = some u ∧ u.life.trapping = true ∧ u.life.fault = old := by
  obtain ⟨t, hexec, -, hthread, -⟩ := sacc_traps_of_no_ring hi p acc ra rb hring
  exact ⟨t, _, hexec, hthread, Thread.takeTrap_waiting _ _ htrap hphase hwait⟩

/-! ### The counterexample -/

/-- The fault record of a command whose page has no translation. -/
def untranslated : FaultRec := { strm := .a, code := trapTranslation }

/-- A thread with no ring configured, whose one command, a store of tile 2, has parked on that fault; its M stream runs on. -/
def parkedStorer : Thread :=
  Thread.parkFault
    { tid := 1, sm := { run := .running },
      a := { cmds := [{ id := 0, instr := .tst none 1 (.tile 2) (.belt 4), word := 0, lit := 0, pc := 3, a := {}, b := {}, t := {} }] } }
    99 0 untranslated

/-- The issue of the word at the head of its M stream. -/
def parkedStorerIssue : Issue := { tid := 1, sid := .m }

/-- The machine as it issues. -/
def parkedStorerState : State := { State.reset with now := 100, cur := .stream parkedStorerIssue, threads := [parkedStorer] }

theorem issues_parkedStorer : Issues parkedStorerState parkedStorerIssue parkedStorer := ⟨rfl, rfl⟩

/-- What parking leaves of the thread's life: it runs, and the command's trap waits. -/
theorem parkedStorer_life :
    parkedStorer.life.phase = .running ∧ parkedStorer.life.trapping = false ∧ parkedStorer.life.waitingTrap = some untranslated :=
  ⟨rfl, rfl, rfl⟩

/-- Refutes O49, by its clause on sacc, which leaves out that no trap of a parked command waits (10 R214): there an sacc of a ring that is not
configured freezes its thread, and the fault record is the parked command's, a TRANSLATION and no ILLEGAL. -/
theorem not_matrixOperationsComplete : ¬ Obligations.MatrixOperationsComplete := by
  unfold Obligations.MatrixOperationsComplete
  intro h
  obtain ⟨hphase, htrap, hwait⟩ := parkedStorer_life
  obtain ⟨-, -, -, -, -, -, hsacc⟩ := h parkedStorerState 1 parkedStorer rfl rfl
  obtain ⟨t, u, hexec, hthread, hfrozen, hfault⟩ :=
    sacc_takes_waiting_trap issues_parkedStorer false 0 2 3 rfl htrap hphase hwait
  have hends : u.life = parkedStorer.life ∨ u.life.fault.code = 1 :=
    hsacc parkedStorerIssue false 0 2 3 t u issues_parkedStorer rfl hphase htrap _ List.mem_cons_self hexec hthread
  rcases hends with hkept | hillegal
  · rw [hkept, htrap] at hfrozen
    cases hfrozen
  · rw [hfault] at hillegal
    cases hillegal

end Sys2Proof.Machine
end

section
/-! SUPPORT. What a policy instruction does to the decision that issues it (13 R261, R266 to R272, R277), and the settling of O50. -/

namespace Sys2Proof.Machine

open Sys2Proof

/-! ### The decision that issues, and its cycle -/

/-- The decision e of partition p issues the instruction. -/
def Decides (s : State) (p : Nat) (e : Decision) : Prop := s.cur = .policy p ∧ (s.part p).pol.running = some e

/-- The instruction takes one cycle of the decision e, leaves it as x, and changes nothing else (13 R261). -/
def Leaves (s : State) (p : Nat) (e : Decision) (i : Instr) (x : Decision) : Prop :=
  ∃ t, exec i s = .next t ∧ t = { s with parts := t.parts } ∧
    t.part p = { s.part p with pol := { (s.part p).pol with running := some { x with cycles := e.cycles + 1 } } } ∧
    ∀ q, q ≠ p → t.part q = s.part q

/-- A partition in which a decision runs is one of the machine's. -/
theorem Decides.part_lt {s : State} {p : Nat} {e : Decision} (h : Decides s p e) : p < s.parts.length := by
  obtain ⟨-, hrun⟩ := h
  rcases Nat.lt_or_ge p s.parts.length with hlt | hge
  · exact hlt
  · have hnone : s.part p = {} := by rw [State.part, List.getD_eq_getElem?_getD, List.getElem?_eq_none hge, Option.getD_none]
    rw [hnone] at hrun
    cases hrun

theorem deciding_of {s : State} {p : Nat} {e : Decision} (h : Decides s p e) (f : Nat → Decision → Answer) : deciding s f = f p e := by
  obtain ⟨hcur, hrun⟩ := h
  simp [deciding, hcur, hrun]

theorem State.cycleTo_part_self {s : State} {p : Nat} (hp : p < s.parts.length) (x : Decision) :
    (s.cycleTo p x).part p = { s.part p with pol := { (s.part p).pol with running := some { x with cycles := x.cycles + 1 } } } := by
  simp [State.cycleTo, State.modPol, State.part_modPart, hp]

theorem State.cycleTo_part_other (s : State) {p q : Nat} (hq : q ≠ p) (x : Decision) : (s.cycleTo p x).part q = s.part q := by
  simp [State.cycleTo, State.modPol, State.part_modPart, hq]

section
variable {s : State} {p : Nat} {e : Decision} (h : Decides s p e)
include h

/-- What goes on by cycleTo leaves the decision given. -/
theorem leaves_of_cycleTo {i : Instr} {x : Decision} (hexec : exec i s = .next (s.cycleTo p x)) (hcycles : x.cycles = e.cycles) :
    Leaves s p e i x := by
  refine ⟨s.cycleTo p x, hexec, rfl, ?_, fun q hq => s.cycleTo_part_other hq x⟩
  rw [State.cycleTo_part_self h.part_lt, hcycles]

theorem leaves_of_policyOp {i : Instr} {f : Decision → Decision} {x : Decision} (hexec : exec i s = policyOp s f) (hf : f e = x)
    (hcycles : x.cycles = e.cycles) : Leaves s p e i x := by
  refine leaves_of_cycleTo h ?_ hcycles
  rw [hexec, policyOp, deciding_of h, hf]

theorem leaves_of_policyPut {i : Instr} {d : BitVec 4} {f : Decision → BitVec 32} {v : BitVec 32} (hexec : exec i s = policyPut s d f)
    (hv : f e = v) : Leaves s p e i (e.put d v) :=
  leaves_of_policyOp h hexec (congrArg (e.put d) hv) rfl

end

/-! ### Register instructions (R267) -/

theorem ite_lt_eq_ofNat_min (x y : BitVec 32) : (if x < y then x else y) = BitVec.ofNat 32 (min x.toNat y.toNat) := by
  split <;> rename_i hlt <;> rw [BitVec.lt_def] at hlt
  · rw [Nat.min_eq_left (by omega), BitVec.ofNat_toNat, BitVec.setWidth_eq]
  · rw [Nat.min_eq_right (by omega), BitVec.ofNat_toNat, BitVec.setWidth_eq]

theorem ite_lt_eq_ofNat_max (x y : BitVec 32) : (if x < y then y else x) = BitVec.ofNat 32 (max x.toNat y.toNat) := by
  split <;> rename_i hlt <;> rw [BitVec.lt_def] at hlt
  · rw [Nat.max_eq_right (by omega), BitVec.ofNat_toNat, BitVec.setWidth_eq]
  · rw [Nat.max_eq_left (by omega), BitVec.ofNat_toNat, BitVec.setWidth_eq]

theorem condHolds_iff (c : Cond) (x y : Int) : condHolds c x y = true ↔ c.Holds x y := by
  cases c <;> simp [condHolds, Cond.Holds]

section
variable {s : State} {p : Nat} {e : Decision} (h : Decides s p e)
include h

theorem leaves_pmin (d a b : BitVec 4) :
    Leaves s p e (.pmin d a b) (e.put d (BitVec.ofNat 32 (min (e.reg a).toNat (e.reg b).toNat))) :=
  leaves_of_policyPut (i := .pmin d a b) h rfl (ite_lt_eq_ofNat_min _ _)

theorem leaves_pmax (d a b : BitVec 4) :
    Leaves s p e (.pmax d a b) (e.put d (BitVec.ofNat 32 (max (e.reg a).toNat (e.reg b).toNat))) :=
  leaves_of_policyPut (i := .pmax d a b) h rfl (ite_lt_eq_ofNat_max _ _)

theorem leaves_pcmp_of_holds {c : Cond} (d : BitVec 4) {a b : BitVec 4} (hc : c.Holds (e.reg a).toNat (e.reg b).toNat) :
    Leaves s p e (.pcmp c d a b) (e.put d 1) :=
  leaves_of_policyPut (i := .pcmp c d a b) h rfl (if_pos ((condHolds_iff c _ _).2 hc))

theorem leaves_pcmp_of_not_holds {c : Cond} (d : BitVec 4) {a b : BitVec 4} (hc : ¬ c.Holds (e.reg a).toNat (e.reg b).toNat) :
    Leaves s p e (.pcmp c d a b) (e.put d 0) :=
  leaves_of_policyPut (i := .pcmp c d a b) h rfl (if_neg fun holds => hc ((condHolds_iff c _ _).1 holds))

theorem leaves_psel_of_zero {d : BitVec 4} (a b : BitVec 4) (hd : e.reg d = 0) : Leaves s p e (.psel d a b) (e.put d (e.reg b)) :=
  leaves_of_policyPut (i := .psel d a b) h rfl (by simp [hd])

theorem leaves_psel_of_ne_zero {d : BitVec 4} (a b : BitVec 4) (hd : e.reg d ≠ 0) : Leaves s p e (.psel d a b) (e.put d (e.reg a)) :=
  leaves_of_policyPut (i := .psel d a b) h rfl (if_pos (bne_iff_ne.2 hd))

/-- pget reads the word as it stood committed before the decision (R277). -/
theorem leaves_pget (d : BitVec 4) (w : BitVec 3) :
    Leaves s p e (.pget d w) (e.put d ((s.part p).pol.pwords.getD w.toNat 0)) := by
  have hexec : exec (.pget d w) s = execPget d w s := rfl
  refine leaves_of_cycleTo h ?_ rfl
  rw [hexec, execPget, deciding_of h]

/-! ### Branches and loops (R268) -/

/-- A branch taken goes forward by its offset, and at most closes loops. -/
theorem leaves_of_goTo {i : Instr} {off : BitVec 14} {f : Decision → Decision} (hexec : exec i s = policyOp s f)
    (hf : f e = e.goTo (e.pc + off.toNat)) :
    ∃ ls, (∀ l ∈ ls, l ∈ e.loops) ∧ Leaves s p e i { e with pc := e.pc + off.toNat, loops := ls } :=
  ⟨(e.goTo (e.pc + off.toNat)).loops, fun _ hl => (List.mem_filter.1 hl).1, leaves_of_policyOp h hexec hf rfl⟩

theorem leaves_pbf_of_ne_zero {a : BitVec 4} (off : BitVec 14) (ha : e.reg a ≠ 0) : Leaves s p e (.pbf a off) e.on :=
  leaves_of_policyOp (i := .pbf a off) h rfl (if_neg ha) rfl

theorem leaves_branch_taken {i : Instr} {a : BitVec 4} {off : BitVec 14} (hi : i ∈ [Instr.pbf a off, .pjf off])
    (ha : i = .pbf a off → e.reg a = 0) :
    ∃ ls, (∀ l ∈ ls, l ∈ e.loops) ∧ Leaves s p e i { e with pc := e.pc + off.toNat, loops := ls } := by
  obtain rfl | rfl : i = .pbf a off ∨ i = .pjf off := by simpa using hi
  case inl => exact leaves_of_goTo (i := .pbf a off) h rfl (if_pos (ha rfl))
  case inr => exact leaves_of_goTo (i := .pjf off) h rfl rfl

end

/-- A queue that had EN = 1 as the snapshot was taken. -/
def Snapshot.Enabled (n : Snapshot) (q : Nat) : Prop := q < 32 ∧ (n.queues.getD q {}).en = true

/-- The lowest such queue from m on. -/
def Snapshot.FirstFrom (n : Snapshot) (m q : Nat) : Prop := m ≤ q ∧ n.Enabled q ∧ ∀ j, m ≤ j → j < q → ¬ n.Enabled j

theorem Snapshot.nextQueue_eq_none {n : Snapshot} {m : Nat} (h : ∀ j, m ≤ j → ¬ n.Enabled j) : n.nextQueue m = none := by
  refine List.find?_eq_none.2 fun j hj hfound => ?_
  obtain ⟨hmj, hen⟩ : m ≤ j ∧ (n.queues.getD j {}).en = true := by simpa using hfound
  exact h j hmj ⟨List.mem_range.1 hj, hen⟩

theorem Snapshot.nextQueue_eq_some {n : Snapshot} {m q : Nat} (h : n.FirstFrom m q) : n.nextQueue m = some q := by
  obtain ⟨hmq, ⟨hq, hen⟩, hfirst⟩ := h
  refine List.find?_range_eq_some.2 ⟨by simpa [hmq] using hen, List.mem_range.2 hq, fun j hj => ?_⟩
  rcases Nat.lt_or_ge j m with hjm | hmj
  · simp [hjm]
  · have hoff : ¬ (n.queues.getD j {}).en = true := fun hj_en => hfirst j hmj hj ⟨Nat.lt_trans hj hq, hj_en⟩
    rw [Bool.not_eq_true] at hoff
    rw [hoff, Bool.and_false, Bool.not_false]

section
variable {s : State} {p : Nat} {e : Decision} (h : Decides s p e)
include h

theorem leaves_qloop_of_none (d : BitVec 4) (off : BitVec 14) (hnone : ∀ q, ¬ e.snap.Enabled q) :
    ∃ ls, Leaves s p e (.qloop d off) { e with pc := e.pc + off.toNat, loops := ls } := by
  have hnext : e.snap.nextQueue 0 = none := Snapshot.nextQueue_eq_none fun j _ => hnone j
  obtain ⟨ls, -, hls⟩ := leaves_of_goTo (i := .qloop d off) (off := off) h rfl (by simp only [hnext])
  exact ⟨ls, hls⟩

theorem leaves_qloop_of_first (d : BitVec 4) (off : BitVec 14) {q : Nat} (hq : e.snap.FirstFrom 0 q) :
    ∃ ls, Leaves s p e (.qloop d off) { e.put d (BitVec.ofNat 32 q) with loops := (e.pc, q) :: ls } := by
  refine ⟨e.loops.filter fun l => l.1 != e.pc, leaves_of_policyOp (i := .qloop d off) h rfl ?_ rfl⟩
  simp only [Snapshot.nextQueue_eq_some hq]

/-- The loop's cursor has no further queue: the loop closes. -/
theorem leaves_qnext_of_none (d : BitVec 4) {off : BitVec 14} {q0 : Nat}
    (hloop : e.loops.find? (fun x => x.1 == e.pc - off.toNat - 1) = some (e.pc - off.toNat - 1, q0))
    (hnone : ∀ j, q0 < j → ¬ e.snap.Enabled j) : ∃ ls, Leaves s p e (.qnext d off) { e.on with loops := ls } := by
  refine ⟨e.loops.filter fun x => x.1 != e.pc - off.toNat - 1, leaves_of_policyOp (i := .qnext d off) h rfl ?_ rfl⟩
  simp only [hloop, Option.bind_some, Snapshot.nextQueue_eq_none hnone]

theorem leaves_qnext_of_first (d : BitVec 4) {off : BitVec 14} {q0 q : Nat}
    (hloop : e.loops.find? (fun x => x.1 == e.pc - off.toNat - 1) = some (e.pc - off.toNat - 1, q0))
    (hq : e.snap.FirstFrom (q0 + 1) q) : ∃ ls, Leaves s p e (.qnext d off)
      { e.put d (BitVec.ofNat 32 q) with pc := e.pc - off.toNat, loops := (e.pc - off.toNat - 1, q) :: ls } := by
  refine ⟨e.loops.filter fun x => x.1 != e.pc - off.toNat - 1, leaves_of_policyOp (i := .qnext d off) h rfl ?_ rfl⟩
  simp only [hloop, Option.bind_some, Snapshot.nextQueue_eq_some hq]

/-! ### pview (R269, R271) -/

theorem leaves_pview_of_value {item : ViewItem} (d : BitVec 4) {a b : BitVec 4} {v : BitVec 32}
    (hv : e.view item (e.reg a) (e.reg b) = some v) : Leaves s p e (.pview item d a b) (e.put d v) :=
  leaves_of_policyOp (i := .pview item d a b) h rfl (by simp only [hv]) rfl

/-- A view that waits for a probe's answer stays at its word. -/
theorem leaves_pview_of_waits {item : ViewItem} (d : BitVec 4) {a b : BitVec 4} (hv : e.view item (e.reg a) (e.reg b) = none) :
    Leaves s p e (.pview item d a b) e :=
  leaves_of_policyOp (i := .pview item d a b) h rfl (by simp only [hv]) rfl

end

/-! ### probe (R272) -/

/-- Entry k of queue q has been probed in this decision. -/
def Decision.Probed (e : Decision) (q k : Nat) : Prop := ∃ x ∈ e.probes, x.queue = q ∧ x.entry = k

theorem Decision.isSome_probeOf_iff (e : Decision) (q k : Nat) : (e.probeOf q k).isSome = true ↔ e.Probed q k := by
  simp [Decision.probeOf, Decision.Probed]

/-- Probe i is answered, or there is none. -/
def Decision.Answered (e : Decision) (i : Nat) : Prop := ∀ x, e.probes[i]? = some x → x.answered = true

/-- The probes that wait for their answers. -/
def Decision.waiting (e : Decision) : Nat := (e.probes.filter fun x => !x.answered).length

theorem Decision.holdProbe_of_full {e : Decision} (hwait : e.probeWait = none) (hfull : 32 ≤ e.waiting) :
    e.holdProbe = some (e.probes.findIdx fun x => !x.answered) := by
  simp only [Decision.holdProbe, hwait]
  exact if_pos hfull

theorem Decision.holdProbe_of_room {e : Decision} (hwait : e.probeWait = none) (hroom : e.waiting < 32) : e.holdProbe = none := by
  simp only [Decision.holdProbe, hwait]
  exact if_neg (Nat.not_le.2 hroom)

theorem Decision.answered_iff_getD (e : Decision) (i : Nat) : e.Answered i ↔ (e.probes[i]?.map (·.answered)).getD true = true := by
  unfold Decision.Answered
  cases e.probes[i]? <;> simp

theorem Decision.holdProbe_of_unanswered {e : Decision} {i : Nat} (hwait : e.probeWait = some i) (hi : ¬ e.Answered i) :
    e.holdProbe = some i := by
  simp only [Decision.holdProbe, hwait]
  exact if_neg fun hans => hi ((e.answered_iff_getD i).2 hans)

theorem Decision.holdProbe_of_answered {e : Decision} {i : Nat} (hwait : e.probeWait = some i) (hi : e.Answered i) :
    e.holdProbe = none := by
  simp only [Decision.holdProbe, hwait]
  exact if_pos ((e.answered_iff_getD i).1 hi)

/-- A probe of an entry whose hint leads to the line given; one with no line is answered at once, with no hit. -/
def State.probeOn (s : State) (q k : Nat) : Option Nat → Probe
  | some l => { queue := q, entry := k, line := l, was := s.present l, answered := false, hit := false }
  | none => { queue := q, entry := k, answered := true, hit := false }

theorem State.probeOn_fields (s : State) (q k : Nat) (line : Option Nat) :
    (s.probeOn q k line).queue = q ∧ (s.probeOn q k line).entry = k ∧ (s.probeOn q k line).hit = false ∧
      ((s.probeOn q k line).answered = false → (s.probeOn q k line).was = s.present (s.probeOn q k line).line) := by
  cases line with
  | none => exact ⟨rfl, rfl, rfl, fun hans => by cases hans⟩
  | some l => exact ⟨rfl, rfl, rfl, fun _ => rfl⟩

section
variable {s : State} {p : Nat} {e : Decision} (h : Decides s p e)
include h

theorem leaves_probe_again {a : BitVec 4} {k : BitVec 2} (hprobed : e.Probed (e.reg a).toNat k.toNat) :
    Leaves s p e (.probe a k) e.on := by
  have hexec : exec (.probe a k) s = execProbe a k s := rfl
  refine leaves_of_cycleTo h ?_ rfl
  rw [hexec, execProbe, deciding_of h]
  exact if_pos ((e.isSome_probeOf_iff _ _).2 hprobed)

/-- A new probe that must wait stays at its word. -/
theorem leaves_probe_of_hold {a : BitVec 4} {k : BitVec 2} {i : Nat} (hnew : ¬ e.Probed (e.reg a).toNat k.toNat)
    (hhold : e.holdProbe = some i) : Leaves s p e (.probe a k) { e with probeWait := some i } := by
  have hexec : exec (.probe a k) s = execProbe a k s := rfl
  refine leaves_of_cycleTo h ?_ rfl
  rw [hexec, execProbe, deciding_of h]
  simp only [if_neg (mt (e.isSome_probeOf_iff _ _).1 hnew), hhold]

theorem leaves_probe_new {a : BitVec 4} {k : BitVec 2} (hnew : ¬ e.Probed (e.reg a).toNat k.toNat) (hgo : e.holdProbe = none) :
    ∃ line, Leaves s p e (.probe a k)
      { e.on with probes := e.probes ++ [s.probeOn (e.reg a).toNat k.toNat line], probeWait := none } := by
  have hexec : exec (.probe a k) s = execProbe a k s := rfl
  suffices hgoes : ∃ line, exec (.probe a k) s =
      .next (s.cycleTo p { e.on with probes := e.probes ++ [s.probeOn (e.reg a).toNat k.toNat line], probeWait := none }) by
    obtain ⟨line, hline⟩ := hgoes
    exact ⟨line, leaves_of_cycleTo h hline rfl⟩
  rw [hexec, execProbe, deciding_of h]
  simp only [if_neg (mt (e.isSome_probeOf_iff _ _).1 hnew), hgo]
  exact ⟨_, rfl⟩

/-- What a new probe does, by the probes that wait. -/
theorem leaves_probe_cases {a : BitVec 4} {k : BitVec 2} (hnew : ¬ e.Probed (e.reg a).toNat k.toNat) :
    (e.probeWait = none → 32 ≤ e.waiting →
      Leaves s p e (.probe a k) { e with probeWait := some (e.probes.findIdx fun x => !x.answered) }) ∧
    (∀ i, e.probeWait = some i → ¬ e.Answered i → Leaves s p e (.probe a k) { e with probeWait := some i }) ∧
    (((e.probeWait = none ∧ e.waiting < 32) ∨ ∃ i, e.probeWait = some i ∧ e.Answered i) →
      ∃ pr : Probe, pr.queue = (e.reg a).toNat ∧ pr.entry = k.toNat ∧ pr.hit = false ∧
        (pr.answered = false → pr.was = s.present pr.line) ∧
        Leaves s p e (.probe a k) { e.on with probes := e.probes ++ [pr], probeWait := none }) := by
  refine ⟨fun hwait hfull => ?_, fun i hwait hi => ?_, fun hgo => ?_⟩
  · exact leaves_probe_of_hold h hnew (Decision.holdProbe_of_full hwait hfull)
  · exact leaves_probe_of_hold h hnew (Decision.holdProbe_of_unanswered hwait hi)
  · have hhold : e.holdProbe = none := by
      rcases hgo with ⟨hwait, hroom⟩ | ⟨i, hwait, hi⟩
      · exact Decision.holdProbe_of_room hwait hroom
      · exact Decision.holdProbe_of_answered hwait hi
    obtain ⟨line, hleaves⟩ := leaves_probe_new h hnew hhold
    obtain ⟨hqueue, hentry, hhit, hwas⟩ := s.probeOn_fields (e.reg a).toNat k.toNat line
    exact ⟨s.probeOn _ _ line, hqueue, hentry, hhit, hwas, hleaves⟩

end

/-! ### The codes of pcmp (R267) -/

theorem Cond.ofCode_eq_none {n : Nat} (hn : 6 ≤ n) : Cond.ofCode n = none := by
  obtain ⟨m, rfl⟩ := Nat.exists_eq_add_of_le' hn
  rfl

theorem pwForm_error (f : PW) (useD useA useB : Bool) (n : Nat) (z : Illegal) : ∃ z', pwForm f useD useA useB n (.error z) = .error z' := by
  unfold pwForm need
  split
  · exact ⟨z, rfl⟩
  · exact ⟨.reserved, rfl⟩

theorem decodePolicy_pcmp {v : BitVec 32} (hop : v.extractLsb' 26 6 = 0x0B) :
    decodePolicy v = pwForm (PW.unpack v) true true true 3
      (given (Cond.ofCode (PW.unpack v).imm.toNat) .code fun c => .ok (.pcmp c (PW.unpack v).d (PW.unpack v).a (PW.unpack v).b)) := by
  have hopc : (PW.unpack v).opc.toNat = 0x0B := congrArg BitVec.toNat hop
  simp only [decodePolicy, hopc]

theorem unpack_imm_ge_low (v : BitVec 32) : (v.extractLsb' 0 3).toNat ≤ (PW.unpack v).imm.toNat := by
  simp only [PW.unpack, BitVec.extractLsb'_toNat]
  omega

theorem decodePolicy_refuses_pcmp_code {v : BitVec 32} (hop : v.extractLsb' 26 6 = 0x0B) (hcode : 6 ≤ (v.extractLsb' 0 3).toNat) :
    ∃ z, decodePolicy v = .error z := by
  rw [decodePolicy_pcmp hop, Cond.ofCode_eq_none (Nat.le_trans hcode (unpack_imm_ge_low v))]
  exact pwForm_error _ _ _ _ _ _

/-! ### O50 -/

/-- Settles O50: each instruction by the lemma of its group above, all of which rest on that of a decision's cycle. -/
theorem policyInstructions : Obligations.PolicyInstructions := by
  unfold Obligations.PolicyInstructions
  intro s p e a b d imm off n w k c item hcur hrun
  have h : Decides s p e := ⟨hcur, hrun⟩
  intro goes on r puts en firstFrom
  have put (i : Instr) (f : Decision → BitVec 32) (hexec : exec i s = policyPut s d f) : puts i (f e) :=
    leaves_of_policyPut h hexec rfl
  refine ⟨put (.pli d imm) _ rfl, put (.padd d a b) _ rfl, put (.psub d a b) _ rfl, put (.pand d a b) _ rfl, put (.por d a b) _ rfl,
    put (.pshl d a n) _ rfl, put (.pshr d a n) _ rfl, leaves_pmin h d a b, leaves_pmax h d a b, leaves_pcmp_of_holds h d,
    leaves_pcmp_of_not_holds h d, leaves_psel_of_zero h a b, leaves_psel_of_ne_zero h a b, leaves_pbf_of_ne_zero h off,
    fun _ hi ha => leaves_branch_taken h hi ha, leaves_qloop_of_none h d off, fun _ hq => leaves_qloop_of_first h d off hq,
    fun _ hloop => ⟨leaves_qnext_of_none h d hloop, fun _ hq => leaves_qnext_of_first h d hloop hq⟩,
    fun _ hv => leaves_pview_of_value h d hv, leaves_pview_of_waits h d,
    fun x hx hqueue hentry => leaves_probe_again h ⟨x, hx, hqueue, hentry⟩, fun hnew => ?_, leaves_pget h d w,
    leaves_of_policyOp (i := .pkeep a w) h rfl rfl rfl, fun _ hop hcode => decodePolicy_refuses_pcmp_code hop hcode⟩
  exact leaves_probe_cases h fun ⟨x, hx, hprobed⟩ => hnew x hx hprobed

end Sys2Proof.Machine
end
